-- ==== Sys2Proof/Word.lean ====
section
/-! DEFINITION. The word types of the Stolmas S6 (spec/02_thread_machine.md, R32; spec/03_encoding.md, R56). -/

namespace Sys2Proof

/-- A scalar register, an address, a CSR: 64 bits (R32, R37). -/
abbrev Word := BitVec 64

/-- A byte of memory (R27). -/
abbrev Byte := BitVec 8

/-- An instruction word (R56). -/
abbrev Insn := BitVec 32

/-- A vector register (R32). -/
abbrev Vec := BitVec 1024

/-- A guard register, one bit per element (R32). -/
abbrev Guard := BitVec 128

/-- The number of a scalar or vector register (R57). -/
abbrev Reg := Fin 32

/-- The number of a guard register (R64). -/
abbrev GReg := Fin 8

/-- The number of a stream register less 24: `v24` is 0 and `v31` is 7 (R64). -/
abbrev StreamReg := Fin 8

/-- A slot of a tile; slot 0 is the carrier (R162). -/
abbrev Slot := Fin 8

/-- A logical tile of the package: die · 256 + row · 16 + column (R3, R40). -/
abbrev TileId := Nat

end Sys2Proof
end

