-- ==== Sys2Proof/Syntax.lean ====
section
/-! DEFINITION. The instruction set as data: one constructor of `Instr` for each row of spec/opcode_table.json. The first 230 are the words
of spec/03_encoding.md; the other 90 are the part's events, whose arguments say which of the things the state holds the
event is about. -/

namespace Sys2Proof

/-- The precision of FOP32 and FOP64 (R128). -/
inductive Prec where
  | single | double
  deriving DecidableEq, Repr

/-- Rounding codes of R62. -/
inductive Rnd where
  | rne | rtz | rdn | rup | dyn
  deriving DecidableEq, Repr

/-- The conditions of SK and SKI (R109). -/
inductive SkCond where
  | eq | ne | lt | ge | ltn | gen | tst | ntst
  deriving DecidableEq, Repr

/-- The conditions of FSK32 and FSK64 (R109). -/
inductive FskCond where
  | feq | fne | flt | fge | fle | fgt | fun | ford
  deriving DecidableEq, Repr

/-- The conditions of BR (R112). -/
inductive BrCond where
  | eq | ne | lt | ge | ltn | gen
  deriving DecidableEq, Repr

/-- The load types of LD (R115). -/
inductive LdType where
  | i8 | n8 | i16 | n16 | i32 | n32 | i64
  deriving DecidableEq, Repr

/-- The sizes of ST (R115). -/
inductive StSize where
  | b8 | b16 | b32 | b64
  deriving DecidableEq, Repr

/-- The scopes of R61. -/
inductive Scope where
  | tile | cluster | die | package | domain
  deriving DecidableEq, Repr

/-- The size of an ordered, full/empty or atomic form (R262, R265, R267). -/
inductive Size where
  | w64 | w32
  deriving DecidableEq, Repr

/-- The types of FCVT (R63). -/
inductive CvtType where
  | f32 | f64 | bf16 | f16 | i32 | n32 | i64 | n64
  deriving DecidableEq, Repr

/-- The floating element types (R60). -/
inductive FTy where
  | f32 | bf16 | f16
  deriving DecidableEq, Repr

/-- The integer element types (R60). -/
inductive ITy where
  | i32 | i16 | i8
  deriving DecidableEq, Repr

/-- All six element types (R60). -/
inductive ETy where
  | f32 | bf16 | f16 | i32 | i16 | i8
  deriving DecidableEq, Repr

/-- The narrow element types of `vwid` and `vnar` (R146). -/
inductive NTy where
  | bf16 | f16 | i16 | i8
  deriving DecidableEq, Repr

/-- The element types of `vscl` (R146). -/
inductive STy where
  | f32 | bf16 | f16 | i32
  deriving DecidableEq, Repr

/-- The element types of `vgat` and `vsct` (R149). -/
inductive WTy where
  | f32 | i32
  deriving DecidableEq, Repr

/-- The functions of VCMP (R141). -/
inductive VCond where
  | eq | ne | lt | ge | ltn | gen | feq | flt | fle | fun
  deriving DecidableEq, Repr

/-- The block formats of `vq` and `vdq` (R147). -/
inductive BlkSel where
  | sx7 | sx4 | sx2l | sx2h
  deriving DecidableEq, Repr

/-- The register class of the FE forms (R186). -/
inductive RegClass where
  | scalar | vector
  deriving DecidableEq, Repr

/-- The MMA formats, functions 0 to 7 (R65). -/
inductive MmaFmt where
  | bf16 | f16 | sx7 | sx4 | sx2 | i8 | f32x3 | f32x6
  deriving DecidableEq, Repr

/-- The ordering code of `msend` and `msendt` (R204). -/
inductive MsgOrd where
  | plain | rel (sc : Scope)
  deriving DecidableEq, Repr

/-- The order of a redemption (R348). -/
inductive PrmOrd where
  | hdr | strict | arrival
  deriving DecidableEq, Repr

/-- The policy of `prmx` (R344). -/
inductive PrmPolicy where
  | absorb | revert
  deriving DecidableEq, Repr

/-- What `prmq` asks about (R351). -/
inductive PrmSel where
  | promise | header
  deriving DecidableEq, Repr

/-- Where a store has got to on its way home (R245, R246). -/
inductive StoreStage where
  | bank        -- a local store not yet written in its bank
  | egress      -- in the tile's egress queue
  | bridge      -- accepted by the die's bridge egress buffer
  | lace        -- accepted by the Lace egress buffer of the home's package
  | performed   -- written at the home
  deriving DecidableEq, Repr

/-- A channel entry that comes from another package (R399): destination tile and channel, payload, metadata word M, and
timestamp. -/
structure LaceEntry where
  dest : TileId
  chan : Fin 8
  lo   : Word
  hi   : Word
  md   : Word
  ts   : Option Word
  rel  : Option Scope
  deriving DecidableEq, Repr

/-- Where an arriving entry comes from: the tile's list of sent and not yet accepted items, the tile's held completion and
system entries (R211, R369), or another package. -/
inductive MsgSrc where
  | sent (t : TileId) (i : Nat)
  | held (t : TileId)
  | lace (e : LaceEntry)
  deriving DecidableEq, Repr

/-- Where an arriving WAKE comes from (R179). -/
inductive WakeSrc where
  | sent (t : TileId) (i : Nat)
  | lace (dest : TileId) (handle : Word)
  deriving DecidableEq, Repr

/-- What the memory-side agent accepts for a stopped gang, given by its number (R402): an item that one of its tiles has sent, or an entry
or a WAKE from another package. -/
inductive AgentSrc where
  | sent (g : Nat) (t : TileId) (i : Nat)
  | entry (g : Nat) (e : LaceEntry)
  | wake (g : Nat) (dest : TileId) (handle : Word)
  deriving DecidableEq, Repr

/-- A refused item that is sent again (R170, R179, R205, R231). -/
inductive Resend where
  | request (t : TileId) (k : Slot)
  | item (t : TileId) (i : Nat)
  | walk (i : Nat)
  deriving DecidableEq, Repr

/-- Why an engine operation ends in error: the STATUS codes of R309 other than OK. -/
inductive EngErr where
  | fault | last | count | format | cluster | shape | metadata | data
  deriving DecidableEq, Repr

/-- Who consumes an uncorrectable error (R367). -/
inductive ErrUse where
  | load (t : TileId) (k : Slot) (id : Nat)      -- a thread load of a bad word
  | answered (t : TileId) (k : Slot)             -- an answered form of a bad word
  | acrd (t : TileId) (id : Nat)                 -- an `acrd` of a bad cell
  | store (t : TileId) (id : Nat)                -- a store covering part of a bad word
  | engine (t : TileId) (id : Nat)               -- an engine operation reading a bad word or cell
  | line (t : TileId) (va : Nat)                 -- a bad instruction-cache line, by an address in it
  | thread (t : TileId) (k : Slot)               -- a bad register, CSR or fetched instruction
  deriving DecidableEq, Repr

/-- What a tree step brings from another package (R407): the contribution of the tile of a rank, with its operation's
function and control word, or that its read failed. -/
structure TreePart where
  rank : Nat
  fn   : Nat
  ctl  : Word
  ok   : Bool
  data : List Byte
  deriving DecidableEq, Repr

/-- The channels of the tree on which the packages of a gang combine in steps (R301, R407). -/
inductive TreeChan where
  | data | barrier
  deriving DecidableEq, Repr

/-- A level of the k-th operation on a channel of the tree (R407). -/
structure TreeLevel where
  chan  : TreeChan
  k     : Nat
  level : Nat
  deriving DecidableEq, Repr

/-- A part of a load: the piece that one home answers (R152). -/
structure LoadPart where
  id   : Nat
  part : Nat
  deriving DecidableEq, Repr

/-- Where a chunk boundary comes; `gap` says that the start of the chunk is delayed by a chunk time (R422). -/
structure ChunkStart where
  tile : TileId
  gap  : Bool
  deriving DecidableEq, Repr

/-- A flit that a bridge sends again; `again` says that it is the one that failed last (R388). -/
structure FlitReplay where
  bridge : Fin 11
  again  : Bool
  deriving DecidableEq, Repr

/-- What bring-up meets: the image, and the logical tiles that fail their first test (R426, R428). -/
structure BootRun where
  image : List Byte
  fails : List TileId
  deriving DecidableEq, Repr

/-- A step of the carrier on a dispatched copy or drain (R283 step 4): the request for the translation of its i-th page, or the addresses
of its g-th piece. -/
inductive GenStep where
  | page (i : Nat)
  | piece (g : Nat)
  deriving DecidableEq, Repr

/-- What a placement agent does (R396): it reserves a gang's tiles, or releases them for an older gang that has met it in another package,
whose AGE is given, or gives the gang up because another package has refused its launch (R54, R395). -/
inductive PlaceAct where
  | reserve
  | release (older : Word)
  | refuse
  deriving DecidableEq, Repr

/-- A home that system software declares lost (R404, R406). -/
inductive LostHome where
  | die (d : Fin 8)
  | package (p : Nat)
  deriving DecidableEq, Repr

/-- A host access of HBM through CXL.mem (R416). -/
inductive CxlOp where
  | read (pa : BitVec 40) (n : Nat)
  | write (pa : BitVec 40) (bytes : List Byte)
  deriving DecidableEq, Repr

/-- Where a register without a row of its own lies: in device space (R214), in a host window through BAR0 (R411), or in BAR4
(R423), the last two as offsets; and a read of such a register by the host, which writes nothing. -/
inductive RegPlace where
  | device (a : Word)
  | bar0 (off : Nat)
  | bar4 (off : Nat)
  | readBar0 (off : Nat)
  | readBar4 (off : Nat)
  deriving DecidableEq, Repr

/-- The instructions and events of the Stolmas S6: one constructor for each row of spec/opcode_table.json. Register
arguments stand in the order of the assembly form (R11): destination, then a, b, c. -/
inductive Instr where
  -- OPI (R102, R103)
  | add (d a b : Reg) | sub (d a b : Reg) | and (d a b : Reg) | or (d a b : Reg) | xor (d a b : Reg)
  | sll (d a b : Reg) | srl (d a b : Reg) | sra (d a b : Reg) | slt (d a b : Reg) | sltn (d a b : Reg)
  | min (d a b : Reg) | max (d a b : Reg) | minn (d a b : Reg) | maxn (d a b : Reg)
  | mul (d a b : Reg) | mulh (d a b : Reg) | mulhn (d a b : Reg)
  | div (d a b : Reg) | divn (d a b : Reg) | rem (d a b : Reg) | remn (d a b : Reg)
  | rot (d a b : Reg) | clz (d a : Reg) | ctz (d a : Reg) | popc (d a : Reg) | sel (d a b c : Reg)
  -- IMMI, LUI, ADPC, BITF (R105-R107)
  | addi (d a : Reg) (i : BitVec 12) | andi (d a : Reg) (i : BitVec 12) | ori (d a : Reg) (i : BitVec 12)
  | xori (d a : Reg) (i : BitVec 12) | slti (d a : Reg) (i : BitVec 12) | sltni (d a : Reg) (i : BitVec 12)
  | slli (d a : Reg) (h : BitVec 6) | srli (d a : Reg) (h : BitVec 6) | srai (d a : Reg) (h : BitVec 6)
  | lui (d : Reg) (i : BitVec 20) | adpc (d : Reg) (i : BitVec 20)
  /- p is the position and l the length less one (R59). -/
  | ext (d a : Reg) (p l : BitVec 6) | extn (d a : Reg) (p l : BitVec 6) | ins (d a : Reg) (p l : BitVec 6)
  -- SK, SKI, FSK32, FSK64 (R108); n is the skip count
  | sk (c : SkCond) (n : BitVec 2) (a b : Reg) | ski (c : SkCond) (n : BitVec 2) (a : Reg) (i : BitVec 15)
  | fsk (c : FskCond) (n : BitVec 2) (a b : Reg) | fskd (c : FskCond) (n : BitVec 2) (a b : Reg)
  -- LD, ST (R115)
  | ld (t : LdType) (d a : Reg) (i : BitVec 12) | st (z : StSize) (b a : Reg) (i : BitVec 12)
  -- LDX, STX (R262, R265)
  | ldAcq (z : Size) (sc : Scope) (d a : Reg)
  | ldfe64 (d a : Reg) | ldff64 (d a : Reg) | ldfe32 (d a : Reg) | ldff32 (d a : Reg)
  | stRel (z : Size) (sc : Scope) (b a : Reg) | stef (z : Size) (b a : Reg) | stff (z : Size) (b a : Reg) | ste (a : Reg)
  -- ATOM (R267)
  | arsv (z : Size) (d a : Reg) | arel (z : Size) (b a : Reg)
  | aadd (z : Size) (d a b : Reg) | amin (z : Size) (d a b : Reg) | amax (z : Size) (d a b : Reg)
  | aminn (z : Size) (d a b : Reg) | amaxn (z : Size) (d a b : Reg) | aand (z : Size) (d a b : Reg)
  | aor (z : Size) (d a b : Reg) | axor (z : Size) (d a b : Reg) | axchg (z : Size) (d a b : Reg)
  | acas (z : Size) (d a b c : Reg) | aaddf (z : Size) (d a b : Reg)
  -- FENCE (R273), WAIT (R124)
  | fence (sc : Scope) | fenceLd (sc : Scope) | fenceSt (sc : Scope) | xfence (sc : Scope) | fenceI
  | wait (tl cp st ld : BitVec 4)
  -- BR, JL, JLR (R112-R114)
  | br (c : BrCond) (a b : Reg) (i : BitVec 10) | jl (d : Reg) (i : BitVec 20) | jlr (d a : Reg) (i : BitVec 12)
  -- CSR (R121)
  | csrr (d : Reg) (n : BitVec 12) | csrw (d : Reg) (n : BitVec 12) (a : Reg)
  | csrs (d : Reg) (n : BitVec 12) (a : Reg) | csrc (d : Reg) (n : BitVec 12) (a : Reg)
  -- SYS (R359)
  | sys (n : BitVec 5) | eret | brk (n : BitVec 5) | tkill (a : Reg) | pair (d a : Reg) | unpair | fprt
  | mxfrz | mxthaw | scrub (a : Reg)
  -- FOP32, FOP64 (R128)
  | fadd (p : Prec) (r : Rnd) (d a b : Reg) | fsub (p : Prec) (r : Rnd) (d a b : Reg)
  | fmul (p : Prec) (r : Rnd) (d a b : Reg) | fdiv (p : Prec) (r : Rnd) (d a b : Reg)
  | fsqrt (p : Prec) (r : Rnd) (d a : Reg)
  | fmin (p : Prec) (d a b : Reg) | fmax (p : Prec) (d a b : Reg)
  | fsgnj (p : Prec) (d a b : Reg) | fsgnjn (p : Prec) (d a b : Reg) | fsgnjx (p : Prec) (d a b : Reg)
  | fma (p : Prec) (d a b c : Reg) | fms (p : Prec) (d a b c : Reg) | fnma (p : Prec) (d a b c : Reg)
  | fclass (p : Prec) (d a : Reg) | feq (p : Prec) (d a b : Reg) | flt (p : Prec) (d a b : Reg) | fle (p : Prec) (d a b : Reg)
  -- FCVT (R130): saturation, rounding, destination type, source type
  | fcvt (w : Bool) (r : Rnd) (c b : CvtType) (d a : Reg)
  -- VOPF (R138)
  | vaddF (t : FTy) (g : GReg) (d a b : Reg) | vsubF (t : FTy) (g : GReg) (d a b : Reg)
  | vmulF (t : FTy) (g : GReg) (d a b : Reg) | vfma (t : FTy) (g : GReg) (d a b : Reg)
  | vfms (t : FTy) (g : GReg) (d a b : Reg) | vminF (t : FTy) (g : GReg) (d a b : Reg)
  | vmaxF (t : FTy) (g : GReg) (d a b : Reg) | vabsF (t : FTy) (g : GReg) (d a : Reg)
  | vneg (t : FTy) (g : GReg) (d a : Reg) | vrcp (t : FTy) (g : GReg) (d a : Reg)
  | vrsq (t : FTy) (g : GReg) (d a : Reg) | vexp2 (t : FTy) (g : GReg) (d a : Reg) | vlog2 (t : FTy) (g : GReg) (d a : Reg)
  -- VOPI (R140)
  | vaddI (t : ITy) (g : GReg) (d a b : Reg) | vsubI (t : ITy) (g : GReg) (d a b : Reg)
  | vmulI (t : ITy) (g : GReg) (d a b : Reg) | vmulh (t : ITy) (g : GReg) (d a b : Reg)
  | vminI (t : ITy) (g : GReg) (d a b : Reg) | vmaxI (t : ITy) (g : GReg) (d a b : Reg)
  | vminn (t : ITy) (g : GReg) (d a b : Reg) | vmaxn (t : ITy) (g : GReg) (d a b : Reg)
  | vand (t : ITy) (g : GReg) (d a b : Reg) | vor (t : ITy) (g : GReg) (d a b : Reg)
  | vxor (t : ITy) (g : GReg) (d a b : Reg) | vsll (t : ITy) (g : GReg) (d a b : Reg)
  | vsrl (t : ITy) (g : GReg) (d a b : Reg) | vsra (t : ITy) (g : GReg) (d a b : Reg)
  | vabsI (t : ITy) (g : GReg) (d a : Reg) | vadds (t : ITy) (g : GReg) (d a b : Reg)
  -- VCMP (R141)
  | vcmp (f : VCond) (t : ETy) (g d : GReg) (a b : Reg)
  -- VMOV (R142)
  | vmov (t : ETy) (g : GReg) (d a : Reg) | vsel (t : ETy) (g : GReg) (d a b : Reg) | vbcast (t : ETy) (g : GReg) (d a : Reg)
  | vextr (t : ETy) (d a b : Reg) | vins (t : ETy) (d a b : Reg) | vperm (t : ETy) (g : GReg) (d a b : Reg)
  | vrot (t : ETy) (g : GReg) (d a b : Reg)
  -- VRED (R144)
  | vredAdd (t : ETy) (g : GReg) (d a : Reg) | vredMax (t : ETy) (g : GReg) (d a : Reg) | vredMin (t : ETy) (g : GReg) (d a : Reg)
  | vscanAdd (t : ETy) (g : GReg) (d a : Reg) | vscanAff (g : GReg) (d a : Reg) | vamax (t : FTy) (g : GReg) (d a : Reg)
  -- VCVT (R146-R148)
  | vwid (t : NTy) (g : GReg) (d a : Reg) | vnar (t : NTy) (g : GReg) (d a b : Reg) | vscl (t : STy) (g : GReg) (d a b : Reg)
  | vq (t : BlkSel) (g : GReg) (d a b : Reg) | vdq (t : BlkSel) (g : GReg) (d a b : Reg)
  -- VMEM (R149)
  | vld (t : ETy) (g : GReg) (d a : Reg) | vst (t : ETy) (g : GReg) (d a : Reg)
  | vgat (t : WTy) (g : GReg) (d a b : Reg) | vsct (t : WTy) (g : GReg) (d a b : Reg) | vldb (t : ETy) (g : GReg) (d a : Reg)
  -- GMASK (R153)
  | gand (d a b : GReg) | gor (d a b : GReg) | gxor (d a b : GReg) | gnot (d a : GReg)
  | gpop (d : Reg) (a : GReg) | gfirst (d : Reg) (a : GReg) | gmov (d : Reg) (a : GReg) (h : Bool) | gset (d : GReg) (a b : Reg)
  -- STRM (R155)
  | sbindMem (d : StreamReg) (a b c : Reg) | sbindCh (d : StreamReg) (a : Reg) | sbindOut (d : StreamReg) (a b : Reg)
  | sunbind (d : StreamReg) | sstat (d : Reg) (a : StreamReg)
  -- FE (R186)
  | fef (c : RegClass) (d : Reg) | fee (c : RegClass) (d : Reg) | feqReg (c : RegClass) (d a : Reg)
  -- MON (R188)
  | marm (a : Reg) (e : Fin 4) | mdis (m : BitVec 4) | mslp (d a : Reg) | wadr (d a b c : Reg)
  -- BAR (R192)
  | barReg (a : Reg) | barArr (d : Reg) | barWait | barArw (d : Reg)
  -- TASK (R194)
  | tqpush (a : Reg) | tqpop (d : Reg) | tqpopNb (d : Reg) | tqpeek (d : Reg) | texit | tyield
  | tmset (d a : Reg) | tlaunch (a b : Reg)
  -- MSG (R204)
  | msend (o : MsgOrd) (a b : Reg) | mrecv (d a c : Reg) | mwait (d a b : Reg) | mpeek (d a : Reg) (n : Fin 3)
  | msendt (o : MsgOrd) (a b : Reg) | mcfg (a b : Reg)
  -- CPY (R310)
  | cpy (d a b c : Reg) | cpyt (d a b c : Reg) | cpym (d a b c : Reg) | cpyf (z : Size) (a b : Reg) | cpyq (d a : Reg)
  -- MMA (R316)
  | mma (f : MmaFmt) (a b c : Reg) | mmaSp (f : MmaFmt) (a b c d : Reg)
  -- ACC (R323)
  | acz (a : Reg) | acld (a b : Reg) | acst (a b : Reg) | adrn (d a b c : Reg) | acrd (d a : Reg) | acwr (b a : Reg)
  -- TREE (R328)
  | tredAdd (a b c : Reg) | tredMax (a b c : Reg) | tredMin (a b c : Reg) | tscanAdd (a b c : Reg) | tscanAff (a b c : Reg) | tbar
  -- CCV (R333)
  | ccv (a b c : Reg) | ccvq (a b c d : Reg)
  -- PRM (R348)
  | prmi (d a b : Reg) | prmr (o : PrmOrd) (a b : Reg) | prmx (o : PrmOrd) (p : PrmPolicy) (a : Reg)
  | prmq (h : PrmSel) (d a : Reg) | wupd (a b : Reg)
  -- NB (R276)
  | nbpost (d a b c : Reg) | nbview (d a c : Reg) | nbadv (d a b : Reg) | nbinit (d a b c : Reg)
  -- Events of threads, memory and homes
  | annulledWord (t : TileId) (k : Slot)
  | resultLand (t : TileId) (k : Slot) (i : Nat)
  | loadFill (t : TileId) (k : Slot) (r : LoadPart)
  | storeAck (t : TileId) (id : Nat) (nxt : StoreStage)
  | releaseLeaves (t : TileId) (id : Nat)
  | homeAccess (t : TileId) (k : Slot)
  | answer (t : TileId) (k : Slot)
  | refusedResend (r : Resend)
  | withdrawal (t : TileId) (k : Slot)
  | withdrawalConfirm (t : TileId) (k : Slot)
  | monitorNotice (t : TileId) (k : Slot) (e : Fin 4)
  | mslpTimeout (t : TileId) (k : Slot)
  | wadrTimeout (t : TileId) (k : Slot)
  | barrierComplete (t : TileId)
  | gangBarrierComplete (g : Nat)
  | wake (src : WakeSrc)
  | channelAccept (src : MsgSrc)
  /- `rest` is the least value that the gang's other packages contribute (R391). -/
  | horizonRound (g : Nat) (rest : Word)
  | horizonPublish (t : TileId) (j : Nat)
  | streamFetch (t : TileId) (k : Slot) (r : StreamReg)
  | streamWrite (t : TileId) (k : Slot) (r : StreamReg)
  | streamElementAck (t : TileId) (k : Slot) (r : StreamReg)
  -- Events of the carrier and the engines
  | carrierAccept (t : TileId)
  | fretboardEnter (t : TileId)
  | dispatch (t : TileId) (id : Nat)
  | addressGeneration (t : TileId) (id : Nat) (g : GenStep)
  | readDone (t : TileId) (id : Nat)
  | operationComplete (t : TileId) (id : Nat)
  | errorCompletion (t : TileId) (id : Nat) (e : EngErr)
  | stagingCommit (i : Nat)
  | groupBroadcast (t : TileId) (id : Nat) (m : TileId)
  | treeResult (g : Nat)
  /- The step of a level arrives, with its parts on the data channel, or is lost (R407). -/
  | treeStep (g : Nat) (l : TreeLevel) (parts : Option (List TreePart))
  | weltApply (t : TileId)
  | kChunkBoundary (c : ChunkStart)
  -- Translation and device registers
  | translationWalk (die station : Nat) (pid : BitVec 16) (page : BitVec 36)
  | pdbase (v : Word)
  | inval (v : Word)
  | resume (v : Word)
  | bankFormatWrite (t : TileId) (n : Fin 16) (v : Word)
  | headerStore (t : TileId) (k : Fin 16) (off : Fin 64) (bytes : List Byte)
  | bindingRecordStore (t : TileId) (k : Slot) (r : StreamReg) (v : Word)
  | watchpointControlWrite (t : TileId) (j : Fin 2) (v : Word)
  | registerWrite (p : RegPlace) (v : Word)
  -- Traps, errors, pairing, debug
  | timer (t : TileId) (k : Slot)
  | rsvTimeout (t : TileId) (k : Slot)
  | trapEntry (t : TileId) (k : Slot)
  | uncorrectableError (u : ErrUse)
  | pairCopyDone (t : TileId)
  | intervalEnd (t : TileId) (odd : BitVec 64)
  | debugHalt (die : Nat)
  | debugResume (die : Nat)
  -- Gangs
  | preempt (g : Nat)
  | deadlineStop (g : Nat)
  | stoppedGangDelivery (src : AgentSrc)
  | placement (g : Nat) (act : PlaceAct)
  | placementConfirm (g : Nat)
  | launchTick (g : Nat)
  -- Dies, bridges, Lace
  | bridgeReplay (f : FlitReplay)
  | bridgeRetrain (b : Fin 11)
  | retrainingEnd (b : Fin 11) (ok : Bool)
  /- `lost` are the packages that no route reaches any more: the Lace node of each, and its number in the load-store domain if it is in it
  (R401). -/
  | portFailure (p : Fin 24) (lost : List (Nat × Option Nat))
  | laceRetransmit (p : Fin 24)
  | homeLost (h : LostHome)
  /- `fails` names the logical tiles that fail; none is a pass (R408, R409). -/
  | inFieldTest (die cluster : Nat) (fails : List TileId)
  -- The host
  | doorbell (w : Fin 24) (v : Word)
  | launch (w : Fin 24) | copy (w : Fin 24) | read (w : Fin 24) | write (w : Fin 24) | hostFence (w : Fin 24)
  | stop (w : Fin 24) | resumeGang (w : Fin 24) | gangEnd (w : Fin 24)
  | doneClear (w : Fin 24) (m : Byte)
  | bar2Write (pa : BitVec 40) (bytes : List Byte)
  | bar2Read (pa : BitVec 40) (n : Nat)
  | cxlMemAccess (op : CxlOp)
  | dmodeWrite (v : Word)
  | plimWrite (v : Word)
  -- Power, lifetime, security
  | arbiterPeriod (grants : List Nat)
  | thermalThrottle (die : Nat) (hot : Bool)
  | thermalStop (die : Nat)
  | supplyDroop (die : Nat)
  | wearLogFlush
  | powerOn (b : BootRun)
  | powerLoss
  | reload (b : BootRun)
  | attestRequest
  | attestReport
  deriving DecidableEq, Repr

end Sys2Proof
end

