-- ==== Sys2Proof/Machine/Fp.lean ====
section
/-! DEFINITION. Number formats, rounding and exact arithmetic (spec/04_number_formats.md; R25, R26, R77-R97, R129, R139).
A finite value is a sign, a natural number and an exponent, so every sum and product is exact; one function rounds. -/

namespace Sys2Proof.Machine

/-- An IEEE binary format: exponent bits and fraction bits (R77). -/
structure Fmt where
  eb : Nat
  fb : Nat
  deriving DecidableEq, Repr

/-- The formats of R77. -/
def f64 : Fmt := ⟨11, 52⟩
def f32 : Fmt := ⟨8, 23⟩
def bf16 : Fmt := ⟨8, 7⟩
def f16 : Fmt := ⟨5, 10⟩

/-- A rounding mode once `dyn` has been read (R62). -/
inductive RMode where
  | rne | rtz | rdn | rup
  deriving DecidableEq, Repr

/-- The five IEEE flags of R26. -/
structure FFlags where
  nv : Bool
  dz : Bool
  of : Bool
  uf : Bool
  nx : Bool
  deriving DecidableEq, Repr

/-- No flag. -/
def FFlags.none : FFlags := ⟨false, false, false, false, false⟩

/-- Flags are gathered (R26). -/
def FFlags.or (a b : FFlags) : FFlags := ⟨a.nv || b.nv, a.dz || b.dz, a.of || b.of, a.uf || b.uf, a.nx || b.nx⟩

/-- The flags in bits [4:0] of `fpcsr` and `vstat` (R44). -/
def FFlags.bits (x : FFlags) : BitVec 64 :=
  (if x.nv then 16 else 0) ||| (if x.dz then 8 else 0) ||| (if x.of then 4 else 0) ||| (if x.uf then 2 else 0) |||
    (if x.nx then 1 else 0)

/-- A value of a floating format: `fin neg m e` is (-1)^neg · m · 2^e, and m = 0 is a signed zero. -/
inductive FVal where
  | nan
  | inf (neg : Bool)
  | fin (neg : Bool) (m : Nat) (e : Int)
  deriving DecidableEq, Repr

/-- An exact result before its rounding: a NaN with whether it is invalid, an infinity with whether it divides by zero, or a
number (-1)^neg · (m + ε) · 2^e with 0 < ε < 1 exactly when `sticky`. -/
inductive Exact where
  | nan (nv : Bool)
  | inf (neg dz : Bool)
  | num (neg : Bool) (m : Nat) (e : Int) (sticky : Bool)
  deriving DecidableEq, Repr

def Fmt.bias (f : Fmt) : Int := 2 ^ (f.eb - 1) - 1
/-- The exponent of the least normal number. -/
def Fmt.emin (f : Fmt) : Int := 1 - f.bias
def Fmt.width (f : Fmt) : Nat := 1 + f.eb + f.fb
def Fmt.signBit (f : Fmt) (neg : Bool) : Nat := if neg then 2 ^ (f.eb + f.fb) else 0
/-- The infinity of a sign. -/
def Fmt.infBits (f : Fmt) (neg : Bool) : Nat := f.signBit neg + (2 ^ f.eb - 1) * 2 ^ f.fb
/-- The canonical quiet NaN (R77, R78). -/
def Fmt.nanBits (f : Fmt) : Nat := (2 ^ f.eb - 1) * 2 ^ f.fb + 2 ^ (f.fb - 1)
/-- The largest finite magnitude of a sign. -/
def Fmt.maxBits (f : Fmt) (neg : Bool) : Nat := f.signBit neg + (2 ^ f.eb - 1) * 2 ^ f.fb - 1
/-- The zero of a sign. -/
def Fmt.zeroBits (f : Fmt) (neg : Bool) : Nat := f.signBit neg

def Fmt.expField (f : Fmt) (x : Nat) : Nat := x / 2 ^ f.fb % 2 ^ f.eb
def Fmt.fracField (f : Fmt) (x : Nat) : Nat := x % 2 ^ f.fb
def Fmt.negField (f : Fmt) (x : Nat) : Bool := x / 2 ^ (f.eb + f.fb) % 2 = 1
def Fmt.isNan (f : Fmt) (x : Nat) : Bool := f.expField x = 2 ^ f.eb - 1 && f.fracField x ≠ 0
def Fmt.isInf (f : Fmt) (x : Nat) : Bool := f.expField x = 2 ^ f.eb - 1 && f.fracField x = 0
def Fmt.isZero (f : Fmt) (x : Nat) : Bool := f.expField x = 0 && f.fracField x = 0
def Fmt.isSub (f : Fmt) (x : Nat) : Bool := f.expField x = 0 && f.fracField x ≠ 0

/-- The value of a bit pattern (R77); subnormals are kept (R78). -/
def Fmt.unpack (f : Fmt) (x : Nat) : FVal :=
  if f.isNan x then .nan
  else if f.isInf x then .inf (f.negField x)
  else if f.expField x = 0 then .fin (f.negField x) (f.fracField x) (f.emin - f.fb)
  else .fin (f.negField x) (2 ^ f.fb + f.fracField x) (f.expField x - f.bias - f.fb)

/-- The nearest integer to (m + ε) / 2^k in the mode, and whether it differs. -/
def roundShift (rm : RMode) (neg : Bool) (m k : Nat) (sticky : Bool) : Nat × Bool :=
  let q := m / 2 ^ k
  let r := m % 2 ^ k
  let inexact := r ≠ 0 || sticky
  let up : Bool :=
    match rm with
    | .rne => if k = 0 then false else
        let half := 2 ^ (k - 1)
        decide (half < r) || (r = half && (sticky || q % 2 = 1))
    | .rtz => false
    | .rdn => neg && inexact
    | .rup => !neg && inexact
  (if up then q + 1 else q, inexact)

/-- The result of an overflow (R82). -/
def Fmt.overflow (f : Fmt) (rm : RMode) (neg : Bool) : Nat :=
  match rm with
  | .rne => f.infBits neg
  | .rtz => f.maxBits neg
  | .rdn => if neg then f.infBits neg else f.maxBits neg
  | .rup => if neg then f.maxBits neg else f.infBits neg

/-- `Round(fmt, mode, x)` of a nonzero number (R25), with its flags (R26): underflow when the result is tiny after rounding
and inexact. -/
def Fmt.roundNum (f : Fmt) (rm : RMode) (neg : Bool) (m : Nat) (e : Int) (sticky : Bool) : Nat × FFlags :=
  let top : Int := Nat.log2 m + e
  let q := max (top - f.fb) (f.emin - f.fb)
  let (r, nx) := if q ≤ e then (m * 2 ^ (e - q).toNat, sticky) else roundShift rm neg m (q - e).toNat sticky
  let free := if top - f.fb ≤ e then m * 2 ^ (e - (top - f.fb)).toNat
    else (roundShift rm neg m (top - f.fb - e).toNat sticky).1
  let tiny : Bool := decide ((if free = 2 ^ (f.fb + 1) then top + 1 else top) < f.emin)
  let (r', q') := if r = 2 ^ (f.fb + 1) then (2 ^ f.fb, q + 1) else (r, q)
  if 2 ^ f.fb ≤ r' ∧ f.bias < q' + f.fb then
    (f.overflow rm neg, ⟨false, false, true, false, true⟩)
  else
    let mag := if r' < 2 ^ f.fb then r' else (q' + f.fb + f.bias).toNat * 2 ^ f.fb + (r' - 2 ^ f.fb)
    (f.signBit neg + mag, ⟨false, false, false, tiny && nx, nx⟩)

/-- `Round(fmt, mode, x)` (R25). -/
def Fmt.finish (f : Fmt) (rm : RMode) : Exact → Nat × FFlags
  | .nan nv => (f.nanBits, ⟨nv, false, false, false, false⟩)
  | .inf neg dz => (f.infBits neg, ⟨false, dz, false, false, false⟩)
  | .num neg m e sticky => if m = 0 then (f.zeroBits neg, FFlags.none) else f.roundNum rm neg m e sticky

/-- The signed integer of a number at exponent e0 ≤ e. -/
def scaled (neg : Bool) (m : Nat) (e e0 : Int) : Int :=
  let x : Int := (m * 2 ^ (e - e0).toNat : Nat)
  if neg then -x else x

/-- A sum of two numbers (R129): an exact zero sum keeps the common sign of two zeros, and otherwise is +0, or -0 in rdn. -/
def addNum (rm : RMode) (n1 : Bool) (m1 : Nat) (e1 : Int) (n2 : Bool) (m2 : Nat) (e2 : Int) : Exact :=
  let e0 := min e1 e2
  let s := scaled n1 m1 e1 e0 + scaled n2 m2 e2 e0
  if s = 0 then .num (if m1 = 0 ∧ m2 = 0 ∧ n1 = n2 then n1 else rm = .rdn) 0 0 false
  else .num (s < 0) s.natAbs e0 false

/-- x + y (R79, R129). -/
def addV (rm : RMode) : FVal → FVal → Exact
  | .nan, _ | _, .nan => .nan false
  | .inf a, .inf b => if a = b then .inf a false else .nan true
  | .inf a, .fin .. | .fin .., .inf a => .inf a false
  | .fin n1 m1 e1, .fin n2 m2 e2 => addNum rm n1 m1 e1 n2 m2 e2

/-- The sign operation on a value. -/
def FVal.neg : FVal → FVal
  | .nan => .nan
  | .inf n => .inf !n
  | .fin n m e => .fin (!n) m e

/-- The magnitude of a value. -/
def FVal.abs : FVal → FVal
  | .nan => .nan
  | .inf _ => .inf false
  | .fin _ m e => .fin false m e

/-- x · y (R79): 0 × ∞ is invalid. -/
def mulV : FVal → FVal → Exact
  | .nan, _ | _, .nan => .nan false
  | .inf a, .inf b => .inf (a != b) false
  | .inf a, .fin n m _ | .fin n m _, .inf a => if m = 0 then .nan true else .inf (a != n) false
  | .fin n1 m1 e1, .fin n2 m2 e2 => .num (n1 != n2) (m1 * m2) (e1 + e2) false

/-- x · y + z with one rounding (R26, R79): 0 × ∞ is invalid whatever the addend. -/
def fmaV (rm : RMode) (x y z : FVal) : Exact :=
  match mulV x y with
  | .nan nv => .nan nv
  | .inf n _ => addV rm (.inf n) z
  | .num n m e _ => addV rm (.fin n m e) z

/-- x ÷ y (R129). -/
def divV : FVal → FVal → Exact
  | .nan, _ | _, .nan => .nan false
  | .inf _, .inf _ => .nan true
  | .inf a, .fin n _ _ => .inf (a != n) false
  | .fin n _ _, .inf b => .num (n != b) 0 0 false
  | .fin n1 m1 e1, .fin n2 m2 e2 =>
    if m2 = 0 then (if m1 = 0 then .nan true else .inf (n1 != n2) true)
    else if m1 = 0 then .num (n1 != n2) 0 0 false
    else
      let s : Nat := Nat.log2 m2 + 70 - Nat.log2 m1
      .num (n1 != n2) (m1 * 2 ^ s / m2) (e1 - e2 - s) (m1 * 2 ^ s % m2 ≠ 0)

/-- Digit by digit square root: bits i-1 down to 0 of the root of n above r. -/
def isqrtLoop (n : Nat) : Nat → Nat → Nat
  | 0, r => r
  | i + 1, r => isqrtLoop n i (if (r + 2 ^ i) * (r + 2 ^ i) ≤ n then r + 2 ^ i else r)

/-- The integer part of the square root of n. -/
def isqrt (n : Nat) : Nat := isqrtLoop n (Nat.log2 n / 2 + 1) 0

/-- √x (R79, R129): below -0 is invalid; √-0 is -0. -/
def sqrtV : FVal → Exact
  | .nan => .nan false
  | .inf n => if n then .nan true else .inf false false
  | .fin n m e =>
    if m = 0 then .num n 0 0 false
    else if n then .nan true
    else
      let (m1, e1) := if e % 2 = 0 then (m, e) else (2 * m, e - 1)
      let k : Nat := 70
      let r := isqrt (m1 * 2 ^ (2 * k))
      .num false r (e1 / 2 - k) (r * r ≠ m1 * 2 ^ (2 * k))

/-- 1 ÷ x (R139). -/
def rcpV (x : FVal) : Exact := divV (.fin false 1 0) x

/-- 1 ÷ √x (R139): ±0 divides by zero; below -0 is invalid. -/
def rsqV : FVal → Exact
  | .nan => .nan false
  | .inf n => if n then .nan true else .num false 0 0 false
  | .fin n m e =>
    if m = 0 then .inf n true
    else if n then .nan true
    else
      let (m1, e1) := if e % 2 = 0 then (m, e) else (2 * m, e - 1)
      let s : Nat := Nat.log2 m1 + 70
      let r := isqrt (2 ^ (2 * s) / m1)
      .num false r (-(e1 / 2) - s) (r * r * m1 ≠ 2 ^ (2 * s))

/-- The fixed-point precision of the transcendental helpers, in bits. -/
def fixBits : Nat := 256

/-- ln 2 at `fixBits` bits, as the sum of 1 / (k · 2^k). -/
def ln2Loop : Nat → Nat
  | 0 => 0
  | k + 1 => ln2Loop k + 2 ^ fixBits / ((k + 1) * 2 ^ (k + 1))
def ln2Fix : Nat := ln2Loop 260

/-- The sum of t^j / j! from j = n on, `fuel` terms, with the running term. -/
def expLoop (t : Nat) : Nat → Nat → Nat → Nat
  | 0, _, _ => 0
  | fuel + 1, n, term => term + expLoop t fuel (n + 1) (term * t / 2 ^ fixBits / (n + 1))

/-- 2^x (R139): the exact value, by its integer and fractional parts; an integer x is exact. The fraction's power is formed to
`fixBits` bits. UNVERIFIED (log 11): that no f32, bf16 or f16 operand lies closer to a rounding boundary than these bits. -/
def exp2V : FVal → Exact
  | .nan => .nan false
  | .inf n => if n then .num false 0 0 false else .inf false false
  | .fin n m e =>
    if m = 0 then .num false 1 0 false
    else if 12 ≤ (Nat.log2 m : Int) + e then .num false (2 ^ 80) (if n then -6000 else 6000) true
    else
      let x : Int := if 0 ≤ e then scaled n m e 0 * 2 ^ fixBits else
        if (-e).toNat ≤ fixBits then scaled n m 0 0 * 2 ^ (fixBits - (-e).toNat) else (if n then -1 else 0)
      let i := x / 2 ^ fixBits
      let fr := (x % 2 ^ fixBits).toNat
      if fr = 0 then .num false 1 i false
      else .num false (expLoop (fr * ln2Fix / 2 ^ fixBits) 70 0 (2 ^ fixBits)) (i - fixBits) true

/-- The next k bits of log2 y, y in [1, 2) at 512 bits: squaring doubles the logarithm. -/
def log2Loop : Nat → Nat → Nat → Nat
  | 0, _, acc => acc
  | k + 1, y, acc =>
    let y2 := y * y / 2 ^ 512
    if 2 ^ 513 ≤ y2 then log2Loop k (y2 / 2) (2 * acc + 1) else log2Loop k y2 (2 * acc)

/-- log2 x (R139): ±0 divides by zero; below -0 is invalid; a power of two is exact. UNVERIFIED (log 11), as `exp2V`. -/
def log2V : FVal → Exact
  | .nan => .nan false
  | .inf n => if n then .nan true else .inf false false
  | .fin n m e =>
    if m = 0 then .inf true true
    else if n then .nan true
    else
      let l := Nat.log2 m
      let i : Int := l + e
      if m = 2 ^ l then .num (i < 0) i.natAbs 0 false
      else
        let t : Int := i * 2 ^ 140 + log2Loop 140 (m * 2 ^ (512 - l)) 0
        if 0 ≤ t then .num false t.toNat (-140) true else .num true (t.natAbs - 1) (-140) true

/-- x · 2^k (R146). -/
def scaleV (k : Int) : FVal → Exact
  | .nan => .nan false
  | .inf n => .inf n false
  | .fin n m e => .num n m (e + k) false

/-- A value as an exact result. -/
def FVal.exact : FVal → Exact
  | .nan => .nan false
  | .inf n => .inf n false
  | .fin n m e => .num n m e false

/-- Order keys of a pattern that is no NaN: -0 and +0 equal (R109). -/
def Fmt.key (f : Fmt) (x : Nat) : Int :=
  let mag : Int := (x % 2 ^ (f.eb + f.fb) : Nat)
  if f.negField x then -mag else mag
/-- Order keys with -0 below +0 (R80). -/
def Fmt.keyMin (f : Fmt) (x : Nat) : Int :=
  let mag : Int := (x % 2 ^ (f.eb + f.fb) : Nat)
  if f.negField x then -mag - 1 else mag

/-- Floating minimum and maximum (R80). -/
def Fmt.minB (f : Fmt) (x y : Nat) : Nat :=
  if f.isNan x then (if f.isNan y then f.nanBits else y)
  else if f.isNan y then x
  else if f.keyMin y < f.keyMin x then y else x
def Fmt.maxB (f : Fmt) (x y : Nat) : Nat :=
  if f.isNan x then (if f.isNan y then f.nanBits else y)
  else if f.isNan y then x
  else if f.keyMin x < f.keyMin y then y else x

/-- Ordered comparisons (R109): false when either is a NaN. -/
def Fmt.eqB (f : Fmt) (x y : Nat) : Bool := !f.isNan x && !f.isNan y && f.key x = f.key y
def Fmt.ltB (f : Fmt) (x y : Nat) : Bool := !f.isNan x && !f.isNan y && decide (f.key x < f.key y)
def Fmt.leB (f : Fmt) (x y : Nat) : Bool := !f.isNan x && !f.isNan y && decide (f.key x ≤ f.key y)
def Fmt.unordered (f : Fmt) (x y : Nat) : Bool := f.isNan x || f.isNan y

/-- The bits with the sign set or cleared, the magnitude kept (R129, R138). -/
def Fmt.withSign (f : Fmt) (x : Nat) (neg : Bool) : Nat := x % 2 ^ (f.eb + f.fb) + f.signBit neg

/-- The class number k of `fclass` (R129). -/
def Fmt.classOf (f : Fmt) (x : Nat) : Nat :=
  if f.isNan x then 8
  else match f.negField x with
    | true => if f.isInf x then 0 else if f.isZero x then 3 else if f.isSub x then 2 else 1
    | false => if f.isInf x then 7 else if f.isZero x then 4 else if f.isSub x then 5 else 6

/-- A floating value rounded to an integer in the mode; none for a NaN or an infinity. -/
def FVal.toInt (rm : RMode) : FVal → Option (Int × Bool)
  | .nan | .inf _ => none
  | .fin n m e =>
    if 0 ≤ e then some (scaled n m e 0, false)
    else
      let (q, nx) := roundShift rm n m (-e).toNat false
      some (if n then -(q : Int) else q, nx)

/-- Floating to integer between lo and hi (R82, R83): NaN, +∞ and positive overflow give the maximum, the others the minimum,
with NV; the saturating form gives 0 for a NaN and sets NX in place of NV. -/
def toIntRange (rm : RMode) (sat : Bool) (lo hi : Int) (x : FVal) : Int × FFlags :=
  let bad : FFlags := if sat then ⟨false, false, false, false, true⟩ else ⟨true, false, false, false, false⟩
  match x.toInt rm with
  | some (i, nx) => if i < lo then (lo, bad) else if hi < i then (hi, bad) else (i, ⟨false, false, false, false, nx⟩)
  | none =>
    match x with
    | .inf true => (lo, bad)
    | .inf false => (hi, bad)
    | _ => (if sat then 0 else hi, bad)

/-- An integer as an exact number. -/
def ofInt (i : Int) : Exact := .num (i < 0) i.natAbs 0 false

/-- Floating to floating (R82); with `sat`, a finite source that would become an infinity becomes the largest finite value,
with OF and NX (R83). -/
def cvtFloat (f : Fmt) (rm : RMode) (sat : Bool) (x : FVal) : Nat × FFlags :=
  let (r, fl) := f.finish rm x.exact
  if sat && f.isInf r then
    match x with
    | .fin n _ _ => (f.maxBits n, ⟨false, false, true, false, true⟩)
    | _ => (r, fl)
  else (r, fl)

/-- A floating operation on bit patterns of one format. -/
def Fmt.add (f : Fmt) (rm : RMode) (x y : Nat) : Nat × FFlags := f.finish rm (addV rm (f.unpack x) (f.unpack y))
def Fmt.sub (f : Fmt) (rm : RMode) (x y : Nat) : Nat × FFlags := f.finish rm (addV rm (f.unpack x) (f.unpack y).neg)
def Fmt.mul (f : Fmt) (rm : RMode) (x y : Nat) : Nat × FFlags := f.finish rm (mulV (f.unpack x) (f.unpack y))
def Fmt.div (f : Fmt) (rm : RMode) (x y : Nat) : Nat × FFlags := f.finish rm (divV (f.unpack x) (f.unpack y))
def Fmt.sqrt (f : Fmt) (rm : RMode) (x : Nat) : Nat × FFlags := f.finish rm (sqrtV (f.unpack x))
/-- x · y + z, x · y - z and -(x · y) + z, each with one rounding rne (R129). -/
def Fmt.fma (f : Fmt) (x y z : Nat) : Nat × FFlags := f.finish .rne (fmaV .rne (f.unpack x) (f.unpack y) (f.unpack z))
def Fmt.fms (f : Fmt) (x y z : Nat) : Nat × FFlags := f.finish .rne (fmaV .rne (f.unpack x) (f.unpack y) (f.unpack z).neg)
def Fmt.fnma (f : Fmt) (x y z : Nat) : Nat × FFlags := f.finish .rne (fmaV .rne (f.unpack x).neg (f.unpack y) (f.unpack z))

/-- The format of a floating element type (R60). -/
def ftyFmt : FTy → Fmt
  | .f32 => f32
  | .bf16 => bf16
  | .f16 => f16

/-- A product as a term of `ChunkSum`, and whether it is the product 0 × ∞ of operands that are not NaNs (R90). -/
def term (x y : FVal) : FVal × Bool :=
  match mulV x y with
  | .nan nv => (.nan, nv)
  | .inf n _ => (.inf n, false)
  | .num n m e _ => (.fin n m e, false)

/-- The least exponent of the terms. -/
def minExp : List FVal → Int → Int
  | [], e => e
  | .fin _ _ e' :: ts, e => minExp ts (min e' e)
  | _ :: ts, e => minExp ts e

/-- The signed integer sum of finite terms at exponent e0. -/
def sumScaled (e0 : Int) : List FVal → Int
  | [] => 0
  | .fin n m e :: ts => scaled n m e e0 + sumScaled e0 ts
  | _ :: ts => sumScaled e0 ts

/-- `ChunkSum` (R90): the exact sum of the terms and whether NV is set. The list pairs each product with whether it is a
0 × ∞; `nanOp` says that some product has a NaN operand. -/
def chunkSum (ts : List (FVal × Bool)) : Exact :=
  let vs := ts.map Prod.fst
  let anyZ := ts.any Prod.snd
  let anyNan := vs.contains .nan
  let opNan := ts.any fun t => t.1 = .nan && !t.2
  let pos := vs.contains (.inf false)
  let neg := vs.contains (.inf true)
  if anyNan || (pos && neg) then .nan (anyZ || (!opNan && pos && neg))
  else if pos then .inf false false
  else if neg then .inf true false
  else
    let e0 := minExp vs 0
    let s := sumScaled e0 vs
    if s = 0 then .num (vs.all fun v => match v with | .fin n m _ => n && m = 0 | _ => false) 0 0 false
    else .num (s < 0) s.natAbs e0 false

end Sys2Proof.Machine
end

