-- ==== Sys2Proof/Config.lean ====
section
/-! DEFINITION. What one implementation fixes, and the free values: constants without a body, of which no proof can see a
value. Each is named in the assumption log. -/

namespace Sys2Proof.Config

/-- The number of compute dies (R1). -/
def dies : Nat := 6

/-- The bytes of one scratchpad: 1.5 MiB (R51). -/
def scratchBytes : Nat := 0x180000

/-- The bytes of one scratchpad bank (R215). -/
def bankBytes : Nat := 0x18000

/-- The tile clocks a grant may be held without its `arel` (R272). -/
def grantClocks : Nat := 1024

/-- The tile clocks after which a refused item is sent again (R170, R179, R205, R231). -/
def resendClocks : Nat := 64

/-- The tile clocks from the issue of a local scratchpad load to its register (R47, R99). -/
def localLoadClocks : Nat := 6

/-- The clocks between horizon rounds (R391). -/
def roundClocks : Nat := 4096

/-- The bytes of one instruction-cache line. DESIGN CHOICE (log 7): the spec gives the cache's size and no line size. -/
def icacheLineBytes : Nat := 64

/-- The number of lines of the 64 KiB instruction cache (R52). -/
def icacheLines : Nat := 65536 / icacheLineBytes

/-- FREE VALUE (log 7): whether an unlocked instruction-cache line was replaced before the n-th fetch that could hit it
(R53: the line may stay until `fence.i` or replacement). -/
opaque icacheReplaced : Nat → Bool

/-- FREE VALUE (log 8): the fused SKIP value of physical row `die * 16 + row` (R385). -/
opaque fuseSkip : Nat → BitVec 5

/-- FREE VALUE (log 8): whether the unused column of a physical row, `die * 16 + row`, as it left manufacture is a working spare
(R3, R409). -/
opaque fuseSpare : Nat → Bool

/-- FREE VALUE (log 8): the fused degraded-die bits (R386, R423). -/
opaque fuseDegraded : BitVec 6

/-- FREE VALUE (log 9): the 64-bit fold of pairing, one retired instruction into the fingerprint (R374: the fold is fixed
and programs cannot read it). Arguments: old fingerprint, slot, PC, value written, address accessed. -/
opaque fold : BitVec 64 → Nat → BitVec 64 → BitVec 1024 → BitVec 64 → BitVec 64

/-- FREE VALUE (log 10): byte i of the ML-DSA-65 signature of a byte string under the identity key (FIPS 204; R427). -/
opaque sign : List (BitVec 8) → Nat → BitVec 8

/-- FREE VALUE (log 10): whether a firmware image's signature verifies under the Fenran public key (R426). -/
opaque verifies : List (BitVec 8) → Bool

/-- FREE VALUE (log 10): the root firmware and the Mudex firmware that an image holds, which M0 and M1 measure (R426). -/
opaque rootPart : List (BitVec 8) → List (BitVec 8)
opaque mudexPart : List (BitVec 8) → List (BitVec 8)

/-- FREE VALUE (log 10): the security version that an image carries (R426). -/
opaque imageVersion : List (BitVec 8) → Nat

/-- FREE VALUE (log 10): the fused minimum security version (R426). -/
opaque fusedVersion : Nat

/-- FREE VALUE (log 10): the fused part identity (R427). -/
opaque partIdentity : List (BitVec 8)

/-- FREE VALUE (log 10): byte i of the endorsed public half of the identity key (R427). -/
opaque publicKey : Nat → BitVec 8

/-- FREE VALUE (log 58): what the sensors of the part have counted between two flushes of the wear log, by offset in it (R424). -/
opaque sensorCounts : Nat → List (Nat × Nat)

/-- FREE VALUE (log 3): a value the spec leaves open, fresh for each count (the overlap bytes of R290). -/
opaque freeValue : Nat → BitVec 64

/-- FREE VALUE (log 3): the same in deterministic and isochronous modes, where equal programs end alike (R6): a value for what is
done, and a number. -/
opaque sameValue : List Nat → Nat → BitVec 64

end Sys2Proof.Config
end

