-- ==== Sys2Proof/Machine/State.lean ====
section
/-! DEFINITION. The state of the machine as plain data: every piece of state that spec/ gives the Stolmas S6, one package
with its tiles, memory, homes, dies and host windows. Also why a step can stop, and the state right after reset. -/

namespace Sys2Proof.Machine

/-- Memory: byte cells in one canonical form, addresses strictly rising, none equal to what an unlisted address reads as. -/
abbrev Memory := List Host.Cell

-- Registers and threads (spec/02_thread_machine.md)

/-- A scalar register with its full/empty bit, poison mark and pending-fill mark (R32, R34, R31, R35). -/
structure SReg where
  val    : Word
  full   : Bool
  poison : Bool
  pend   : Bool
  deriving DecidableEq, Repr

/-- A vector register with the same three marks, which cover the whole register (R34). -/
structure VReg where
  val    : Vec
  full   : Bool
  poison : Bool
  pend   : Bool
  deriving DecidableEq, Repr

/-- The name of a register that has a full/empty bit. -/
inductive RegName where
  | s (r : Reg)
  | v (r : Reg)
  deriving DecidableEq, Repr

/-- The outstanding counters (R47). -/
inductive Cnt where
  | ld | st | cp | tl
  deriving DecidableEq, Repr

/-- Park reasons (R165, R349). `recvFull` is the FILL_PENDING of a ninth receive (R209); a thread under FRETBOARD waits for ranges of own
bytes, each offset and length, and for a read or a write of them. -/
inductive Park where
  | regEmpty (r : RegName)
  | fillPending (r : RegName)
  | recvFull (ch : Fin 8)
  | cntFull (c : Cnt)
  | wait
  | fretboard (rs : List (Nat × Nat)) (write : Bool)
  | streamFull (r : StreamReg)
  | streamDrain (r : StreamReg)
  | eyelet
  | wordFe
  | barrier (gen : BitVec 16)
  | queueEmpty
  | queueFull
  | wadr
  | weltFull
  deriving DecidableEq, Repr

/-- The state of a slot (R162). -/
inductive Run where
  | empty
  | ready
  | parked (p : Park)
  | sleeping
  | killed
  deriving DecidableEq, Repr

/-- What a slot still lets pass before it issues: the rest of the clock in which its reason cleared (R167), and, after an answer, the issue
cycle in which the answered instruction retires (R169, R260); one that has just been launched waits for the first clock that it owns (R397). -/
inductive Rouse where
  | none
  | starts
  | clears
  | answers
  | retires
  deriving DecidableEq, Repr

/-- A register write. -/
inductive RegWrite where
  | s (r : Reg) (v : Word)
  | v (r : Reg) (v : Vec)
  deriving DecidableEq, Repr

/-- A multi-clock result on its way: what it writes and the clock at which it lands (R99, R136). -/
structure ResultReq where
  writes : List RegWrite
  due    : Nat
  deriving DecidableEq, Repr

/-- The home of a byte: its place in memory, its die and its package of the load-store domain (R213, R224, R228); `level` is that of the
leaf that maps it, or none for a byte of a scratchpad (R227). -/
structure Home where
  loc   : Nat
  die   : Nat
  pkg   : Nat
  level : Option Nat
  deriving DecidableEq, Repr

/-- What an outstanding load fills: a scalar register, or the lanes of a vector register as (lane, address) of w bits. With
`app` the vector goes to a write-bound stream register as an element (R154). -/
inductive LoadDest where
  | scalar (d : Reg) (t : LdType) (addr : Word)
  | vector (d : Reg) (w : Nat) (lanes : List (Nat × Word)) (app : Bool)
  deriving DecidableEq, Repr

/-- An outstanding load (R116, R150), with the pid of its instruction (R45, R122); `due` is the landing clock of a local load (R47, R99, R136). `got` holds the parts that have
returned, each its number with its bytes, or none where it is fatal (R151, R152). -/
structure LoadReq where
  id   : Nat
  seq  : Nat
  pid  : BitVec 16
  dest : LoadDest
  due  : Option Nat
  got  : List (Nat × Option (List Byte))
  deriving DecidableEq, Repr

/-- A store that met a fatal fault and is not yet reported (R127): its place in program order, the number of its lowest
faulting piece, and that piece's address (R151). -/
structure StoreFault where
  seq  : Nat
  id   : Nat
  addr : Word
  deriving DecidableEq, Repr

/-- An armed copy flag (R314). -/
structure ArmFlag where
  addr : Word
  val  : Word
  size : Size
  deriving DecidableEq, Repr

/-- A monitor entry (R171); `locs` are the places at the home of the bytes of its 64-byte line. -/
structure Monitor where
  valid   : Bool
  line    : Word
  locs    : List Nat
  w       : Bool
  deriving DecidableEq, Repr

/-- A sleep of `mslp` (R190): the result register and, with a timeout, the clock at which it expires. -/
structure Sleep where
  d        : Reg
  deadline : Option Nat
  deriving DecidableEq, Repr

/-- A reservation the thread holds (R269): effective address, size, the homes of its bytes, and the clock at which the hold
ends (R272). -/
structure Hold where
  addr     : Word
  size     : Size
  homes    : List Home
  deadline : Nat
  deriving DecidableEq, Repr

/-- The single-instruction atomics (R270). -/
inductive Rmw where
  | add | min | max | minn | maxn | and | or | xor | xchg | cas | addf
  deriving DecidableEq, Repr

/-- A notice-board operation (R279). -/
inductive NbOp where
  | post (slot : Nat) (level value : BitVec 32) (buf : Nat)
  | view (values : Bool) (k : Nat) (buf : Nat)
  | adv (level : BitVec 32)
  | init (n q : Nat) (level : BitVec 32)
  deriving DecidableEq, Repr

/-- What an answered form asks of its home (R260). -/
inductive ReqOp where
  | acq (z : Size) (sc : Scope)
  | ldfe (z : Size)
  | ldff (z : Size)
  | stef (z : Size) (v : Word)
  | stff (z : Size) (v : Word)
  | ste
  | arsv (z : Size)
  | rmw (op : Rmw) (z : Size) (b c : Word)
  | marm (e : Fin 4)
  | wadr (z : Size) (cmp : Word) (deadline : Option Nat)
  | nb (op : NbOp)
  deriving DecidableEq, Repr

/-- What the home answers. -/
inductive Answer where
  | value (v : Word) (fl : BitVec 64)
  | poison
  | fault                                        -- a fatal not-present access
  | missing                                      -- the home rejects a notice-board operation (R278)
  | granted (v : Word) (homes : List Home)
  | armed (locs : List Nat)
  | board (status : Word) (image : Option (List Byte))
  deriving DecidableEq, Repr

/-- Where an answered form's request is (R169, R170). -/
inductive ReqStage where
  | sent
  | refused (due : Nat)
  | listed
  | answered (a : Answer)
  | withdrawn
  deriving DecidableEq, Repr

/-- Accesses that happen before a point and may still be on their way, stores and loads that have not returned, each by its tile and number
(R241). -/
abbrev Past := List (TileId × Nat)

/-- The request of an answered form; a thread has at most one, its current instruction, with whose pid it goes (R45, R122). `held` names the
writes that it must not bypass (R242, R246), `past` what happens before it where it is a release (R258), and `homes` are those of its bytes once
it has come to its home (R234). -/
structure Req where
  id    : Nat
  pid   : BitVec 16
  op    : ReqOp
  d     : Reg
  addr  : Word
  seq   : Nat
  stage : ReqStage
  held  : Past
  past  : Past
  homes : List Home
  deriving DecidableEq, Repr

/-- A wait of the `bar.wait` or `bar.arw` at an address (R174). -/
structure BarWait where
  pc      : Word
  gen     : BitVec 16
  arrived : Option Reg      -- `bar.arw`: its arrival stands, and the register its GEN goes to
  deriving DecidableEq, Repr

/-- The asynchronous traps that are pending for a thread, with `tval` where the event fixes it (R355). -/
structure Pending where
  pairMismatch : Option Word
  preempt      : Option Word
  suspect      : Option Word
  rsvTimeout   : Option Word
  timer        : Bool
  deriving DecidableEq, Repr

/-- No trap is pending. -/
def Pending.none : Pending := ⟨.none, .none, .none, .none, false⟩

/-- KIND of a stream binding (R160). -/
inductive BindKind where
  | unbound | memRead | memWrite | chan | out
  deriving DecidableEq, Repr

/-- An element in a stream buffer: its bits, whether it is poisoned, the load it still waits for (a vector load into a
write-bound register), and, of the append to an outbound stream, the tile's `vtime` and the first of the element's eight sequence numbers
(R159). -/
structure Elem where
  val    : Vec
  poison : Bool
  wait   : Option Nat
  ts     : Word
  no     : Nat
  deriving DecidableEq, Repr

/-- A stream register's binding (R154-R160, R363). `buf` holds the elements: fetched and not popped, or appended and not yet
written or acknowledged; `pos` counts pops or appends; `next` is the next element to fetch, or to write or send; `live` says
that the carrier has accepted the binding; `flight` is the number and age of a memory stream's element access in flight, which holds a
fretboard entry (R156, R285). `pid` is that of the binding instruction (R45, R122). `order` gives the elements from `next` on that have room
their places in the order of retirement, which the modes whose results repeat keep (R6, log 45). -/
structure Bind where
  kind   : BindKind
  base   : Word
  stride : Word
  ctl    : Word
  pos    : Nat
  next   : Nat
  live   : Bool
  buf    : List Elem
  stage0 : Word
  stage1 : Word
  stage2 : Word
  flight : Option Nat
  pid    : BitVec 16
  order  : List Nat
  deriving DecidableEq, Repr

/-- A thread: one slot's context (R32-R55) and its work in progress. `barSeq` is its place in program order at its last
barrier arrival; `past` names the accesses of others that its acquires have put before it (R241), and `met` is the address of a `pair` or
`fprt` that has what it parked for (R167, R371, R378). -/
structure Thread where
  run      : Run
  pc       : Word
  s        : Vector SReg 32
  v        : Vector VReg 32
  g        : Vector Guard 8
  fpcsr    : Word
  vstat    : Word
  status   : Word
  epc      : Word
  cause    : Word
  tval     : Word
  tvec     : Word
  tmcmp    : Word
  scratch0 : Word
  scratch1 : Word
  instret  : Word
  cntLd    : Nat
  cntSt    : Nat
  cntCp    : Nat
  cntTl    : Nat
  lastN0   : BitVec 32
  shadow   : Nat
  fetched  : Option Insn
  results  : List ResultReq
  loads    : List LoadReq
  faults   : List StoreFault
  armed    : Option ArmFlag
  monitors : Vector Monitor 4
  sleep    : Option Sleep
  req      : Option Req
  hold     : Option Hold
  barWait  : Option BarWait
  barSeq   : Nat
  pending  : Pending
  yielded  : Bool
  pastBrk  : Bool
  rouse    : Rouse
  met      : Option Word
  binds    : Vector Bind 8
  past     : Past
  seq      : Nat
  deriving DecidableEq, Repr

-- Tiles (spec/08, 09, 10, 14, 17, 18)

/-- What a store is: plain, a release at a scope (R264), or an `arel` with the location whose grant it passes on (R271). -/
inductive StoreKind where
  | plain
  | release (sc : Scope)
  | arel (loc : Nat) (z : Size)
  deriving DecidableEq, Repr

/-- An outstanding store (R117, R150, R246, R264): its bytes as (address, bytes) pieces in ascending lane order, `lane` bytes to a lane. A
release that R247 still holds has `waits`, and `past` names what happens before it, of a plain store the loads of other threads (R241); `counted` says that its slot still lives, and
`acked` that ST has fallen for it (R264); `stamp` orders the entries of a buffer. `homes` are those of its bytes once it is translated
(R234). -/
structure StoreReq where
  id     : Nat
  slot   : Slot
  seq    : Nat
  pid    : BitVec 16
  sv     : Bool
  kind   : StoreKind
  waits  : Bool
  past   : Past
  pieces : List (Word × List Byte)
  lane   : Nat
  stage  : StoreStage
  counted : Bool
  acked  : Bool
  stamp  : Nat
  homes  : List Home
  deriving DecidableEq, Repr

/-- A wait-list entry of a tile or a station (R170, R191, R268): who waits, for which word, and at which station of the domain where it
is a station's. -/
structure Waiter where
  tile    : TileId
  slot    : Slot
  loc     : Nat
  station : Nat
  deriving DecidableEq, Repr

/-- The tile barrier (R174); `sent` is the rank of the tile's arrival that went into the tree (R175), and `past` names the stores that the
arrivals of the generation publish (R259). -/
structure Barrier where
  reg  : BitVec 8
  arr  : BitVec 8
  out  : Bool
  gen  : BitVec 16
  sent : Option Nat
  past : Past
  deriving DecidableEq, Repr

/-- An entry in a channel (R203); `past` names the stores that a release puts before its receive (R212). -/
structure ChEntry where
  lo  : Word
  hi  : Word
  md  : Word
  ts  : Option Word
  rel : Option Scope
  past : Past
  deriving DecidableEq, Repr

/-- A pending receive (R209): `named` is the metadata an `mwait` accepts, as (sender fields of M, SEQ). -/
structure Recv where
  slot  : Slot
  d     : Reg
  mdReg : Option Reg
  named : Option (Word × BitVec 32)
  deriving DecidableEq, Repr

/-- An inbox channel (R206-R209). The first `formed` entries make up the elements that stand in the buffer of the stream register it is
bound to, eight each (R158). -/
structure Channel where
  entries : List ChEntry
  recvs   : List Recv
  horizon : Bool
  bound   : Option (Slot × StreamReg)
  formed  : Nat
  deriving DecidableEq, Repr

/-- What a tile has sent that is not yet accepted (R205, R179, R159). -/
inductive SentKind where
  | msg
  | wake
  | elem (r : StreamReg)
  | drainWake
  deriving DecidableEq, Repr

/-- A message, WAKE or stream-element entry on its way. `pkg` none is the issuing package; `past` names the stores before a release
(R241). -/
structure SentItem where
  kind    : SentKind
  slot    : Slot
  seq     : Nat
  pkg     : Option (BitVec 16)
  dest    : TileId
  chan    : Fin 8
  lo      : Word
  hi      : Word
  md      : Word
  ts      : Option Word
  rel     : Option Scope
  past    : Past
  refused : Option Nat
  counted : Bool
  deriving DecidableEq, Repr

/-- A completion or system entry held until channel 0 has room (R211, R369); `cp` and `tl` name the slots whose
CP and TL fall when it is accepted (R293, R313). -/
structure HeldEntry where
  lo : Word
  hi : Word
  md : Word
  cp : Option Slot
  tl : Option Slot
  deriving DecidableEq, Repr

/-- An instruction-cache line (R52-R54): the address of its first byte, its words, and whether it is locked. -/
structure ICLine where
  addr   : Nat
  words  : List Insn
  locked : Bool
  deriving DecidableEq, Repr

/-- The tree functions of the data channel (R328). -/
inductive TreeFn where
  | add | max | min | scanAdd | scanAff
  deriving DecidableEq, Repr

/-- The welt operations (R341-R344). -/
inductive WeltFn where
  | prmi | wupd
  | prmr (strict : Bool)
  | prmx (strict revert : Bool)
  deriving DecidableEq, Repr

/-- An engine request's operation with its operand values (R282). -/
inductive EngOp where
  | cpy (dst src : Word) (count : Nat)
  | cpyt (dst src last : Word)
  | cpym (dst src : Word) (ctl : Word) (count : Nat) (other : Word)
  | mma (f : MmaFmt) (sparse : Bool) (a b ctl mdata : Word) (cmd : Bool)
  | acz (region : Word)
  | acld (addr region : Word)
  | acst (addr region : Word)
  | adrn (dst region handle : Word)
  | acrd (d : Reg) (sel : Word)
  | acwr (sel : Word) (val : Vec)
  | tree (fn : TreeFn) (dst src ctl : Word)
  | tbar
  | ccv (dst src ctl : Word)
  | ccvq (dst src ctl scale : Word)
  | welt (fn : WeltFn) (hdr : Fin 16) (n0 : BitVec 32) (ent : Nat) (operand : Word)
  | bind (r : StreamReg)
  deriving DecidableEq, Repr

/-- The states of a fretboard entry (R287); an entry that is FREE is not listed. -/
inductive FState where
  | held | active | readDone
  deriving DecidableEq, Repr

/-- A fretboard interval: first and last byte offset, and whether it writes (R285, R286). -/
structure Interval where
  first : Nat
  last  : Nat
  write : Bool
  deriving DecidableEq, Repr

/-- A request in an eyelet, or accepted and not yet entered (R282, R283), with the pid of its instruction (R45, R122). `direct` marks an accumulator operation that a
supervisor issued while the sequencer was frozen (R365); `past` names the stores before a `tbar` (R259), and `lasts` are the lasts read at
acceptance (R239). -/
structure EngReq where
  id   : Nat
  pid  : BitVec 16
  op   : EngOp
  slot : Slot
  sv   : Bool
  direct : Bool
  tag  : BitVec 16
  flag : Option ArmFlag
  seq  : Nat
  counted : Bool
  past : Past
  lasts : List (BitVec 512)
  deriving DecidableEq, Repr

/-- What an operation has computed once it is read-done: the bytes it writes, as (location, byte), its flags in the bit order
of `vstat`, and the count of its destination bytes. -/
structure EngOut where
  bytes : List Host.Cell
  flags : BitVec 64
  count : Nat
  deriving DecidableEq, Repr

/-- What one tile has done of a matrix operation (R295, R297): the next K chunk and slice pairing, and whether its quadrant
is complete. -/
structure Quad where
  tile  : TileId
  chunk : Nat
  pair  : Nat
  fin   : Bool
  deriving DecidableEq, Repr

/-- An engine operation in flight: a fretboard entry (R285) with the operation's progress (R295, R366). `fmtA` and `fmtB` are
the formats, sampled at dispatch, of the banks that the source and the destination, or A and B, touch; `access` numbers its
requests; `age` is its entry order (R285); `asked` lists the pages whose translation the carrier has asked for and `moved` the pieces whose
addresses it has generated (R283); `got` holds the operand blocks that a group operation has read (R223); `quads` is the progress of a matrix operation and `members` the group
tiles that have placed it (R297); `ord` is its rank on its tree channel (R302, R332) and `contrib` its contribution; `err` is an
error that its work has met, with INFO (R308). -/
structure EngEntry where
  req     : EngReq
  state   : FState
  ivs     : List Interval
  fmtA    : List (BitVec 4)
  fmtB    : List (BitVec 4)
  lasts   : List (BitVec 512)
  access  : Nat
  age     : Nat
  asked   : List Nat
  moved   : List Nat
  got     : List (Nat × List Byte)
  quads   : List Quad
  flags   : BitVec 64
  members : List TileId
  ord     : Nat
  contrib : List Byte
  out     : Option EngOut
  err     : Option (EngErr × Word)
  deriving DecidableEq, Repr

/-- A copy that is complete and whose flag is still to be written (R294): its request, the number of its accesses, its flags, and the count
of its destination bytes. -/
structure Flagging where
  req    : EngReq
  access : Nat
  flags  : BitVec 64
  count  : Nat
  deriving DecidableEq, Repr

/-- A promise (R340, R341); `slot` is that of the thread that issued it, while it runs. -/
structure Promise where
  ent  : Nat
  hdr  : Fin 16
  n0   : BitVec 32
  slot : Option Slot
  step : Word
  held : Bool
  deriving DecidableEq, Repr

/-- A watchpoint (R379). -/
structure Watch where
  addr : Word
  ctl  : Word
  deriving DecidableEq, Repr

/-- What reached a pair from outside during an interval (R376): channel entries, WAKEs, fills, answers, notices of monitored lines, writes of scratchpad bytes, changes of
full/empty bits, and the two traps that events outside the pair raise. -/
inductive InItem where
  | entry (ch : Fin 8) (e : ChEntry)
  | wake (handle : Word)
  | fill (k : Slot) (id : Nat) (data : Option (List Byte))
  | answer (k : Slot) (id : Nat) (a : Answer)
  | notice (k : Slot) (e : Fin 4)
  | write (cells : List Host.Cell)
  | mark (words : List Nat) (full : Bool)
  | preempt (k : Slot) (v : Word)
  | suspect (k : Slot) (v : Word)
  deriving DecidableEq, Repr

/-- The reservation queue of a word at its home (R268): who holds the grant, and who waits for it in order. -/
structure ResvQueue where
  loc     : Nat
  size    : Size
  holder  : Option (TileId × Slot)
  waiting : List (TileId × Slot)
  deriving DecidableEq, Repr

/-- The pairing state of a tile (R371-R376); the odd tile is the hidden one. `undo` holds, by word number, the old value and
full/empty bit of each word first written in the interval, and `undoAcc` the accumulator cells first written in it; `inbound` what was accepted in it, each with the count of
instructions retired by then; `replay` what is still to be delivered again after a rollback; `resvs` the reservation queues of the tile's own
words at the agreement point. -/
structure Pairing where
  partner  : TileId
  even     : Bool
  lgf      : Nat
  interval : BitVec 32
  miss     : Nat
  retired  : Nat
  print    : BitVec 64
  undo     : List (Nat × BitVec 32 × Bool)
  undoAcc  : List Nat
  inbound  : List (Nat × InItem)
  replay   : List (Nat × InItem)
  ending   : Bool
  unpair   : Option Slot
  resvs    : List ResvQueue
  deriving DecidableEq, Repr

/-- The SUSPECT record of a tile (R410). -/
structure SuspectRec where
  lpv  : Word
  detv : Word
  word : Word
  deriving DecidableEq, Repr

/-- A tile: its barrel core, scratchpad bookkeeping, engines and unit state. Its scratchpad bytes are in the one memory. `mxq`
is the R221 order of the tile's matrix sequencer, as (issuing tile, operation) from the retirement on; `grpq`, at the even tile of a 2 × 2 group, is
the arbiter's order (R297); `weltQ` is the order of R341, each operation with the count N at its place, and `weltHeld` the
operations held; `woke` says that a WAKE has been accepted in the present clock (R196), and `laceSeqs` holds the next number of each sender
and channel of other packages (R203, R399). -/
structure Tile where
  slots     : Vector Thread 8
  cycle     : Word
  horizon   : Word
  vtime     : Word
  mode      : Word
  pid       : BitVec 16
  gang      : Option Nat
  gift      : Option Slot
  fmts      : Vector (BitVec 4) 16
  acc       : List (Nat × BitVec 32)
  icache    : List ICLine
  stores    : List StoreReq
  waitList  : List Waiter
  barrier   : Barrier
  queue     : List Word
  woke      : Bool
  laceSeqs  : List (Nat × Nat)
  channels  : Vector Channel 8
  seqs      : List (Nat × Nat)
  sent      : List SentItem
  heldEnts  : List HeldEntry
  compSeq   : BitVec 32
  sysSeq    : BitVec 32
  tag       : BitVec 16
  eyelets   : List EngReq
  accepted  : List EngReq
  ops       : List EngEntry
  flagging  : List Flagging
  mxq       : List (TileId × Nat)
  grpq      : List (TileId × Nat)
  freezing  : Bool
  frozen    : Bool
  headers   : Vector (BitVec 512) 16
  gens      : Vector (BitVec 16) 64
  promises  : List Promise
  weltQ     : List (Nat × BitVec 32)
  weltHeld  : List Nat
  brks      : Vector Word 4
  watches   : Vector Watch 2
  pairing   : Option Pairing
  hidden    : Bool
  suspect   : SuspectRec
  treeCount : Nat
  barCount  : Nat
  barDone   : Nat
  nextId    : Nat
  deriving DecidableEq, Repr

-- The package (spec/10, 11, 12, 21, 23)

/-- A staged engine write, tagged with the tile whose engine issued it (R250); `op` is that tile's operation, and `done` says
that the operation is complete. -/
structure Staged where
  tile : TileId
  op   : Nat
  done : Bool
  loc  : Nat
  val  : Byte
  deriving DecidableEq, Repr

/-- What a station's walk of a page found (R226-R233): a leaf entry with its base, level and last, or a fatal outcome. -/
inductive Walk where
  | leaf (pte : Word) (level : Nat) (last : BitVec 512)
  | fatal
  deriving DecidableEq, Repr

/-- A cached translation of a station (R226): the 64 KiB page VA[51:16] it was walked for. -/
structure Xlat where
  die     : Nat
  station : Nat
  pid     : BitVec 16
  page    : BitVec 36
  walk    : Walk
  deriving DecidableEq, Repr

/-- Who asks a station for a translation: a numbered access, or the fetch of a slot. -/
inductive Asker where
  | access (id : Nat)
  | fetch (k : Slot)
  deriving DecidableEq, Repr

/-- A request that needs the translation of a page: whose it is, and whether it writes (R226). -/
structure PageReq where
  tile  : TileId
  asker : Asker
  write : Bool
  deriving DecidableEq, Repr

/-- A held page of a station, with the requests that it holds (R230, R231). -/
structure HeldPage where
  die     : Nat
  station : Nat
  pid     : BitVec 16
  page    : BitVec 36
  reqs    : List PageReq
  deriving DecidableEq, Repr

/-- A request that a station has translated, with the entry that it goes by, be the entry changed since or not (R234); one whose page was
answered with ABORT goes by a fatal one (R230, R235). -/
structure Translated where
  pid  : BitVec 16
  page : BitVec 36
  req  : PageReq
  walk : Walk
  deriving DecidableEq, Repr

/-- A request that would need a 65th held page, and the clock of its tile at which it is sent again (R231). -/
structure Refused where
  page : BitVec 36
  req  : PageReq
  due  : Nat
  deriving DecidableEq, Repr

/-- A record of the host-memory fault log (R414, R415). -/
structure LogRec where
  w0 : Word
  w1 : Word
  w2 : Word
  deriving DecidableEq, Repr

/-- What a release that has been performed leaves with the bytes that it wrote: its tile, its scope, and the stores before it that are still
on their way (R241, R247). -/
structure RelMark where
  locs  : List Nat
  tile  : TileId
  scope : Scope
  past  : Past
  deriving DecidableEq, Repr

/-- The post that set a bit of a board's mask: its slot, its tile, and the stores before it (R258). -/
structure Post where
  slot : Nat
  tile : TileId
  past : Past
  deriving DecidableEq, Repr

/-- A notice board of a package of the load-store domain (R275, R405); `posts` are those of its mask. -/
structure Board where
  pkg   : Nat
  die   : Fin 8
  index : Nat
  n     : Nat
  q     : Nat
  level : BitVec 32
  mask  : BitVec 1024
  vals  : List (Nat × BitVec 32)
  posts : List Post
  dead  : Bool
  deriving DecidableEq, Repr

/-- A board reference of an I/O die (R405). -/
structure BoardRef where
  die   : Fin 8
  index : Nat
  pkg   : Nat
  tdie  : Fin 8
  tidx  : Nat
  deriving DecidableEq, Repr

/-- A gang's place in its life (R395-R398, R360, R361). -/
inductive GangState where
  | placing      -- waits for its tiles
  | reserved     -- this package holds its reservation
  | confirmed    -- T is confirmed
  | running
  | stopped
  | ended
  deriving DecidableEq, Repr

/-- How far the packages of a gang have combined an operation of a tree channel (R407): the next level, what has come from the other
packages, how often the step has been lost, and whether it was given up. -/
structure TreeWork where
  chan  : TreeChan
  k     : Nat
  level : Nat
  parts : List TreePart
  tries : Nat
  lost  : Bool
  deriving DecidableEq, Repr

/-- A gang in this package: the fields of its launch record (R395) and its progress. `req` is the window request that waits
for it; `treeFails` lists the data operations to which a tile has failed to contribute, `tree` the steps across packages, `barPast` the stores
that the arrivals of a barrier publish, by its rank (R259); the fields named `saved` hold a stopped gang's image (R360, R402). -/
structure Gang where
  id       : Nat
  pkg      : BitVec 16
  npk      : Nat
  pid      : BitVec 16
  mode     : Word
  retry    : Nat
  age      : Word
  tick     : Word
  tvec     : Word
  code     : Word
  text     : Nat
  pcs      : List (BitVec 32)
  slots    : BitVec 7
  tiles    : List TileId
  ranks    : Nat
  rank0    : Nat
  data     : Nat
  nodes    : List (BitVec 16)
  state    : GangState
  req      : Option (Fin 24 × Fin 8)
  stopT    : Option Word
  stopD    : Option Word
  round    : Nat
  rounds   : List (Nat × Word)
  combined : List Nat
  suspects : BitVec 32
  treeDone : Nat
  treeFails : List Nat
  tree     : List TreeWork
  barDone  : Nat
  barPast  : List (Nat × Past)
  saved    : List (TileId × Tile)
  savedMem : Memory
  savedFe  : List Nat
  savedSnap : List (TileId × Tile)
  savedStaged : List Staged
  deriving DecidableEq, Repr

/-- A host window (R411): DONE and the submitted slots in doorbell order. Its request records are in `winMem`. -/
structure Window where
  done  : BitVec 8
  queue : List (Fin 8)
  deriving DecidableEq, Repr

/-- A bridge (R387, R388); `fails` counts the failures in a row of the flit that failed last. -/
structure Bridge where
  up     : Bool
  train  : Bool
  fails  : Nat
  deriving DecidableEq, Repr

/-- A compute die's power, temperature and test state (R408, R420-R423). -/
structure Die where
  halted    : Bool
  throttled : Bool
  grant     : BitVec 12
  gaps      : BitVec 32
  lpv       : Vector Word 16
  deriving DecidableEq, Repr

/-- The root of trust (R426-R428); `xlatSet` says that PDBASE has been written, the last step of bring-up. -/
structure Root where
  booted    : Bool
  recovery  : Bool
  version   : Nat
  measures  : List Byte
  nonce     : List Byte
  xlatSet   : Bool
  asked     : Bool
  ready     : Bool
  report    : List Byte
  deriving DecidableEq, Repr

/-- What the host's last access came back with: nothing yet, the bytes of a read, or an Unsupported Request, which a read or a write
of dies 6 and 7 completes as, and any request that the package refuses in recovery (R413, R426). -/
inductive HostReply where
  | none
  | data (bs : List Byte)
  | unsupported
  deriving DecidableEq, Repr

/-- Which of the machine's actors moves: a tile's clock, or an event. -/
inductive Turn where
  | clock (t : TileId)
  | event (i : Instr)
  deriving DecidableEq, Repr

/-- The whole package. `tiles` lists the tiles that have left their reset state, in rising order; an unlisted tile is
`Tile.reset`. `failing` lists the tiles that have failed their test and wait to be moved, with their clusters (R409); `unreach` and
`unreachPkgs` are the Lace nodes and the packages of the domain that no route reaches (R401); `wearNext` is where the next quarantine goes in the wear
log (R424, log 58), and `rels` what performed releases leave (log 72). `agenda`, `focus`, `curTile`, `curSlot`,
`free` and `stamp` are the model's own (log 1, 2, 3). -/
structure State where
  tiles      : List (TileId × Tile)
  mem        : Memory
  fe         : List Nat
  staged     : List Staged
  resvs      : List ResvQueue
  rels       : List RelMark
  watchers   : List Waiter
  notices    : List (TileId × Slot × Fin 4)
  xlats      : List Xlat
  heldPages  : List HeldPage
  refused    : List Refused
  trans      : List Translated
  pdbase     : Word
  logBase    : Word
  logSize    : Nat
  logNext    : Nat
  logSeq     : Nat
  logWait    : List LogRec
  msix       : List Nat
  boards     : List Board
  refs       : List BoardRef
  gangs      : List Gang
  windows    : Vector Window 24
  winMem     : Memory
  dmode      : BitVec 2
  dmodeErr   : Bool
  plim       : BitVec 12
  degraded   : BitVec 6
  dies       : Vector Die 6
  skips      : List (Nat × BitVec 5)
  failing    : List (TileId × Nat)
  snapshots  : List (TileId × Tile)
  snapStaged : List Staged
  bar4       : Memory
  lostPkgs   : List Nat
  lostDies   : List Nat
  unreach    : List Nat
  unreachPkgs : List Nat
  ports      : Vector Bool 24
  bridges    : Vector Bridge 11
  wear       : Memory
  wearNext   : Nat
  wearNew    : List (Nat × Nat)
  root       : Root
  hostRead   : HostReply
  timebase   : Word
  node       : BitVec 16
  domPkg     : Nat
  domPkgs    : Nat
  agenda     : List Turn
  focus      : TileId
  curTile    : TileId
  curSlot    : Slot
  free       : Nat
  stamp      : Nat
  deriving DecidableEq, Repr

/-- Why the machine stops with a fault. -/
inductive Fault where
  /-- Raised by a CXL.mem access of bytes that are none of the package's HBM, to which the spec gives no outcome (R416). Safe: the access
  is not performed. -/
  | beyondMemory
  deriving DecidableEq, Repr

/-- Why an instruction or event has no next state. -/
inductive Refusal where
  /-- Raised by an arm of `exec` that has no meaning yet. Safe: nothing is proved about it. -/
  | notModelled (mnemonic : String)
  /-- Raised by an event of the agenda that the state does not hold as due or possible: the hardware takes no such step
  there. Safe: no behaviour of the hardware is lost, for the event happens in the states that hold it. -/
  | noSuchEvent (mnemonic : String)
  deriving DecidableEq, Repr

/-- s1-s31 and v0-v31 at launch: empty, no pending fill (R55). The value zero is a DESIGN CHOICE (log 4). -/
def SReg.reset : SReg := ⟨0, false, false, false⟩
/-- s0: zero, full (R33, R55). -/
def SReg.zero : SReg := ⟨0, true, false, false⟩
def VReg.reset : VReg := ⟨0, false, false, false⟩

def Monitor.reset : Monitor := ⟨false, 0, [], false⟩

/-- An unbound stream register (R154). -/
def Bind.reset : Bind := ⟨.unbound, 0, 0, 0, 0, 0, false, [], 0, 0, 0, none, 0, []⟩

/-- `status` at reset: AIE = 1, every other field zero (R45, R55). -/
def statusReset : Word := 4

/-- A thread's context at reset (R55), its slot empty (R162). -/
def Thread.reset : Thread where
  run := .empty
  pc := 0
  s := (Vector.replicate 32 SReg.reset).set 0 SReg.zero
  v := Vector.replicate 32 VReg.reset
  g := (Vector.replicate 8 0#128).set 0 (BitVec.allOnes 128)
  fpcsr := 0
  vstat := 0
  status := statusReset
  epc := 0
  cause := 0
  tval := 0
  tvec := 0
  tmcmp := 0
  scratch0 := 0
  scratch1 := 0
  instret := 0
  cntLd := 0
  cntSt := 0
  cntCp := 0
  cntTl := 0
  lastN0 := 0
  shadow := 0
  fetched := none
  results := []
  loads := []
  faults := []
  armed := none
  monitors := Vector.replicate 4 Monitor.reset
  sleep := none
  req := none
  hold := none
  barWait := none
  barSeq := 0
  pending := Pending.none
  yielded := false
  rouse := .none
  met := none
  pastBrk := false
  binds := Vector.replicate 8 Bind.reset
  past := []
  seq := 0

def Channel.reset : Channel := ⟨[], [], false, none, 0⟩
/-- No slot is registered. GEN at reset is 0 (DESIGN CHOICE, log 5: R174 gives no value); a launch and the end of a gang keep it (R176). -/
def Barrier.reset : Barrier := ⟨0, 0, false, 0, none, []⟩

/-- A tile at reset: its slots empty, its units idle. -/
def Tile.reset : Tile where
  slots := Vector.replicate 8 Thread.reset
  cycle := 0
  horizon := 0
  vtime := 0
  mode := 0
  pid := 0
  gang := none
  gift := none
  fmts := Vector.replicate 16 0#4
  acc := []
  icache := []
  stores := []
  waitList := []
  barrier := Barrier.reset
  queue := []
  woke := false
  laceSeqs := []
  channels := Vector.replicate 8 Channel.reset
  seqs := []
  sent := []
  heldEnts := []
  compSeq := 0
  sysSeq := 0
  tag := 0
  eyelets := []
  accepted := []
  ops := []
  flagging := []
  mxq := []
  grpq := []
  freezing := false
  frozen := false
  headers := Vector.replicate 16 0#512
  gens := Vector.replicate 64 0#16
  promises := []
  weltQ := []
  weltHeld := []
  brks := Vector.replicate 4 0#64
  watches := Vector.replicate 2 ⟨0, 0⟩
  pairing := none
  hidden := false
  suspect := ⟨0, 0, 0⟩
  treeCount := 0
  barCount := 0
  barDone := 0
  nextId := 0

def Die.reset : Die := ⟨false, false, 120, 0, Vector.replicate 16 0⟩
def Bridge.reset : Bridge := ⟨true, false, 0⟩
def Window.reset : Window := ⟨0, []⟩
def Root.reset : Root := ⟨false, false, 0, [], [], false, false, false, []⟩

/-- The machine right after reset: no gang, every tile idle, memory with nothing listed, DMODE throughput, PLIM 3,000 W
(R423, R428), and bring-up still to come (R428). -/
def State.reset : State where
  tiles := []
  mem := []
  fe := []
  staged := []
  resvs := []
  rels := []
  watchers := []
  notices := []
  xlats := []
  heldPages := []
  refused := []
  trans := []
  pdbase := 0
  logBase := 0
  logSize := 0
  logNext := 0
  logSeq := 0
  logWait := []
  msix := []
  boards := []
  refs := []
  gangs := []
  windows := Vector.replicate 24 Window.reset
  winMem := []
  dmode := 0
  dmodeErr := false
  plim := 3000
  degraded := Config.fuseDegraded
  dies := Vector.replicate 6 Die.reset
  skips := []
  failing := []
  snapshots := []
  snapStaged := []
  bar4 := []
  lostPkgs := []
  lostDies := []
  unreach := []
  unreachPkgs := []
  ports := Vector.replicate 24 true
  bridges := Vector.replicate 11 Bridge.reset
  wear := []
  wearNext := 0
  wearNew := []
  root := Root.reset
  hostRead := .none
  timebase := 0
  node := 0
  domPkg := 0
  domPkgs := 1
  agenda := []
  focus := 0
  curTile := 0
  curSlot := 1
  free := 0
  stamp := 0

end Sys2Proof.Machine
end

