-- ==== Sys2Proof/Machine/Flags.lean ====
section
/-! DEFINITION. Every flag computation: the sticky flags of `fpcsr` and `vstat` (R26, R44, R101, R135), the block flags SNF and
QUF (R87, R88) and SAT (R81). Flags are only ever set by arithmetic; only a CSR write clears them (R44). -/

namespace Sys2Proof.Machine

/-- The flags of a vector or engine operation: the IEEE five and SAT, SNF, QUF (R44). -/
structure VFlags where
  ieee : FFlags
  sat  : Bool
  snf  : Bool
  quf  : Bool
  deriving DecidableEq, Repr

def VFlags.none : VFlags := ⟨FFlags.none, false, false, false⟩
def VFlags.or (a b : VFlags) : VFlags := ⟨a.ieee.or b.ieee, a.sat || b.sat, a.snf || b.snf, a.quf || b.quf⟩
def VFlags.ofIeee (x : FFlags) : VFlags := ⟨x, false, false, false⟩

/-- The flags in the bit order of `vstat`[7:0] (R44). -/
def VFlags.bits (x : VFlags) : BitVec 64 :=
  (if x.sat then 128 else 0) ||| (if x.snf then 64 else 0) ||| (if x.quf then 32 else 0) ||| x.ieee.bits

/-- Scalar results set their flags in `fpcsr` (R101). -/
def Thread.flagF (th : Thread) (x : FFlags) : Thread := { th with fpcsr := th.fpcsr ||| x.bits }

/-- Vector results set their flags in `vstat` (R135). -/
def Thread.flagV (th : Thread) (x : VFlags) : Thread := { th with vstat := th.vstat ||| x.bits }

/-- FRM of `fpcsr` (R44). -/
def Thread.frm (th : Thread) : RMode :=
  match (th.fpcsr.toNat / 32) % 8 with
  | 0 => .rne
  | 1 => .rtz
  | 2 => .rdn
  | _ => .rup

/-- The rounding mode of a rounding code; `dyn` reads FRM at execution (R62). -/
def Thread.mode (th : Thread) : Rnd → RMode
  | .rne => .rne
  | .rtz => .rtz
  | .rdn => .rdn
  | .rup => .rup
  | .dyn => th.frm

end Sys2Proof.Machine
end

