-- ==== Sys2Proof/Machine/Blocks.lean ====
section
/-! DEFINITION. The shared-exponent block formats: encoding, decoding and the storage form (R84-R88). -/

namespace Sys2Proof.Machine

/-- A block: scale code, the shifts of its four quads, and the sign and magnitude of its sixteen elements (R84). -/
structure Blk where
  e     : Nat
  sigma : List Nat
  elems : List (Bool × Nat)
  deriving DecidableEq, Repr

/-- floor(log2 |x|) of a finite nonzero value; none of zero. -/
def floorLog2 : FVal → Option Int
  | .fin _ m e => if m = 0 then none else some (Nat.log2 m + e)
  | _ => none

/-- The greatest of the logarithms, which is the logarithm of the greatest magnitude. -/
def maxLog : List FVal → Option Int
  | [] => none
  | x :: xs => match floorLog2 x, maxLog xs with
    | some a, some b => some (max a b)
    | some a, none => some a
    | none, r => r

/-- Sign and magnitude of an element at a step of 2^k, saturated to b bits, and whether it is inexact (R87). -/
def encodeElem (b : Nat) (k : Int) : FVal → (Bool × Nat) × Bool
  | .fin n m e =>
    let r := if k ≤ e then (m * 2 ^ (e - k).toNat, false) else roundShift .rne false m (k - e).toNat false
    ((n, min r.1 (2 ^ b - 1)), r.2)
  | _ => ((false, 0), false)

/-- The nth quad of a list of sixteen. -/
def quad {α : Type} (xs : List α) (q : Nat) : List α := (xs.drop (4 * q)).take 4

/-- `BlockEncode` (R87) of sixteen values. -/
def blockEncode (b : Nat) (xs : List FVal) : Blk × VFlags :=
  let bad := xs.any fun x => match x with | .fin _ _ _ => false | _ => true
  if bad then (⟨0xFF, [0, 0, 0, 0], List.replicate 16 (false, 0)⟩, { VFlags.none with snf := true })
  else match maxLog xs with
  | none => (⟨0, [0, 0, 0, 0], List.replicate 16 (false, 0)⟩, VFlags.none)
  | some l =>
    let quf := decide (l < -127)
    let X : Int := if l < -127 then -127 else l
    let shift (q : Nat) : Nat := match maxLog (quad xs q) with
      | none => 3
      | some m => min 3 (X - m).toNat
    let sig := (List.range 4).map shift
    let es := (List.range 4).flatMap fun q => (quad xs q).map (encodeElem b (X - shift q - (b - 1)))
    (⟨(X + 127).toNat, sig, es.map Prod.fst⟩,
      { VFlags.none with ieee := { FFlags.none with nx := es.any Prod.snd }, quf := quf })

/-- The exact values of a block (R84, R88): sixteen NaNs when the scale code is 0xFF. -/
def blockValues (b : Nat) (x : Blk) : List FVal :=
  if x.e = 0xFF then List.replicate 16 .nan
  else
    let X : Int := x.e - 127
    ((List.range 16).zip x.elems).map fun p =>
      .fin p.2.1 p.2.2 (X - (x.sigma.getD (p.1 / 4) 0 : Nat) - (b - 1))

/-- The flags of decoding a block (R88). -/
def blockDecodeFlags (x : Blk) : VFlags := if x.e = 0xFF then { VFlags.none with snf := true } else VFlags.none

/-- The exact f32 pattern of a decoded element (R88). -/
def f32Bits (v : FVal) : Nat := (f32.finish .rne v.exact).1

/-- The shift byte (R85). -/
def shiftByte (sigma : List Nat) : Nat := ((List.range 4).zip sigma).foldl (fun acc p => acc + p.2 % 4 * 4 ^ p.1) 0
def shiftsOf (x : Nat) : List Nat := (List.range 4).map fun q => x / 4 ^ q % 4

/-- The element field: element j at bits [(b + 1)j + b : (b + 1)j] (R85). -/
def elemField (b : Nat) : List (Bool × Nat) → Nat
  | [] => 0
  | (n, m) :: xs => (if n then 2 ^ b else 0) + m % 2 ^ b + 2 ^ (b + 1) * elemField b xs

/-- The bytes of a block of element width b (R85). -/
def blkBytes (b : Nat) : Nat := 2 + 2 * (b + 1)

/-- The storage form of a block (R85). -/
def blockStore (b : Nat) (x : Blk) : List Nat :=
  let f := elemField b x.elems
  x.e :: shiftByte x.sigma :: (List.range (2 * (b + 1))).map fun i => f / 256 ^ i % 256

/-- The block in its storage form as one number, its first byte lowest (R85). -/
def blockLoad (b : Nat) (n : Nat) : Blk :=
  let f := n / 65536
  ⟨n % 256, shiftsOf (n / 256 % 256),
    (List.range 16).map fun j => (decide (f / 2 ^ ((b + 1) * j + b) % 2 = 1), f / 2 ^ ((b + 1) * j) % 2 ^ b)⟩

end Sys2Proof.Machine
end

