-- ==== Sys2Proof/WellFormed.lean ====
section
/-! DEFINITION. The checks of an instruction's fields that its Lean type does not already make (spec/03_encoding.md, R59,
R60, R63, R66; the entries' own tables). The arguments of an event name a tile, a die or a cluster that exists. -/

namespace Sys2Proof

/-- A bit field lies within the register (R59, BITF). -/
def bitfieldOk (p l : BitVec 6) : Bool := p.toNat + l.toNat + 1 ≤ 64

/-- A skip count of 00 is illegal (R108). -/
def skipOk (n : BitVec 2) : Bool := n.toNat ≠ 0

/-- A pair field is even (R204, R86). -/
def evenOk (r : Reg) : Bool := r.val % 2 = 0

/-- A four-register operand of `vq` and `vdq`: a multiple of 4 no greater than 20 (R147, R148). -/
def quadOk (r : Reg) : Bool := r.val % 4 = 0 && r.val ≤ 20

/-- The c field of `cpym`: a multiple of 4 from 4 to 28 (R310). -/
def cpymOk (r : Reg) : Bool := r.val % 4 = 0 && 4 ≤ r.val && r.val ≤ 28

/-- A vector field of `acrd` and `acwr`: 0 to 23 (R323). -/
def plainVecOk (r : Reg) : Bool := r.val < 24

/-- VCMP functions 0-5 accept integer types only, functions 6-9 floating types only (R60). -/
def vcmpOk (f : VCond) (t : ETy) : Bool :=
  match f, t with
  | .eq, .i32 | .eq, .i16 | .eq, .i8 | .ne, .i32 | .ne, .i16 | .ne, .i8 | .lt, .i32 | .lt, .i16 | .lt, .i8 => true
  | .ge, .i32 | .ge, .i16 | .ge, .i8 | .ltn, .i32 | .ltn, .i16 | .ltn, .i8 | .gen, .i32 | .gen, .i16 | .gen, .i8 => true
  | .feq, .f32 | .feq, .bf16 | .feq, .f16 | .flt, .f32 | .flt, .bf16 | .flt, .f16 => true
  | .fle, .f32 | .fle, .bf16 | .fle, .f16 | .fun, .f32 | .fun, .bf16 | .fun, .f16 => true
  | _, _ => false

/-- A logical tile of the package (R3). -/
def tileOk (t : TileId) : Bool := t < 1536

/-- A compute die (R1). -/
def dieOk (d : Nat) : Bool := d < 6

/-- The fields of an instruction or event that its type leaves unchecked. -/
def Instr.wellFormed : Instr → Bool
  | .ext _ _ p l | .extn _ _ p l | .ins _ _ p l => bitfieldOk p l
  | .sk _ n _ _ | .ski _ n _ _ | .fsk _ n _ _ | .fskd _ n _ _ => skipOk n
  | .fcvt _ _ c b _ _ => c ≠ b
  | .vcmp f t _ _ _ _ => vcmpOk f t
  | .vq _ _ _ a b => quadOk a && evenOk b
  | .vdq _ _ d _ b => quadOk d && evenOk b
  | .msend _ _ b | .msendt _ _ b => evenOk b
  | .mrecv d _ _ | .mwait d _ _ => evenOk d
  | .cpym _ _ _ c => cpymOk c
  | .acrd d _ => plainVecOk d
  | .acwr b _ => plainVecOk b
  | .annulledWord t _ | .resultLand t _ _ | .loadFill t _ _ | .storeAck t _ _ | .releaseLeaves t _ => tileOk t
  | .homeAccess t _ | .answer t _ | .withdrawal t _ | .withdrawalConfirm t _ | .monitorNotice t _ _ => tileOk t
  | .mslpTimeout t _ | .wadrTimeout t _ | .barrierComplete t | .horizonPublish t _ => tileOk t
  | .streamFetch t _ _ | .streamWrite t _ _ | .streamElementAck t _ _ => tileOk t
  | .carrierAccept t | .fretboardEnter t | .dispatch t _ | .addressGeneration t _ _ | .readDone t _ => tileOk t
  | .operationComplete t _ | .errorCompletion t _ _ | .weltApply t | .kChunkBoundary ⟨t, _⟩ => tileOk t
  | .groupBroadcast t _ m => tileOk t && tileOk m
  | .bankFormatWrite t _ _ | .headerStore t _ _ _ | .bindingRecordStore t _ _ _ | .watchpointControlWrite t _ _ => tileOk t
  | .timer t _ | .rsvTimeout t _ | .trapEntry t _ | .pairCopyDone t | .intervalEnd t _ => tileOk t
  | .translationWalk die station _ _ => dieOk die && decide (station < 8)
  | .debugHalt d | .debugResume d | .thermalThrottle d _ | .thermalStop d => dieOk d
  | .supplyDroop d => d < 8
  | .inFieldTest d c _ => dieOk d && decide (c < 16)
  | .arbiterPeriod gs => gs.length = 6
  | _ => true

end Sys2Proof
end

