-- ==== Sys2Proof/Decode.lean ====
section
/-! DEFINITION. Decoding and encoding of the one-word instructions (spec/03_encoding.md). A word is split once into the
fields of R57; every decision is made on those fields. A word that is no instruction is refused by the name of the check it
fails (R69, steps 2 to 4). -/

namespace Sys2Proof

/-- The bit-field helpers. -/
def signExt (n : Nat) (x : BitVec n) : Word := x.signExtend 64

/-- The fields of R57 as numbers: op 7 bits, the others 5. -/
structure Fields where
  op : Nat
  d  : Nat
  a  : Nat
  b  : Nat
  c  : Nat
  f  : Nat
  deriving DecidableEq, Repr

/-- The fields of a word (R57). -/
def Fields.ofWord (w : Insn) : Fields :=
  { op := w.toNat % 128, d := w.toNat / 2 ^ 7 % 32, a := w.toNat / 2 ^ 12 % 32, b := w.toNat / 2 ^ 17 % 32,
    c := w.toNat / 2 ^ 22 % 32, f := w.toNat / 2 ^ 27 % 32 }

/-- The word of six fields (R57). -/
def Fields.toWord (x : Fields) : Insn :=
  BitVec.ofNat 32 (x.op + x.d * 2 ^ 7 + x.a * 2 ^ 12 + x.b * 2 ^ 17 + x.c * 2 ^ 22 + x.f * 2 ^ 27)

/-- imm12 of format I, bits [31:20] (R58). -/
def Fields.imm12 (x : Fields) : Nat := x.f * 128 + x.c * 4 + x.b / 8
/-- f3 of format I, bits [19:17]. -/
def Fields.f3 (x : Fields) : Nat := x.b % 8
/-- The offset of format S: immhi [31:25], immlo [11:7]. -/
def Fields.immS (x : Fields) : Nat := (x.f * 4 + x.c / 8) * 32 + x.d
/-- f3 of format S, bits [24:22]. -/
def Fields.f3S (x : Fields) : Nat := x.c % 8
/-- cc of formats K and KI, bits [11:9]. -/
def Fields.cc (x : Fields) : Nat := x.d / 4
/-- n of formats K and KI, bits [8:7]. -/
def Fields.n (x : Fields) : Nat := x.d % 4
/-- imm15 of format KI, bits [31:17]. -/
def Fields.imm15 (x : Fields) : Nat := x.f * 1024 + x.c * 32 + x.b
/-- imm10 of format B, bits [31:22]. -/
def Fields.imm10 (x : Fields) : Nat := x.f * 32 + x.c
/-- imm20 of formats J and U, bits [31:12]. -/
def Fields.imm20 (x : Fields) : Nat := ((x.f * 32 + x.c) * 32 + x.b) * 32 + x.a
/-- f4 of format V, bits [31:28]. -/
def Fields.f4 (x : Fields) : Nat := x.f / 2
/-- t of format V, bits [27:25]. -/
def Fields.t (x : Fields) : Nat := x.f % 2 * 4 + x.c / 8
/-- g of format V, bits [24:22]. -/
def Fields.g (x : Fields) : Nat := x.c % 8

/-- The fields of a format I word. -/
def fieldsI (op f3 imm a d : Nat) : Fields := ⟨op, d, a, imm % 4 * 8 + f3, imm / 4 % 32, imm / 128⟩
/-- The fields of a format S word. -/
def fieldsS (op f3 imm b a : Nat) : Fields := ⟨op, imm % 32, a, b, imm / 32 % 4 * 8 + f3, imm / 128⟩
/-- The fields of a format K word. -/
def fieldsK (op cc n b a : Nat) : Fields := ⟨op, cc * 4 + n, a, b, 0, 0⟩
/-- The fields of a format KI word. -/
def fieldsKI (op cc n imm a : Nat) : Fields := ⟨op, cc * 4 + n, a, imm % 32, imm / 32 % 32, imm / 1024⟩
/-- The fields of a format B word. -/
def fieldsB (op cc imm b a : Nat) : Fields := ⟨op, cc, a, b, imm % 32, imm / 32⟩
/-- The fields of a format J or U word. -/
def fieldsU (op imm d : Nat) : Fields := ⟨op, d, imm % 32, imm / 32 % 32, imm / 1024 % 32, imm / 32768⟩
/-- The fields of a format V word. -/
def fieldsV (op f4 t g b a d : Nat) : Fields := ⟨op, d, a, b, t % 4 * 8 + g, f4 * 2 + t / 4⟩
/-- The fields of a format R or X word. -/
def fieldsR (op f c b a d : Nat) : Fields := ⟨op, d, a, b, c, f⟩

/-- Why a word is no instruction (R69, steps 2 to 4). -/
inductive Illegal where
  | major      -- step 2: the major is not assigned
  | function   -- step 3: the function, f3, cc or n value is illegal for the major
  | field      -- step 4: a must-be-zero field is nonzero, or a code is illegal
  | length     -- fewer than four bytes
  deriving DecidableEq, Repr

/-- The codes of the qualifiers, and their readings (R60-R63, R65, R115, R141, R147, R204, R348). -/
def Rnd.code : Rnd → Nat
  | .rne => 0 | .rtz => 1 | .rdn => 2 | .rup => 3 | .dyn => 7
def Rnd.ofCode : Nat → Option Rnd
  | 0 => some .rne | 1 => some .rtz | 2 => some .rdn | 3 => some .rup | 7 => some .dyn | _ => none
def SkCond.code : SkCond → Nat
  | .eq => 0 | .ne => 1 | .lt => 2 | .ge => 3 | .ltn => 4 | .gen => 5 | .tst => 6 | .ntst => 7
def SkCond.ofCode : Nat → Option SkCond
  | 0 => some .eq | 1 => some .ne | 2 => some .lt | 3 => some .ge | 4 => some .ltn | 5 => some .gen | 6 => some .tst
  | 7 => some .ntst | _ => none
def FskCond.code : FskCond → Nat
  | .feq => 0 | .fne => 1 | .flt => 2 | .fge => 3 | .fle => 4 | .fgt => 5 | .fun => 6 | .ford => 7
def FskCond.ofCode : Nat → Option FskCond
  | 0 => some .feq | 1 => some .fne | 2 => some .flt | 3 => some .fge | 4 => some .fle | 5 => some .fgt | 6 => some .fun
  | 7 => some .ford | _ => none
def BrCond.code : BrCond → Nat
  | .eq => 0 | .ne => 1 | .lt => 2 | .ge => 3 | .ltn => 4 | .gen => 5
def BrCond.ofCode : Nat → Option BrCond
  | 0 => some .eq | 1 => some .ne | 2 => some .lt | 3 => some .ge | 4 => some .ltn | 5 => some .gen | _ => none
def LdType.code : LdType → Nat
  | .i8 => 0 | .n8 => 1 | .i16 => 2 | .n16 => 3 | .i32 => 4 | .n32 => 5 | .i64 => 6
def LdType.ofCode : Nat → Option LdType
  | 0 => some .i8 | 1 => some .n8 | 2 => some .i16 | 3 => some .n16 | 4 => some .i32 | 5 => some .n32 | 6 => some .i64
  | _ => none
def StSize.code : StSize → Nat
  | .b8 => 0 | .b16 => 1 | .b32 => 2 | .b64 => 3
def StSize.ofCode : Nat → Option StSize
  | 0 => some .b8 | 1 => some .b16 | 2 => some .b32 | 3 => some .b64 | _ => none
def Scope.code : Scope → Nat
  | .tile => 0 | .cluster => 1 | .die => 2 | .package => 3 | .domain => 4
def Scope.ofCode : Nat → Option Scope
  | 0 => some .tile | 1 => some .cluster | 2 => some .die | 3 => some .package | 4 => some .domain | _ => none
def CvtType.code : CvtType → Nat
  | .f32 => 0 | .f64 => 1 | .bf16 => 2 | .f16 => 3 | .i32 => 4 | .n32 => 5 | .i64 => 6 | .n64 => 7
def CvtType.ofCode : Nat → Option CvtType
  | 0 => some .f32 | 1 => some .f64 | 2 => some .bf16 | 3 => some .f16 | 4 => some .i32 | 5 => some .n32 | 6 => some .i64
  | 7 => some .n64 | _ => none
def FTy.code : FTy → Nat
  | .f32 => 0 | .bf16 => 1 | .f16 => 2
def FTy.ofCode : Nat → Option FTy
  | 0 => some .f32 | 1 => some .bf16 | 2 => some .f16 | _ => none
def ITy.code : ITy → Nat
  | .i32 => 4 | .i16 => 5 | .i8 => 6
def ITy.ofCode : Nat → Option ITy
  | 4 => some .i32 | 5 => some .i16 | 6 => some .i8 | _ => none
def ETy.code : ETy → Nat
  | .f32 => 0 | .bf16 => 1 | .f16 => 2 | .i32 => 4 | .i16 => 5 | .i8 => 6
def ETy.ofCode : Nat → Option ETy
  | 0 => some .f32 | 1 => some .bf16 | 2 => some .f16 | 4 => some .i32 | 5 => some .i16 | 6 => some .i8 | _ => none
def NTy.code : NTy → Nat
  | .bf16 => 1 | .f16 => 2 | .i16 => 5 | .i8 => 6
def NTy.ofCode : Nat → Option NTy
  | 1 => some .bf16 | 2 => some .f16 | 5 => some .i16 | 6 => some .i8 | _ => none
def STy.code : STy → Nat
  | .f32 => 0 | .bf16 => 1 | .f16 => 2 | .i32 => 4
def STy.ofCode : Nat → Option STy
  | 0 => some .f32 | 1 => some .bf16 | 2 => some .f16 | 4 => some .i32 | _ => none
def WTy.code : WTy → Nat
  | .f32 => 0 | .i32 => 4
def WTy.ofCode : Nat → Option WTy
  | 0 => some .f32 | 4 => some .i32 | _ => none
def VCond.code : VCond → Nat
  | .eq => 0 | .ne => 1 | .lt => 2 | .ge => 3 | .ltn => 4 | .gen => 5 | .feq => 6 | .flt => 7 | .fle => 8 | .fun => 9
def VCond.ofCode : Nat → Option VCond
  | 0 => some .eq | 1 => some .ne | 2 => some .lt | 3 => some .ge | 4 => some .ltn | 5 => some .gen | 6 => some .feq
  | 7 => some .flt | 8 => some .fle | 9 => some .fun | _ => none
def BlkSel.code : BlkSel → Nat
  | .sx7 => 0 | .sx4 => 1 | .sx2l => 2 | .sx2h => 4
def BlkSel.ofCode : Nat → Option BlkSel
  | 0 => some .sx7 | 1 => some .sx4 | 2 => some .sx2l | 4 => some .sx2h | _ => none
def RegClass.code : RegClass → Nat
  | .scalar => 0 | .vector => 1
def RegClass.ofCode : Nat → Option RegClass
  | 0 => some .scalar | 1 => some .vector | _ => none
def MmaFmt.code : MmaFmt → Nat
  | .bf16 => 0 | .f16 => 1 | .sx7 => 2 | .sx4 => 3 | .sx2 => 4 | .i8 => 5 | .f32x3 => 6 | .f32x6 => 7
def MmaFmt.ofCode : Nat → Option MmaFmt
  | 0 => some .bf16 | 1 => some .f16 | 2 => some .sx7 | 3 => some .sx4 | 4 => some .sx2 | 5 => some .i8 | 6 => some .f32x3
  | 7 => some .f32x6 | _ => none
def MsgOrd.code : MsgOrd → Nat
  | .plain => 0 | .rel sc => sc.code + 1
def MsgOrd.ofCode : Nat → Option MsgOrd
  | 0 => some .plain | 1 => some (.rel .tile) | 2 => some (.rel .cluster) | 3 => some (.rel .die) | 4 => some (.rel .package)
  | 5 => some (.rel .domain) | _ => none
def PrmOrd.code : PrmOrd → Nat
  | .hdr => 0 | .strict => 1 | .arrival => 2
def PrmOrd.ofCode : Nat → Option PrmOrd
  | 0 => some .hdr | 1 => some .strict | 2 => some .arrival | _ => none
/-- The size bit z: 0 is 64 bits, 1 is 32 bits. -/
def Size.code : Size → Nat
  | .w64 => 0 | .w32 => 1
def Size.ofCode : Nat → Option Size
  | 0 => some .w64 | 1 => some .w32 | _ => none
/-- FOP32 is major 0x40, FOP64 major 0x41. -/
def Prec.code : Prec → Nat
  | .single => 0 | .double => 1
def PrmPolicy.code : PrmPolicy → Nat
  | .absorb => 0 | .revert => 1
def PrmSel.code : PrmSel → Nat
  | .promise => 0 | .header => 1

/-- A register field (R57). -/
def reg (n : Nat) : Reg := Fin.ofNat 32 n
/-- The g field of format V (R58). -/
def greg (n : Nat) : GReg := Fin.ofNat 8 n

/-- Step 4 of R69: the code or the zero fields of a word. -/
def legal (ok : Bool) (i : Instr) : Except Illegal Instr := if ok then .ok i else .error .field
/-- Step 4 of R69 for a coded qualifier. -/
def coded {α : Type} (x : Option α) (k : α → Except Illegal Instr) : Except Illegal Instr :=
  match x with
  | some y => k y
  | none => .error .field
/-- A guard field: 0-7 (R64). -/
def guardF (n : Nat) (k : GReg → Except Illegal Instr) : Except Illegal Instr :=
  if n < 8 then k (Fin.ofNat 8 n) else .error .field
/-- A stream field: 24-31 (R64). -/
def streamF (n : Nat) (k : StreamReg → Except Illegal Instr) : Except Illegal Instr :=
  if 24 ≤ n then k (Fin.ofNat 8 (n - 24)) else .error .field

/-- OPI (R102). -/
def decodeOpi (x : Fields) : Except Illegal Instr :=
  let d := reg x.d; let a := reg x.a; let b := reg x.b
  let two := fun i => legal (x.c = 0) i
  let one := fun i => legal (x.c = 0 && x.b = 0) i
  match x.f with
  | 0 => two (.add d a b) | 1 => two (.sub d a b) | 2 => two (.and d a b) | 3 => two (.or d a b) | 4 => two (.xor d a b)
  | 5 => two (.sll d a b) | 6 => two (.srl d a b) | 7 => two (.sra d a b) | 8 => two (.slt d a b) | 9 => two (.sltn d a b)
  | 10 => two (.min d a b) | 11 => two (.max d a b) | 12 => two (.minn d a b) | 13 => two (.maxn d a b)
  | 14 => two (.mul d a b) | 15 => two (.mulh d a b) | 16 => two (.mulhn d a b) | 17 => two (.div d a b)
  | 18 => two (.divn d a b) | 19 => two (.rem d a b) | 20 => two (.remn d a b) | 21 => two (.rot d a b)
  | 22 => one (.clz d a) | 23 => one (.ctz d a) | 24 => one (.popc d a) | 25 => .ok (.sel d a b (reg x.c))
  | _ => .error .function

/-- IMMI (R105): function 6 is the shifts, kind in imm[7:6], imm[11:8] zero (R59). -/
def decodeImmi (x : Fields) : Except Illegal Instr :=
  let d := reg x.d; let a := reg x.a; let i := BitVec.ofNat 12 x.imm12
  match x.f3 with
  | 0 => .ok (.addi d a i) | 1 => .ok (.andi d a i) | 2 => .ok (.ori d a i) | 3 => .ok (.xori d a i)
  | 4 => .ok (.slti d a i) | 5 => .ok (.sltni d a i)
  | 6 =>
    let h := BitVec.ofNat 6 (x.imm12 % 64)
    match x.imm12 / 64 with
    | 0 => .ok (.slli d a h) | 1 => .ok (.srli d a h) | 2 => .ok (.srai d a h) | _ => .error .field
  | _ => .error .function

/-- BITF (R107). -/
def decodeBitf (x : Fields) : Except Illegal Instr :=
  let d := reg x.d; let a := reg x.a
  let p := BitVec.ofNat 6 (x.imm12 % 64); let l := BitVec.ofNat 6 (x.imm12 / 64)
  match x.f3 with
  | 0 => legal (bitfieldOk p l) (.ext d a p l)
  | 1 => legal (bitfieldOk p l) (.extn d a p l)
  | 2 => legal (bitfieldOk p l) (.ins d a p l)
  | _ => .error .function

/-- SK, FSK32, FSK64 (R108): n = 00 is illegal, [31:22] zero. -/
def decodeSk (x : Fields) : Except Illegal Instr :=
  let n := BitVec.ofNat 2 x.n
  match SkCond.ofCode x.cc with
  | some c => if x.n = 0 then .error .function else legal (x.f = 0 && x.c = 0) (.sk c n (reg x.a) (reg x.b))
  | none => .error .function
def decodeSki (x : Fields) : Except Illegal Instr :=
  match SkCond.ofCode x.cc with
  | some c => if x.n = 0 then .error .function else .ok (.ski c (BitVec.ofNat 2 x.n) (reg x.a) (BitVec.ofNat 15 x.imm15))
  | none => .error .function
def decodeFsk (mk : FskCond → BitVec 2 → Reg → Reg → Instr) (x : Fields) : Except Illegal Instr :=
  match FskCond.ofCode x.cc with
  | some c => if x.n = 0 then .error .function else legal (x.f = 0 && x.c = 0) (mk c (BitVec.ofNat 2 x.n) (reg x.a) (reg x.b))
  | none => .error .function

/-- LD and ST (R115). -/
def decodeLd (x : Fields) : Except Illegal Instr :=
  match LdType.ofCode x.f3 with
  | some t => .ok (.ld t (reg x.d) (reg x.a) (BitVec.ofNat 12 x.imm12))
  | none => .error .function
def decodeSt (x : Fields) : Except Illegal Instr :=
  match StSize.ofCode x.f3S with
  | some z => .ok (.st z (reg x.b) (reg x.a) (BitVec.ofNat 12 x.immS))
  | none => .error .function

/-- LDX (R262, R265): the scope in c for the acquires; b zero; c zero for the full/empty forms. -/
def decodeLdx (x : Fields) : Except Illegal Instr :=
  let d := reg x.d; let a := reg x.a
  match x.f with
  | 0 => coded (Scope.ofCode x.c) fun sc => legal (x.b = 0) (.ldAcq .w64 sc d a)
  | 1 => coded (Scope.ofCode x.c) fun sc => legal (x.b = 0) (.ldAcq .w32 sc d a)
  | 2 => legal (x.c = 0 && x.b = 0) (.ldfe64 d a)
  | 3 => legal (x.c = 0 && x.b = 0) (.ldff64 d a)
  | 4 => legal (x.c = 0 && x.b = 0) (.ldfe32 d a)
  | 5 => legal (x.c = 0 && x.b = 0) (.ldff32 d a)
  | _ => .error .function

/-- STX (R262, R265). -/
def decodeStx (x : Fields) : Except Illegal Instr :=
  let b := reg x.b; let a := reg x.a
  match x.f with
  | 0 => coded (Scope.ofCode x.c) fun sc => legal (x.d = 0) (.stRel .w64 sc b a)
  | 1 => coded (Scope.ofCode x.c) fun sc => legal (x.d = 0) (.stRel .w32 sc b a)
  | 2 => legal (x.c = 0 && x.d = 0) (.stef .w64 b a)
  | 3 => legal (x.c = 0 && x.d = 0) (.stef .w32 b a)
  | 4 => legal (x.c = 0 && x.d = 0) (.stff .w64 b a)
  | 5 => legal (x.c = 0 && x.d = 0) (.stff .w32 b a)
  | 6 => legal (x.c = 0 && x.d = 0 && x.b = 0) (.ste a)
  | _ => .error .function

/-- ATOM (R267): functions 0-12 are 64-bit, 16-28 the same list at 32 bits (R65). -/
def decodeAtom (x : Fields) : Except Illegal Instr :=
  let d := reg x.d; let a := reg x.a; let b := reg x.b
  let z := if x.f < 16 then Size.w64 else Size.w32
  let rmw := fun i => legal (x.c = 0) i
  match x.f % 16 with
  | 0 => legal (x.b = 0 && x.c = 0) (.arsv z d a)
  | 1 => legal (x.d = 0 && x.c = 0) (.arel z b a)
  | 2 => rmw (.aadd z d a b) | 3 => rmw (.amin z d a b) | 4 => rmw (.amax z d a b) | 5 => rmw (.aminn z d a b)
  | 6 => rmw (.amaxn z d a b) | 7 => rmw (.aand z d a b) | 8 => rmw (.aor z d a b) | 9 => rmw (.axor z d a b)
  | 10 => rmw (.axchg z d a b) | 11 => .ok (.acas z d a b (reg x.c)) | 12 => rmw (.aaddf z d a b)
  | _ => .error .function

/-- FENCE (R273): b, a and d zero; c the scope, zero for `fence.i`. -/
def decodeFence (x : Fields) : Except Illegal Instr :=
  let z : Bool := x.b = 0 && x.a = 0 && x.d = 0
  match x.f with
  | 0 => coded (Scope.ofCode x.c) fun sc => legal z (.fence sc)
  | 1 => coded (Scope.ofCode x.c) fun sc => legal z (.fenceLd sc)
  | 2 => coded (Scope.ofCode x.c) fun sc => legal z (.fenceSt sc)
  | 3 => coded (Scope.ofCode x.c) fun sc => legal z (.xfence sc)
  | 4 => legal (z && x.c = 0) .fenceI
  | _ => .error .function

/-- WAIT (R124): tl [31:28], cp [27:24], st [23:20], ld [19:16], [15:7] zero. -/
def decodeWait (x : Fields) : Except Illegal Instr :=
  legal (x.imm20 % 16 = 0 && x.d = 0)
    (.wait (BitVec.ofNat 4 (x.imm20 / 65536)) (BitVec.ofNat 4 (x.imm20 / 4096 % 16)) (BitVec.ofNat 4 (x.imm20 / 256 % 16))
      (BitVec.ofNat 4 (x.imm20 / 16 % 16)))

/-- BR (R112): [11:10] zero. -/
def decodeBr (x : Fields) : Except Illegal Instr :=
  match BrCond.ofCode (x.d % 8) with
  | some c => legal (x.d / 8 = 0) (.br c (reg x.a) (reg x.b) (BitVec.ofNat 10 x.imm10))
  | none => .error .function

/-- JLR (R114). -/
def decodeJlr (x : Fields) : Except Illegal Instr :=
  if x.f3 = 0 then .ok (.jlr (reg x.d) (reg x.a) (BitVec.ofNat 12 x.imm12)) else .error .function

/-- CSR (R121): field a of `csrr` must be 0. -/
def decodeCsr (x : Fields) : Except Illegal Instr :=
  let d := reg x.d; let n := BitVec.ofNat 12 x.imm12
  match x.f3 with
  | 0 => legal (x.a = 0) (.csrr d n)
  | 1 => .ok (.csrw d n (reg x.a)) | 2 => .ok (.csrs d n (reg x.a)) | 3 => .ok (.csrc d n (reg x.a))
  | _ => .error .function

/-- SYS (R359). -/
def decodeSys (x : Fields) : Except Illegal Instr :=
  let bare : Bool := x.c = 0 && x.b = 0 && x.a = 0 && x.d = 0
  match x.f with
  | 0 => legal (x.b = 0 && x.a = 0 && x.d = 0) (.sys (BitVec.ofNat 5 x.c))
  | 1 => legal bare .eret
  | 2 => legal (x.b = 0 && x.a = 0 && x.d = 0) (.brk (BitVec.ofNat 5 x.c))
  | 3 => legal (x.c = 0 && x.b = 0 && x.d = 0) (.tkill (reg x.a))
  | 4 => legal (x.c = 0 && x.b = 0) (.pair (reg x.d) (reg x.a))
  | 5 => legal bare .unpair
  | 6 => legal bare .fprt
  | 7 => legal bare .mxfrz
  | 8 => legal bare .mxthaw
  | 9 => legal (x.c = 0 && x.b = 0 && x.d = 0) (.scrub (reg x.a))
  | _ => .error .function

/-- FOP32 and FOP64 (R62, R128). -/
def decodeFop (p : Prec) (x : Fields) : Except Illegal Instr :=
  let d := reg x.d; let a := reg x.a; let b := reg x.b; let c := reg x.c
  let rnd := fun (k : Rnd → Instr) => coded (Rnd.ofCode x.c) fun r => .ok (k r)
  let pl := fun i => legal (x.c = 0) i
  match x.f with
  | 0 => rnd fun r => .fadd p r d a b
  | 1 => rnd fun r => .fsub p r d a b
  | 2 => rnd fun r => .fmul p r d a b
  | 3 => rnd fun r => .fdiv p r d a b
  | 4 => coded (Rnd.ofCode x.c) fun r => legal (x.b = 0) (.fsqrt p r d a)
  | 5 => pl (.fmin p d a b) | 6 => pl (.fmax p d a b) | 7 => pl (.fsgnj p d a b) | 8 => pl (.fsgnjn p d a b)
  | 9 => pl (.fsgnjx p d a b) | 10 => .ok (.fma p d a b c) | 11 => .ok (.fms p d a b c) | 12 => .ok (.fnma p d a b c)
  | 13 => legal (x.c = 0 && x.b = 0) (.fclass p d a)
  | 14 => pl (.feq p d a b) | 15 => pl (.flt p d a b) | 16 => pl (.fle p d a b)
  | _ => .error .function

/-- FCVT (R62, R63): f[2:0] rounding, f[3] saturation, f[4] zero. -/
def decodeFcvt (x : Fields) : Except Illegal Instr :=
  coded (Rnd.ofCode (x.f % 8)) fun r => coded (CvtType.ofCode x.c) fun c => coded (CvtType.ofCode x.b) fun b =>
    legal (x.f / 16 = 0 && decide (c ≠ b)) (.fcvt (x.f / 8 % 2 = 1) r c b (reg x.d) (reg x.a))

/-- VOPF (R138): functions 7-12 are unary, b zero. -/
def decodeVopf (x : Fields) : Except Illegal Instr :=
  let g := greg x.g; let d := reg x.d; let a := reg x.a; let b := reg x.b
  let two := fun (k : FTy → Instr) => coded (FTy.ofCode x.t) fun t => .ok (k t)
  let one := fun (k : FTy → Instr) => coded (FTy.ofCode x.t) fun t => legal (x.b = 0) (k t)
  match x.f4 with
  | 0 => two fun t => .vaddF t g d a b
  | 1 => two fun t => .vsubF t g d a b
  | 2 => two fun t => .vmulF t g d a b
  | 3 => two fun t => .vfma t g d a b
  | 4 => two fun t => .vfms t g d a b
  | 5 => two fun t => .vminF t g d a b
  | 6 => two fun t => .vmaxF t g d a b
  | 7 => one fun t => .vabsF t g d a
  | 8 => one fun t => .vneg t g d a
  | 9 => one fun t => .vrcp t g d a
  | 10 => one fun t => .vrsq t g d a
  | 11 => one fun t => .vexp2 t g d a
  | 12 => one fun t => .vlog2 t g d a
  | _ => .error .function

/-- VOPI (R140). -/
def decodeVopi (x : Fields) : Except Illegal Instr :=
  let g := greg x.g; let d := reg x.d; let a := reg x.a; let b := reg x.b
  let two := fun (k : ITy → Instr) => coded (ITy.ofCode x.t) fun t => .ok (k t)
  match x.f4 with
  | 0 => two fun t => .vaddI t g d a b
  | 1 => two fun t => .vsubI t g d a b
  | 2 => two fun t => .vmulI t g d a b
  | 3 => two fun t => .vmulh t g d a b
  | 4 => two fun t => .vminI t g d a b
  | 5 => two fun t => .vmaxI t g d a b
  | 6 => two fun t => .vminn t g d a b
  | 7 => two fun t => .vmaxn t g d a b
  | 8 => two fun t => .vand t g d a b
  | 9 => two fun t => .vor t g d a b
  | 10 => two fun t => .vxor t g d a b
  | 11 => two fun t => .vsll t g d a b
  | 12 => two fun t => .vsrl t g d a b
  | 13 => two fun t => .vsra t g d a b
  | 14 => coded (ITy.ofCode x.t) fun t => legal (x.b = 0) (.vabsI t g d a)
  | 15 => two fun t => .vadds t g d a b
  | _ => .error .function

/-- VCMP (R141): d names a guard. -/
def decodeVcmp (x : Fields) : Except Illegal Instr :=
  match VCond.ofCode x.f4 with
  | some f => coded (ETy.ofCode x.t) fun t => guardF x.d fun d => legal (vcmpOk f t) (.vcmp f t (greg x.g) d (reg x.a) (reg x.b))
  | none => .error .function

/-- VMOV (R142). -/
def decodeVmov (x : Fields) : Except Illegal Instr :=
  let g := greg x.g; let d := reg x.d; let a := reg x.a; let b := reg x.b
  let with_ := fun (ok : Bool) (k : ETy → Instr) => coded (ETy.ofCode x.t) fun t => legal ok (k t)
  match x.f4 with
  | 0 => with_ (x.b = 0) fun t => .vmov t g d a
  | 1 => with_ true fun t => .vsel t g d a b
  | 2 => with_ (x.b = 0) fun t => .vbcast t g d a
  | 3 => with_ (x.g = 0) fun t => .vextr t d a b
  | 4 => with_ (x.g = 0) fun t => .vins t d a b
  | 5 => with_ true fun t => .vperm t g d a b
  | 6 => with_ true fun t => .vrot t g d a b
  | _ => .error .function

/-- VRED (R144): b zero. -/
def decodeVred (x : Fields) : Except Illegal Instr :=
  let g := greg x.g; let d := reg x.d; let a := reg x.a
  let any := fun (k : ETy → Instr) => coded (ETy.ofCode x.t) fun t => legal (x.b = 0) (k t)
  match x.f4 with
  | 0 => any fun t => .vredAdd t g d a
  | 1 => any fun t => .vredMax t g d a
  | 2 => any fun t => .vredMin t g d a
  | 3 => any fun t => .vscanAdd t g d a
  | 4 => legal (x.t = 0 && x.b = 0) (.vscanAff g d a)
  | 5 => coded (FTy.ofCode x.t) fun t => legal (x.b = 0) (.vamax t g d a)
  | _ => .error .function

/-- VCVT (R146-R148). -/
def decodeVcvt (x : Fields) : Except Illegal Instr :=
  let g := greg x.g; let d := reg x.d; let a := reg x.a; let b := reg x.b
  match x.f4 with
  | 0 => coded (NTy.ofCode x.t) fun t => legal (x.b = 0) (.vwid t g d a)
  | 1 => coded (NTy.ofCode x.t) fun t => .ok (.vnar t g d a b)
  | 2 => coded (STy.ofCode x.t) fun t => .ok (.vscl t g d a b)
  | 3 => coded (BlkSel.ofCode x.t) fun t => legal (quadOk a && evenOk b) (.vq t g d a b)
  | 4 => coded (BlkSel.ofCode x.t) fun t => legal (quadOk d && evenOk b) (.vdq t g d a b)
  | _ => .error .function

/-- VMEM (R149). -/
def decodeVmem (x : Fields) : Except Illegal Instr :=
  let g := greg x.g; let d := reg x.d; let a := reg x.a; let b := reg x.b
  match x.f4 with
  | 0 => coded (ETy.ofCode x.t) fun t => legal (x.b = 0) (.vld t g d a)
  | 1 => coded (ETy.ofCode x.t) fun t => legal (x.b = 0) (.vst t g d a)
  | 2 => coded (WTy.ofCode x.t) fun t => .ok (.vgat t g d a b)
  | 3 => coded (WTy.ofCode x.t) fun t => .ok (.vsct t g d a b)
  | 4 => coded (ETy.ofCode x.t) fun t => legal (x.b = 0) (.vldb t g d a)
  | _ => .error .function

/-- GMASK (R153). -/
def decodeGmask (x : Fields) : Except Illegal Instr :=
  match x.f with
  | 0 => guardF x.d fun d => guardF x.a fun a => guardF x.b fun b => legal (x.c = 0) (.gand d a b)
  | 1 => guardF x.d fun d => guardF x.a fun a => guardF x.b fun b => legal (x.c = 0) (.gor d a b)
  | 2 => guardF x.d fun d => guardF x.a fun a => guardF x.b fun b => legal (x.c = 0) (.gxor d a b)
  | 3 => guardF x.d fun d => guardF x.a fun a => legal (x.b = 0 && x.c = 0) (.gnot d a)
  | 4 => guardF x.a fun a => legal (x.b = 0 && x.c = 0) (.gpop (reg x.d) a)
  | 5 => guardF x.a fun a => legal (x.b = 0 && x.c = 0) (.gfirst (reg x.d) a)
  | 6 => guardF x.a fun a => legal (x.b = 0 && x.c ≤ 1) (.gmov (reg x.d) a (x.c = 1))
  | 7 => guardF x.d fun d => legal (x.c = 0) (.gset d (reg x.a) (reg x.b))
  | _ => .error .function

/-- STRM (R155). -/
def decodeStrm (x : Fields) : Except Illegal Instr :=
  match x.f with
  | 0 => streamF x.d fun d => .ok (.sbindMem d (reg x.a) (reg x.b) (reg x.c))
  | 1 => streamF x.d fun d => legal (x.b = 0 && x.c = 0) (.sbindCh d (reg x.a))
  | 2 => streamF x.d fun d => legal (x.c = 0) (.sbindOut d (reg x.a) (reg x.b))
  | 3 => streamF x.d fun d => legal (x.a = 0 && x.b = 0 && x.c = 0) (.sunbind d)
  | 4 => streamF x.a fun a => legal (x.b = 0 && x.c = 0) (.sstat (reg x.d) a)
  | _ => .error .function

/-- FE (R186). -/
def decodeFe (x : Fields) : Except Illegal Instr :=
  match x.f with
  | 0 => coded (RegClass.ofCode x.c) fun c => legal (x.b = 0 && x.a = 0) (.fef c (reg x.d))
  | 1 => coded (RegClass.ofCode x.c) fun c => legal (x.b = 0 && x.a = 0) (.fee c (reg x.d))
  | 2 => coded (RegClass.ofCode x.c) fun c => legal (x.b = 0) (.feqReg c (reg x.d) (reg x.a))
  | _ => .error .function

/-- MON (R188). -/
def decodeMon (x : Fields) : Except Illegal Instr :=
  match x.f with
  | 0 => legal (x.c < 4 && x.b = 0 && x.d = 0) (.marm (reg x.a) (Fin.ofNat 4 x.c))
  | 1 => legal (x.c < 16 && x.b = 0 && x.a = 0 && x.d = 0) (.mdis (BitVec.ofNat 4 x.c))
  | 2 => legal (x.c = 0 && x.b = 0) (.mslp (reg x.d) (reg x.a))
  | 3 => .ok (.wadr (reg x.d) (reg x.a) (reg x.b) (reg x.c))
  | _ => .error .function

/-- BAR (R192). -/
def decodeBar (x : Fields) : Except Illegal Instr :=
  match x.f with
  | 0 => legal (x.c = 0 && x.b = 0 && x.d = 0) (.barReg (reg x.a))
  | 1 => legal (x.c = 0 && x.b = 0 && x.a = 0) (.barArr (reg x.d))
  | 2 => legal (x.c = 0 && x.b = 0 && x.a = 0 && x.d = 0) .barWait
  | 3 => legal (x.c = 0 && x.b = 0 && x.a = 0) (.barArw (reg x.d))
  | _ => .error .function

/-- TASK (R194). -/
def decodeTask (x : Fields) : Except Illegal Instr :=
  match x.f with
  | 0 => legal (x.c = 0 && x.b = 0 && x.d = 0) (.tqpush (reg x.a))
  | 1 => legal (x.c ≤ 1 && x.b = 0 && x.a = 0) (if x.c = 0 then .tqpop (reg x.d) else .tqpopNb (reg x.d))
  | 2 => legal (x.c = 0 && x.b = 0 && x.a = 0) (.tqpeek (reg x.d))
  | 3 => legal (x.c = 0 && x.b = 0 && x.a = 0 && x.d = 0) .texit
  | 4 => legal (x.c = 0 && x.b = 0 && x.a = 0 && x.d = 0) .tyield
  | 5 => legal (x.c = 0 && x.b = 0) (.tmset (reg x.d) (reg x.a))
  | 6 => legal (x.c = 0 && x.d = 0) (.tlaunch (reg x.a) (reg x.b))
  | _ => .error .function

/-- MSG (R204): the pair fields are even. -/
def decodeMsg (x : Fields) : Except Illegal Instr :=
  let d := reg x.d; let a := reg x.a; let b := reg x.b
  match x.f with
  | 0 => coded (MsgOrd.ofCode x.c) fun o => legal (x.d = 0 && evenOk b) (.msend o a b)
  | 1 => legal (x.b = 0 && evenOk d) (.mrecv d a (reg x.c))
  | 2 => legal (x.c = 0 && evenOk d) (.mwait d a b)
  | 3 => legal (x.c < 3 && x.b = 0) (.mpeek d a (Fin.ofNat 3 x.c))
  | 4 => coded (MsgOrd.ofCode x.c) fun o => legal (x.d = 0 && evenOk b) (.msendt o a b)
  | 5 => legal (x.c = 0 && x.d = 0) (.mcfg a b)
  | _ => .error .function

/-- CPY (R310). -/
def decodeCpy (x : Fields) : Except Illegal Instr :=
  let d := reg x.d; let a := reg x.a; let b := reg x.b; let c := reg x.c
  match x.f with
  | 0 => .ok (.cpy d a b c)
  | 1 => .ok (.cpyt d a b c)
  | 2 => legal (cpymOk c) (.cpym d a b c)
  | 3 => coded (Size.ofCode x.c) fun z => legal (x.d = 0) (.cpyf z a b)
  | 4 => legal (x.c = 0 && x.b = 0) (.cpyq d a)
  | _ => .error .function

/-- MMA (R316): functions 0-7 dense with d zero, 8-15 sparse. -/
def decodeMma (x : Fields) : Except Illegal Instr :=
  let a := reg x.a; let b := reg x.b; let c := reg x.c
  if x.f < 16 then
    match MmaFmt.ofCode (x.f % 8) with
    | some f => if x.f < 8 then legal (x.d = 0) (.mma f a b c) else .ok (.mmaSp f a b c (reg x.d))
    | none => .error .function
  else .error .function

/-- ACC (R323). -/
def decodeAcc (x : Fields) : Except Illegal Instr :=
  let d := reg x.d; let a := reg x.a; let b := reg x.b; let c := reg x.c
  match x.f with
  | 0 => legal (x.c = 0 && x.b = 0 && x.d = 0) (.acz a)
  | 1 => legal (x.c = 0 && x.d = 0) (.acld a b)
  | 2 => legal (x.c = 0 && x.d = 0) (.acst a b)
  | 3 => .ok (.adrn d a b c)
  | 4 => legal (x.c = 0 && x.b = 0 && plainVecOk d) (.acrd d a)
  | 5 => legal (x.c = 0 && x.d = 0 && plainVecOk b) (.acwr b a)
  | _ => .error .function

/-- TREE (R328). -/
def decodeTree (x : Fields) : Except Illegal Instr :=
  let a := reg x.a; let b := reg x.b; let c := reg x.c
  match x.f with
  | 0 => legal (x.d = 0) (.tredAdd a b c)
  | 1 => legal (x.d = 0) (.tredMax a b c)
  | 2 => legal (x.d = 0) (.tredMin a b c)
  | 3 => legal (x.d = 0) (.tscanAdd a b c)
  | 4 => legal (x.d = 0) (.tscanAff a b c)
  | 5 => legal (x.c = 0 && x.b = 0 && x.a = 0 && x.d = 0) .tbar
  | _ => .error .function

/-- CCV (R333). -/
def decodeCcv (x : Fields) : Except Illegal Instr :=
  match x.f with
  | 0 => legal (x.d = 0) (.ccv (reg x.a) (reg x.b) (reg x.c))
  | 1 => .ok (.ccvq (reg x.a) (reg x.b) (reg x.c) (reg x.d))
  | _ => .error .function

/-- PRM (R348). -/
def decodePrm (x : Fields) : Except Illegal Instr :=
  let d := reg x.d; let a := reg x.a; let b := reg x.b
  match x.f with
  | 0 => legal (x.c = 0) (.prmi d a b)
  | 1 => coded (PrmOrd.ofCode x.c) fun o => legal (x.d = 0) (.prmr o a b)
  | 2 => coded (PrmOrd.ofCode (x.c % 4)) fun o =>
      legal (x.c / 8 = 0 && x.b = 0 && x.d = 0) (.prmx o (if x.c / 4 % 2 = 1 then .revert else .absorb) a)
  | 3 => legal (x.c ≤ 1 && x.b = 0) (.prmq (if x.c = 1 then .header else .promise) d a)
  | 4 => legal (x.c = 0 && x.d = 0) (.wupd a b)
  | _ => .error .function

/-- NB (R276). -/
def decodeNb (x : Fields) : Except Illegal Instr :=
  let d := reg x.d; let a := reg x.a; let b := reg x.b; let c := reg x.c
  match x.f with
  | 0 => .ok (.nbpost d a b c)
  | 1 => legal (x.b = 0) (.nbview d a c)
  | 2 => legal (x.c = 0) (.nbadv d a b)
  | 3 => .ok (.nbinit d a b c)
  | _ => .error .function

/-- The major opcode map (R65). -/
def decodeFields (x : Fields) : Except Illegal Instr :=
  match x.op with
  | 0x01 => decodeOpi x | 0x02 => decodeImmi x
  | 0x03 => .ok (.lui (reg x.d) (BitVec.ofNat 20 x.imm20)) | 0x04 => .ok (.adpc (reg x.d) (BitVec.ofNat 20 x.imm20))
  | 0x05 => decodeBitf x | 0x06 => decodeSk x | 0x07 => decodeSki x
  | 0x20 => decodeLd x | 0x21 => decodeSt x | 0x22 => decodeLdx x | 0x23 => decodeStx x | 0x24 => decodeAtom x
  | 0x25 => decodeFence x | 0x26 => decodeWait x | 0x27 => decodeBr x
  | 0x28 => .ok (.jl (reg x.d) (BitVec.ofNat 20 x.imm20)) | 0x29 => decodeJlr x | 0x2A => decodeCsr x | 0x2B => decodeSys x
  | 0x40 => decodeFop .single x | 0x41 => decodeFop .double x | 0x42 => decodeFcvt x
  | 0x43 => decodeFsk .fsk x | 0x44 => decodeFsk .fskd x
  | 0x60 => decodeVopf x | 0x61 => decodeVopi x | 0x62 => decodeVcmp x | 0x63 => decodeVmov x | 0x64 => decodeVred x
  | 0x65 => decodeVcvt x | 0x66 => decodeVmem x | 0x67 => decodeGmask x | 0x68 => decodeStrm x | 0x69 => decodeFe x
  | 0x6A => decodeMon x | 0x6B => decodeBar x | 0x6C => decodeTask x | 0x6D => decodeMsg x | 0x6E => decodeCpy x
  | 0x6F => decodeMma x | 0x70 => decodeAcc x | 0x71 => decodeTree x | 0x72 => decodeCcv x | 0x73 => decodePrm x
  | 0x74 => decodeNb x
  | _ => .error .major

/-- The instruction of a word, or the check it fails. -/
def decodeWord (w : Insn) : Except Illegal Instr := decodeFields (Fields.ofWord w)

/-- The word of four bytes, lowest address first (R56: little-endian). -/
def wordOfBytes (b0 b1 b2 b3 : Byte) : Insn := BitVec.ofNat 32 (b0.toNat + b1.toNat * 256 + b2.toNat * 65536 + b3.toNat * 16777216)

/-- The instruction at the head of a byte string, with the rest of the string. -/
def decodeBytes : List Byte → Except Illegal (Instr × List Byte)
  | b0 :: b1 :: b2 :: b3 :: rest =>
    match decodeWord (wordOfBytes b0 b1 b2 b3) with
    | .ok i => .ok (i, rest)
    | .error e => .error e
  | _ => .error .length

/-- The bytes of a word as stored, lowest address first (R56). -/
def bytesOfWord (w : Insn) : List Byte :=
  [BitVec.ofNat 8 w.toNat, BitVec.ofNat 8 (w.toNat / 256), BitVec.ofNat 8 (w.toNat / 65536), BitVec.ofNat 8 (w.toNat / 16777216)]

/-- The instruction that the decoder reads from `nbits` bits numbered as spec/opcode_table.json numbers them. Every word of
this hardware has 32 bits; bits above `nbits` are zero. -/
def decodeTableWord (nbits w : Nat) : Option Instr :=
  match decodeBytes (bytesOfWord (BitVec.ofNat 32 (w % 2 ^ nbits))) with
  | .ok (i, _) => some i
  | .error _ => none

-- The encoder, written from the same tables (R58, R65).

def encOpi (f d a b c : Nat) : Option Fields := some (fieldsR 0x01 f c b a d)

/-- The fields of a one-word instruction; none for an event. -/
def encodeFields : Instr → Option Fields
  | .add d a b => encOpi 0 d a b 0 | .sub d a b => encOpi 1 d a b 0 | .and d a b => encOpi 2 d a b 0
  | .or d a b => encOpi 3 d a b 0 | .xor d a b => encOpi 4 d a b 0 | .sll d a b => encOpi 5 d a b 0
  | .srl d a b => encOpi 6 d a b 0 | .sra d a b => encOpi 7 d a b 0 | .slt d a b => encOpi 8 d a b 0
  | .sltn d a b => encOpi 9 d a b 0 | .min d a b => encOpi 10 d a b 0 | .max d a b => encOpi 11 d a b 0
  | .minn d a b => encOpi 12 d a b 0 | .maxn d a b => encOpi 13 d a b 0 | .mul d a b => encOpi 14 d a b 0
  | .mulh d a b => encOpi 15 d a b 0 | .mulhn d a b => encOpi 16 d a b 0 | .div d a b => encOpi 17 d a b 0
  | .divn d a b => encOpi 18 d a b 0 | .rem d a b => encOpi 19 d a b 0 | .remn d a b => encOpi 20 d a b 0
  | .rot d a b => encOpi 21 d a b 0 | .clz d a => encOpi 22 d a 0 0 | .ctz d a => encOpi 23 d a 0 0
  | .popc d a => encOpi 24 d a 0 0 | .sel d a b c => encOpi 25 d a b c
  | .addi d a i => some (fieldsI 0x02 0 i.toNat a d) | .andi d a i => some (fieldsI 0x02 1 i.toNat a d)
  | .ori d a i => some (fieldsI 0x02 2 i.toNat a d) | .xori d a i => some (fieldsI 0x02 3 i.toNat a d)
  | .slti d a i => some (fieldsI 0x02 4 i.toNat a d) | .sltni d a i => some (fieldsI 0x02 5 i.toNat a d)
  | .slli d a h => some (fieldsI 0x02 6 h.toNat a d) | .srli d a h => some (fieldsI 0x02 6 (64 + h.toNat) a d)
  | .srai d a h => some (fieldsI 0x02 6 (128 + h.toNat) a d)
  | .lui d i => some (fieldsU 0x03 i.toNat d) | .adpc d i => some (fieldsU 0x04 i.toNat d)
  | .ext d a p l => some (fieldsI 0x05 0 (l.toNat * 64 + p.toNat) a d)
  | .extn d a p l => some (fieldsI 0x05 1 (l.toNat * 64 + p.toNat) a d)
  | .ins d a p l => some (fieldsI 0x05 2 (l.toNat * 64 + p.toNat) a d)
  | .sk c n a b => some (fieldsK 0x06 c.code n.toNat b a) | .ski c n a i => some (fieldsKI 0x07 c.code n.toNat i.toNat a)
  | .fsk c n a b => some (fieldsK 0x43 c.code n.toNat b a) | .fskd c n a b => some (fieldsK 0x44 c.code n.toNat b a)
  | .ld t d a i => some (fieldsI 0x20 t.code i.toNat a d) | .st z b a i => some (fieldsS 0x21 z.code i.toNat b a)
  | .ldAcq z sc d a => some (fieldsR 0x22 z.code sc.code 0 a d)
  | .ldfe64 d a => some (fieldsR 0x22 2 0 0 a d) | .ldff64 d a => some (fieldsR 0x22 3 0 0 a d)
  | .ldfe32 d a => some (fieldsR 0x22 4 0 0 a d) | .ldff32 d a => some (fieldsR 0x22 5 0 0 a d)
  | .stRel z sc b a => some (fieldsR 0x23 z.code sc.code b a 0)
  | .stef z b a => some (fieldsR 0x23 (2 + z.code) 0 b a 0) | .stff z b a => some (fieldsR 0x23 (4 + z.code) 0 b a 0)
  | .ste a => some (fieldsR 0x23 6 0 0 a 0)
  | .arsv z d a => some (fieldsR 0x24 (16 * z.code) 0 0 a d) | .arel z b a => some (fieldsR 0x24 (16 * z.code + 1) 0 b a 0)
  | .aadd z d a b => some (fieldsR 0x24 (16 * z.code + 2) 0 b a d) | .amin z d a b => some (fieldsR 0x24 (16 * z.code + 3) 0 b a d)
  | .amax z d a b => some (fieldsR 0x24 (16 * z.code + 4) 0 b a d) | .aminn z d a b => some (fieldsR 0x24 (16 * z.code + 5) 0 b a d)
  | .amaxn z d a b => some (fieldsR 0x24 (16 * z.code + 6) 0 b a d) | .aand z d a b => some (fieldsR 0x24 (16 * z.code + 7) 0 b a d)
  | .aor z d a b => some (fieldsR 0x24 (16 * z.code + 8) 0 b a d) | .axor z d a b => some (fieldsR 0x24 (16 * z.code + 9) 0 b a d)
  | .axchg z d a b => some (fieldsR 0x24 (16 * z.code + 10) 0 b a d)
  | .acas z d a b c => some (fieldsR 0x24 (16 * z.code + 11) c b a d)
  | .aaddf z d a b => some (fieldsR 0x24 (16 * z.code + 12) 0 b a d)
  | .fence sc => some (fieldsR 0x25 0 sc.code 0 0 0) | .fenceLd sc => some (fieldsR 0x25 1 sc.code 0 0 0)
  | .fenceSt sc => some (fieldsR 0x25 2 sc.code 0 0 0) | .xfence sc => some (fieldsR 0x25 3 sc.code 0 0 0)
  | .fenceI => some (fieldsR 0x25 4 0 0 0 0)
  | .wait tl cp st ld => some (fieldsU 0x26 (tl.toNat * 65536 + cp.toNat * 4096 + st.toNat * 256 + ld.toNat * 16) 0)
  | .br c a b i => some (fieldsB 0x27 c.code i.toNat b a) | .jl d i => some (fieldsU 0x28 i.toNat d)
  | .jlr d a i => some (fieldsI 0x29 0 i.toNat a d)
  | .csrr d n => some (fieldsI 0x2A 0 n.toNat 0 d) | .csrw d n a => some (fieldsI 0x2A 1 n.toNat a d)
  | .csrs d n a => some (fieldsI 0x2A 2 n.toNat a d) | .csrc d n a => some (fieldsI 0x2A 3 n.toNat a d)
  | .sys n => some (fieldsR 0x2B 0 n.toNat 0 0 0) | .eret => some (fieldsR 0x2B 1 0 0 0 0)
  | .brk n => some (fieldsR 0x2B 2 n.toNat 0 0 0) | .tkill a => some (fieldsR 0x2B 3 0 0 a 0)
  | .pair d a => some (fieldsR 0x2B 4 0 0 a d) | .unpair => some (fieldsR 0x2B 5 0 0 0 0) | .fprt => some (fieldsR 0x2B 6 0 0 0 0)
  | .mxfrz => some (fieldsR 0x2B 7 0 0 0 0) | .mxthaw => some (fieldsR 0x2B 8 0 0 0 0) | .scrub a => some (fieldsR 0x2B 9 0 0 a 0)
  | .fadd p r d a b => some (fieldsR (0x40 + p.code) 0 r.code b a d) | .fsub p r d a b => some (fieldsR (0x40 + p.code) 1 r.code b a d)
  | .fmul p r d a b => some (fieldsR (0x40 + p.code) 2 r.code b a d) | .fdiv p r d a b => some (fieldsR (0x40 + p.code) 3 r.code b a d)
  | .fsqrt p r d a => some (fieldsR (0x40 + p.code) 4 r.code 0 a d)
  | .fmin p d a b => some (fieldsR (0x40 + p.code) 5 0 b a d) | .fmax p d a b => some (fieldsR (0x40 + p.code) 6 0 b a d)
  | .fsgnj p d a b => some (fieldsR (0x40 + p.code) 7 0 b a d) | .fsgnjn p d a b => some (fieldsR (0x40 + p.code) 8 0 b a d)
  | .fsgnjx p d a b => some (fieldsR (0x40 + p.code) 9 0 b a d) | .fma p d a b c => some (fieldsR (0x40 + p.code) 10 c b a d)
  | .fms p d a b c => some (fieldsR (0x40 + p.code) 11 c b a d) | .fnma p d a b c => some (fieldsR (0x40 + p.code) 12 c b a d)
  | .fclass p d a => some (fieldsR (0x40 + p.code) 13 0 0 a d) | .feq p d a b => some (fieldsR (0x40 + p.code) 14 0 b a d)
  | .flt p d a b => some (fieldsR (0x40 + p.code) 15 0 b a d) | .fle p d a b => some (fieldsR (0x40 + p.code) 16 0 b a d)
  | .fcvt w r c b d a => some (fieldsR 0x42 ((if w then 8 else 0) + r.code) c.code b.code a d)
  | .vaddF t g d a b => some (fieldsV 0x60 0 t.code g b a d) | .vsubF t g d a b => some (fieldsV 0x60 1 t.code g b a d)
  | .vmulF t g d a b => some (fieldsV 0x60 2 t.code g b a d) | .vfma t g d a b => some (fieldsV 0x60 3 t.code g b a d)
  | .vfms t g d a b => some (fieldsV 0x60 4 t.code g b a d) | .vminF t g d a b => some (fieldsV 0x60 5 t.code g b a d)
  | .vmaxF t g d a b => some (fieldsV 0x60 6 t.code g b a d) | .vabsF t g d a => some (fieldsV 0x60 7 t.code g 0 a d)
  | .vneg t g d a => some (fieldsV 0x60 8 t.code g 0 a d) | .vrcp t g d a => some (fieldsV 0x60 9 t.code g 0 a d)
  | .vrsq t g d a => some (fieldsV 0x60 10 t.code g 0 a d) | .vexp2 t g d a => some (fieldsV 0x60 11 t.code g 0 a d)
  | .vlog2 t g d a => some (fieldsV 0x60 12 t.code g 0 a d)
  | .vaddI t g d a b => some (fieldsV 0x61 0 t.code g b a d) | .vsubI t g d a b => some (fieldsV 0x61 1 t.code g b a d)
  | .vmulI t g d a b => some (fieldsV 0x61 2 t.code g b a d) | .vmulh t g d a b => some (fieldsV 0x61 3 t.code g b a d)
  | .vminI t g d a b => some (fieldsV 0x61 4 t.code g b a d) | .vmaxI t g d a b => some (fieldsV 0x61 5 t.code g b a d)
  | .vminn t g d a b => some (fieldsV 0x61 6 t.code g b a d) | .vmaxn t g d a b => some (fieldsV 0x61 7 t.code g b a d)
  | .vand t g d a b => some (fieldsV 0x61 8 t.code g b a d) | .vor t g d a b => some (fieldsV 0x61 9 t.code g b a d)
  | .vxor t g d a b => some (fieldsV 0x61 10 t.code g b a d) | .vsll t g d a b => some (fieldsV 0x61 11 t.code g b a d)
  | .vsrl t g d a b => some (fieldsV 0x61 12 t.code g b a d) | .vsra t g d a b => some (fieldsV 0x61 13 t.code g b a d)
  | .vabsI t g d a => some (fieldsV 0x61 14 t.code g 0 a d) | .vadds t g d a b => some (fieldsV 0x61 15 t.code g b a d)
  | .vcmp f t g d a b => some (fieldsV 0x62 f.code t.code g b a d)
  | .vmov t g d a => some (fieldsV 0x63 0 t.code g 0 a d) | .vsel t g d a b => some (fieldsV 0x63 1 t.code g b a d)
  | .vbcast t g d a => some (fieldsV 0x63 2 t.code g 0 a d) | .vextr t d a b => some (fieldsV 0x63 3 t.code 0 b a d)
  | .vins t d a b => some (fieldsV 0x63 4 t.code 0 b a d) | .vperm t g d a b => some (fieldsV 0x63 5 t.code g b a d)
  | .vrot t g d a b => some (fieldsV 0x63 6 t.code g b a d)
  | .vredAdd t g d a => some (fieldsV 0x64 0 t.code g 0 a d) | .vredMax t g d a => some (fieldsV 0x64 1 t.code g 0 a d)
  | .vredMin t g d a => some (fieldsV 0x64 2 t.code g 0 a d) | .vscanAdd t g d a => some (fieldsV 0x64 3 t.code g 0 a d)
  | .vscanAff g d a => some (fieldsV 0x64 4 0 g 0 a d) | .vamax t g d a => some (fieldsV 0x64 5 t.code g 0 a d)
  | .vwid t g d a => some (fieldsV 0x65 0 t.code g 0 a d) | .vnar t g d a b => some (fieldsV 0x65 1 t.code g b a d)
  | .vscl t g d a b => some (fieldsV 0x65 2 t.code g b a d) | .vq t g d a b => some (fieldsV 0x65 3 t.code g b a d)
  | .vdq t g d a b => some (fieldsV 0x65 4 t.code g b a d)
  | .vld t g d a => some (fieldsV 0x66 0 t.code g 0 a d) | .vst t g d a => some (fieldsV 0x66 1 t.code g 0 a d)
  | .vgat t g d a b => some (fieldsV 0x66 2 t.code g b a d) | .vsct t g d a b => some (fieldsV 0x66 3 t.code g b a d)
  | .vldb t g d a => some (fieldsV 0x66 4 t.code g 0 a d)
  | .gand d a b => some (fieldsR 0x67 0 0 b a d) | .gor d a b => some (fieldsR 0x67 1 0 b a d)
  | .gxor d a b => some (fieldsR 0x67 2 0 b a d) | .gnot d a => some (fieldsR 0x67 3 0 0 a d)
  | .gpop d a => some (fieldsR 0x67 4 0 0 a d) | .gfirst d a => some (fieldsR 0x67 5 0 0 a d)
  | .gmov d a h => some (fieldsR 0x67 6 (if h then 1 else 0) 0 a d) | .gset d a b => some (fieldsR 0x67 7 0 b a d)
  | .sbindMem d a b c => some (fieldsR 0x68 0 c b a (24 + d)) | .sbindCh d a => some (fieldsR 0x68 1 0 0 a (24 + d))
  | .sbindOut d a b => some (fieldsR 0x68 2 0 b a (24 + d)) | .sunbind d => some (fieldsR 0x68 3 0 0 0 (24 + d))
  | .sstat d a => some (fieldsR 0x68 4 0 0 (24 + a) d)
  | .fef c d => some (fieldsR 0x69 0 c.code 0 0 d) | .fee c d => some (fieldsR 0x69 1 c.code 0 0 d)
  | .feqReg c d a => some (fieldsR 0x69 2 c.code 0 a d)
  | .marm a e => some (fieldsR 0x6A 0 e 0 a 0) | .mdis m => some (fieldsR 0x6A 1 m.toNat 0 0 0)
  | .mslp d a => some (fieldsR 0x6A 2 0 0 a d) | .wadr d a b c => some (fieldsR 0x6A 3 c b a d)
  | .barReg a => some (fieldsR 0x6B 0 0 0 a 0) | .barArr d => some (fieldsR 0x6B 1 0 0 0 d)
  | .barWait => some (fieldsR 0x6B 2 0 0 0 0) | .barArw d => some (fieldsR 0x6B 3 0 0 0 d)
  | .tqpush a => some (fieldsR 0x6C 0 0 0 a 0) | .tqpop d => some (fieldsR 0x6C 1 0 0 0 d) | .tqpopNb d => some (fieldsR 0x6C 1 1 0 0 d)
  | .tqpeek d => some (fieldsR 0x6C 2 0 0 0 d) | .texit => some (fieldsR 0x6C 3 0 0 0 0) | .tyield => some (fieldsR 0x6C 4 0 0 0 0)
  | .tmset d a => some (fieldsR 0x6C 5 0 0 a d) | .tlaunch a b => some (fieldsR 0x6C 6 0 b a 0)
  | .msend o a b => some (fieldsR 0x6D 0 o.code b a 0) | .mrecv d a c => some (fieldsR 0x6D 1 c 0 a d)
  | .mwait d a b => some (fieldsR 0x6D 2 0 b a d) | .mpeek d a n => some (fieldsR 0x6D 3 n 0 a d)
  | .msendt o a b => some (fieldsR 0x6D 4 o.code b a 0) | .mcfg a b => some (fieldsR 0x6D 5 0 b a 0)
  | .cpy d a b c => some (fieldsR 0x6E 0 c b a d) | .cpyt d a b c => some (fieldsR 0x6E 1 c b a d)
  | .cpym d a b c => some (fieldsR 0x6E 2 c b a d) | .cpyf z a b => some (fieldsR 0x6E 3 z.code b a 0)
  | .cpyq d a => some (fieldsR 0x6E 4 0 0 a d)
  | .mma f a b c => some (fieldsR 0x6F f.code c b a 0) | .mmaSp f a b c d => some (fieldsR 0x6F (8 + f.code) c b a d)
  | .acz a => some (fieldsR 0x70 0 0 0 a 0) | .acld a b => some (fieldsR 0x70 1 0 b a 0) | .acst a b => some (fieldsR 0x70 2 0 b a 0)
  | .adrn d a b c => some (fieldsR 0x70 3 c b a d) | .acrd d a => some (fieldsR 0x70 4 0 0 a d) | .acwr b a => some (fieldsR 0x70 5 0 b a 0)
  | .tredAdd a b c => some (fieldsR 0x71 0 c b a 0) | .tredMax a b c => some (fieldsR 0x71 1 c b a 0)
  | .tredMin a b c => some (fieldsR 0x71 2 c b a 0) | .tscanAdd a b c => some (fieldsR 0x71 3 c b a 0)
  | .tscanAff a b c => some (fieldsR 0x71 4 c b a 0) | .tbar => some (fieldsR 0x71 5 0 0 0 0)
  | .ccv a b c => some (fieldsR 0x72 0 c b a 0) | .ccvq a b c d => some (fieldsR 0x72 1 c b a d)
  | .prmi d a b => some (fieldsR 0x73 0 0 b a d) | .prmr o a b => some (fieldsR 0x73 1 o.code b a 0)
  | .prmx o p a => some (fieldsR 0x73 2 (o.code + p.code * 4) 0 a 0) | .prmq h d a => some (fieldsR 0x73 3 h.code 0 a d)
  | .wupd a b => some (fieldsR 0x73 4 0 b a 0)
  | .nbpost d a b c => some (fieldsR 0x74 0 c b a d) | .nbview d a c => some (fieldsR 0x74 1 c 0 a d)
  | .nbadv d a b => some (fieldsR 0x74 2 0 b a d) | .nbinit d a b c => some (fieldsR 0x74 3 c b a d)
  | _ => none

/-- The word of an instruction; none for an event. -/
def encode (i : Instr) : Option Insn := (encodeFields i).map Fields.toWord

/-- The word of an instruction as `tval` holds it, zero-extended (R71); zero for an event, which traps nothing. -/
def Instr.tvalWord (i : Instr) : Word :=
  match encode i with
  | some w => w.setWidth 64
  | none => 0

/-- The privileged instructions (R70). -/
def Instr.privileged : Instr → Bool
  | .eret | .tkill _ | .pair _ _ | .unpair | .mxfrz | .mxthaw | .scrub _ | .nbinit _ _ _ _ => true
  | _ => false

end Sys2Proof
end

