-- ==== Sys2Proof/Machine/Mem.lean ====
section
/-! DEFINITION. The one memory of the package and its domain: byte reads and writes in canonical form, little-endian wide
accesses (R27), the places of the stores of spec/10_memory_levels.md in it, the full/empty bits, and association lists. -/

namespace Sys2Proof.Machine

/-- What an unlisted address reads as. HBM is written to zero at power-on (R428); for a scratchpad and for host memory zero
is a DESIGN CHOICE (log 5). -/
def unlisted : Byte := 0

/-- One byte of memory. -/
def Memory.read : Memory → Nat → Byte
  | [], _ => unlisted
  | (k, v) :: m, a => if k = a then v else if a < k then unlisted else Memory.read m a

/-- Write one byte, keeping the canonical form: writing the unlisted value removes the entry. -/
def Memory.write : Memory → Nat → Byte → Memory
  | [], a, b => if b = unlisted then [] else [(a, b)]
  | (k, v) :: m, a, b =>
    if a < k then (if b = unlisted then (k, v) :: m else (a, b) :: (k, v) :: m)
    else if a = k then (if b = unlisted then m else (a, b) :: m)
    else (k, v) :: Memory.write m a b

/-- Addresses rise strictly from `lo` on, and no entry equals the unlisted value. -/
def Memory.wfFrom : Nat → Memory → Bool
  | _, [] => true
  | lo, (k, v) :: m => decide (lo ≤ k) && decide (v ≠ unlisted) && Memory.wfFrom (k + 1) m

/-- The canonical form of a memory. -/
def Memory.wf (m : Memory) : Bool := Memory.wfFrom 0 m

/-- n bytes from an address, in address order. -/
def Memory.readBytes (m : Memory) (a : Nat) : Nat → List Byte
  | 0 => []
  | n + 1 => m.read a :: Memory.readBytes m (a + 1) n

/-- Write bytes from an address on. -/
def Memory.writeBytes (m : Memory) (a : Nat) : List Byte → Memory
  | [] => m
  | b :: bs => Memory.writeBytes (m.write a b) (a + 1) bs

/-- Write a list of (address, byte) in order. -/
def Memory.writeCells (m : Memory) : List Host.Cell → Memory
  | [] => m
  | (a, b) :: cs => Memory.writeCells (m.write a b) cs

/-- The number that little-endian bytes hold (R27). -/
def leNat : List Byte → Nat
  | [] => 0
  | b :: bs => b.toNat + 256 * leNat bs

/-- The n little-endian bytes of a number (R27). -/
def leBytes (x : Nat) : Nat → List Byte
  | 0 => []
  | n + 1 => BitVec.ofNat 8 x :: leBytes (x / 256) n

/-- n bytes of memory as a number. -/
def Memory.readNat (m : Memory) (a n : Nat) : Nat := leNat (m.readBytes a n)

-- Where the stores lie in the one memory (log 12)

/-- HBM byte `pa` of package `p` of the load-store domain (R224, R403). -/
def hbmLoc (p pa : Nat) : Nat := p * 2 ^ 41 + pa
/-- The first place after the domain's HBM. -/
def scratchBase : Nat := 2 ^ 50
/-- Scratchpad byte `o` of logical tile `t` (R213). -/
def tileLoc (t : TileId) (o : Nat) : Nat := scratchBase + t * 2 ^ 21 + o
/-- Host memory byte `h`, reached through CXL or a host bus address (R228, R411). -/
def hostLoc (h : Nat) : Nat := 2 ^ 64 + h

/-- The logical tile whose scratchpad holds a place. -/
def locTile (l : Nat) : Option TileId :=
  if scratchBase ≤ l ∧ l < scratchBase + 1536 * 2 ^ 21 then some ((l - scratchBase) / 2 ^ 21) else none

-- Full/empty bits of scratchpad words (R215): the sorted list of the words that are full

/-- The word number of a place. -/
def wordOf (l : Nat) : Nat := l / 4

/-- Set one word full. -/
def feInsert (w : Nat) : List Nat → List Nat
  | [] => [w]
  | x :: xs => if w < x then w :: x :: xs else if w = x then x :: xs else x :: feInsert w xs

/-- Set one word empty. -/
def feRemove (w : Nat) : List Nat → List Nat
  | [] => []
  | x :: xs => if w = x then xs else if w < x then x :: xs else x :: feRemove w xs

/-- Whether a word is full. -/
def feFull (w : Nat) (l : List Nat) : Bool := l.contains w

-- Association lists in rising order of key

/-- The value at a key, or a default. -/
def assocGet {α : Type} (dflt : α) : List (Nat × α) → Nat → α
  | [], _ => dflt
  | (k, v) :: xs, a => if k = a then v else assocGet dflt xs a

/-- Put a value at a key. -/
def assocSet {α : Type} : List (Nat × α) → Nat → α → List (Nat × α)
  | [], a, x => [(a, x)]
  | (k, v) :: xs, a, x => if a < k then (a, x) :: (k, v) :: xs else if k = a then (k, x) :: xs else (k, v) :: assocSet xs a x

-- Lists by position and by identity

/-- Drop the element at a position. -/
def dropAt {α : Type} : List α → Nat → List α
  | [], _ => []
  | _ :: xs, 0 => xs
  | x :: xs, n + 1 => x :: dropAt xs n

end Sys2Proof.Machine
end

