-- ==== Sys2Proof/Machine/Ops.lean ====
section
/-! DEFINITION. The named operations over tiles, threads and registers: accessors, register writes, parking and waking,
retirement, thread kill, taking a trap and returning from one. -/

namespace Sys2Proof.Machine

/-- The outcome of a step of this machine. -/
abbrev Out := Host.Outcome State Fault Refusal

/-- An event that the state does not hold. -/
def noEvent (m : String) : Out := .refused (.noSuchEvent m)

/-- The i-th value that the spec leaves open in what is done: a fresh one in throughput mode, else one that only depends on what is done
(R6; log 3). -/
def State.openValue (s : State) (what : List Nat) (i : Nat) : BitVec 64 :=
  if s.dmode = 0 then Config.freeValue (s.free + i) else Config.sameValue what i

-- Tiles and threads

/-- A tile; one that is not listed is at reset. -/
def State.tileAt (s : State) (t : TileId) : Tile := assocGet Tile.reset s.tiles t
def State.putTile (s : State) (t : TileId) (x : Tile) : State := { s with tiles := assocSet s.tiles t x }
def State.modTile (s : State) (t : TileId) (f : Tile → Tile) : State := s.putTile t (f (s.tileAt t))

/-- A slot's thread. -/
def State.thrAt (s : State) (t : TileId) (k : Slot) : Thread := (s.tileAt t).slots[k]
def Tile.putThr (x : Tile) (k : Slot) (th : Thread) : Tile := { x with slots := x.slots.set k th }
def Tile.modThr (x : Tile) (k : Slot) (f : Thread → Thread) : Tile := x.putThr k (f x.slots[k])
def State.putThrAt (s : State) (t : TileId) (k : Slot) (th : Thread) : State := s.modTile t fun x => x.putThr k th
def State.modThrAt (s : State) (t : TileId) (k : Slot) (f : Thread → Thread) : State := s.putThrAt t k (f (s.thrAt t k))

/-- The thread that executes, its tile, and updates of both. -/
def State.thr (s : State) : Thread := s.thrAt s.curTile s.curSlot
def State.tile (s : State) : Tile := s.tileAt s.curTile
def State.modThr (s : State) (f : Thread → Thread) : State := s.modThrAt s.curTile s.curSlot f
def State.modCur (s : State) (f : Tile → Tile) : State := s.modTile s.curTile f

-- Logical identity (R40, R180)

def dieOf (t : TileId) : Nat := t / 256
def rowOf (t : TileId) : Nat := t / 16 % 16
def colOf (t : TileId) : Nat := t % 16
/-- Cluster number 4i + j within the die (R180). -/
def clusterOf (t : TileId) : Nat := rowOf t / 4 * 4 + colOf t / 4
/-- The tile of a die, row and column. -/
def tileNo (die row col : Nat) : TileId := die * 256 + row * 16 + col
/-- The even-row, even-column tile of a tile's 2 × 2 group (R223). -/
def groupBase (t : TileId) : TileId := tileNo (dieOf t) (rowOf t / 2 * 2) (colOf t / 2 * 2)

/-- DIE, ROW and COL as `tileid` and tile-addressed addresses hold them (R40). -/
def tileWord (t : TileId) : Word := BitVec.ofNat 64 t

/-- The mode of a tile (R40): 0 throughput, 1 deterministic, 2 isochronous. -/
def Tile.modeNo (x : Tile) : Nat := x.mode.toNat % 4
def Tile.throughput (x : Tile) : Bool := x.modeNo = 0
/-- A pair issues as in deterministic mode (R372). -/
def Tile.donates (x : Tile) : Bool := x.throughput && x.pairing.isNone

-- Status (R45)

def Thread.sv (th : Thread) : Bool := th.status.getLsbD 0
def Thread.aie (th : Thread) : Bool := th.status.getLsbD 2

-- Register writes (R33, R34, R31)

def Thread.getS (th : Thread) (r : Reg) : SReg := th.s[r]
def Thread.getV (th : Thread) (r : Reg) : VReg := th.v[r]

/-- Write a scalar register: full, unpoisoned; s0 discards (R33, R99). -/
def Thread.setS (th : Thread) (r : Reg) (x : Word) : Thread :=
  if r = 0 then th else { th with s := th.s.set r ⟨x, true, false, false⟩ }
/-- Write a vector register: full, unpoisoned. -/
def Thread.setV (th : Thread) (r : Reg) (x : Vec) : Thread := { th with v := th.v.set r ⟨x, true, false, false⟩ }
/-- Assign `Poison` (R31): full and poisoned; s0 discards. -/
def Thread.poisonS (th : Thread) (r : Reg) : Thread :=
  if r = 0 then th else { th with s := th.s.set r ⟨(th.getS r).val, true, true, false⟩ }
def Thread.poisonV (th : Thread) (r : Reg) : Thread := { th with v := th.v.set r ⟨(th.getV r).val, true, true, false⟩ }
/-- Mark a register as a pending fill (R35); s0 never is (R98). -/
def Thread.pendS (th : Thread) (r : Reg) : Thread :=
  if r = 0 then th else { th with s := th.s.set r { th.getS r with pend := true } }
def Thread.pendV (th : Thread) (r : Reg) : Thread := { th with v := th.v.set r { th.getV r with pend := true } }
/-- Write a guard register; g0 discards (R33). -/
def Thread.setG (th : Thread) (r : GReg) (x : Guard) : Thread := if r = 0 then th else { th with g := th.g.set r x }
def Thread.getG (th : Thread) (r : GReg) : Guard := th.g[r]

def RegWrite.name : RegWrite → RegName
  | .s r _ => .s r
  | .v r _ => .v r
def Thread.write (th : Thread) : RegWrite → Thread
  | .s r x => th.setS r x
  | .v r x => th.setV r x
def Thread.pendReg (th : Thread) : RegName → Thread
  | .s r => th.pendS r
  | .v r => th.pendV r

-- Parking and waking (R29, R165-R168)

/-- A parked thread whose reason the predicate names is ready from the next clock on (R166, R167). -/
def Thread.wake (th : Thread) (p : Park → Bool) : Thread :=
  match th.run with
  | .parked q => if p q then { th with run := .ready, rouse := .clears } else th
  | _ => th

/-- Wake one slot. -/
def State.wakeAt (s : State) (t : TileId) (k : Slot) (p : Park → Bool) : State := s.modThrAt t k fun th => th.wake p
/-- Wake every slot of a tile. -/
def Tile.wake (x : Tile) (p : Park → Bool) : Tile := { x with slots := x.slots.map fun th => th.wake p }
def State.wakeTile (s : State) (t : TileId) (p : Park → Bool) : State := s.modTile t fun x => x.wake p

/-- The reasons that a fill of a register clears (R165). -/
def Park.onFill (r : RegName) : Park → Bool
  | .regEmpty q | .fillPending q => q = r
  | _ => false
/-- A counter is within a limit; 15 places none (R48). -/
def within (cnt : Nat) (limit : BitVec 4) : Bool := limit == 15 || decide (cnt ≤ limit.toNat)

/-- A fill lands: the write, and the readers it releases (R34, R35, R167). -/
def Thread.fill (th : Thread) (w : RegWrite) : Thread := (th.write w).wake (Park.onFill w.name)
/-- A poisoned fill lands (R31, R116). -/
def Thread.fillPoison (th : Thread) : RegName → Thread
  | .s r => (th.poisonS r).wake (Park.onFill (.s r))
  | .v r => (th.poisonV r).wake (Park.onFill (.v r))

/-- Counters fall (R47). -/
def Thread.dropLd (th : Thread) : Thread := { th with cntLd := th.cntLd - 1 }
def Thread.dropSt (th : Thread) : Thread := { th with cntSt := th.cntSt - 1 }
def Thread.dropCp (th : Thread) : Thread := { th with cntCp := th.cntCp - 1 }
def Thread.dropTl (th : Thread) : Thread := { th with cntTl := th.cntTl - 1 }
/-- A counter's value. -/
def Thread.count (th : Thread) : Cnt → Nat
  | .ld => th.cntLd
  | .st => th.cntSt
  | .cp => th.cntCp
  | .tl => th.cntTl

/-- `Park(reason)` (R29): no effect but that the thread leaves the rotation; it keeps its fetched word (R76). -/
def park (s : State) (p : Park) : Out := .next (s.modThr fun th => { th with run := .parked p })

-- Retirement (R42, R374)

/-- The words of a wide value, the lowest first. -/
def wideWords {n : Nat} (x : BitVec n) : List Word := (List.range (n / 64)).map fun i => (x >>> (64 * i)).setWidth 64

/-- A pair folds a retired instruction into its fingerprint (R374): slot, PC, the whole of the values written and addresses accessed, word by
word. -/
def Tile.foldPair (x : Tile) (k : Slot) (pc : Word) (notes : List Word) : Tile :=
  match x.pairing with
  | none => x
  | some p =>
    { x with pairing := some { p with
        retired := p.retired + 1
        print := notes.foldl (fun h v => Config.fold h k.val pc (v.setWidth 1024) v) (Config.fold p.print k.val pc 0 0) } }

/-- The thread's part of a retirement: the next PC, `instret` (R42), the fetched word used up. A barrier wait that a trap
interrupted is remembered through its handler, and no further (R174). -/
def Thread.retireTo (th : Thread) (pc : Word) : Thread :=
  { th with
    pc := pc, instret := th.instret + 1, fetched := none, run := .ready
    barWait := if th.sv then th.barWait else none }

/-- The instruction of a slot retires and the thread goes on at `pc`. -/
def State.retireAt (s : State) (t : TileId) (k : Slot) (pc : Word) (notes : List Word) : State :=
  s.modTile t fun x => ((x.putThr k (x.slots[k].retireTo pc)).foldPair k x.slots[k].pc notes)

/-- The executing instruction retires and control passes to `pc`. -/
def retireTo (s : State) (pc : Word) (notes : List Word) : Out := .next (s.retireAt s.curTile s.curSlot pc notes)
/-- The executing instruction retires; the PC advances by 4 (R52). -/
def retire (s : State) (notes : List Word) : Out := retireTo s (s.thr.pc + 4) notes

-- Outstanding counters (R47)

/-- A fresh number for a load, store or request, and the thread's program-order position of a memory access. -/
def Thread.nextSeq (th : Thread) : Thread := { th with seq := th.seq + 1 }

-- Barrier membership (R176)

def slotBit (k : Slot) : BitVec 8 := 1#8 <<< k.val

/-- A slot leaves the barrier: out of REG and ARR; an empty REG resets OUT and ARR and keeps GEN (R176). -/
def Barrier.leave (b : Barrier) (k : Slot) : Barrier :=
  let reg := b.reg &&& ~~~(slotBit k)
  let arr := b.arr &&& ~~~(slotBit k)
  if reg = 0 then { b with reg := 0, arr := 0, out := false, sent := none, past := [] } else { b with reg := reg, arr := arr }

-- System and completion entries (R308, R369)

/-- M of an entry of the tile itself: PKG, KIND, coordinates and SEQ (R203). -/
def metaWord (pkg : BitVec 16) (kind : Nat) (t : TileId) (seq : BitVec 32) : Word :=
  BitVec.ofNat 64 (pkg.toNat * 2 ^ 48 + kind * 2 ^ 45 + t * 2 ^ 32 + seq.toNat)

/-- The package number of a tile within its gang (R203). -/
def State.pkgOf (s : State) (t : TileId) : BitVec 16 :=
  match (s.tileAt t).gang with
  | none => 0
  | some g => match s.gangs.find? (fun x => x.id = g) with | some x => x.pkg | none => 0

/-- A system entry is sent to channel 0 of the tile; it is held until the channel has room (R369). -/
def State.sysEntry (s : State) (t : TileId) (event : Nat) (slot : Nat) (info : Word) : State :=
  let x := s.tileAt t
  let e : HeldEntry := ⟨BitVec.ofNat 64 (event * 256 + slot), info, metaWord (s.pkgOf t) 4 t x.sysSeq, none, none⟩
  s.putTile t { x with heldEnts := x.heldEnts ++ [e], sysSeq := x.sysSeq + 1 }

-- Reservations (R272)

/-- The reservation of a thread: the word it holds, or one whose grant is still on its way to it. -/
def Thread.heldWord (th : Thread) : Option (List Home × Size) :=
  match th.hold with
  | some h => some (h.homes, h.size)
  | none =>
    match th.req with
    | some r =>
      match r.stage, r.op with
      | .answered (.granted _ hs), .arsv z => some (hs, z)
      | _, _ => none
    | none => none

/-- The place of a word from the homes of its bytes. -/
def placeOf (hs : List Home) : Nat := (hs.map (·.loc)).headD 0

/-- A hold whose `arel` has not retired ends without a write: the tile sends a release with no data (R272). -/
def State.endHold (s : State) (t : TileId) (k : Slot) : State :=
  let x := s.tileAt t
  match (x.slots[k]).heldWord with
  | none => s
  | some h =>
    let st : StoreReq := { id := x.nextId, slot := k, seq := 0, pid := x.pid, sv := false, kind := .arel (placeOf h.1) h.2, waits := false
                           past := [], pieces := [], lane := 1, stage := .egress, counted := false, acked := true, stamp := s.stamp, homes := h.1 }
    s.putTile t { x.modThr k (fun th => { th with hold := none }) with stores := x.stores ++ [st], nextId := x.nextId + 1 }

-- Thread kill (R368)

/-- Whether a load fills an element that was appended to a stream. -/
def LoadReq.appends (l : LoadReq) : Bool := match l.dest with
  | .vector _ _ _ app => app
  | _ => false
/-- Every register zero, empty and unpoisoned; CSRs scrubbed; loads that fill a register dropped (R368). The bindings stay until `scrub` empties
the slot, with the loads of elements that were appended, so that streams that the thread wrote go on and a bound channel stays bound: the spec
does not say what becomes of them (DESIGN CHOICE, log 77). -/
def Thread.scrubbed (th : Thread) : Thread :=
  { Thread.reset with run := .killed, binds := th.binds, loads := th.loads.filter LoadReq.appends, seq := th.seq }

/-- What the slot had retired stays in flight, but no counter of the slot counts it any more (R284, R368). -/
def Tile.orphan (x : Tile) (k : Slot) : Tile :=
  { x with
    stores := x.stores.map fun r => if r.slot = k then { r with counted := false } else r
    sent := x.sent.map fun r => if r.slot = k then { r with counted := false } else r
    eyelets := x.eyelets.map fun r => if r.slot = k then { r with counted := false } else r
    accepted := x.accepted.map fun r => if r.slot = k then { r with counted := false } else r
    ops := x.ops.map fun o => if o.req.slot = k then { o with req := { o.req with counted := false } } else o
    flagging := x.flagging.map fun o => if o.req.slot = k then { o with req := { o.req with counted := false } } else o
    heldEnts := x.heldEnts.map fun h =>
      { h with cp := if h.cp = some k then none else h.cp, tl := if h.tl = some k then none else h.tl }
    promises := x.promises.map fun p => if p.slot = some k then { p with slot := none } else p }

/-- The second register of a pair field (R204). -/
def Reg.next (r : Reg) : Reg := Fin.ofNat 32 (r.val + 1)

/-- The registers that wait for a receive. -/
def Recv.regs (r : Recv) : List Reg := [r.d, Reg.next r.d] ++ r.mdReg.toList
/-- Registers that no fill will come to any more. -/
def Thread.unpend (th : Thread) (rs : List Reg) : Thread :=
  rs.foldl (fun th (r : Reg) => { th with s := th.s.set r { th.getS r with pend := false } }) th

/-- A slot's pending receives are withdrawn (R198, R368). Their registers wait for nothing then; they keep what they held, and a
ninth receive that is parked on the channel under FILL_PENDING is not woken, for R209 has it wait until one is filled (DESIGN CHOICE, log 69). -/
def Tile.withdrawRecvs (x : Tile) (k : Slot) : Tile :=
  let mine := (x.channels.toList.flatMap fun (c : Channel) => c.recvs).filter fun r => r.slot = k
  { x.modThr k fun th => th.unpend (mine.flatMap Recv.regs) with
    channels := x.channels.map fun c => { c with recvs := c.recvs.filter fun r => r.slot ≠ k } }

/-- A waiting request of a slot leaves the wait lists, the watch entries and the reservation queues. -/
def State.dropWaits (s : State) (t : TileId) (k : Slot) : State :=
  { s with
    tiles := s.tiles.map fun p => (p.1, { p.2 with waitList := p.2.waitList.filter fun w => !(w.tile = t && w.slot = k) })
    watchers := s.watchers.filter fun w => !(w.tile = t && w.slot = k)
    resvs := s.resvs.map fun q => { q with waiting := q.waiting.filter fun w => w ≠ (t, k) } }

/-- Thread kill: the slot is killed and scrubbed, its receives, monitors and armed flag dropped, its hold ended, the barrier
left, and a system entry sent (R368). The siblings and the engines go on. -/
def State.kill (s : State) (t : TileId) (k : Slot) (event : Nat) (info : Word) : State :=
  let s := (s.endHold t k).dropWaits t k
  let s := s.modTile t fun x =>
    let x := (x.orphan k).withdrawRecvs k
    { x with slots := x.slots.set k (x.slots[k]).scrubbed, barrier := x.barrier.leave k }
  s.sysEntry t event k.val info

-- Traps (R354-R358)

/-- The trap causes (R358). -/
inductive Cause where
  | illegal | priv | fetch | misalign | poison | storeFault | rsvTimeout | promiseExpired | break | syscall | watch
  | timer | preempt | pairMismatch | engineError | suspect
  deriving DecidableEq, Repr

def Cause.code : Cause → Nat
  | .illegal => 0x01 | .priv => 0x02 | .fetch => 0x03 | .misalign => 0x04 | .poison => 0x05 | .storeFault => 0x06
  | .rsvTimeout => 0x07 | .promiseExpired => 0x08 | .break => 0x0A | .syscall => 0x0B | .watch => 0x0C | .timer => 0x10
  | .preempt => 0x11 | .pairMismatch => 0x12 | .engineError => 0x13 | .suspect => 0x14

/-- `cause` as trap entry writes it (R354). -/
def causeWord (async : Bool) (c : Cause) : Word := (if async then 1#64 <<< 63 else 0) ||| BitVec.ofNat 64 c.code

/-- `status` as trap entry leaves it: SKIP saved, PAIE := AIE, AIE := 0, PSV := SV, SV := 1 (R354). -/
def trapStatus (st : Word) (skip : Nat) : Word :=
  BitVec.ofNat 64 (skip % 4 * 16 + (if st.getLsbD 2 then 8 else 0) + (if st.getLsbD 0 then 2 else 0) + 1)

/-- The thread's part of taking a trap (R354); no other state of the thread changes, and the word it held is discarded
(R76). -/
def Thread.enterTrap (th : Thread) (async : Bool) (c : Cause) (tval epc : Word) (skip : Nat) : Thread :=
  { th with
    epc := epc, cause := causeWord async c, tval := tval, status := trapStatus th.status skip, pc := th.tvec
    run := .ready, shadow := 0, fetched := none, sleep := none, met := none }

/-- Taking a trap (R354). With `tvec` zero the thread is killed instead, with EVENT 3 (R356). -/
def State.takeTrap (s : State) (t : TileId) (k : Slot) (async : Bool) (c : Cause) (tval epc : Word) (skip : Nat) : State :=
  if (s.thrAt t k).tvec = 0 then s.kill t k 3 (BitVec.ofNat 64 c.code)
  else s.modThrAt t k fun th => th.enterTrap async c tval epc skip

/-- `Trap(cause)` of the executing instruction (R28): synchronous, `epc` its address, no shadow left. -/
def trap (s : State) (c : Cause) (tval : Word) : Out :=
  .next (s.takeTrap s.curTile s.curSlot false c tval s.thr.pc 0)

/-- `status` after `eret`: SV := PSV, AIE := PAIE, SKIP := 0; PSV and PAIE kept (R357). -/
def eretStatus (st : Word) : Word :=
  (st &&& 10#64) ||| (if st.getLsbD 1 then 1 else 0) ||| (if st.getLsbD 3 then 4 else 0)

/-- The return from a trap (R357): PC := epc, the shadow restored; the next word passes its breakpoint once (R380). -/
def Thread.returnTrap (th : Thread) : Thread :=
  { th with
    pc := th.epc, status := eretStatus th.status, shadow := th.status.toNat / 16 % 4, pastBrk := true
    instret := th.instret + 1, fetched := none, run := .ready }

-- Examining operands (R98, R134)

/-- A privileged instruction in user mode traps PRIV with `tval` its word (R69, R70, R71). -/
def needSv (s : State) (i : Instr) (k : Out) : Out := if s.thr.sv then k else trap s .priv i.tvalWord

/-- Examine a scalar source: pending parks, empty parks, poisoned traps (R98). s0 is never any of them. -/
def exS (s : State) (r : Reg) (k : Word → Out) : Out :=
  if r = 0 then k 0
  else
    let x := s.thr.getS r
    if x.pend then park s (.fillPending (.s r))
    else if !x.full then park s (.regEmpty (.s r))
    else if x.poison then trap s .poison (BitVec.ofNat 64 r.val)
    else k x.val

/-- A destination with a pending fill parks (R35). -/
def dstS (s : State) (r : Reg) (k : Out) : Out :=
  if r ≠ 0 ∧ (s.thr.getS r).pend = true then park s (.fillPending (.s r)) else k

/-- Write a one-clock scalar result (R99). -/
def State.putS (s : State) (r : Reg) (x : Word) : State := s.modThr fun th => th.setS r x

/-- A result that takes more than one clock: its registers are pending fills until it lands (R99, R136). -/
def Thread.later (th : Thread) (ws : List RegWrite) (due : Nat) : Thread :=
  { ws.foldl (fun t w => t.pendReg w.name) th with results := th.results ++ [⟨ws, due⟩] }

/-- Issue a multi-clock result of the executing instruction, landing `clocks` after this clock. -/
def State.putLater (s : State) (ws : List RegWrite) (clocks : Nat) : State :=
  let due := s.tile.cycle.toNat + clocks
  s.modThr fun th => th.later ws due

/-- The number behind a condition. -/
def boolWord (b : Bool) : Word := if b then 1 else 0

end Sys2Proof.Machine
end

