-- ==== Sys2Proof/Machine/Access.lean ====
section
/-! DEFINITION. Where an address leads and what a read returns: the regions (R49-R51, R213, R214), the translation walk and
homing (R226-R238), the forwarding points (R246), staging (R250) and the fretboard checks (R254, R288). -/

namespace Sys2Proof.Machine

-- Regions (R49, R51, R119, R213)

/-- Where an address leads once it has passed R49 and R50. -/
inductive Place where
  | bank (t : TileId) (off : Nat)
  | virt (va : Nat)
  | device (a : Nat)
  | absent
  deriving DecidableEq, Repr

/-- Bits [63:62] of an address. -/
def regionOf (a : Word) : Nat := a.toNat / 2 ^ 62

/-- Offset of a scratchpad byte, or absent from 0x18_0000 on (R51). -/
def bankPlace (t : TileId) (off : Nat) : Place := if off < Config.scratchBytes then .bank t off else .absent

/-- The place of an address for a thread of tile `self` (R49, R51, R213). A tile-addressed access to DIE 6 or 7 or to a hidden
tile is fatal (R213, R372); one to the issuing tile is local (R119). -/
def State.place (s : State) (self : TileId) (a : Word) : Place :=
  let n := a.toNat
  match regionOf a with
  | 0 => if n / 2 ^ 21 = 0 then bankPlace self (n % 2 ^ 21) else .absent
  | 1 =>
    let t := n / 2 ^ 32 % 2 ^ 11
    if n / 2 ^ 43 % 2 ^ 19 ≠ 0 ∨ n / 2 ^ 21 % 2 ^ 11 ≠ 0 ∨ dieOf t ≥ Config.dies then .absent
    else if t ≠ self ∧ (s.tileAt t).hidden = true then .absent
    else bankPlace t (n % 2 ^ 21)
  | 2 => if n / 2 ^ 52 % 2 ^ 10 = 0 then .virt (n % 2 ^ 52) else .absent
  | _ => .device (n % 2 ^ 62)

/-- The offset of an access in the tile's own scratchpad, the only bytes the fretboard sees (R119, R285). -/
def State.ownOff (s : State) (self : TileId) (a : Word) : Option Nat :=
  match s.place self a with
  | .bank t o => if t = self then some o else none
  | _ => none

-- Fretboard checks (R254, R288)

/-- Whether an interval meets the bytes lo to hi. -/
def Interval.meets (iv : Interval) (lo hi : Nat) : Bool := decide (iv.first ≤ hi) && decide (lo ≤ iv.last)

/-- An interval widened to 64-byte boundaries (R286). -/
def widen (lo hi : Nat) (w : Bool) : Interval := ⟨lo / 64 * 64, hi / 64 * 64 + 63, w⟩

/-- Whether an entry holds back an access of the bytes lo to hi (R288): its W interval until completion, its R interval
against a write until read-done. -/
def EngEntry.blocks (e : EngEntry) (lo hi : Nat) (write : Bool) : Bool :=
  e.ivs.any fun iv => iv.meets lo hi && (iv.write || (write && e.state != .readDone))

/-- Whether a request that is retired and not entered stands for the whole scratchpad (R254). -/
def Tile.unentered (x : Tile) : Bool := !x.eyelets.isEmpty || !x.accepted.isEmpty

/-- The element count N of a memory stream (R156). -/
def Bind.count (b : Bind) : Nat := b.ctl.toNat % 2 ^ 32
/-- The address of element k of a memory stream (R156). -/
def Bind.elemAddr (b : Bind) (k : Nat) : Word := b.base + BitVec.ofNat 64 k * b.stride
/-- The element accesses of memory streams in flight: the age of each, its address, and whether it writes (R156, R285). -/
def Tile.flights (x : Tile) : List (Nat × Word × Bool) :=
  x.slots.toList.flatMap fun th => th.binds.toList.filterMap fun (b : Bind) =>
    b.flight.map fun n => (n, b.elemAddr b.next, b.kind == .memWrite)
/-- The element accesses that stand on the fretboard: those in flight; in the modes whose results repeat all that have room, each by its place in
the order of retirement, so that when a generator begins one changes no value (R6, log 45). -/
def Tile.elements (x : Tile) : List (Nat × Word × Bool) :=
  if x.throughput then x.flights
  else x.slots.toList.flatMap fun th => th.binds.toList.flatMap fun (b : Bind) =>
    ((List.range b.order.length).zip b.order).map fun p => (p.2, b.elemAddr (b.next + p.1), b.kind == .memWrite)
/-- The place of an operation among them: its entry order, or its place in the order of retirement (R285, R6). -/
def Tile.rank (x : Tile) (e : EngEntry) : Nat := if x.throughput then e.age else e.req.id
/-- Their fretboard intervals with their places; an element elsewhere has none. -/
def State.flightIvs (s : State) (t : TileId) : List (Nat × Interval) :=
  (s.tileAt t).elements.filterMap fun f => (s.ownOff t f.2.1).map fun o => (f.1, widen o (o + 127) f.2.2)

/-- Whether an access of own bytes parks under FRETBOARD (R116, R117, R150, R156, R254). -/
def State.fretBusy (s : State) (t : TileId) (off n : Nat) (write : Bool) : Bool :=
  let x := s.tileAt t
  let lo := off / 64 * 64
  let hi := (off + n - 1) / 64 * 64 + 63
  x.unentered || x.ops.any (fun e => e.blocks lo hi write) ||
    (s.flightIvs t).any fun f => f.2.meets lo hi && (f.2.write || write)

/-- The own bytes of an access at an effective address, as offset and length: none for an access elsewhere. -/
def State.ownBytes (s : State) (a : Word) (n : Nat) : List (Nat × Nat) := ((s.ownOff s.curTile a).map fun o => (o, n)).toList
/-- Whether some own bytes are still held back. -/
def State.fretHolds (s : State) (t : TileId) (rs : List (Nat × Nat)) (write : Bool) : Bool := rs.any fun r => s.fretBusy t r.1 r.2 write

-- Watchpoints (R380)

/-- Whether an enabled watchpoint catches an access of n bytes at an effective address. -/
def Watch.hits (w : Watch) (a : Word) (n : Nat) (load store : Bool) : Bool :=
  w.ctl.getLsbD 0 && ((load && w.ctl.getLsbD 1) || (store && w.ctl.getLsbD 2)) &&
    decide (a.toNat < w.addr.toNat + 2 ^ (w.ctl.toNat / 16 % 64)) && decide (w.addr.toNat < a.toNat + n)

def Tile.watched (x : Tile) (a : Word) (n : Nat) (load store : Bool) : Bool :=
  x.watches.toList.any fun w => w.hits a n load store

/-- The address checks of R49, R50 and R380 on an access of n bytes, in that order; what lies behind the address is left to
the continuation (R51). -/
def checkAddr (s : State) (a : Word) (n : Nat) (load store : Bool) (k : Out) : Out :=
  if regionOf a = 3 ∧ s.thr.sv = false then trap s .priv a
  else if a.toNat % n ≠ 0 then trap s .misalign a
  else if s.tile.watched a n load store then trap s .watch a
  else k

/-- The fretboard check of a thread access (R116, R117). -/
def checkFret (s : State) (a : Word) (n : Nat) (write : Bool) (k : Out) : Out :=
  let rs := s.ownBytes a n
  if s.fretHolds s.curTile rs write then park s (.fretboard rs write) else k

-- Bridges and routes (R1, R2, R388, R389, R401)

/-- The two dies that a bridge joins; I/O dies 0 and 1 are 6 and 7 (R1, R2). -/
def bridgeEnds (b : Fin 11) : Nat × Nat :=
  ([(0, 1), (1, 2), (3, 4), (4, 5), (0, 3), (1, 4), (2, 5), (6, 0), (6, 3), (7, 2), (7, 5)] : List (Nat × Nat)).getD b.val (0, 0)

/-- A bridge that carries traffic: it is up and not held for retraining (R388). -/
def Bridge.carries (b : Bridge) : Bool := b.up && !b.train

/-- The dies next to one, over the bridges that a predicate takes. -/
def State.nextDies (s : State) (p : Bridge → Bool) (d : Nat) : List Nat :=
  ((List.finRange 11).filter fun b => p s.bridges[b]).filterMap fun b =>
    let e := bridgeEnds b
    if e.1 = d then some e.2 else if e.2 = d then some e.1 else none
/-- Whether a die is reached over at most n such bridges. -/
def State.reaches (s : State) (p : Bridge → Bool) : Nat → Nat → Nat → Bool
  | 0, a, b => a = b
  | n + 1, a, b => a = b || (s.nextDies p a).any fun c => State.reaches s p n c b
/-- The least number of bridges from one die to another, of those that are up; 8 where there is no way. -/
def State.hops (s : State) (a b : Nat) : Nat := ((List.range 8).find? fun n => s.reaches (·.up) n a b).getD 8

/-- The fixed route from a compute die to another or to an I/O die: along the row of die ids first, then across (R389); I/O die 0 is next to
column 0 and I/O die 1, number 7, to column 2 (R2). -/
def fixedRoute (a b : Nat) : List Nat :=
  let r := a / 3 * 3
  let i := a % 3
  let j := if b = 7 then 2 else b % 3
  ((if i ≤ j then (List.range (j + 1 - i)).map fun k => r + i + k else (List.range (i + 1 - j)).map fun k => r + i - k) ++
    if a / 3 = b / 3 then [] else [b])
/-- Whether every bridge between the dies of a route carries traffic. -/
def State.routeOpen (s : State) : List Nat → Bool
  | a :: b :: rest => (s.nextDies Bridge.carries a).contains b && s.routeOpen (b :: rest)
  | _ => true

/-- Whether the scheduled network carries traffic from one compute die to another (R389). -/
def State.schedOpen (s : State) (a b : Nat) : Bool := a = b || s.routeOpen (fixedRoute a b)
/-- Whether the bulk mesh does, on some shortest path, or on the fixed route in isochronous mode (R389). -/
def State.meshOpen (s : State) (a b : Nat) : Bool :=
  a = b || (s.bridges.toList.all Bridge.carries) || (if s.dmode = 2 then s.schedOpen a b else s.reaches Bridge.carries (s.hops a b) a b)
/-- Whether a die reaches an I/O die, and through it the host and Lace (R2). -/
def State.ioOpen (s : State) (d : Nat) : Bool := s.meshOpen d 6 || s.meshOpen d 7
/-- Whether a place lies in host memory, which the part reaches through an I/O die (R2, R228). -/
def inHost (l : Nat) : Bool := decide (hostLoc 0 ≤ l)
/-- Whether a tile reaches a die, or what lies in another package or behind an I/O die (R2, R388, R401). -/
def State.wayTo (s : State) (t : TileId) (pkg die : Nat) (host : Bool) : Bool :=
  if pkg = s.domPkg ∧ host = false then s.meshOpen (dieOf t) die else s.ioOpen (dieOf t) && !s.unreachPkgs.contains pkg
/-- Whether a home is reached from a tile: over the bridges, and over an I/O die where it lies in another package or in host memory (R2, R388,
R401, R404). -/
def State.homeOpen (s : State) (t : TileId) (h : Home) : Bool := s.wayTo t h.pkg h.die (inHost h.loc)
/-- A home that system software has declared lost (R404). -/
def State.isLost (s : State) (h : Home) : Bool :=
  if h.pkg = s.domPkg then s.lostDies.contains h.die else s.lostPkgs.contains h.pkg
/-- Whether what a home sends comes to a tile: an answer or a notice crosses bridges as a request does (R1, R388, R401); a home that is
declared lost keeps nothing waiting (R404). -/
def State.backOpen (s : State) (t : TileId) (h : Home) : Bool :=
  s.isLost h || (if h.pkg = s.domPkg ∧ inHost h.loc = false then s.meshOpen h.die (dieOf t) else s.wayTo t h.pkg h.die true)
/-- The home of a place. -/
def State.homeOf (s : State) (l : Nat) : Home :=
  match locTile l with
  | some u => ⟨l, dieOf u, s.domPkg, none⟩
  | none => if inHost l then ⟨l, 0, s.domPkg, none⟩ else ⟨l, l % 2 ^ 41 / 2 ^ 37, l / 2 ^ 41, none⟩
/-- Whether a tile reaches the home of a place, and its acknowledgement comes back (R388). -/
def State.commitOpen (s : State) (t : TileId) (l : Nat) : Bool := (s.isLost (s.homeOf l) || s.homeOpen t (s.homeOf l)) && s.backOpen t (s.homeOf l)
/-- Whether a tile reaches the die of a device-space address (R2, R214, R388). -/
def State.deviceOpen (s : State) (t : TileId) (a : Word) : Bool := s.meshOpen (dieOf t) (a.toNat / 2 ^ 40 % 8)

-- Lasts (R236-R238)

/-- A field of a last, bits [lo + n - 1 : lo]. -/
def lastField (l : BitVec 512) (lo n : Nat) : Nat := l.toNat / 2 ^ lo % 2 ^ n

/-- The bytes of one element of a last, or of one block (R236). -/
def esBytes (es : Nat) : Nat :=
  match es with
  | 0 => 1 | 1 => 2 | 2 => 4 | 3 => 8 | 4 => 18 | 5 => 12 | _ => 8

def lastEs (l : BitVec 512) : Nat := lastField l 0 8
def lastNdim (l : BitVec 512) : Nat := lastField l 8 8
def lastMapdim (l : BitVec 512) : Nat := lastField l 16 8
def lastCyc (l : BitVec 512) : Nat := lastField l 24 1
def lastGr (l : BitVec 512) : Nat := lastField l 32 4
def lastGc (l : BitVec 512) : Nat := lastField l 36 4
def lastGrid (l : BitVec 512) (k : Nat) : Nat := lastField l (40 + 3 * k) 3
def lastRl (l : BitVec 512) : Nat := lastField l 64 32
def lastTr (l : BitVec 512) : Nat := lastField l 96 16
def lastTc (l : BitVec 512) : Nat := lastField l 112 16
def lastDim (l : BitVec 512) (k : Nat) : Nat := lastField l (128 + 32 * k) 32
def lastStr (l : BitVec 512) (k : Nat) : Int := (BitVec.ofNat 32 (lastField l (256 + 32 * k) 32)).toInt
def lastRow0 (l : BitVec 512) : Nat := lastField l 384 8
def lastCol0 (l : BitVec 512) : Nat := lastField l 392 8
def lastNrows (l : BitVec 512) : Nat := lastField l 400 8
def lastNcols (l : BitVec 512) : Nat := lastField l 408 8
def lastBlk (l : BitVec 512) : Nat := lastField l 416 32
def lastMdie (l : BitVec 512) : Nat := lastField l 448 8

/-- A last is valid for a copy (R237). -/
def lastCopyOk (l : BitVec 512) : Bool :=
  let nd := lastNdim l
  let m := lastMapdim l
  decide (lastEs l ≤ 6) && decide (1 ≤ nd) && decide (nd ≤ 4) &&
  ((List.range 4).all fun k => if k < nd then decide (lastDim l k ≠ 0) else decide (lastDim l k = 0) && decide (lastStr l k = 0)) &&
  (decide (m = 0xFF) ||
    (decide (m < nd) && decide (1 ≤ lastBlk l) && decide (1 ≤ lastNrows l) && decide (1 ≤ lastNcols l) &&
      decide (lastRow0 l + lastNrows l ≤ 16) && decide (lastCol0 l + lastNcols l ≤ 16) && decide (lastMdie l ≤ 5))) &&
  decide (lastField l 25 7 = 0) && decide (lastField l 58 6 = 0) && decide (lastField l 456 56 = 0)

/-- A last is valid for homing a page of `size` bytes (R237). -/
def lastHomeOk (l : BitVec 512) (size : Nat) : Bool :=
  let n := lastGr l * lastGc l
  let dies := (List.range n).map (lastGrid l)
  lastCopyOk l && decide (1 ≤ lastTr l) && decide (1 ≤ lastTc l) && decide (1 ≤ lastGr l) && decide (1 ≤ lastGc l) &&
  decide (n ≤ 6) && dies.all (fun d => decide (d ≤ 5)) && decide dies.Nodup &&
  decide (lastRl l % (lastTc l * lastGc l) = 0) && decide (1 ≤ lastRl l) &&
  decide (size % (lastRl l * esBytes (lastEs l) * lastTr l * lastGr l) = 0)

/-- The die and the physical address of byte `o` of a page that a last homes, its base at `base` within each die (R238). -/
def lastHome (l : BitVec 512) (base o : Nat) : Nat × Nat :=
  let e := esBytes (lastEs l)
  let row := o / (lastRl l * e)
  let col := o % (lastRl l * e) / e
  let ti := row / lastTr l
  let tj := col / lastTc l
  let nt := lastRl l / lastTc l
  let die := lastGrid l (ti % lastGr l * lastGc l + tj % lastGc l)
  let loc := ti / lastGr l * (nt / lastGc l) + tj / lastGc l
  let inner := (row % lastTr l * lastTc l + col % lastTc l) * e + o % e
  (die, base + loc * lastTr l * lastTc l * e + inner)

-- The walk (R227-R229, R233)

/-- The outcome of a walk: `cut` where a table lies on a die that is not reached now (R388). -/
inductive WalkOut where
  | found (w : Walk)
  | held
  | cut
  deriving DecidableEq, Repr

/-- Read n bytes of the package's own HBM as a number, as a station does. -/
def State.hbmNat (s : State) (pa n : Nat) : Nat := s.mem.readNat (hbmLoc s.domPkg pa) n

/-- The bytes that a leaf of a level maps (R227). -/
def leafSize (level : Nat) : Nat := if level = 1 then 2 ^ 34 else if level = 2 then 2 ^ 25 else 2 ^ 16

/-- The outcome of a leaf entry (R229, R237). `lasts` is the pid's last table. -/
def State.leafOut (s : State) (pte level lasts : Nat) : WalkOut :=
  let pa := pte / 2 ^ 16 % 2 ^ 24 * 2 ^ 16
  let tgt := pte / 2 ^ 40 % 4
  let pkg := pte / 2 ^ 42 % 64
  let last := BitVec.ofNat 512 (s.hbmNat (lasts + 64 * (pte / 2 ^ 48 % 256)) 64)
  let byLast := pte.testBit 61 && tgt = 0
  if pte / 2 ^ 12 % 16 ≠ 0 ∨ pa % leafSize level ≠ 0 ∨ tgt ≥ 2 ∨ pkg ≥ s.domPkgs then .found .fatal
  else if tgt = 0 ∧ byLast = false ∧ pa / 2 ^ 37 ≥ Config.dies then .found .fatal
  else if byLast = true ∧ lastHomeOk last (leafSize level) = false then .found .fatal
  else .found (.leaf (BitVec.ofNat 64 pte) level (if byLast then last else 0))

/-- The outcome of a leaf entry whose last, where it has one, is read on a die that is reached (R229, R388). -/
def State.leafIn (s : State) (p : Nat → Bool) (pte level lasts : Nat) : WalkOut :=
  if pte.testBit 61 && !p ((lasts + 64 * (pte / 2 ^ 48 % 256)) / 2 ^ 37) then .cut else s.leafOut pte level lasts

/-- The walk from a table of a level; the fuel is the number of levels left, and `p` the dies that are reached (R227-R229, R388). -/
def State.walkFrom (s : State) (p : Nat → Bool) (va lasts : Nat) : Nat → Nat → WalkOut
  | 0, _ => .found .fatal
  | n + 1, table =>
    let level := 3 - n
    if table / 2 ^ 37 ≥ Config.dies then .found .fatal
    else if !p (table / 2 ^ 37) then .cut
    else
      let pte := s.hbmNat (table + 8 * (va / 2 ^ (16 + 9 * n) % 512)) 8
      if pte % 2 = 0 then (if pte.testBit 60 && s.dmode = 0 then .held else .found .fatal)
      else if pte / 2 ^ 56 % 16 ≠ 0 ∨ pte / 4 % 2 ^ 10 ≠ 0 then .found .fatal
      else if level = 3 then s.leafIn p pte 3 lasts
      else if pte.testBit 1 then (if level = 0 then .found .fatal else s.leafIn p pte level lasts)
      else s.walkFrom p va lasts n (pte / 2 ^ 12 % 2 ^ 28 * 2 ^ 12)

/-- A walk for a virtual address of a pid, over the dies that are reached (R227). A pid without a directory entry is fatal. -/
def State.walkOver (s : State) (p : Nat → Bool) (pid : BitVec 16) (va : Nat) : WalkOut :=
  let dir := s.pdbase.toNat + 16 * pid.toNat
  let w0 := s.hbmNat dir 8
  let w1 := s.hbmNat (dir + 8) 8
  if !p (dir / 2 ^ 37) then .cut
  else if w0 % 2 = 0 then .found .fatal
  else s.walkFrom p va (w1 / 2 ^ 6 % 2 ^ 34 * 2 ^ 6) 4 (w0 / 2 ^ 12 % 2 ^ 28 * 2 ^ 12)
/-- What the tables give for a virtual address of a pid (R227). -/
def State.walk (s : State) (pid : BitVec 16) (va : Nat) : WalkOut := s.walkOver (fun _ => true) pid va
/-- The walk of a station of a die, which reads tables on other dies over the bulk mesh (R2, R227, R388). Once a die is declared lost a walk
waits for it no more (DESIGN CHOICE, log 73: R404 speaks of homes only). -/
def State.walkAt (s : State) (die : Nat) (pid : BitVec 16) (va : Nat) : WalkOut :=
  s.walkOver (fun d => s.lostDies.contains d || s.meshOpen die d) pid va

/-- The station of a virtual address, and its 64 KiB page (R226). -/
def stationOf (va : Nat) : Nat := va / 2 ^ 16 % 8
def pageOf (va : Nat) : BitVec 36 := BitVec.ofNat 36 (va / 2 ^ 16)

/-- The cached translation of a page at a station of a die (R226, R234). -/
def State.cached (s : State) (die : Nat) (pid : BitVec 16) (va : Nat) : Option Walk :=
  (s.xlats.find? fun x => x.die = die && x.station = stationOf va && x.pid = pid && x.page = pageOf va).map (·.walk)

/-- Whether a page is held at a station. -/
def State.isHeld (s : State) (die : Nat) (pid : BitVec 16) (va : Nat) : Bool :=
  s.heldPages.any fun x => x.die = die && x.station = stationOf va && x.pid = pid && x.page = pageOf va

/-- Whether an entry is the translation of a page that an asker of a tile has been given (R234). -/
def Translated.isFor (x : Translated) (t : TileId) (who : Asker) (pid : BitVec 16) (page : BitVec 36) : Bool :=
  x.pid = pid && x.page = page && x.req.tile = t && x.req.asker == who
/-- The translation by which a request of a tile goes: the one that it has been given, be the entry changed since or not, else the station's
cached one (R226, R230, R234). -/
def State.translation (s : State) (t : TileId) (who : Asker) (pid : BitVec 16) (va : Nat) : Option Walk :=
  match s.trans.find? fun x => x.isFor t who pid (pageOf va) with
  | some x => some x.walk
  | none => s.cached (dieOf t) pid va

/-- The home of a virtual byte through a leaf (R228, R238); host memory counts as die 0 of its package (R191) and is one memory, whichever
package the leaf names (DESIGN CHOICE, log 12). -/
def leafHome (pte : Word) (level : Nat) (last : BitVec 512) (va : Nat) : Home :=
  let p := pte.toNat
  let pkg := p / 2 ^ 42 % 64
  let o := va % leafSize level
  if p / 2 ^ 40 % 4 = 1 then ⟨hostLoc (p / 2 ^ 16 % 2 ^ 24 * 2 ^ 16 + o), 0, pkg, some level⟩
  else if p.testBit 61 then
    let h := lastHome last (p / 2 ^ 16 % 2 ^ 21 * 2 ^ 16) o
    ⟨hbmLoc pkg (h.1 * 2 ^ 37 + h.2), h.1, pkg, some level⟩
  else
    let pa := p / 2 ^ 16 % 2 ^ 24 * 2 ^ 16 + o
    ⟨hbmLoc pkg pa, pa / 2 ^ 37, pkg, some level⟩

/-- An access of an engine: the pid that it goes with (R45, R122), and the number by which its tile asks for translations. -/
structure Acc where
  pid : BitVec 16
  id  : Nat
  deriving DecidableEq, Repr
def EngEntry.acc (e : EngEntry) : Acc := ⟨e.req.pid, e.access⟩
def Flagging.acc (f : Flagging) : Acc := ⟨f.req.pid, f.access⟩

/-- How far a request has got: it waits for a translation, it is a fatal access, or it reaches a home. -/
inductive Reach where
  | waits
  | fatal
  | home (h : Home)
  deriving DecidableEq, Repr

/-- Where a byte leads for request `id` of a tile, be the way there open or not (R226, R229, R230, R404). -/
def State.lead (s : State) (t : TileId) (pid : BitVec 16) (id : Nat) (write : Bool) (a : Word) : Reach :=
  match s.place t a with
  | .bank b o =>
    let h : Home := ⟨tileLoc b o, dieOf b, s.domPkg, none⟩
    if s.isLost h then .fatal else .home h
  | .virt va =>
    match s.translation t (.access id) pid va with
    | none => .waits
    | some .fatal => .fatal
    | some (.leaf pte level last) =>
      let h := leafHome pte level last va
      if write && !pte.getLsbD 62 then .fatal
      else if s.isLost h then .fatal else .home h
  | _ => .fatal
/-- The place of a byte for a request that goes there now: one whose home is cut off waits (R388, R401). -/
def State.reach (s : State) (t : TileId) (pid : BitVec 16) (id : Nat) (write : Bool) (a : Word) : Reach :=
  match s.lead t pid id write a with
  | .home h => if s.homeOpen t h then .home h else .waits
  | r => r

/-- The home of a byte of the access `id`, whether or not its translation is cached. -/
def State.writeHome (s : State) (t : TileId) (id : Nat) (pid : BitVec 16) (a : Word) : Option Home :=
  match s.place t a with
  | .bank b o => some ⟨tileLoc b o, dieOf b, s.domPkg, none⟩
  | .virt va =>
    match s.translation t (.access id) pid va with
    | some (.leaf pte level last) => some (leafHome pte level last va)
    | some .fatal => none
    | none => match s.walk pid va with
      | .found (.leaf pte level last) => some (leafHome pte level last va)
      | _ => none
  | _ => none

/-- Whether a home is the tile's own bank. -/
def Home.isOwn (h : Home) (t : TileId) : Bool := locTile h.loc = some t

-- Byte ranges of a request

/-- The effective addresses of n bytes from an address on. -/
def addrsFrom (a : Word) : Nat → List Word
  | 0 => []
  | n + 1 => a :: addrsFrom (a + 1) n

/-- The reach of a whole request: fatal where any byte is, waiting where any byte is, else the homes in order. -/
inductive Reaches where
  | waits
  | fatal
  | homes (hs : List Home)
  deriving DecidableEq, Repr

def joinReach : List Reach → Reaches
  | [] => .homes []
  | r :: rs =>
    match r, joinReach rs with
    | .fatal, _ => .fatal
    | _, .fatal => .fatal
    | .waits, _ => .waits
    | _, .waits => .waits
    | .home h, .homes hs => .homes (h :: hs)

def State.reachAll (s : State) (t : TileId) (pid : BitVec 16) (id : Nat) (write : Bool) (as : List Word) : Reaches :=
  joinReach (as.map (s.reach t pid id write))

-- What a read returns (R242, R246, R250)

/-- The last element of a list that a predicate takes. -/
def lastWhere {α : Type} (p : α → Bool) : List α → Option α
  | [] => none
  | x :: xs => match lastWhere p xs with
    | some y => some y
    | none => if p x then some x else none

/-- The home's array merged with the staged entries of the reading tile (R250). -/
def State.viewByte (s : State) (t : TileId) (l : Nat) : Byte :=
  match lastWhere (fun e => e.tile = t && e.loc = l) s.staged with
  | some e => e.val
  | none => s.mem.read l

/-- A word of n bytes as a tile sees it at its home, from the places of its bytes. -/
def State.viewNat (s : State) (t : TileId) (ls : List Nat) : Nat := leNat (ls.map (s.viewByte t))

/-- The addresses of the bytes that a store writes, and the bytes. -/
def StoreReq.addrs (r : StoreReq) : List Word := r.pieces.flatMap fun p => addrsFrom p.1 p.2.length
def StoreReq.bytes (r : StoreReq) : List Byte := r.pieces.flatMap (·.2)
/-- The first address that a store writes. -/
def StoreReq.first (r : StoreReq) : Option Word := r.pieces.head?.map (·.1)

/-- The homes of a store's bytes: those that it was translated to (R234), else those that its addresses lead to now. -/
def State.storeHomes (s : State) (t : TileId) (r : StoreReq) : List (Option Home) :=
  if r.homes.isEmpty then r.addrs.map (s.writeHome t r.id r.pid) else r.homes.map some
/-- The home of a store's first byte. -/
def State.storeHome (s : State) (t : TileId) (r : StoreReq) : Option Home := (s.storeHomes t r).headD none

/-- The cells that a store writes, as (place, byte), of a store of tile t. -/
def State.storeCells (s : State) (t : TileId) (r : StoreReq) : List Host.Cell :=
  ((s.storeHomes t r).zip r.bytes).filterMap fun p => p.1.map fun h => (h.loc, p.2)

/-- The byte that a store holds for a place. -/
def State.storeByte (s : State) (t : TileId) (r : StoreReq) (l : Nat) : Option Byte :=
  ((s.storeCells t r).find? fun c => c.1 = l).map (·.2)

/-- A byte that a store of a tile holds at a forwarding point. -/
structure HeldByte where
  tile : TileId
  req  : StoreReq
  val  : Byte
  deriving DecidableEq, Repr

/-- The newest of some buffered bytes, by stamp. -/
def newest : List HeldByte → Option HeldByte
  | [] => none
  | x :: xs => match newest xs with
    | some y => if x.req.stamp ≤ y.req.stamp then some y else some x
    | none => some x

/-- The bytes for a place in the stores of a tile that a predicate takes. -/
def State.heldBytes (s : State) (t : TileId) (l : Nat) (p : StoreReq → Bool) : List HeldByte :=
  (s.tileAt t).stores.filterMap fun r => if p r then (s.storeByte t r l).map fun b => ⟨t, r, b⟩ else none

/-- The bytes for a place in the stores of all tiles. -/
def State.heldBytesAll (s : State) (l : Nat) (q : TileId → Bool) (p : StoreReq → Bool) : List HeldByte :=
  s.tiles.flatMap fun x => if q x.1 then s.heldBytes x.1 l p else []

/-- Which forwarding points a load may be answered by (R246): the tile's egress queue and the die's bridge buffer, and the
Lace buffer. -/
structure Points where
  near : Bool
  lace : Bool
  deriving DecidableEq, Repr

/-- The points of a plain load and of an acquire at a scope (R246, R243). -/
def Points.plain : Points := ⟨true, true⟩
def Points.acq : Scope → Points
  | .tile | .cluster | .die => ⟨true, true⟩
  | .package => ⟨false, true⟩
  | .domain => ⟨false, false⟩

/-- The buffered write that answers a load of slot k (its number `id`, its position `seq`) of a home: the newest at the first forwarding point
on its path that holds one (R246, R264). A write that the load happens before is not seen: one of the thread itself that follows it, or one of
another thread that has acquired what follows it (R242). -/
def State.forwarded (s : State) (t : TileId) (k : Slot) (id seq : Nat) (pts : Points) (h : Home) : Option HeldByte :=
  let mine (r : StoreReq) : Bool := (r.slot != k || decide (r.seq < seq)) && !r.past.contains (t, id)
  let bank :=
    if h.isOwn t then
      newest (s.heldBytes t h.loc fun r => r.stage == .bank && mine r && (r.slot == k || (r.kind != .plain && pts.near)))
    else none
  let egress :=
    if pts.near && !h.isOwn t then newest (s.heldBytes t h.loc fun r => r.stage == .egress && mine r) else none
  let bridge :=
    if pts.near && (h.die != dieOf t || h.pkg != s.domPkg) then
      newest (s.heldBytesAll h.loc (fun u => dieOf u = dieOf t) fun r => r.stage == .bridge)
    else none
  let lace :=
    if pts.lace && h.pkg != s.domPkg then newest (s.heldBytesAll h.loc (fun _ => true) fun r => r.stage == .lace) else none
  ((bank.or egress).or bridge).or lace
/-- The byte that such a load takes: from a forwarding point, else from the home (R246). -/
def State.loadByte (s : State) (t : TileId) (k : Slot) (id seq : Nat) (pts : Points) (h : Home) : Byte :=
  match s.forwarded t k id seq pts h with
  | some x => x.val
  | none => s.viewByte t h.loc

-- What an answered form asks for, and what it must not bypass (R242, R243, R246)

/-- The bytes an answered form touches. -/
def sizeBytes : Size → Nat
  | .w64 => 8
  | .w32 => 4
def ReqOp.bytes : ReqOp → Nat
  | .acq z _ | .ldfe z | .ldff z | .stef z _ | .stff z _ | .arsv z | .rmw _ z _ _ | .wadr z _ _ => sizeBytes z
  | .ste => 4
  | .marm _ => 64
  | .nb _ => 0

/-- Whether the form needs write permission at its page: stores and atomics (R228), and a reservation as well (DESIGN CHOICE, log 76). -/
def ReqOp.writes : ReqOp → Bool
  | .stef _ _ | .stff _ _ | .ste | .ldfe _ | .rmw _ _ _ _ | .arsv _ => true
  | _ => false

/-- The first address of a request: for `marm` that of the line (R189). -/
def ReqOp.first (op : ReqOp) (addr : Word) : Word :=
  match op with
  | .marm _ => addr &&& ~~~63#64
  | _ => addr
def Req.first (r : Req) : Word := r.op.first r.addr
/-- The addresses of a request's bytes. -/
def Req.addrs (r : Req) : List Word := addrsFrom r.first r.op.bytes

/-- The points that may answer a form; none for one that is performed at the home (R243, R246). -/
def ReqOp.points : ReqOp → Points
  | .acq _ sc => Points.acq sc
  | _ => ⟨false, false⟩

/-- Whether a form reads memory, so that a write before it in happens-before must not be bypassed (R242). -/
def ReqOp.reads : ReqOp → Bool
  | .marm _ | .nb _ => false
  | _ => true

/-- Whether a store of tile u stands at a point that a form of tile t and slot k passes and that may not answer it. -/
def StoreReq.passed (r : StoreReq) (u t : TileId) (k : Slot) (pts : Points) : Bool :=
  match r.stage with
  | .bank => decide (u = t) && !pts.near && (r.slot == k || r.kind != .plain)
  | .egress => decide (u = t) && !pts.near
  | .bridge => decide (dieOf u = dieOf t) && !pts.near
  | .lace => !pts.lace
  | .performed => false

/-- Whether a form is an acquire (R247). -/
def ReqOp.acquires : ReqOp → Bool
  | .acq _ _ | .arsv _ => true
  | _ => false
/-- Whether a form of tile t and slot k must not bypass a store of tile u: an acquire none of its own tile's writes (R246), any form none of its
own thread's and none that an acquire of its thread has put before it (R241, R242). -/
def State.mayNotPass (s : State) (u : TileId) (r : StoreReq) (t : TileId) (k : Slot) (op : ReqOp) : Bool :=
  let before := (s.thrAt t k).past.contains (u, r.id)
  (r.passed u t k op.points && ((u = t && (op.acquires || r.slot == k)) || before)) || (r.stage == .bank && before)

/-- Whether a store of tile u writes the byte at an address of a request that tile t sends now: by place, or by virtual address where no
translation is known. -/
def State.storesTo (s : State) (u : TileId) (r : StoreReq) (t : TileId) (a : Word) : Bool :=
  let pid := (s.tileAt t).pid
  let home := s.writeHome t (s.tileAt t).nextId pid a
  (r.addrs.zip (s.storeHomes u r)).any fun p => match home, p.2 with
    | some g, some h => g.loc == h.loc
    | _, _ => regionOf a = 2 && p.1 == a && r.pid == pid

/-- The writes that a form would bypass on its way: it is performed only after they are (R242, R246). -/
def State.bypassed (s : State) (t : TileId) (k : Slot) (op : ReqOp) (addr : Word) : Past :=
  if !op.reads then []
  else
    let as := addrsFrom (op.first addr) op.bytes
    s.tiles.flatMap fun p => p.2.stores.filterMap fun r =>
      if s.mayNotPass p.1 r t k op && as.any (s.storesTo p.1 r t) then some (p.1, r.id) else none

/-- Whether a store is still listed. -/
def State.storeListed (s : State) (q : TileId × Nat) : Bool := (s.tileAt q.1).stores.any fun r => r.id = q.2

-- What happens before (R241, R247)

/-- The scope of a reservation of a word (R247): package for one of a scratchpad, domain for a global one. -/
def wordScope (l : Nat) : Scope := if (locTile l).isSome then .package else .domain
/-- The scope of a release (R247). -/
def StoreKind.scope : StoreKind → Option Scope
  | .plain => none
  | .release sc => some sc
  | .arel l _ => some (wordScope l)

/-- Whether a scope covers two tiles of the package (R180, R247). -/
def covers : Scope → TileId → TileId → Bool
  | .tile, t, u => t = u
  | .cluster, t, u => dieOf t = dieOf u && clusterOf t = clusterOf u
  | .die, t, u => dieOf t = dieOf u
  | .package, _, _ | .domain, _, _ => true

/-- A store that is on its way, from a tile or from the image of one whose gang is stopped; none once it has been performed. -/
def State.storeOf (s : State) (q : TileId × Nat) : Option StoreReq :=
  match (s.tileAt q.1).stores.find? fun r => r.id = q.2 with
  | some r => some r
  | none => s.gangs.findSome? fun g => (g.saved.find? fun p => p.1 = q.1).bind fun p => p.2.stores.find? fun r => r.id = q.2
/-- The outstanding load of a number. -/
def Tile.loadOf (x : Tile) (id : Nat) : Option LoadReq := x.slots.toList.findSome? fun th => th.loads.find? fun l => l.id = id
/-- A load that has not returned, of a tile or of the image of one whose gang is stopped. -/
def State.loadOf (s : State) (q : TileId × Nat) : Option LoadReq :=
  match (s.tileAt q.1).loadOf q.2 with
  | some l => some l
  | none => s.gangs.findSome? fun g => (g.saved.find? fun p => p.1 = q.1).bind fun p => p.2.loadOf q.2
/-- Those that are still on their way, each once. -/
def State.livePast (s : State) (ps : Past) : Past := (ps.filter fun q => (s.storeOf q).isSome || (s.loadOf q).isSome).eraseDups

/-- The accesses that happen before what a slot does next: its own, and those that its acquires have put before it (R241). -/
def State.pastOf (s : State) (t : TileId) (k : Slot) : Past :=
  s.livePast ((s.thrAt t k).past ++ ((s.tileAt t).stores.filter fun r => r.slot = k).map (fun r => (t, r.id)) ++
    (s.thrAt t k).loads.map fun l => (t, l.id))
/-- The loads of other threads that happen before what a slot does next (R241). -/
def State.pastLoads (s : State) (t : TileId) (k : Slot) : Past := (s.livePast (s.thrAt t k).past).filter fun q => (s.loadOf q).isSome
/-- An acquire puts accesses before all that its thread does from then on (R241). -/
def State.acquire (s : State) (t : TileId) (k : Slot) (ps : Past) : State :=
  if ps.isEmpty then s else s.modThrAt t k fun th => { th with past := s.livePast (th.past ++ ps) }

/-- What an acquire of a tile at a scope takes from a release by a tile at its scope: what happens before the release, where both scopes cover
both tiles (R247). -/
def taken (sa sr : Scope) (t u : TileId) (ps : Past) : Past := if covers sa t u && covers sr u t then ps else []
/-- What an acquire at a scope takes with a byte that it reads at a home: from the release that has written it, of which a mark is left, but
where the reader sees a staged engine write instead (R247, R250). -/
def State.markPast (s : State) (t : TileId) (sc : Scope) (l : Nat) : Past :=
  if s.staged.any fun e => e.tile = t && e.loc = l then []
  else (s.rels.filter fun m => m.locs.contains l).flatMap fun m => taken sc m.scope t m.tile m.past
/-- What an acquiring load takes with a byte: from the release that holds it at a forwarding point, else from the mark at its home (R246,
R247). -/
def State.bytePast (s : State) (t : TileId) (k : Slot) (id seq : Nat) (sc : Scope) (h : Home) : Past :=
  match s.forwarded t k id seq (Points.acq sc) h with
  | some x => match x.req.kind.scope with
    | some sr => taken sc sr t x.tile (x.req.past ++ [(x.tile, x.req.id)])
    | none => []
  | none => s.markPast t sc h.loc

end Sys2Proof.Machine
end

