-- ==== Sys2Proof/Machine/Homes.lean ====
section
/-! DEFINITION. What happens at a home: a performed write with the monitors, watches and wait lists it serves (R169-R173, R191,
R250, R266), the reservation queues (R268-R272), the notice boards (R275-R279), and acknowledgement at a scope (R245, R247). -/

namespace Sys2Proof.Machine

-- The undo log of a pair (R376)

/-- Log the first write of the interval to a word of a paired tile's scratchpad. -/
def State.logWord (s : State) (l : Nat) : State :=
  match locTile l with
  | none => s
  | some t =>
    let x := s.tileAt t
    match x.pairing with
    | none => s
    | some p =>
      let w := wordOf l
      if p.undo.any (fun u => u.1 = w) then s
      else s.putTile t { x with pairing := some { p with
        undo := p.undo ++ [(w, BitVec.ofNat 32 (s.mem.readNat (4 * w) 4), feFull w s.fe)] } }

/-- A pair notes what it accepts from outside (R376). -/
def Tile.noteIn (x : Tile) (i : InItem) : Tile :=
  match x.pairing with
  | some p => { x with pairing := some { p with inbound := p.inbound ++ [(p.retired, i)] } }
  | none => x

/-- What another tile does to the scratchpad word at a place is noted by a pair that the word belongs to. -/
def State.noteOutside (s : State) (t : TileId) (l : Nat) (i : InItem) : State :=
  match locTile l with
  | some u => if u = t || (s.tileAt u).pairing.isNone then s else s.modTile u fun x => x.noteIn i
  | none => s
/-- A write of some bytes that lie in one granule. -/
def State.noteCells (s : State) (t : TileId) (cells : List Host.Cell) : State :=
  match cells with
  | c :: _ => s.noteOutside t c.1 (.write cells)
  | [] => s
/-- A change of the full/empty bits of a form's words. -/
def State.noteMarks (s : State) (t : TileId) (words : List Nat) (full : Bool) : State :=
  match words with
  | w :: _ => s.noteOutside t (4 * w) (.mark words full)
  | [] => s

/-- A place that is written again: no acquire reads there what a release wrote before (R247). -/
def RelMark.without (l : Nat) (m : RelMark) : RelMark := { m with locs := m.locs.filter (· ≠ l) }
/-- One byte of the array. -/
def State.putByte (s : State) (c : Host.Cell) : State :=
  let s := s.logWord c.1
  { s with mem := s.mem.write c.1 c.2, rels := (s.rels.map (RelMark.without c.1)).filter fun m => !m.locs.isEmpty }

-- Monitors (R171)

/-- Set W of an entry; a thread that sleeps wakes (R172). -/
def Thread.setW (th : Thread) (e : Fin 4) : Thread :=
  let th := { th with monitors := th.monitors.set e { th.monitors[e] with w := true } }
  match th.run with
  | .sleeping => { th with run := .ready, rouse := .clears }
  | _ => th

/-- Whether an armed entry covers one of the places written. -/
def Monitor.covers (m : Monitor) (ls : List Nat) : Bool := m.valid && ls.any fun l => m.locs.contains l

/-- A write at the home of a line reaches one entry: at once for a line in the tile's own scratchpad, else by a notice that
travels to the tile (R171). -/
def State.noteEntry (s : State) (t : TileId) (k : Slot) (e : Fin 4) (ls : List Nat) : State :=
  let m := (s.thrAt t k).monitors[e]
  if m.covers ls then
    if m.locs.any (fun l => locTile l == some t) then s.modThrAt t k fun th => th.setW e
    else if s.notices.contains (t, k, e) then s else { s with notices := s.notices ++ [(t, k, e)] }
  else s

/-- The four entries. -/
def entries4 : List (Fin 4) := [0, 1, 2, 3]
/-- The eight slots. -/
def slots8 : List Slot := [0, 1, 2, 3, 4, 5, 6, 7]
/-- The slots of user threads. -/
def userSlots : List Slot := [1, 2, 3, 4, 5, 6, 7]

/-- A stopped gang's monitors of lines outside its own tiles see writes too (R361). -/
def Gang.noteSaved (ls : List Nat) (g : Gang) : Gang :=
  let own (l : Nat) : Bool := match locTile l with
    | some t => g.saved.any fun p => p.1 = t
    | none => false
  let note (th : Thread) (e : Fin 4) : Thread :=
    if (th.monitors[e]).covers ls && !((th.monitors[e]).locs.any own) then th.setW e else th
  { g with saved := g.saved.map fun p => (p.1, { p.2 with slots := p.2.slots.map fun th => entries4.foldl note th }) }

/-- A write of some places is seen by the monitors of the tiles that a predicate takes. -/
def State.noteTiles (s : State) (ls : List Nat) (who : TileId → Bool) : State :=
  (s.tiles.map (·.1)).foldl (fun s t =>
    if who t then userSlots.foldl (fun s k => entries4.foldl (fun s e => s.noteEntry t k e ls) s) s else s) s
/-- A write that the thread domain sees is seen by the monitors of such tiles, and by those of stopped gangs (R171, R361). -/
def State.noteWrites (s : State) (ls : List Nat) (who : TileId → Bool) : State :=
  ({ s with gangs := s.gangs.map (Gang.noteSaved ls) } : State).noteTiles ls who

-- Requests of answered forms

/-- The homes of a request's bytes: those that it was listed with (R234), else those that its addresses lead to now. -/
def State.reqReach (s : State) (t : TileId) (r : Req) : Reaches :=
  if r.homes.isEmpty then s.reachAll t r.pid r.id r.op.writes r.addrs
  else if r.homes.any s.isLost then .fatal else .homes r.homes

/-- The places of a request's bytes, when they are reached. -/
def Reaches.locs : Reaches → List Nat
  | .homes hs => hs.map (·.loc)
  | _ => []

/-- Give a request its answer. -/
def State.answerAt (s : State) (t : TileId) (k : Slot) (a : Answer) : State :=
  s.modThrAt t k fun th => { th with req := th.req.map fun r => { r with stage := .answered a } }

/-- A slot's waiter leaves the wait lists and watch entries. -/
def State.unlist (s : State) (t : TileId) (k : Slot) : State :=
  { s with
    tiles := s.tiles.map fun p => (p.1, { p.2 with waitList := p.2.waitList.filter fun w => !(w.tile = t && w.slot = k) })
    watchers := s.watchers.filter fun w => !(w.tile = t && w.slot = k) }

/-- All listed waiters, the tiles' lists first. -/
def State.waiters (s : State) : List Waiter := s.tiles.flatMap (fun p => p.2.waitList) ++ s.watchers

-- Watches (R173, R191)

/-- The word under a watch when it differs from the comparand, at the requester's view (R173). -/
def State.watchWord (s : State) (w : Waiter) : Option Word :=
  match (s.thrAt w.tile w.slot).req with
  | some r =>
    match r.op, s.reqReach w.tile r with
    | .wadr _ cmp _, .homes hs =>
      let v := s.viewNat w.tile (hs.map (·.loc))
      if v = cmp.toNat then none else some (BitVec.ofNat 64 v)
    | _, _ => none
  | none => none

/-- Watches whose word now differs are answered (R191). -/
def State.rewatch (s : State) : State :=
  s.waiters.foldl (fun s w => match s.watchWord w with
    | some v => (s.unlist w.tile w.slot).answerAt w.tile w.slot (.value v 0)
    | none => s) s

-- Staging (R250)

/-- The staged entries to commit where a predicate takes some, and those that stay: an entry takes the tile's older entries of its byte
with it, so that home order keeps the order of staging (R243, R250). -/
def splitStaged (p : Staged → Bool) : List Staged → List Staged × List Staged
  | [] => ([], [])
  | e :: es =>
    let r := splitStaged p es
    if p e || r.1.any (fun c => c.tile = e.tile && c.loc = e.loc) then (e :: r.1, r.2) else (r.1, e :: r.2)

/-- Commit the staged entries that a predicate takes, in staging order. Their writes become visible to the other tiles. -/
def State.commitWhere (s : State) (p : Staged → Bool) : State :=
  let r := splitStaged p s.staged
  if r.1.isEmpty then s
  else
    (r.1.foldl (fun (s : State) e => ((s.noteCells e.tile [(e.loc, e.val)]).putByte (e.loc, e.val)).noteWrites [e.loc] (fun t => t ≠ e.tile))
      { s with staged := r.2 }).rewatch

/-- The staged entries of the granules that hold some places are committed (R250). -/
def State.commitAt (s : State) (ls : List Nat) : State := s.commitWhere fun e => ls.any fun l => l / 64 = e.loc / 64

/-- A thread-domain write is performed at its home: staged entries of its granules are committed first, then the bytes are
written, and monitors and watches see them (R250, R171, R173). -/
def State.perform (s : State) (cells : List Host.Cell) : State :=
  let s := s.commitAt (cells.map (·.1))
  let s := cells.foldl State.putByte s
  (s.noteWrites (cells.map (·.1)) fun _ => true).rewatch

/-- Stage the writes of an operation of a tile (R250): that tile's monitors and watches see them, and no others' before they are
committed (R171). -/
def State.stage (s : State) (t : TileId) (op : Nat) (cells : List Host.Cell) : State :=
  let s : State := { s with staged := s.staged ++ cells.map fun (c : Host.Cell) => (⟨t, op, false, c.1, c.2⟩ : Staged) }
  (s.noteTiles (cells.map (·.1)) fun u => u = t).rewatch

-- Full/empty forms (R169, R170, R265, R266)

/-- The words of a list of byte places. -/
def wordsOf (ls : List Nat) : List Nat := (ls.map wordOf).eraseDups

def State.setFull (s : State) (w : Nat) : State := let s := s.logWord (4 * w); { s with fe := feInsert w s.fe }
def State.setEmpty (s : State) (w : Nat) : State := let s := s.logWord (4 * w); { s with fe := feRemove w s.fe }

/-- Whether the words are in the state a form waits for (R265). -/
def State.feReady (s : State) (op : ReqOp) (ls : List Nat) : Bool :=
  match op with
  | .ldfe _ | .ldff _ => (wordsOf ls).all fun w => feFull w s.fe
  | .stef _ _ => (wordsOf ls).all fun w => !feFull w s.fe
  | .stff _ _ | .ste => true
  | _ => false

/-- Write a value of n bytes at places. -/
def cellsAt (ls : List Nat) (v : Nat) : List Host.Cell := ls.zip (leBytes v ls.length)

/-- Perform a full/empty form at its bank and answer it. -/
def State.fePerform (s : State) (t : TileId) (k : Slot) (op : ReqOp) (ls : List Nat) : State :=
  let v := BitVec.ofNat 64 (s.viewNat t ls)
  match op with
  | .ldfe _ => (((wordsOf ls).foldl State.setEmpty (s.noteMarks t (wordsOf ls) false)).noteWrites ls fun _ => true).answerAt t k (.value v 0)
  | .ldff _ => s.answerAt t k (.value v 0)
  | .stef _ x | .stff _ x =>
    let s := (s.noteCells t (cellsAt ls x.toNat)).noteMarks t (wordsOf ls) true
    ((wordsOf ls).foldl State.setFull (s.perform (cellsAt ls x.toNat))).answerAt t k (.value 0 0)
  | .ste => (((wordsOf ls).foldl State.setEmpty (s.noteMarks t (wordsOf ls) false)).noteWrites ls fun _ => true).answerAt t k (.value 0 0)
  | _ => s

/-- Serve one listed entry if its condition holds. -/
def State.serveOne (s : State) (w : Waiter) : State :=
  match (s.thrAt w.tile w.slot).req with
  | some r =>
    match s.reqReach w.tile r with
    | .homes hs =>
      let ls := hs.map (·.loc)
      if s.feReady r.op ls then (s.fePerform w.tile w.slot r.op ls).unlist w.tile w.slot else s
    | _ => s
  | none => s

/-- The bank of a tile examines its wait list in order, again after each pass that served an entry (R170, R266). -/
def State.serveFe : Nat → TileId → State → State
  | 0, _, s => s
  | n + 1, h, s =>
    let s' := (s.tileAt h).waitList.foldl State.serveOne s
    if (s'.tileAt h).waitList.length = (s.tileAt h).waitList.length then s' else State.serveFe n h s'

/-- Serve the wait list of the bank that holds a place. -/
def State.serveAt (s : State) (l : Nat) : State :=
  match locTile l with
  | some h => State.serveFe ((s.tileAt h).waitList.length + 1) h s
  | none => s

-- Wait-list room (R170, R191)

/-- Entries of a wait list or of a station's watch entries. -/
def listRoom : Nat := 64

/-- The number within the domain of the home station of a global word: station k of its home die, with k from bits [11:9] of its
physical or host address; host memory counts as die 0 of its package (R191). -/
def Home.station (h : Home) : Nat := (h.pkg * 8 + h.die) * 8 + h.loc / 512 % 8

/-- Place a request on the list of its home: the bank's wait list, or the watch entries of the home station; it keeps the homes of its
bytes (R234). Without room it is refused and is sent again 64 clocks later (R170). -/
def State.enlist (s : State) (t : TileId) (k : Slot) (hs : List Home) (joined : State → State) : State :=
  let due := (s.tileAt t).cycle.toNat + Config.resendClocks
  let refuse : State := s.modThrAt t k fun th => { th with req := th.req.map fun r => { r with stage := .refused due, homes := [] } }
  let list (s : State) : State :=
    joined (s.modThrAt t k fun th => { th with req := th.req.map fun r => { r with stage := .listed, homes := hs } })
  match hs.head? with
  | none => s
  | some h =>
    let w : Waiter := ⟨t, k, h.loc, h.station⟩
    match locTile h.loc with
    | some u =>
      if (s.tileAt u).waitList.length < listRoom then list (s.modTile u fun x => { x with waitList := x.waitList ++ [w] }) else refuse
    | none =>
      if (s.watchers.filter fun v => v.station = h.station).length < listRoom then list { s with watchers := s.watchers ++ [w] }
      else refuse

-- Atomics and reservations (R267-R272)

/-- The new value and flags of a single-instruction atomic on words of n bytes (R270). -/
def rmwValue (op : Rmw) (n : Nat) (old b c : Nat) : Nat × FFlags :=
  let w := 8 * n
  let m := 2 ^ w
  let so := (BitVec.ofNat w old).toInt
  let sb := (BitVec.ofNat w b).toInt
  match op with
  | .add => ((old + b) % m, FFlags.none)
  | .min => (if so ≤ sb then old else b, FFlags.none)
  | .max => (if sb ≤ so then old else b, FFlags.none)
  | .minn => (if old ≤ b then old else b, FFlags.none)
  | .maxn => (if b ≤ old then old else b, FFlags.none)
  | .and => (Nat.land old b, FFlags.none)
  | .or => (Nat.lor old b, FFlags.none)
  | .xor => (Nat.xor old b, FFlags.none)
  | .xchg => (b, FFlags.none)
  | .cas => (if old = b then c else old, FFlags.none)
  | .addf => (if n = 4 then f32 else f64).add .rne old b

/-- The queue of a word for a size. -/
def State.resvAt (s : State) (l : Nat) (z : Size) : ResvQueue :=
  match s.resvs.find? fun q => q.loc = l && q.size == z with
  | some q => q
  | none => ⟨l, z, none, []⟩
/-- Put a queue back; an idle one is not listed. -/
def State.putResv (s : State) (q : ResvQueue) : State :=
  let rest := s.resvs.filter fun x => !(x.loc = q.loc && x.size == q.size)
  { s with resvs := if q.holder.isNone && q.waiting.isEmpty then rest else rest ++ [q] }

/-- Grant the word to one requester: `arsv` holds it; an atomic, before which the staged bytes of the word are committed, performs its
write and lets it go (R250, R256, R269, R270). The result says whether the word is held. -/
def State.grantTo (s : State) (t : TileId) (k : Slot) (hs : List Home) : State × Bool :=
  match (s.thrAt t k).req with
  | some r =>
    let ls := hs.map (·.loc)
    match r.op with
    | .arsv _ =>
      let ps := s.livePast (ls.flatMap (s.markPast t (wordScope (placeOf hs))))
      ((s.answerAt t k (.granted (BitVec.ofNat 64 (s.viewNat t ls)) hs)).acquire t k ps, true)
    | .rmw op z b c =>
      let s := s.commitAt ls
      let old := s.viewNat t ls
      let n := sizeBytes z
      let x := rmwValue op n old (b.toNat % 2 ^ (8 * n)) (c.toNat % 2 ^ (8 * n))
      (((s.noteCells t (cellsAt ls x.1)).perform (cellsAt ls x.1)).answerAt t k (.value (BitVec.ofNat 64 old) x.2.bits), false)
    | _ => (s, false)
  | none => (s, false)

/-- The queue of a free word serves its waiting entries in order until one holds the word (R268); the fuel is their number. -/
def State.grantNext : Nat → Nat → Size → State → State
  | 0, _, _, s => s
  | fuel + 1, l, z, s =>
    let q := s.resvAt l z
    match q.holder, q.waiting with
    | none, (t, k) :: rest =>
      let s := (s.putResv { q with waiting := rest }).unlist t k
      let r := s.grantTo t k (match (s.thrAt t k).req with
        | some q => q.homes
        | none => [])
      if r.2 then r.1.putResv { q with holder := some (t, k), waiting := rest } else State.grantNext fuel l z r.1
    | _, _ => s

/-- A release of a reservation by a slot reaches the home: where that slot holds the grant, it passes to the next in the queue (R271,
R272). -/
def State.releaseResv (s : State) (t : TileId) (k : Slot) (l : Nat) (z : Size) : State :=
  let q := s.resvAt l z
  if q.holder = some (t, k) then State.grantNext (q.waiting.length) l z (s.putResv { q with holder := none }) else s

/-- `arsv` or an atomic reaches the home (R268-R270). -/
def State.joinResv (s : State) (t : TileId) (k : Slot) (hs : List Home) (z : Size) : State :=
  let q := s.resvAt ((hs.map (·.loc)).headD 0) z
  if q.holder.isNone && q.waiting.isEmpty then
    let r := s.grantTo t k hs
    if r.2 then r.1.putResv { q with holder := some (t, k) } else r.1
  else s.enlist t k hs fun s => s.putResv { q with waiting := q.waiting ++ [(t, k)] }

-- Acknowledgement at a scope (R245, R247)

/-- Whether a store is to a device register. -/
def StoreReq.toDevice (r : StoreReq) : Bool := match r.first with
  | some a => regionOf a = 3
  | none => false

def stageRank : StoreStage → Nat
  | .bank => 0 | .egress => 1 | .bridge => 2 | .lace => 3 | .performed => 4

/-- Whether a store still listed has been acknowledged at a scope (R245). A store to device space is acknowledged once its register holds
it (R383). -/
def State.ackedAt (s : State) (t : TileId) (sc : Scope) (r : StoreReq) : Bool :=
  if r.stage == .bank || r.toDevice then false
  else match sc with
    | .tile => true
    | .domain => false
    | .cluster | .die =>
      match s.storeHome t r with
      | some h => decide (h.die ≠ dieOf t ∨ h.pkg ≠ s.domPkg) && decide (2 ≤ stageRank r.stage)
      | none => false
    | .package =>
      match s.storeHome t r with
      | some h => decide (h.pkg ≠ s.domPkg) && decide (3 ≤ stageRank r.stage)
      | none => false

/-- Every store of a slot before a position is acknowledged at a scope. -/
def State.storesAcked (s : State) (t : TileId) (k : Slot) (seq : Nat) (sc : Scope) : Bool :=
  (s.tileAt t).stores.all fun r => r.slot != k || decide (seq ≤ r.seq) || s.ackedAt t sc r
/-- Every load of a thread before a position has returned. -/
def Thread.loadsBack (th : Thread) (seq : Nat) : Bool := th.loads.all fun l => decide (seq ≤ l.seq)

/-- The conditions on which a release at a scope leaves (R247), as far as its own thread goes. -/
def State.releaseClear (s : State) (t : TileId) (k : Slot) (seq : Nat) (sc : Scope) : Bool :=
  (s.thrAt t k).loadsBack seq && s.storesAcked t k seq sc
/-- Whether the stores that happen before a release are acknowledged at its scope and the loads have returned, whoever made them: hb is
transitive (R241, R247). -/
def State.pastAcked (s : State) (sc : Scope) (ps : Past) : Bool :=
  ps.all fun q => match s.storeOf q with
    | some r => s.ackedAt q.1 sc r
    | none => (s.loadOf q).isNone
/-- The conditions on which a release leaves that has some stores before it (R241, R247). -/
def State.releaseGoes (s : State) (t : TileId) (k : Slot) (seq : Nat) (sc : Scope) (ps : Past) : Bool :=
  s.releaseClear t k seq sc && s.pastAcked sc ps

-- Pairing holds egress (R375)

/-- What a slot of a pair issued at a position of the current interval does not leave the tile before the interval agrees. -/
def State.egressHeld (s : State) (t : TileId) (k : Slot) (seq : Nat) : Bool :=
  match (s.tileAt t).pairing with
  | none => false
  | some _ =>
    match s.snapshots.find? fun p => p.1 = t with
    | some p => decide (p.2.slots[k].seq ≤ seq)
    | none => false

-- Notice boards (R275-R279)

/-- The die and the index of a board address, when it keeps R275. -/
def boardOf (a : Word) : Option (Fin 8 × Nat) :=
  let n := a.toNat
  let die := n / 2 ^ 40 % 8
  let off := n % 2 ^ 32
  let idx := off / 0x2000
  if n / 2 ^ 62 = 3 ∧ n / 2 ^ 47 % 2 ^ 15 = 0 ∧ n / 2 ^ 43 % 16 = 1 ∧ n / 2 ^ 32 % 2 ^ 8 = 0 ∧ off % 0x2000 = 0 ∧
      idx < (if die < 6 then 256 else 1024) then
    some (Fin.ofNat 8 die, idx)
  else none

/-- The number of ones in a mask. -/
def popMask (m : BitVec 1024) : Nat := ((List.range 1024).filter fun i => m.getLsbD i).length

/-- The status word (R277). -/
def boardStatus (b : Board) (fail : Bool) : Word :=
  BitVec.ofNat 64 (b.level.toNat * 2 ^ 32 + (if fail then 2 ^ 31 else 0) + popMask b.mask)

/-- The answer of a board whose home is lost (R406). -/
def deadStatus : Word := BitVec.ofNat 64 (0xFFFFFFFF * 2 ^ 32 + 2 ^ 31)

/-- The mask and the values images (R279). -/
def maskImage (b : Board) : List Byte := leBytes b.mask.toNat 128
def valsImage (b : Board) (k : Nat) : List Byte :=
  (List.range 32).flatMap fun j => leBytes (assocGet 0#32 b.vals (32 * k + j)).toNat 4

/-- One operation on a board that exists: the board after it and the answer (R279). -/
def Board.apply (b : Board) : NbOp → Board × Answer
  | .post slot level value _ =>
    if slot ≥ b.n then (b, .missing)
    else if level ≠ b.level then (b, .board (boardStatus b true) none)
    else
      let b' := if b.mask.getLsbD slot then b
        else { b with mask := b.mask ||| (1#1024 <<< slot), vals := assocSet b.vals slot value }
      (b', .board (boardStatus b' false) (some (maskImage b')))
  | .view values k _ => (b, .board (boardStatus b false) (some (if values then valsImage b k else maskImage b)))
  | .adv level =>
    if level ≠ b.level ∨ popMask b.mask < b.q then (b, .board (boardStatus b true) none)
    else
      let b' := { b with level := b.level + 1, mask := 0, vals := [] }
      (b', .board (boardStatus b' false) none)
  | .init _ _ _ => (b, .missing)

/-- The board that an address names, through a reference of an I/O die (R405): package, die, index. -/
def State.boardHome (s : State) (d : Fin 8) (i : Nat) : Nat × Fin 8 × Nat :=
  match s.refs.find? fun r => r.die = d && r.index = i with
  | some r => (r.pkg, r.tdie, r.tidx)
  | none => (s.domPkg, d, i)

/-- Whether a package, die and index of the domain can be a board (R275, R405). -/
def State.boardExists (s : State) (home : Nat × Fin 8 × Nat) : Bool :=
  decide (home.1 < s.domPkgs) && decide (home.2.2 < if home.2.1.val < 6 then 256 else 1024)

/-- A board that a post has joined to its mask keeps what the post releases, a re-post nothing; an advance clears them (R258, R279). -/
def Board.notePost (b b' : Board) (op : NbOp) (t : TileId) (ps : Past) : Board :=
  match op with
  | .post slot _ _ _ => if b'.mask.getLsbD slot && !b.mask.getLsbD slot then { b' with posts := b'.posts ++ [⟨slot, t, ps⟩] } else b'
  | .adv _ => if b'.level = b.level then b' else { b' with posts := [] }
  | _ => b'
/-- The posts from which an operation that does not fail acquires: those of the slots in the image that it returns, and for an advance those
of the mask that it clears (R258, R280). -/
def Board.seen (b : Board) (op : NbOp) : List Post :=
  match op with
  | .post slot level _ _ => if slot < b.n ∧ level = b.level then b.posts else []
  | .view values k _ => if values then b.posts.filter fun p => p.slot / 32 = k else b.posts
  | .adv level => if level = b.level ∧ b.q ≤ popMask b.mask then b.posts else []
  | .init _ _ _ => []

/-- The board at a home. -/
def State.boardAt (s : State) (home : Nat × Fin 8 × Nat) : Option Board :=
  s.boards.find? fun x => x.pkg = home.1 && x.die = home.2.1 && x.index = home.2.2
/-- Whether the home of a board is declared lost (R406). -/
def State.boardLost (s : State) (home : Nat × Fin 8 × Nat) : Bool :=
  if home.1 = s.domPkg then s.lostDies.contains home.2.1.val else s.lostPkgs.contains home.1

/-- A notice-board operation of a tile, with what happens before it, is performed at its home (R278, R279, R406). A reference that names
nothing answers as a missing board (R405). -/
def State.boardOp (s : State) (home : Nat × Fin 8 × Nat) (op : NbOp) (t : TileId) (ps : Past) : State × Answer :=
  let p := home.1
  let d := home.2.1
  let i := home.2.2
  let lost := s.boardLost home
  match op with
  | .init n q level =>
    let q := if q = 0 then n else q
    if !s.boardExists home then (s, .missing)
    else if lost then (s, .board deadStatus none)
    else if n = 0 ∨ n > 1024 ∨ q > n then (s, .missing)
    else
      let b : Board := ⟨p, d, i, n, q, level, 0, [], [], false⟩
      ({ s with boards := (s.boards.filter fun x => !(x.pkg = p && x.die = d && x.index = i)) ++ [b] }, .board (boardStatus b false) none)
  | _ =>
    match s.boardAt home with
    | none => (s, if lost then .board deadStatus none else .missing)
    | some b =>
      if lost || b.dead then (s, .board deadStatus none)
      else
        let r := b.apply op
        ({ s with boards := s.boards.map fun x => if x.pkg = p && x.die = d && x.index = i then x.notePost r.1 op t ps else x }, r.2)

/-- The narrowest scope that covers a caller and a board's home, given as its package, die and index (R280). -/
def State.boardScope (s : State) (t : TileId) (home : Nat × Fin 8 × Nat) : Scope :=
  if home.1 ≠ s.domPkg then .domain else if home.2.1.val = dieOf t then .die else .package
/-- The narrowest of tile, die and package scope that covers two tiles (R180). -/
def narrowest (t u : TileId) : Scope := if t = u then .tile else if dieOf t = dieOf u then .die else .package

/-- The buffer offset of an operation with an image. -/
def NbOp.buf : NbOp → Option Nat
  | .post _ _ _ b => some b
  | .view _ _ b => some b
  | _ => none

end Sys2Proof.Machine
end

