-- ==== Sys2Proof/Machine/Channels.lean ====
section
/-! DEFINITION. The inbox channels and the task queue of a tile: deliverability and delivery order (R207), the matching of entries
to receives (R209), stream elements gathered from a channel (R158), acceptance (R205) and the ready queue (R177-R179). -/

namespace Sys2Proof.Machine

/-- The entries a channel holds (spec/09, R204). -/
def channelRoom : Nat := 32
/-- The pending receives of a channel (R209). -/
def recvRoom : Nat := 8
/-- The entries of the ready queue (R177). -/
def queueRoom : Nat := 64
/-- The elements a stream register's buffer holds (R154). -/
def bufRoom : Nat := 4

/-- Whether an entry is deliverable (R207). -/
def ChEntry.deliverable (e : ChEntry) (horizonMode : Bool) (h : Word) : Bool :=
  match horizonMode, e.ts with
  | true, some ts => decide (ts.toNat < h.toNat)
  | _, _ => true

/-- The key that orders timestamped entries: timestamp, sender (PKG, DIE, ROW, COL), SEQ (R207). -/
def ChEntry.key (e : ChEntry) : Nat :=
  let m := e.md.toNat
  match e.ts with
  | some ts => (1 + ts.toNat) * 2 ^ 64 + (m / 2 ^ 48 % 2 ^ 16 * 2 ^ 11 + m / 2 ^ 32 % 2 ^ 11) * 2 ^ 32 + m % 2 ^ 32
  | none => 0

/-- Insert a position by key, after those of an equal key. -/
def insertByKey (x : Nat × Nat) : List (Nat × Nat) → List (Nat × Nat)
  | [] => [x]
  | y :: ys => if x.1 < y.1 then x :: y :: ys else y :: insertByKey x ys

/-- The deliverable entries of a channel in delivery order, each with its position (R207). -/
def Channel.order (c : Channel) (h : Word) : List (Nat × ChEntry) :=
  let es := (List.range c.entries.length).zip c.entries
  let ds := es.filter fun p => p.2.deliverable c.horizon h
  if c.horizon then
    let ks := ds.foldl (fun acc p => insertByKey (p.2.key, p.1) acc) []
    ks.filterMap fun k => (c.entries[k.2]?).map fun e => (k.2, e)
  else ds

/-- Whether a receive accepts an entry: `mrecv` any, `mwait` the one it names (R209). -/
def Recv.accepts (r : Recv) (e : ChEntry) : Bool :=
  match r.named with
  | none => true
  | some (who, seq) => e.md &&& 0xFFFF07FF00000000#64 == who && e.md.setWidth 32 == seq

/-- The position of the first receive that accepts an entry. -/
def firstRecv (e : ChEntry) : List Recv → Nat → Option (Nat × Recv)
  | [], _ => none
  | r :: rs, i => if r.accepts e then some (i, r) else firstRecv e rs (i + 1)

/-- The first entry in delivery order that a pending receive accepts: its position, the receive's position, and both. -/
def firstMatch (rs : List Recv) : List (Nat × ChEntry) → Option (Nat × ChEntry × Nat × Recv)
  | [] => none
  | (i, e) :: es => match firstRecv e rs 0 with
    | some (j, r) => some (i, e, j, r)
    | none => firstMatch rs es

/-- A matched entry lands: the payload pair, M where the receive names a register for it, and LD falls (R209). M lands last, so it stands where c
is one of the pair (DESIGN CHOICE, log 69). One sent with release is an acquire (R212). -/
def Thread.landEntry (th : Thread) (r : Recv) (e : ChEntry) : Thread :=
  let th := (th.fill (.s r.d e.lo)).fill (.s (Reg.next r.d) e.hi)
  let th := match r.mdReg with
    | some m => th.fill (.s m e.md)
    | none => th
  { th.dropLd with past := th.past ++ e.past }

/-- Match the entries of an unbound channel to its receives; the fuel bounds the number of matches. -/
def Tile.matchEntries (c : Fin 8) : Nat → Tile → Tile
  | 0, x => x
  | n + 1, x =>
    let ch : Channel := x.channels[c]
    match firstMatch ch.recvs (ch.order x.horizon) with
    | some (i, e, j, r) =>
      let x := { x with channels := x.channels.set c { ch with entries := dropAt ch.entries i, recvs := dropAt ch.recvs j } }
      let x := (x.modThr r.slot fun th => th.landEntry r e).wake fun p => p == .recvFull c
      Tile.matchEntries c n x
    | none => x

/-- The 128 bytes of eight entries, entry j at bytes [16j + 15 : 16j] (R158). -/
def elemOf : List ChEntry → Nat
  | [] => 0
  | e :: es => e.lo.toNat + 2 ^ 64 * e.hi.toNat + 2 ^ 128 * elemOf es

/-- Drop several positions. -/
def dropMany {α : Type} (xs : List α) (is : List Nat) : List α :=
  ((List.range xs.length).zip xs).filterMap fun p => if is.contains p.1 then none else some p.2

/-- A channel without the entries that stand as elements of a stream. -/
def Channel.loose (c : Channel) : Channel := { c with entries := c.entries.drop c.formed }

/-- The next eight deliverable entries form an element, while the stream's buffer has room (R154, R158). -/
def Channel.formOne (c : Channel) (h : Word) : Channel :=
  let es := (c.loose.order h).take 8
  if es.length = 8 ∧ c.formed < 8 * bufRoom then
    { c with
      entries := c.entries.take c.formed ++ es.map Prod.snd ++ dropMany (c.entries.drop c.formed) (es.map Prod.fst)
      formed := c.formed + 8 }
  else c
/-- A bound channel forms every element that it can. -/
def Channel.form (c : Channel) (h : Word) : Channel := (List.range bufRoom).foldl (fun c _ => c.formOne h) c

/-- The entries of a bound channel that stand as elements of its stream, in eights (R154, R158). -/
def Tile.gathered (x : Tile) (c : Fin 8) : Nat := (x.channels[c]).formed / 8

/-- The element at the head of a bound channel (R158). -/
def Tile.chanHead (x : Tile) (c : Fin 8) : Option Vec :=
  let ch : Channel := x.channels[c]
  if 8 ≤ ch.formed then some (BitVec.ofNat 1024 (elemOf (ch.entries.take 8))) else none

/-- Take the head element's entries out of the channel; the next ones may form an element (R154, R158). -/
def Tile.chanPop (x : Tile) (c : Fin 8) : Tile :=
  let ch : Channel := x.channels[c]
  { x with channels := x.channels.set c (({ ch with entries := ch.entries.drop 8, formed := ch.formed - 8 } : Channel).form x.horizon) }

/-- Deliver what a channel can deliver now: to its receives, or as elements to the thread that waits for one of a bound channel. -/
def Tile.deliver (x : Tile) (c : Fin 8) : Tile :=
  match x.channels[c].bound with
  | some (k, r) =>
    let reg : Reg := Fin.ofNat 32 (24 + r.val)
    let x : Tile := { x with channels := x.channels.set c (x.channels[c].form x.horizon) }
    if (x.chanHead c).isSome then x.modThr k fun th => th.wake fun p => p == Park.regEmpty (.v reg) else x
  | none => x.matchEntries c (recvRoom + 1)

/-- The eight channels. -/
def channels8 : List (Fin 8) := [0, 1, 2, 3, 4, 5, 6, 7]

/-- Deliver in every channel, as after `horizon` has risen (R392). -/
def Tile.deliverAll (x : Tile) : Tile := channels8.foldl Tile.deliver x

/-- Whether a channel has room (R205). -/
def Tile.hasRoom (x : Tile) (c : Fin 8) : Bool := x.channels[c].entries.length < channelRoom

/-- An entry takes its place in a channel and is delivered if it can be (R205, R209). -/
def Tile.place (x : Tile) (c : Fin 8) (e : ChEntry) : Tile :=
  let ch : Channel := x.channels[c]
  ({ x with channels := x.channels.set c { ch with entries := ch.entries ++ [e] } } : Tile).deliver c
/-- A channel accepts an entry from outside. -/
def Tile.accept (x : Tile) (c : Fin 8) (e : ChEntry) : Tile := (x.noteIn (.entry c e)).place c e

-- The task queue (R177-R179)

/-- PRI of a handle (R177). -/
def handlePri (h : Word) : Nat := h.toNat / 2 ^ 21 % 4

/-- The head of the highest priority that is not empty (R178): the least PRI, the oldest among those. -/
def queueHead : List Word → Option Word
  | [] => none
  | h :: hs => match queueHead hs with
    | some g => if handlePri h ≤ handlePri g then some h else some g
    | none => some h

/-- Remove the first occurrence of a handle. -/
def queueDrop (h : Word) : List Word → List Word
  | [] => []
  | g :: gs => if g = h then gs else g :: queueDrop h gs

/-- The lowest slot parked on the empty queue becomes ready (R178). -/
def Tile.wakePopper (x : Tile) : Tile :=
  match userSlots.find? fun k => (x.slots[k]).run == .parked .queueEmpty with
  | some k => x.modThr k fun th => th.wake fun p => p == .queueEmpty
  | none => x

/-- Push a handle at the tail of its priority (R178). -/
def Tile.push (x : Tile) (h : Word) : Tile := ({ x with queue := x.queue ++ [h] } : Tile).wakePopper
/-- Pop the head; slots parked on the full queue are signalled (R165). -/
def Tile.pop (x : Tile) (h : Word) : Tile :=
  ({ x with queue := queueDrop h x.queue } : Tile).wake fun p => p == .queueFull

-- Outbound stream elements (R159)

/-- A destination package by its number, none when it is the sender's own. -/
def normPkg (self : BitVec 16) (p : Option (BitVec 16)) : Option (BitVec 16) := if p = some self then none else p

/-- The sequence number of the next entry to a destination (R203), and the count after it. -/
def seqKey (pkg : Option (BitVec 16)) (dest : TileId) (c : Fin 8) : Nat :=
  (match pkg with | some p => p.toNat + 1 | none => 0) * 2 ^ 16 + dest * 8 + c.val
def Tile.seqNo (x : Tile) (key : Nat) : BitVec 32 := BitVec.ofNat 32 (assocGet 0 x.seqs key)
def Tile.bumpSeq (x : Tile) (key n : Nat) : Tile := { x with seqs := assocSet x.seqs key (assocGet 0 x.seqs key + n) }

/-- The destination of an outbound stream: package operand, tile and channel (R159). -/
def Bind.outPkg (b : Bind) : Option (BitVec 16) := if b.stride.getLsbD 16 then some (b.stride.setWidth 16) else none
def Bind.outTile (b : Bind) : TileId := b.base.toNat / 2 ^ 32 % 2 ^ 11
def Bind.outChan (b : Bind) : Fin 8 := Fin.ofNat 8 (b.base.toNat % 8)
/-- The count that its entries take their sequence numbers from. -/
def Bind.outKey (b : Bind) (pkgSelf : BitVec 16) : Nat := seqKey (normPkg pkgSelf b.outPkg) b.outTile b.outChan

/-- The eight entries of one element, with the sequence numbers that it took at its append (R158, R159). -/
def elemItems (pkgSelf : BitVec 16) (t : TileId) (k : Slot) (r : StreamReg) (b : Bind) (e : Elem) (seq : Nat) : List SentItem :=
  (List.range 8).map fun j =>
    let v := e.val.toNat / 2 ^ (128 * j)
    { kind := .elem r, slot := k, seq := seq, pkg := normPkg pkgSelf b.outPkg, dest := b.outTile, chan := b.outChan, lo := BitVec.ofNat 64 v
      hi := BitVec.ofNat 64 (v / 2 ^ 64), md := metaWord pkgSelf 2 t (BitVec.ofNat 32 (e.no + j)), ts := some e.ts, rel := none, past := []
      refused := none, counted := false }

/-- Send every element whose data is there, in append order. -/
def sendReady (pkgSelf : BitVec 16) (t : TileId) (k : Slot) (r : StreamReg) : Nat → Tile → Tile
  | 0, x => x
  | n + 1, x =>
    let th := x.slots[k]
    let b := th.binds[r]
    let first := b.pos - b.buf.length
    match b.kind, b.buf[b.next - first]? with
    | .out, some e =>
      if e.wait.isNone then
        let x := x.modThr k fun th => { th with binds := th.binds.set r { b with next := b.next + 1 } }
        sendReady pkgSelf t k r n { x with sent := x.sent ++ elemItems pkgSelf t k r b e th.seq }
      else x
    | _, _ => x

/-- Elements of an outbound stream leave when their data is there (R159). -/
def State.pushElems (s : State) (t : TileId) (k : Slot) (r : StreamReg) : State :=
  s.putTile t (sendReady (s.pkgOf t) t k r bufRoom (s.tileAt t))

end Sys2Proof.Machine
end

