-- ==== Sys2Proof/Machine/Operands.lean ====
section
/-! DEFINITION. Every operand form: scalar sources and destinations (R98, R99), vector sources and destinations with the stream
registers (R133-R136, R154, R161), lanes and guards (R32, R133), and the addresses of memory forms. -/

namespace Sys2Proof.Machine

-- Scalars

/-- Two and three scalar sources in the order a, b, c (R98). -/
def exS2 (s : State) (a b : Reg) (k : Word → Word → Out) : Out := exS s a fun x => exS s b fun y => k x y
def exS3 (s : State) (a b c : Reg) (k : Word → Word → Word → Out) : Out :=
  exS s a fun x => exS s b fun y => exS s c fun z => k x y z

/-- A one-clock scalar result retires (R99). -/
def retireS (s : State) (d : Reg) (x : Word) : Out := dstS s d (retire (s.putS d x) [x])

/-- A scalar result of several clocks: the destination is a pending fill until it lands (R99). A result for s0 is
discarded. -/
def retireLater (s : State) (d : Reg) (x : Word) (clocks : Nat) : Out :=
  dstS s d (retire (if d = 0 then s else s.putLater [.s d x] clocks) [x])

/-- Two scalar sources, one result of one clock. -/
def scalar2 (s : State) (d a b : Reg) (f : Word → Word → Word) : Out := exS2 s a b fun x y => retireS s d (f x y)
/-- One scalar source, one result of one clock. -/
def scalar1 (s : State) (d a : Reg) (f : Word → Word) : Out := exS s a fun x => retireS s d (f x)

/-- A trap ENGINE_ERROR. -/
def engineError (s : State) (tval : Word) : Out := trap s .engineError tval

-- Stream registers (R154, R161)

/-- The stream register that a vector register number names. -/
def streamOf (r : Reg) : Option StreamReg := if 24 ≤ r.val then some (Fin.ofNat 8 (r.val - 24)) else none
/-- The vector register of a stream register. -/
def streamReg (r : StreamReg) : Reg := Fin.ofNat 32 (24 + r.val)

def BindKind.reads : BindKind → Bool
  | .memRead | .chan => true
  | _ => false
def BindKind.writes : BindKind → Bool
  | .memWrite | .out => true
  | _ => false
def BindKind.isMem : BindKind → Bool
  | .memRead | .memWrite => true
  | _ => false

/-- The binding of a vector register; v0-v23 are never bound. -/
def Thread.bindOf (th : Thread) (r : Reg) : Bind :=
  match streamOf r with
  | some q => th.binds[q]
  | none => Bind.reset

/-- A memory stream after its N-th pop or append (R156). -/
def Bind.exhausted (b : Bind) : Bool := b.kind.isMem && decide (b.count ≤ b.pos)

/-- The register number as `tval`. -/
def regWord (r : Reg) : Word := BitVec.ofNat 64 r.val

/-- Examine a vector source (R134): a bound register is read-bound, not exhausted, and its head is the operand (R154, R161);
any other register is examined as R98 gives. -/
def exV (s : State) (r : Reg) (k : Vec → Out) : Out :=
  let b := s.thr.bindOf r
  if b.kind = .unbound then
    let x := s.thr.getV r
    if x.pend then park s (.fillPending (.v r))
    else if !x.full then park s (.regEmpty (.v r))
    else if x.poison then trap s .poison (regWord r)
    else k x.val
  else if b.kind.writes || b.exhausted then engineError s (regWord r)
  else if b.kind = .chan then
    match s.tile.chanHead (Fin.ofNat 8 (b.base.toNat % 8)) with
    | some v => k v
    | none => park s (.regEmpty (.v r))
  else match b.buf with
    | [] => park s (.regEmpty (.v r))
    | e :: _ => if e.poison then trap s .poison (regWord r) else k e.val

/-- A vector destination: a read-bound or exhausted register is misuse, a full buffer parks, a pending fill parks (R154, R161,
R35). -/
def dstV (s : State) (r : Reg) (k : Out) : Out :=
  let b := s.thr.bindOf r
  match b.kind with
  | .unbound => if (s.thr.getV r).pend then park s (.fillPending (.v r)) else k
  | _ =>
    if b.kind.reads || b.exhausted then engineError s (regWord r)
    else if bufRoom ≤ b.buf.length then
      match streamOf r with
      | some q => park s (.streamFull q)
      | none => k
    else k

/-- The old lanes of a destination for the merge of R133: read, and examined, when `reads`; zero for a write-bound register
(R154). -/
def oldV (s : State) (d : Reg) (reads : Bool) (k : Vec → Out) : Out :=
  if (s.thr.bindOf d).kind ≠ .unbound then k 0
  else if reads then exV s d k
  else k (s.thr.getV d).val

/-- A fresh identity for a load, store or request of the executing tile, or for a stream element's place in the order of retirement. -/
def State.freshId (s : State) : Nat := s.tile.nextId
def State.bumpId (s : State) : State := s.modCur fun x => { x with nextId := x.nextId + 1 }

/-- Pop one read-bound register (R154). -/
def State.popOne (s : State) (r : Reg) : State :=
  match streamOf r with
  | none => s
  | some q =>
    let b := s.thr.binds[q]
    if b.kind.reads then
      let s := s.bumpId.modThr fun th => { th with binds := th.binds.set q { b with
        buf := b.buf.drop 1, pos := b.pos + 1, order := b.order ++ if b.pos + bufRoom < b.count then [s.freshId] else [] } }
      if b.kind = .chan then s.modCur fun x => x.chanPop (Fin.ofNat 8 (b.base.toNat % 8)) else s
    else s

/-- Pop the source registers that are read-bound, each once (R154). -/
def State.popV (s : State) (rs : List Reg) : State := rs.eraseDups.foldl State.popOne s

/-- Append an element to a write-bound register (R154); an outbound one takes its sequence numbers and is sent once its data is there (R159). -/
def State.appendV (s : State) (q : StreamReg) (x : Vec) (wait : Option Nat) : State :=
  let b : Bind := s.thr.binds[q]
  let key := b.outKey (s.pkgOf s.curTile)
  let out := b.kind == .out
  let e : Elem := ⟨x, false, wait, s.tile.vtime, assocGet 0 s.tile.seqs key⟩
  let s' := (s.modCur fun y => if out then y.bumpSeq key 8 else y).bumpId.modThr fun th =>
    { th with binds := th.binds.set q { b with buf := b.buf ++ [e], pos := b.pos + 1, order := if out then [] else b.order ++ [s.freshId] } }
  s'.pushElems s.curTile s.curSlot q

/-- Write a vector result: a pending fill that lands after some clocks, or an element of a write-bound register. -/
def State.putV (s : State) (d : Reg) (x : Vec) (clocks : Nat) : State :=
  match streamOf d with
  | some q =>
    if (s.thr.binds[q]).kind = .unbound then s.putLater [.v d x] clocks
    else s.appendV q x none
  | none => s.putLater [.v d x] clocks

/-- A vector result retires: the sources pop, the flags are set, the result is on its way. -/
def retireV (s : State) (srcs : List Reg) (d : Reg) (x : Vec) (fl : VFlags) (clocks : Nat) : Out :=
  dstV s d (retire (((s.popV srcs).modThr fun th => th.flagV fl).putV d x clocks) (wideWords x))

-- Lanes (R32, R133)

/-- The width of an element type, and the number of its lanes. -/
def etyWidth : ETy → Nat
  | .f32 | .i32 => 32
  | .bf16 | .f16 | .i16 => 16
  | .i8 => 8
def ftyEty : FTy → ETy
  | .f32 => .f32
  | .bf16 => .bf16
  | .f16 => .f16
def ityEty : ITy → ETy
  | .i32 => .i32
  | .i16 => .i16
  | .i8 => .i8
def etyFloats : ETy → Option Fmt
  | .f32 => some f32
  | .bf16 => some bf16
  | .f16 => some f16
  | _ => none
def laneCount (w : Nat) : Nat := 1024 / w

/-- Lane i of a w-bit type (R32). -/
def laneAt (w : Nat) (v : Vec) (i : Nat) : Nat := v.toNat / 2 ^ (w * i) % 2 ^ w

/-- The number of a list of lanes, lane 0 lowest. -/
def lanesNat (w : Nat) : List Nat → Nat
  | [] => 0
  | x :: xs => x % 2 ^ w + 2 ^ w * lanesNat w xs
/-- The register of a list of lanes. -/
def ofLanes (w : Nat) (xs : List Nat) : Vec := BitVec.ofNat 1024 (lanesNat w xs)

/-- The lanes of a register. -/
def lanesOf (w : Nat) (v : Vec) : List Nat := (List.range (laneCount w)).map (laneAt w v)

/-- Whether a guard makes a lane active (R133). -/
def active (g : Guard) (i : Nat) : Bool := g.getLsbD i

/-- Flags gathered over results (R135). -/
def gather {α : Type} (xs : List (α × VFlags)) : VFlags := xs.foldl (fun fl p => fl.or p.2) VFlags.none

/-- Apply a function in the active lanes and keep the others (R133). -/
def mapLanes (w : Nat) (g : Guard) (old : Vec) (f : Nat → Nat × VFlags) : Vec × VFlags :=
  let rs := (List.range (laneCount w)).map fun i => if active g i then f i else (laneAt w old i, VFlags.none)
  (ofLanes w (rs.map Prod.fst), gather rs)

/-- The signed value of a w-bit number, and the w-bit number of an integer. -/
def sgn (w n : Nat) : Int := (BitVec.ofNat w n).toInt
def wrapTo (w : Nat) (i : Int) : Nat := (i % 2 ^ w).toNat

/-- A lane result without flags. -/
def bare (x : Nat) : Nat × VFlags := (x, VFlags.none)
/-- A lane result with IEEE flags. -/
def flagged (r : Nat × FFlags) : Nat × VFlags := (r.1, VFlags.ofIeee r.2)

-- Memory operands

/-- The effective address of a base and a 12-bit offset (R115). -/
def effAddr (x : Word) (i : BitVec 12) : Word := x + signExt 12 i

/-- A counter at 255 parks the instruction that would raise it (R47). -/
def needCnt (s : State) (c : Cnt) (k : Out) : Out := if 255 ≤ s.thr.count c then park s (.cntFull c) else k

/-- The address of a granule (R246). -/
def granuleOf (a : Word) : Word := a &&& ~~~63#64

/-- Whether the scope of a release is that at which its tile's egress queue acknowledges a store (R245, R264). -/
def StoreKind.ownScope : StoreKind → Bool
  | .release .tile => true
  | _ => false

/-- A store of the executing thread enters its tile: its pieces become one entry each, at the bank for own bytes and in the egress queue
otherwise (R117, R246, R255). ST rises by one; a release at tile scope that enters the egress queue is acknowledged by that (R245, R264).
`homes` are those of an `arel`, its word's as they were granted (R272), and `lane` is the number of bytes of a lane (R151). -/
def State.issueStore (s : State) (kind : StoreKind) (waits : Bool) (homes : List Home) (lane : Nat) (pieces : List (Word × List Byte)) : State :=
  let th := s.thr
  let own (a : Word) : Bool := (s.ownOff s.curTile a).isSome
  let acked (a : Word) : Bool := kind.ownScope && !own a
  let past : Past := if kind = .plain then s.pastLoads s.curTile s.curSlot else s.pastOf s.curTile s.curSlot
  let mk (i : Nat) (p : Word × List Byte) : StoreReq :=
    { id := s.tile.nextId + i, slot := s.curSlot, seq := th.seq, pid := s.tile.pid, sv := th.sv, kind := kind, waits := waits, past := past
      pieces := [p], lane := lane, stage := if own p.1 then .bank else .egress, counted := true, acked := acked p.1, stamp := s.stamp + i
      homes := homes }
  let n := pieces.length
  let reqs := ((List.range n).zip pieces).map fun p => mk p.1 p.2
  let s : State := { s with stamp := s.stamp + n }
  let s := s.modCur fun x => { x with stores := x.stores ++ reqs, nextId := x.nextId + n }
  s.modThr fun th => { th with seq := th.seq + 1, cntSt := th.cntSt + if pieces.all fun p => acked p.1 then 0 else 1 }

/-- A load of the executing thread is outstanding: LD rises by one (R116). -/
def State.issueLoad (s : State) (dest : LoadDest) (due : Option Nat) : State :=
  let l : LoadReq := ⟨s.tile.nextId, s.thr.seq, s.tile.pid, dest, due, []⟩
  s.bumpId.modThr fun th => { th with seq := th.seq + 1, cntLd := th.cntLd + 1, loads := th.loads ++ [l] }

/-- The landing clock of a load when it is local (R99, R136). -/
def State.localDue (s : State) (addrs : List Word) (clocks : Nat) : Option Nat :=
  if addrs.all fun a => (s.ownOff s.curTile a).isSome then some (s.tile.cycle.toNat + clocks) else none

/-- The stores that happen before a request and that its home must know of: those before a notice-board form (R258). -/
def State.reqPast (s : State) : ReqOp → Past
  | .nb _ => s.pastOf s.curTile s.curSlot
  | _ => []
/-- An answered form sends its request and parks (R260); it keeps its place in program order. -/
def State.sendReq (s : State) (op : ReqOp) (d : Reg) (addr : Word) : State :=
  let r : Req := { id := s.tile.nextId, pid := s.tile.pid, op := op, d := d, addr := addr, seq := s.thr.seq, stage := .sent
                   held := s.bypassed s.curTile s.curSlot op addr, past := s.reqPast op, homes := [] }
  s.bumpId.modThr fun th => { th with seq := th.seq + 1, req := some r }

-- Engine requests (R282)

/-- The eyelets of a tile. -/
def eyeletRoom : Nat := 4

/-- With all eyelets full the instruction parks (R282). -/
def needEyelet (s : State) (k : Out) : Out := if eyeletRoom ≤ s.tile.eyelets.length then park s .eyelet else k

/-- G of a matrix control word (R317). -/
def ctlG (c : Word) : Bool := c.getLsbD 0
/-- The operations that the matrix sequencer takes (R295). -/
def EngOp.onSeq : EngOp → Bool
  | .mma _ _ _ _ _ _ _ | .acz _ | .acld _ _ | .acst _ _ | .adrn _ _ _ | .acrd _ _ | .acwr _ _ => true
  | _ => false
/-- A 2 × 2 group operation (R297). -/
def EngOp.isGroup : EngOp → Bool
  | .mma _ _ _ _ c _ _ => ctlG c
  | _ => false
/-- The numbers that a request takes: the follow-on command of a `cpym` has the second (R298). -/
def EngOp.ids : EngOp → Nat
  | .cpym _ _ _ _ _ => 2
  | _ => 1
/-- Write a request into an eyelet; an operation of the tile's own sequencer takes its place in the order as it retires (R221). -/
def State.submit (s : State) (op : EngOp) (direct : Bool) (tag : BitVec 16) (flag : Option ArmFlag) : State :=
  let th := s.thr
  let r : EngReq := { id := s.tile.nextId, pid := s.tile.pid, op := op, slot := s.curSlot, sv := th.sv, direct := direct, tag := tag, flag := flag, seq := th.seq
                      counted := true, past := if op = .tbar then s.pastOf s.curTile s.curSlot else [], lasts := [] }
  let s := s.modCur fun x => { x with
    eyelets := x.eyelets ++ [r]
    mxq := if op.onSeq && !op.isGroup && !direct then x.mxq ++ [(s.curTile, r.id)] else x.mxq
    nextId := x.nextId + op.ids }
  s.modThr fun th => { th with seq := th.seq + 1 }

end Sys2Proof.Machine
end

