-- ==== Sys2Proof/Machine/Convert.lean ====
section
/-! DEFINITION. Conversion of elements between the bank formats and the region formats: implicit conversion (R218, R219), the
conversion engine (R334, R335), and what `acld` and `acst` do to elements (R325). -/

namespace Sys2Proof.Machine

/-- The element formats of R216 and R324. -/
inductive EFmt where
  | raw | f32 | bf16 | f16 | i8 | i32 | sx7 | sx4 | sx2
  deriving DecidableEq, Repr

/-- The format of a bank code (R216); 9-15 never stand in a register. -/
def bankFmt (c : BitVec 4) : EFmt :=
  match c.toNat with
  | 1 => .f32 | 2 => .bf16 | 3 => .f16 | 4 => .i8 | 5 => .i32 | 6 => .sx7 | 7 => .sx4 | 8 => .sx2
  | _ => .raw

/-- The format of FMT, SFMT and DFMT (R324, R333). -/
def regionFmt (c : Nat) : EFmt :=
  match c with
  | 0 => .f32 | 1 => .bf16 | 2 => .f16 | 3 => .i32 | 4 => .i8 | 5 => .sx7 | 6 => .sx4 | 7 => .sx2
  | _ => .raw

/-- The magnitude bits of a block format (R84). -/
def blkBits : EFmt → Option Nat
  | .sx7 => some 7
  | .sx4 => some 4
  | .sx2 => some 2
  | _ => none

/-- The floating format of an element format. -/
def floatFmt : EFmt → Option Fmt
  | .f32 => some f32
  | .bf16 => some bf16
  | .f16 => some f16
  | _ => none

/-- The bytes of a unit, an element or a block (R219, R236), and the elements it holds. -/
def unitBytes : EFmt → Nat
  | .raw | .i8 => 1
  | .bf16 | .f16 => 2
  | .f32 | .i32 => 4
  | .sx7 => 18
  | .sx4 => 12
  | .sx2 => 8
def unitElems (f : EFmt) : Nat := if (blkBits f).isSome then 16 else 1

/-- The alignment that a format asks of an address: its element size, or 2 for blocks (R325, R333). -/
def fmtAlign (f : EFmt) : Nat := if (blkBits f).isSome then 2 else unitBytes f

/-- The bytes of a row of n elements packed (R318, R324). -/
def rowBytes (f : EFmt) (n : Nat) : Nat :=
  if (blkBits f).isSome then (n + 15) / 16 * unitBytes f else n * unitBytes f

/-- The range of an integer format. -/
def eIntLo (f : EFmt) : Int := if f = .i8 then -128 else -2147483648
def eIntHi (f : EFmt) : Int := if f = .i8 then 127 else 2147483647
def eIntWidth (f : EFmt) : Nat := if f = .i8 then 8 else 32

/-- One element from one format to another that is no block (R218). -/
def cvtElem (sat : Bool) (sf df : EFmt) (x : Nat) : Nat × VFlags :=
  if sf = df then (x, VFlags.none)
  else match floatFmt sf, floatFmt df with
  | some f, some g => flagged (cvtFloat g .rne sat (f.unpack x))
  | some f, none =>
    let r := toIntRange .rne sat (eIntLo df) (eIntHi df) (f.unpack x)
    (wrapTo (eIntWidth df) r.1, VFlags.ofIeee r.2)
  | none, some g => flagged (g.finish .rne (ofInt (sgn (eIntWidth sf) x)))
  | none, none =>
    let i := sgn (eIntWidth sf) x
    let c := if i < eIntLo df then eIntLo df else if eIntHi df < i then eIntHi df else i
    (wrapTo (eIntWidth df) c, { VFlags.none with sat := decide (c ≠ i) })

/-- Decode units to element bits: a block to sixteen f32 patterns (R88), with the format its elements have then. -/
def decodeUnits (f : EFmt) (us : List Nat) : List (Nat × VFlags) × EFmt :=
  match blkBits f with
  | some b =>
    (us.flatMap fun u =>
      let k := blockLoad b u
      let vs := (blockValues b k).map f32Bits
      match vs with
      | v :: rest => (v, blockDecodeFlags k) :: rest.map fun x => (x, VFlags.none)
      | [] => [], .f32)
  | none => (us.map fun u => (u, VFlags.none), f)

/-- `ccvq`'s encoding of sixteen values against a supplied scale (R335). -/
def blockEncodeAt (b e : Nat) (xs : List FVal) : Blk × VFlags :=
  let bad := xs.any fun x => match x with | .fin _ _ _ => false | _ => true
  if bad || e = 0xFF then (⟨0xFF, [0, 0, 0, 0], List.replicate 16 (false, 0)⟩, { VFlags.none with snf := true })
  else
    let X : Int := e - 127
    let shift (q : Nat) : Nat := match maxLog (quad xs q) with
      | none => 3
      | some m => min 3 (X - m).toNat
    let enc (q : Nat) (x : FVal) : (Bool × Nat) × (Bool × Bool) :=
      match x with
      | .fin n m ex =>
        let k := X - shift q - (b - 1)
        let r := if k ≤ ex then (m * 2 ^ (ex - k).toNat, false) else roundShift .rne false m (k - ex).toNat false
        ((n, min r.1 (2 ^ b - 1)), (r.2, decide (2 ^ b - 1 < r.1)))
      | _ => ((false, 0), (false, false))
    let es := (List.range 4).flatMap fun q => (quad xs q).map (enc q)
    (⟨e, (List.range 4).map shift, es.map Prod.fst⟩,
      { VFlags.none with ieee := { FFlags.none with nx := es.any fun x => x.2.1 }, sat := es.any fun x => x.2.2 })

/-- A block's storage form as one number (R85). -/
def blockNat (b : Nat) (k : Blk) : Nat := leNat ((blockStore b k).map fun x => BitVec.ofNat 8 x)

/-- Split a list into sixteens; the fuel is their number. -/
def sixteens {α : Type} : Nat → List α → List (List α)
  | 0, _ => []
  | n + 1, xs => xs.take 16 :: sixteens n (xs.drop 16)

/-- Convert units of one format to units of another (R218, R334): the units as numbers, and the flags. An i32 source of blocks that f32 does
not hold exactly, which R87 asks for, is rounded rne to f32, with its flags (DESIGN CHOICE, log 70). -/
def convertUnits (sat : Bool) (sf df : EFmt) (us : List Nat) : List Nat × VFlags :=
  let d := decodeUnits sf us
  let fl := gather d.1
  let xs := d.1.map Prod.fst
  match blkBits df with
  | none =>
    let ys := xs.map (cvtElem sat d.2 df)
    (ys.map Prod.fst, fl.or (gather ys))
  | some b =>
    let ws := xs.map (cvtElem false d.2 .f32)
    let bs := (sixteens (xs.length / 16) (ws.map Prod.fst)).map fun g => blockEncode b (g.map f32.unpack)
    (bs.map fun k => blockNat b k.1, (fl.or (gather ws)).or (gather bs))

/-- `ccvq`: units of a floating format to blocks, against the scale bytes (R335). -/
def convertScaled (sf df : EFmt) (us scales : List Nat) : List Nat × VFlags :=
  match blkBits df with
  | none => ([], VFlags.none)
  | some b =>
    let ws := us.map (cvtElem false sf .f32)
    let bs := ((sixteens (us.length / 16) (ws.map Prod.fst)).zip scales).map fun p => blockEncodeAt b p.2 (p.1.map f32.unpack)
    (bs.map fun k => blockNat b k.1, (gather ws).or (gather bs))

/-- The bytes of units of a format. -/
def unitsBytes (f : EFmt) (us : List Nat) : List Byte := us.flatMap fun u => leBytes u (unitBytes f)

/-- The units that bytes hold; the fuel is their number. -/
def bytesUnits (f : EFmt) : Nat → List Byte → List Nat
  | 0, _ => []
  | n + 1, bs => leNat (bs.take (unitBytes f)) :: bytesUnits f n (bs.drop (unitBytes f))

/-- Whether a format's cells are i32 (R324). -/
def intCells (f : EFmt) : Bool := f = .i32 || f = .i8

/-- A scratchpad row to cells (R325, `acld`). -/
def toCells (f : EFmt) (us : List Nat) : List Nat × VFlags :=
  convertUnits false f (if intCells f then .i32 else .f32) us
/-- Cells to a scratchpad row (R325, `acst` and `adrn`). -/
def fromCells (f : EFmt) (cs : List Nat) : List Nat × VFlags :=
  convertUnits false (if intCells f then .i32 else .f32) f cs

end Sys2Proof.Machine
end

