-- ==== Sys2Proof/Machine/Fetch.lean ====
section
/-! DEFINITION. Fetching an instruction word: the instruction cache (R52, R53), its locked lines (R54), and translation for
fetch (R226, R229). -/

namespace Sys2Proof.Machine

/-- The words of a cache line that starts at a virtual address, through a leaf. -/
def State.lineThrough (s : State) (pte : Word) (level : Nat) (last : BitVec 512) (va : Nat) : List Insn :=
  (List.range (Config.icacheLineBytes / 4)).map fun i =>
    BitVec.ofNat 32 (leNat ((List.range 4).map fun j => s.mem.read (leafHome pte level last (va + 4 * i + j)).loc))

/-- The homes of the words of that line. -/
def lineHomes (pte : Word) (level : Nat) (last : BitVec 512) (va : Nat) : List Home :=
  (List.range (Config.icacheLineBytes / 4)).map fun i => leafHome pte level last (va + 4 * i)

/-- Read a cache line of a pid for a tile from its homes; none where the page is not present or not executable, or a home is lost (R229, R404).
-/
def State.readLine (s : State) (t : TileId) (pid : BitVec 16) (va : Nat) : Option (List Insn) :=
  match s.walkAt (dieOf t) pid va with
  | .found (.leaf pte level last) =>
    if pte.getLsbD 63 && !(lineHomes pte level last va).any s.isLost then some (s.lineThrough pte level last va) else none
  | _ => none
/-- Whether no bridge holds back the tables and the homes of a line (R2, R388). -/
def State.lineOpen (s : State) (t : TileId) (pid : BitVec 16) (va : Nat) : Bool :=
  match s.walkAt (dieOf t) pid va with
  | .cut => false
  | .found (.leaf pte level last) =>
    !pte.getLsbD 63 || (lineHomes pte level last va).all fun h => s.isLost h || (s.homeOpen t h && s.backOpen t h)
  | _ => true

/-- The first byte of the line that holds a virtual address. -/
def lineBase (va : Nat) : Nat := va / Config.icacheLineBytes * Config.icacheLineBytes

/-- The cached line of an address; a locked line holds only words of `.text` (R54). A line carries no pid: one that was fetched before a
`csrw pid` serves a fetch after it (DESIGN CHOICE, log 7). -/
def Tile.lineOf (x : Tile) (va : Nat) : Option ICLine :=
  x.icache.find? fun l => decide (l.addr ≤ va) && decide (va < l.addr + 4 * l.words.length)

/-- The word of a line at an address. -/
def ICLine.word (l : ICLine) (va : Nat) : Option Insn := l.words[(va - l.addr) / 4]?

/-- Put a line in the cache on demand; with every line in use the oldest unlocked one goes (DESIGN CHOICE, log 7). -/
def Tile.cacheLine (x : Tile) (l : ICLine) : Tile :=
  let keep : List ICLine := x.icache.filter fun m => m.addr ≠ l.addr
  let keep : List ICLine :=
    if keep.length < Config.icacheLines then keep
    else match keep.find? fun m => !m.locked with
      | some m => keep.filter fun n => n.addr ≠ m.addr
      | none => keep
  { x with icache := keep ++ [l] }

/-- A cached line read again: a locked one now, unless its page can no longer be fetched, so that a fetch of it traps; any other where it
is fetched next (R248, R53). -/
def State.reread (s : State) (t : TileId) (l : ICLine) : Option ICLine :=
  if l.locked then (s.readLine t (s.tileAt t).pid l.addr).map fun ws => { l with words := ws.take l.words.length } else none
/-- Whether a line can be read again now: a locked one whose homes a bridge cuts off waits (R388). -/
def State.rereadOpen (s : State) (t : TileId) (l : ICLine) : Bool := !l.locked || s.lineOpen t (s.tileAt t).pid l.addr

/-- `fence.i`: every cached line is read again. -/
def State.refetch (s : State) (t : TileId) : State :=
  let x := s.tileAt t
  s.putTile t { x with icache := x.icache.filterMap (s.reread t) }
/-- Whether every line can be. -/
def State.refetchOpen (s : State) (t : TileId) : Bool := (s.tileAt t).icache.all (s.rereadOpen t)

/-- A bad line is read again (R367). -/
def State.rereadLine (s : State) (t : TileId) (l : ICLine) : State :=
  let x := s.tileAt t
  s.putTile t { x with icache := x.icache.filterMap fun m => if m = l then s.reread t m else some m }

/-- What a fetch finds: the word, a walk of the station that must come first, a page that is held, or the trap FETCH. -/
inductive FetchOut where
  | word (w : Insn)
  | walk
  | held
  | trap
  deriving DecidableEq, Repr

/-- The fetch of a slot is done with the translation that it was given, if the tile's mode has it ask for one. -/
def State.fetched (s : State) (t : TileId) (k : Slot) : State :=
  if (s.tileAt t).throughput then { s with trans := s.trans.filter fun x => !(x.req.tile = t && x.req.asker == .fetch k) } else s

/-- Fetch the word at the PC of a slot (R52, R53). In throughput mode a line comes from the cache, unless it was replaced
(log 7), else from its home, and is then cached. A home that is cut off is waited for (R388), and one that is lost cannot be fetched (log
73). -/
def State.fetch (s : State) (t : TileId) (k : Slot) (pc : Word) : FetchOut × State :=
  let x := s.tileAt t
  let va := pc.toNat % 2 ^ 52
  if regionOf pc ≠ 2 ∨ pc.toNat / 2 ^ 52 % 2 ^ 10 ≠ 0 then (.trap, s)
  else
    let hit : Option Insn := (x.lineOf va).bind fun l => if l.locked || !Config.icacheReplaced s.free then l.word va else none
    let s' : State := match x.lineOf va with
      | some l => if l.locked then s else { s with free := s.free + 1 }
      | none => s
    match hit with
    | some w => (.word w, if (x.lineOf va).any (·.locked) then s' else s'.fetched t k)
    | none =>
      if !x.throughput then (.trap, s')
      else match s.translation t (.fetch k) x.pid va with
      | none => (if s.isHeld (dieOf t) x.pid va then .held else .walk, s')
      | some .fatal => (.trap, s'.fetched t k)
      | some (.leaf pte level last) =>
        let hs := lineHomes pte level last (lineBase va)
        if !pte.getLsbD 63 || hs.any s.isLost then (.trap, s'.fetched t k)
        else if !hs.all (s.homeOpen t) then (.held, s')
        else
          let l : ICLine := ⟨lineBase va, s.lineThrough pte level last (lineBase va), false⟩
          match l.word va with
          | some w => (.word w, (s'.fetched t k).modTile t fun x => x.cacheLine l)
          | none => (.trap, s')

/-- The trap FETCH at a slot's PC (R53, R74). At the address that `tvec` holds it ends the thread (R356). -/
def State.fetchTrap (s : State) (t : TileId) (k : Slot) : State :=
  let th := s.thrAt t k
  if th.pc = th.tvec then s.kill t k 3 (BitVec.ofNat 64 Cause.fetch.code) else s.takeTrap t k false .fetch th.pc th.pc 0

/-- Whether an address lies in a page of global virtual space. -/
def inPage (page : BitVec 36) (a : Word) : Bool := regionOf a = 2 && a.toNat / 2 ^ 52 % 2 ^ 10 = 0 && pageOf (a.toNat % 2 ^ 52) = page

/-- Whether a slot's next fetch may need the translation of a page. -/
def Thread.fetches (th : Thread) (page : BitVec 36) (throughput : Bool) : Bool :=
  throughput && th.run == .ready && th.fetched.isNone && decide (th.shadow = 0) && inPage page th.pc

end Sys2Proof.Machine
end

