-- ==== Sys2Proof/Machine/Csr.lean ====
section
/-! DEFINITION. The control and status registers: their allocation, reads and writes (R37-R46, R122, R353, R366, R373). -/

namespace Sys2Proof.Machine

/-- The numbers of R39. -/
def csrAllocated (n : Nat) : Bool :=
  decide (n ≤ 0x009) || decide (0x400 ≤ n ∧ n ≤ 0x402) || decide (0x800 ≤ n ∧ n ≤ 0x80A)
/-- A number that supervisor mode alone may access (R37). -/
def csrSupervisor (n : Nat) : Bool := decide (0x800 ≤ n)
/-- A number that no instruction may write (R38). -/
def csrReadOnly (n : Nat) : Bool := decide (n ≤ 0x3FF) || decide (n = 0x808)

/-- The fused or remapped SKIP of a physical row (R385). -/
def State.skipOf (s : State) (row : Nat) : BitVec 5 :=
  match s.skips.find? fun p => p.1 = row with
  | some p => p.2
  | none => Config.fuseSkip row

/-- The physical column that serves a logical tile (R385). -/
def State.physCol (s : State) (t : TileId) : Nat :=
  if colOf t < (s.skipOf (dieOf t * 16 + rowOf t)).toNat then colOf t else colOf t + 1

/-- The entry that a place in a sequencer order names. -/
def State.opAt (s : State) (q : TileId × Nat) : Option EngEntry := (s.tileAt q.1).ops.find? fun e => e.req.id = q.2

/-- A tile's part of a matrix operation. -/
def EngEntry.quadOf (e : EngEntry) (t : TileId) : Quad :=
  match e.quads.find? fun q => q.tile = t with
  | some q => q
  | none => ⟨t, 0, 0, false⟩

/-- The code of a tree function (R328). -/
def TreeFn.code : TreeFn → Nat
  | .add => 0 | .max => 1 | .min => 2 | .scanAdd => 3 | .scanAff => 4

/-- OP and F of an operation, as completion entries and `mxstate` hold them (R308, R366). -/
def EngOp.opf : EngOp → Nat × Nat
  | .cpy _ _ _ => (0x6E, 0)
  | .cpyt _ _ _ => (0x6E, 1)
  | .cpym _ _ _ _ _ => (0x6E, 2)
  | .mma f sp _ _ _ _ _ => (0x6F, f.code + if sp then 8 else 0)
  | .acz _ => (0x70, 0)
  | .acld _ _ => (0x70, 1)
  | .acst _ _ => (0x70, 2)
  | .adrn _ _ _ => (0x70, 3)
  | .acrd _ _ => (0x70, 4)
  | .acwr _ _ => (0x70, 5)
  | .tree fn _ _ _ => (0x71, fn.code)
  | .tbar => (0x71, 5)
  | .ccv _ _ _ => (0x72, 0)
  | .ccvq _ _ _ _ => (0x72, 1)
  | .welt fn _ _ _ _ => (0x73, match fn with
    | .prmi => 0
    | .prmr _ => 1
    | .prmx _ _ => 2
    | .wupd => 4)
  | .bind _ => (0x68, 0)

/-- The operation at the head of a tile's matrix sequencer (R295): the one that runs, or the first in order. -/
def State.headOp (s : State) (t : TileId) : Option EngEntry :=
  let q := (s.tileAt t).mxq.filterMap s.opAt
  match q.find? fun e => e.state == .active with
  | some e => some e
  | none => q.head?

/-- The chunks of a matrix operation: K in chunks of 8, or of one block of 16 (R89, R91, R93). -/
def mmaChunks (f : MmaFmt) (k : Nat) : Nat :=
  match f with
  | .sx7 | .sx4 | .sx2 => (k + 15) / 16
  | _ => (k + 7) / 8
/-- The slice pairings of a function (R93). -/
def mmaPairs : MmaFmt → Nat
  | .f32x3 => 3
  | .f32x6 => 6
  | _ => 1

/-- K of a matrix control word (R317). -/
def ctlK (ctl : Word) : Nat := ctl.toNat / 2 ^ 24 % 512 + 1

/-- `mxstate` (R366): FRZ, HEAD, and SLOT, F, OP and the progress of the head operation. -/
def State.mxstate (s : State) (t : TileId) : Word :=
  let frz := (s.tileAt t).frozen
  BitVec.ofNat 64 ((if frz then 2 ^ 63 else 0) + (match s.headOp t with
    | some e =>
      let q := e.quadOf t
      let place := match e.req.op with
        | .mma _ _ _ _ _ _ _ => (if frz then 2 ^ 62 else 0) + q.pair * 2 ^ 40 + q.chunk * 2 ^ 32
        | _ => 0
      place + e.req.slot.val * 2 ^ 24 + e.req.op.opf.2 * 2 ^ 16 + e.req.op.opf.1
    | none => 0))

/-- `pairstat` (R373). -/
def Tile.pairstat (x : Tile) : Word :=
  match x.pairing with
  | some p => BitVec.ofNat 64 (p.interval.toNat * 2 ^ 8 + p.miss % 4 * 2 ^ 6 + p.lgf % 32 * 2 + 1)
  | none => 0

/-- `cnt` (R46). -/
def Thread.cnt (th : Thread) : Word :=
  BitVec.ofNat 64 (th.cntTl % 256 * 2 ^ 24 + th.cntCp % 256 * 2 ^ 16 + th.cntSt % 256 * 2 ^ 8 + th.cntLd % 256)

/-- `prmstat` (R353). -/
def Tile.prmstat (x : Tile) (k : Slot) : Word :=
  BitVec.ofNat 64 ((x.slots[k]).lastN0.toNat * 2 ^ 8 + (x.promises.filter fun p => p.slot = some k).length % 128)

/-- The value of an allocated CSR for the executing thread (R39-R46). -/
def State.csrRead (s : State) (n : Nat) : Word :=
  let th := s.thr
  let x := s.tile
  match n with
  | 0x000 => tileWord s.curTile
  | 0x001 => BitVec.ofNat 64 s.curSlot.val
  | 0x002 => x.cycle
  | 0x003 => th.instret
  | 0x004 => th.cnt
  | 0x005 => x.mode
  | 0x006 => x.horizon
  | 0x007 => 0x4010
  | 0x008 => x.prmstat s.curSlot
  | 0x009 => x.pairstat
  | 0x400 => th.fpcsr
  | 0x401 => th.vstat
  | 0x402 => x.vtime
  | 0x800 => th.status
  | 0x801 => th.epc
  | 0x802 => th.cause
  | 0x803 => th.tval
  | 0x804 => th.tvec
  | 0x805 => th.tmcmp
  | 0x806 => s.mxstate s.curTile
  | 0x807 => x.pid.setWidth 64
  | 0x808 => BitVec.ofNat 64 (dieOf s.curTile * 2 ^ 9 + s.physCol s.curTile * 2 ^ 4 + rowOf s.curTile)
  | 0x809 => th.scratch0
  | 0x80A => th.scratch1
  | _ => 0

/-- The least issue step among a tile's live and held promises (R43, R347). -/
def leastStep : List Promise → Option Nat
  | [] => none
  | p :: ps => match leastStep ps with
    | some m => some (min p.step.toNat m)
    | none => some p.step.toNat

/-- A write of `vtime` (R43): never lower, and no further than the least issue step of an open promise. -/
def Tile.writeVtime (x : Tile) (v : Word) : Tile :=
  let w := match leastStep x.promises with
    | some m => min v.toNat m
    | none => v.toNat
  if x.vtime.toNat < w then { x with vtime := BitVec.ofNat 64 w } else x

/-- A write of `fpcsr` (R44): an FRM of 4-7 leaves the field. -/
def fpcsrWrite (old v : Word) : Word :=
  (v &&& 0x1F) ||| (if v.getLsbD 7 then old &&& 0xE0 else v &&& 0xE0)

/-- Change one operation of a tile. -/
def Tile.modOp (x : Tile) (id : Nat) (f : EngEntry → EngEntry) : Tile :=
  { x with ops := x.ops.map fun e => if e.req.id = id then f e else e }
def State.modOpAt (s : State) (q : TileId × Nat) (f : EngEntry → EngEntry) : State := s.modTile q.1 fun x => x.modOp q.2 f

/-- Put a tile's part of a matrix operation. -/
def EngEntry.putQuad (e : EngEntry) (q : Quad) : EngEntry := { e with quads := e.quads.filter (fun p => p.tile ≠ q.tile) ++ [q] }

/-- A write of `mxstate` (R366): only while a frozen matrix operation is at the head; a CHUNK or PAIR out of its range keeps
the field. -/
def State.writeMxstate (s : State) (t : TileId) (v : Word) : State :=
  let x := s.tileAt t
  if !x.frozen then s
  else match s.headOp t with
  | some e =>
    match e.req.op with
    | .mma f _ _ _ ctl _ _ =>
      let q := e.quadOf t
      let chunk := v.toNat / 2 ^ 32 % 64
      let pair := v.toNat / 2 ^ 40 % 8
      let q' : Quad := { q with
        chunk := if chunk < mmaChunks f (ctlK ctl) then chunk else q.chunk
        pair := if pair < mmaPairs f then pair else q.pair }
      match x.mxq.find? fun p => s.opAt p == some e with
      | some p => s.modOpAt p fun e => e.putQuad q'
      | none => s
    | _ => s
  | none => s

/-- The timer stays pending only while it is due (R201). -/
def Thread.setTmcmp (th : Thread) (v cycle : Word) : Thread :=
  { th with tmcmp := v, pending := { th.pending with timer := th.pending.timer && v ≠ 0 && decide (v.toNat ≤ cycle.toNat) } }

/-- The tiles of a tile's gang in this package. -/
def State.gangTiles (s : State) (t : TileId) : List TileId :=
  match (s.tileAt t).gang with
  | some g => match s.gangs.find? fun x => x.id = g with
    | some x => x.tiles
    | none => [t]
  | none => [t]

/-- A write of a CSR that is writable (R38, R39, R43-R45); reserved and read-only bits are ignored. -/
def State.csrWrite (s : State) (n : Nat) (v : Word) : State :=
  match n with
  | 0x400 => s.modThr fun th => { th with fpcsr := fpcsrWrite th.fpcsr v }
  | 0x401 => s.modThr fun th => { th with vstat := v &&& 0xFF }
  | 0x402 => s.modCur fun x => x.writeVtime v
  | 0x800 => s.modThr fun th => { th with status := v &&& 0x3F }
  | 0x801 => s.modThr fun th => { th with epc := v &&& ~~~3#64 }
  | 0x802 => s.modThr fun th => { th with cause := v &&& 0x80000000000000FF#64 }
  | 0x803 => s.modThr fun th => { th with tval := v }
  | 0x804 => s.modThr fun th => { th with tvec := v &&& ~~~3#64 }
  | 0x805 => let c := s.tile.cycle; s.modThr fun th => th.setTmcmp v c
  | 0x806 => s.writeMxstate s.curTile v
  | 0x807 => (s.gangTiles s.curTile).foldl (fun s t => s.modTile t fun x => { x with pid := v.setWidth 16 }) s
  | 0x809 => s.modThr fun th => { th with scratch0 := v }
  | 0x80A => s.modThr fun th => { th with scratch1 := v }
  | _ => s

end Sys2Proof.Machine
end

