-- ==== Sys2Proof/Machine/Scalar.lean ====
section
/-! DEFINITION. The scalar integer instructions, constants, bit fields, compare-with-skip, branches, loads, stores, CSR access
and `wait` (spec/05_scalar_instructions.md). -/

namespace Sys2Proof.Machine

-- OPI (R102-R104)

/-- Bits from the least significant end that satisfy a test, as positions. -/
def onesOf (x : Word) : List Nat := (List.range 64).filter fun i => x.getLsbD i
/-- Leading and trailing zeros and the number of ones (R103). -/
def clzWord (x : Word) : Word := BitVec.ofNat 64 (((List.range 64).find? fun i => x.getLsbD (63 - i)).getD 64)
def ctzWord (x : Word) : Word := BitVec.ofNat 64 (((List.range 64).find? fun i => x.getLsbD i).getD 64)
def popcWord (x : Word) : Word := BitVec.ofNat 64 (onesOf x).length

/-- A shift amount, bits [5:0] (R103). -/
def shamt (b : Word) : Nat := b.toNat % 64

/-- High halves of products (R103). -/
def mulhWord (a b : Word) : Word := BitVec.ofInt 64 (a.toInt * b.toInt / 2 ^ 64)
def mulhnWord (a b : Word) : Word := BitVec.ofNat 64 (a.toNat * b.toNat / 2 ^ 64)

/-- Quotients and remainders with the corner cases of R104. -/
def divWord (a b : Word) : Word := if b = 0 then BitVec.allOnes 64 else a.sdiv b
def divnWord (a b : Word) : Word := if b = 0 then BitVec.allOnes 64 else a / b
def remWord (a b : Word) : Word := if b = 0 then a else a.srem b
def remnWord (a b : Word) : Word := if b = 0 then a else a % b

/-- Two scalar sources and a result of several clocks (R99). -/
def scalarLater (s : State) (d a b : Reg) (clocks : Nat) (f : Word → Word → Word) : Out :=
  exS2 s a b fun x y => retireLater s d (f x y) clocks

def execAdd (d a b : Reg) (s : State) : Out := scalar2 s d a b fun x y => x + y
def execSub (d a b : Reg) (s : State) : Out := scalar2 s d a b fun x y => x - y
def execAnd (d a b : Reg) (s : State) : Out := scalar2 s d a b fun x y => x &&& y
def execOr (d a b : Reg) (s : State) : Out := scalar2 s d a b fun x y => x ||| y
def execXor (d a b : Reg) (s : State) : Out := scalar2 s d a b fun x y => x ^^^ y
def execSll (d a b : Reg) (s : State) : Out := scalar2 s d a b fun x y => x <<< shamt y
def execSrl (d a b : Reg) (s : State) : Out := scalar2 s d a b fun x y => x >>> shamt y
def execSra (d a b : Reg) (s : State) : Out := scalar2 s d a b fun x y => x.sshiftRight (shamt y)
def execSlt (d a b : Reg) (s : State) : Out := scalar2 s d a b fun x y => boolWord (x.slt y)
def execSltn (d a b : Reg) (s : State) : Out := scalar2 s d a b fun x y => boolWord (x.ult y)
def execMin (d a b : Reg) (s : State) : Out := scalar2 s d a b fun x y => if y.slt x then y else x
def execMax (d a b : Reg) (s : State) : Out := scalar2 s d a b fun x y => if x.slt y then y else x
def execMinn (d a b : Reg) (s : State) : Out := scalar2 s d a b fun x y => if y.ult x then y else x
def execMaxn (d a b : Reg) (s : State) : Out := scalar2 s d a b fun x y => if x.ult y then y else x
def execMul (d a b : Reg) (s : State) : Out := scalarLater s d a b 4 fun x y => x * y
def execMulh (d a b : Reg) (s : State) : Out := scalarLater s d a b 4 mulhWord
def execMulhn (d a b : Reg) (s : State) : Out := scalarLater s d a b 4 mulhnWord
def execDiv (d a b : Reg) (s : State) : Out := scalarLater s d a b 36 divWord
def execDivn (d a b : Reg) (s : State) : Out := scalarLater s d a b 36 divnWord
def execRem (d a b : Reg) (s : State) : Out := scalarLater s d a b 36 remWord
def execRemn (d a b : Reg) (s : State) : Out := scalarLater s d a b 36 remnWord
def execRot (d a b : Reg) (s : State) : Out := scalar2 s d a b fun x y => x.rotateLeft (shamt y)
def execClz (d a : Reg) (s : State) : Out := scalar1 s d a clzWord
def execCtz (d a : Reg) (s : State) : Out := scalar1 s d a ctzWord
def execPopc (d a : Reg) (s : State) : Out := scalar1 s d a popcWord
def execSel (d a b c : Reg) (s : State) : Out :=
  exS3 s a b c fun x y z => retireS s d (if z ≠ 0 then x else y)

-- IMMI, LUI, ADPC (R105, R106)

def execAddi (d a : Reg) (i : BitVec 12) (s : State) : Out := scalar1 s d a fun x => x + signExt 12 i
def execAndi (d a : Reg) (i : BitVec 12) (s : State) : Out := scalar1 s d a fun x => x &&& signExt 12 i
def execOri (d a : Reg) (i : BitVec 12) (s : State) : Out := scalar1 s d a fun x => x ||| signExt 12 i
def execXori (d a : Reg) (i : BitVec 12) (s : State) : Out := scalar1 s d a fun x => x ^^^ signExt 12 i
def execSlti (d a : Reg) (i : BitVec 12) (s : State) : Out := scalar1 s d a fun x => boolWord (x.slt (signExt 12 i))
def execSltni (d a : Reg) (i : BitVec 12) (s : State) : Out := scalar1 s d a fun x => boolWord (x.ult (signExt 12 i))
def execSlli (d a : Reg) (h : BitVec 6) (s : State) : Out := scalar1 s d a fun x => x <<< h.toNat
def execSrli (d a : Reg) (h : BitVec 6) (s : State) : Out := scalar1 s d a fun x => x >>> h.toNat
def execSrai (d a : Reg) (h : BitVec 6) (s : State) : Out := scalar1 s d a fun x => x.sshiftRight h.toNat

/-- SignExt(imm20 · 4,096, 32) (R106). -/
def upper (i : BitVec 20) : Word := (i ++ 0#12).signExtend 64
def execLui (d : Reg) (i : BitVec 20) (s : State) : Out := retireS s d (upper i)
def execAdpc (d : Reg) (i : BitVec 20) (s : State) : Out := retireS s d (s.thr.pc + upper i)

-- BITF (R107)

/-- The field of length L at position p. -/
def bitField (x : Word) (p l : BitVec 6) : Nat := x.toNat / 2 ^ p.toNat % 2 ^ (l.toNat + 1)
def execExt (d a : Reg) (p l : BitVec 6) (s : State) : Out :=
  scalar1 s d a fun x =>
    let f := bitField x p l
    if f.testBit l.toNat then BitVec.ofNat 64 (2 ^ 64 - 2 ^ (l.toNat + 1) + f) else BitVec.ofNat 64 f
def execExtn (d a : Reg) (p l : BitVec 6) (s : State) : Out := scalar1 s d a fun x => BitVec.ofNat 64 (bitField x p l)
def execIns (d a : Reg) (p l : BitVec 6) (s : State) : Out :=
  exS2 s a d fun x old =>
    let mask : Word := BitVec.ofNat 64 ((2 ^ (l.toNat + 1) - 1) * 2 ^ p.toNat)
    retireS s d ((old &&& ~~~mask) ||| ((x <<< p.toNat) &&& mask))

-- Compare with skip (R108-R110)

/-- The integer conditions (R109). -/
def skHolds (c : SkCond) (x y : Word) : Bool :=
  match c with
  | .eq => x == y
  | .ne => x != y
  | .lt => x.slt y
  | .ge => !x.slt y
  | .ltn => x.ult y
  | .gen => !x.ult y
  | .tst => x &&& y != 0
  | .ntst => x &&& y == 0
/-- The floating conditions (R109). -/
def fskHolds (c : FskCond) (f : Fmt) (x y : Nat) : Bool :=
  match c with
  | .feq => f.eqB x y
  | .fne => !f.eqB x y
  | .flt => f.ltB x y
  | .fge => f.leB y x
  | .fle => f.leB x y
  | .fgt => f.ltB y x
  | .fun => f.unordered x y
  | .ford => !f.unordered x y

/-- Retire, and annul the next n words when the condition holds (R110). -/
def retireSkip (s : State) (holds : Bool) (n : BitVec 2) : Out :=
  retire (if holds then s.modThr fun th => { th with shadow := n.toNat } else s) []

def execSk (c : SkCond) (n : BitVec 2) (a b : Reg) (s : State) : Out := exS2 s a b fun x y => retireSkip s (skHolds c x y) n
def execSki (c : SkCond) (n : BitVec 2) (a : Reg) (i : BitVec 15) (s : State) : Out :=
  exS s a fun x => retireSkip s (skHolds c x (signExt 15 i)) n
def execFsk (c : FskCond) (n : BitVec 2) (a b : Reg) (s : State) : Out :=
  exS2 s a b fun x y => retireSkip s (fskHolds c f32 (x.toNat % 2 ^ 32) (y.toNat % 2 ^ 32)) n
def execFskd (c : FskCond) (n : BitVec 2) (a b : Reg) (s : State) : Out :=
  exS2 s a b fun x y => retireSkip s (fskHolds c f64 x.toNat y.toNat) n

-- Branches and jumps (R112-R114)

/-- The branch conditions (R112). -/
def brHolds (c : BrCond) (x y : Word) : Bool :=
  match c with
  | .eq => x == y
  | .ne => x != y
  | .lt => x.slt y
  | .ge => !x.slt y
  | .ltn => x.ult y
  | .gen => !x.ult y

def execBr (c : BrCond) (a b : Reg) (i : BitVec 10) (s : State) : Out :=
  exS2 s a b fun x y => retireTo s (if brHolds c x y then s.thr.pc + 4 * signExt 10 i else s.thr.pc + 4) []
def execJl (d : Reg) (i : BitVec 20) (s : State) : Out :=
  let pc := s.thr.pc
  dstS s d (retireTo (s.putS d (pc + 4)) (pc + 4 * signExt 20 i) [pc + 4])
def execJlr (d a : Reg) (i : BitVec 12) (s : State) : Out :=
  exS s a fun x =>
    let target := x + signExt 12 i
    let pc := s.thr.pc
    if target &&& 3 ≠ 0 then trap s .misalign target
    else dstS s d (retireTo (s.putS d (pc + 4)) target [pc + 4])

-- Loads and stores (R115-R120)

/-- The bytes of a load type, and whether it extends by sign (R115). -/
def ldBytes : LdType → Nat
  | .i8 | .n8 => 1
  | .i16 | .n16 => 2
  | .i32 | .n32 => 4
  | .i64 => 8
def ldExtend (t : LdType) (v : Nat) : Word :=
  match t with
  | .i8 => (BitVec.ofNat 8 v).signExtend 64
  | .i16 => (BitVec.ofNat 16 v).signExtend 64
  | .i32 => (BitVec.ofNat 32 v).signExtend 64
  | .n8 | .n16 | .n32 | .i64 => BitVec.ofNat 64 v
def stBytes : StSize → Nat
  | .b8 => 1 | .b16 => 2 | .b32 => 4 | .b64 => 8

def execLd (t : LdType) (d a : Reg) (i : BitVec 12) (s : State) : Out :=
  exS s a fun x =>
    let addr := effAddr x i
    let n := ldBytes t
    dstS s d (checkAddr s addr n true false (checkFret s addr n false (needCnt s .ld
      (retire ((s.issueLoad (.scalar d t addr) (s.localDue [addr] Config.localLoadClocks)).modThr fun th => th.pendS d)
        [addr]))))

def execSt (z : StSize) (b a : Reg) (i : BitVec 12) (s : State) : Out :=
  exS2 s a b fun x v =>
    let addr := effAddr x i
    let n := stBytes z
    checkAddr s addr n false true (checkFret s addr n true (needCnt s .st
      (retire (s.issueStore .plain false [] n [(addr, leBytes v.toNat n)]) [addr, v])))

-- CSR access (R121-R123)

/-- The checks of R38 on an access that may be a write. -/
def csrCheck (s : State) (i : Instr) (n : BitVec 12) (isWrite : Bool) (k : Out) : Out :=
  if !csrAllocated n.toNat then trap s .illegal i.tvalWord
  else if csrSupervisor n.toNat && !s.thr.sv then trap s .priv i.tvalWord
  else if isWrite && csrReadOnly n.toNat then trap s .illegal i.tvalWord
  else k

/-- Read old, write the new value, then write s[d] (R122). -/
def csrSwap (s : State) (d : Reg) (n : BitVec 12) (new : Option Word) : Out :=
  let old := s.csrRead n.toNat
  let s' := match new with
    | some v => s.csrWrite n.toNat v
    | none => s
  dstS s d (retire (s'.putS d old) (old :: new.toList))

def execCsrr (d : Reg) (n : BitVec 12) (s : State) : Out := csrCheck s (.csrr d n) n false (csrSwap s d n none)
def execCsrw (d : Reg) (n : BitVec 12) (a : Reg) (s : State) : Out :=
  csrCheck s (.csrw d n a) n true (exS s a fun x => csrSwap s d n (some x))
def execCsrs (d : Reg) (n : BitVec 12) (a : Reg) (s : State) : Out :=
  csrCheck s (.csrs d n a) n (a != 0)
    (exS s a fun x => csrSwap s d n (if a = 0 then none else some (s.csrRead n.toNat ||| x)))
def execCsrc (d : Reg) (n : BitVec 12) (a : Reg) (s : State) : Out :=
  csrCheck s (.csrc d n a) n (a != 0)
    (exS s a fun x => csrSwap s d n (if a = 0 then none else some (s.csrRead n.toNat &&& ~~~x)))

-- WAIT (R124-R127)

/-- The oldest reportable fault: of a store none of whose pieces is outstanding (R126, R127, R151). -/
def oldestFault : List StoreFault → Option StoreFault
  | [] => none
  | f :: fs => match oldestFault fs with
    | some g => if g.seq < f.seq ∨ (g.seq = f.seq ∧ g.id < f.id) then some g else some f
    | none => some f
def State.faultNow (s : State) : Option StoreFault :=
  oldestFault (s.thr.faults.filter fun f => !s.tile.stores.any fun r => r.slot = s.curSlot && r.seq = f.seq)

/-- An instruction that covers stores reports the oldest unreported fault before it retires (R127). -/
def reportFault (s : State) (k : Out) : Out :=
  match s.faultNow with
  | some f => trap (s.modThr fun th => { th with faults := th.faults.filter fun g => g.seq ≠ f.seq }) .storeFault f.addr
  | none => k

def execWait (tl cp st ld : BitVec 4) (s : State) : Out :=
  let th := s.thr
  if within th.cntLd ld && within th.cntSt st && within th.cntCp cp && within th.cntTl tl then
    (if st = 15 then retire s [] else reportFault s (retire s []))
  else park s .wait

end Sys2Proof.Machine
end

