-- ==== Sys2Proof/Machine/Memory.lean ====
section
/-! DEFINITION. Ordered access, full/empty forms, atomics and reservations, fences and notice boards
(spec/12_memory_instructions.md, R260-R280). -/

namespace Sys2Proof.Machine

/-- Send an answered form's request and park (R260). -/
def ask (s : State) (op : ReqOp) (d : Reg) (addr : Word) : Out := park (s.sendReq op d addr) .wordFe

/-- The address check and the fretboard check of an answered form (R261). -/
def askChecked (s : State) (op : ReqOp) (d : Reg) (addr : Word) (n : Nat) (load store : Bool) : Out :=
  checkAddr s addr n load store (checkFret s addr n store (ask s op d addr))

-- LDX, STX: acquire loads and release stores (R262-R264)

def execLdAcq (z : Size) (sc : Scope) (d a : Reg) (s : State) : Out :=
  exS s a fun x => dstS s d (askChecked s (.acq z sc) d x (sizeBytes z) true false)

def execStRel (z : Size) (sc : Scope) (b a : Reg) (s : State) : Out :=
  exS2 s a b fun x v =>
    let n := sizeBytes z
    checkAddr s x n false true (checkFret s x n true (needCnt s .st
      (retire (s.issueStore (.release sc) true [] n [(x, leBytes v.toNat n)]) [x, v])))

-- LDX, STX: full/empty forms (R265, R266)

/-- A full/empty form: privilege and alignment, then a global address is an error, then watch, region and fretboard (R261,
R266). -/
def feForm (s : State) (op : ReqOp) (d : Reg) (addr : Word) (n : Nat) (load store : Bool) : Out :=
  if regionOf addr = 2 then (if addr.toNat % n ≠ 0 then trap s .misalign addr else engineError s addr)
  else askChecked s op d addr n load store

def execLdfe64 (d a : Reg) (s : State) : Out := exS s a fun x => dstS s d (feForm s (.ldfe .w64) d x 8 true true)
def execLdff64 (d a : Reg) (s : State) : Out := exS s a fun x => dstS s d (feForm s (.ldff .w64) d x 8 true false)
def execLdfe32 (d a : Reg) (s : State) : Out := exS s a fun x => dstS s d (feForm s (.ldfe .w32) d x 4 true true)
def execLdff32 (d a : Reg) (s : State) : Out := exS s a fun x => dstS s d (feForm s (.ldff .w32) d x 4 true false)
def execStef (z : Size) (b a : Reg) (s : State) : Out :=
  exS2 s a b fun x v => feForm s (.stef z v) 0 x (sizeBytes z) true true
def execStff (z : Size) (b a : Reg) (s : State) : Out :=
  exS2 s a b fun x v => feForm s (.stff z v) 0 x (sizeBytes z) true true
def execSte (a : Reg) (s : State) : Out := exS s a fun x => feForm s .ste 0 x 4 true true

-- ATOM (R267-R272)

/-- A hold stops it before any check of its address, which no rule puts first (DEDUCED, log 13). It meets the fretboard as a write does, as
an atomic would: R117 and R260 name reservations nowhere (DESIGN CHOICE, log 76). -/
def execArsv (z : Size) (d a : Reg) (s : State) : Out :=
  exS s a fun x => dstS s d (
    match s.thr.hold with
    | some h => engineError s h.addr
    | none => checkAddr s x (sizeBytes z) true false (checkFret s x (sizeBytes z) true (ask s (.arsv z) d x)))

/-- `arel` (R271): only of the word held, by the same address and size; the new value leaves as a release and passes the
grant on. -/
def execArel (z : Size) (b a : Reg) (s : State) : Out :=
  exS2 s a b fun x v =>
    let n := sizeBytes z
    checkAddr s x n false true (checkFret s x n true (
      match s.thr.hold with
      | none => engineError s x
      | some h =>
        if h.addr ≠ x ∨ h.size ≠ z then engineError s x
        else needCnt s .st
          (retire ((s.issueStore (.arel (placeOf h.homes) z) true h.homes n [(x, leBytes v.toNat n)]).modThr fun th => { th with hold := none })
            [x, v])))

/-- A single-instruction atomic with one operand (R270). -/
def atomic (op : Rmw) (z : Size) (d a b : Reg) (s : State) : Out :=
  exS2 s a b fun x v => dstS s d (askChecked s (.rmw op z v 0) d x (sizeBytes z) true true)

def execAadd (z : Size) (d a b : Reg) (s : State) : Out := atomic .add z d a b s
def execAmin (z : Size) (d a b : Reg) (s : State) : Out := atomic .min z d a b s
def execAmax (z : Size) (d a b : Reg) (s : State) : Out := atomic .max z d a b s
def execAminn (z : Size) (d a b : Reg) (s : State) : Out := atomic .minn z d a b s
def execAmaxn (z : Size) (d a b : Reg) (s : State) : Out := atomic .maxn z d a b s
def execAand (z : Size) (d a b : Reg) (s : State) : Out := atomic .and z d a b s
def execAor (z : Size) (d a b : Reg) (s : State) : Out := atomic .or z d a b s
def execAxor (z : Size) (d a b : Reg) (s : State) : Out := atomic .xor z d a b s
def execAxchg (z : Size) (d a b : Reg) (s : State) : Out := atomic .xchg z d a b s
def execAaddf (z : Size) (d a b : Reg) (s : State) : Out := atomic .addf z d a b s
def execAcas (z : Size) (d a b c : Reg) (s : State) : Out :=
  exS3 s a b c fun x v w => dstS s d (askChecked s (.rmw .cas z v w) d x (sizeBytes z) true true)

-- FENCE (R248, R250, R273, R274)

/-- A fence parks under WAIT until its condition holds (R274). -/
def fenceWhen (s : State) (ok : Bool) (k : Out) : Out := if ok then k else park s .wait

/-- Every earlier store of a slot is acknowledged at a scope (R245, R274), and every earlier access is complete. -/
def State.storesClear (s : State) (t : TileId) (k : Slot) (sc : Scope) : Bool := s.storesAcked t k (s.thrAt t k).seq sc
def State.fenceClear (s : State) (t : TileId) (k : Slot) (sc : Scope) : Bool := s.releaseClear t k (s.thrAt t k).seq sc

def execFence (sc : Scope) (s : State) : Out :=
  fenceWhen s (s.fenceClear s.curTile s.curSlot sc) (reportFault s (retire s []))
def execFenceLd (_sc : Scope) (s : State) : Out := fenceWhen s (s.thr.loadsBack s.thr.seq) (retire s [])
/-- `fence.st` parks as every fence does (R274), so what R248 lets a later load do does not come about (log 67). -/
def execFenceSt (sc : Scope) (s : State) : Out :=
  fenceWhen s (s.storesClear s.curTile s.curSlot sc) (reportFault s (retire s []))

/-- Whether a place lies in a tile's instance of a scope (R180). -/
def State.inScope (s : State) (t : TileId) (sc : Scope) (l : Nat) : Bool :=
  let die : Option Nat := match locTile l with
    | some u => some (dieOf u)
    | none => if l ≥ hostLoc 0 then some 0 else if l / 2 ^ 41 = s.domPkg then some (l % 2 ^ 41 / 2 ^ 37) else none
  match sc with
  | .tile => locTile l == some t
  | .cluster => match locTile l with
    | some u => decide (dieOf u = dieOf t ∧ clusterOf u = clusterOf t)
    | none => false
  | .die => die == some (dieOf t)
  | .package => die.isSome
  | .domain => true

/-- The entries that an `xfence` commits: those of the tile's complete operations within the scope (R250). -/
def State.xentry (s : State) (t : TileId) (sc : Scope) (e : Staged) : Bool := e.tile = t && e.done && s.inScope t sc e.loc
/-- `xfence` commits those whose homes the tile reaches (R250, R388). -/
def State.xcommit (s : State) (t : TileId) (sc : Scope) : State := s.commitWhere fun e => s.xentry t sc e && s.commitOpen t e.loc
/-- Whether no commit of an `xfence` waits for a bridge (R274, R388). -/
def State.xfenceClear (s : State) (t : TileId) (sc : Scope) : Bool := s.staged.all fun e => !s.xentry t sc e || s.commitOpen t e.loc

/-- `xfence` retires when every commit is acknowledged; one that a bridge holds back has it park (R250, R274, R388). -/
def execXfence (sc : Scope) (s : State) : Out :=
  if s.xfenceClear s.curTile sc then retire (s.xcommit s.curTile sc) [] else park (s.xcommit s.curTile sc) .wait

/-- `fence.i` waits for the thread's stores, and for the homes of the lines that it reads again (R248, R388). -/
def State.fenceIClear (s : State) (t : TileId) (k : Slot) : Bool := s.storesClear t k .domain && s.refetchOpen t
def execFenceI (s : State) : Out := fenceWhen s (s.fenceIClear s.curTile s.curSlot) (retire (s.refetch s.curTile) [])

-- NB (R275-R280)

/-- The bits of s[c] that hold a buffer offset, and the offset (R276). -/
def nbBufMask : Word := 0x001FFFFF00000000
def nbBuf (c : Word) : Nat := c.toNat / 2 ^ 32 % 2 ^ 21

/-- The operand checks of R278: the board address, the must-be-zero bits of each operand, the buffer offset. The rule lists them without an
order; where several fail together the first in this one is reported (DEDUCED, log 13). -/
def nbCheck (s : State) (a : Word) (ops : List (Word × Word)) (k : Out) : Out :=
  if (boardOf a).isNone then engineError s a
  else match ops.find? fun p => p.1 &&& ~~~p.2 != 0 with
    | some p => engineError s p.1
    | none => k
/-- The buffer is a local store of 128 bytes, which a watchpoint may catch (R278, R380). -/
def nbBufCheck (s : State) (c : Word) (k : Out) : Out :=
  if nbBuf c % 64 ≠ 0 ∨ 0x17FFC0 ≤ nbBuf c then engineError s c
  else if s.tile.watched (BitVec.ofNat 64 (nbBuf c)) 128 false true then trap s .watch (BitVec.ofNat 64 (nbBuf c))
  else checkFret s (BitVec.ofNat 64 (nbBuf c)) 128 true k

def execNbpost (d a b c : Reg) (s : State) : Out :=
  exS3 s a b c fun x v w => dstS s d (nbCheck s x [(w, nbBufMask ||| 0x3FF)] (nbBufCheck s w
    (ask s (.nb (.post (w.toNat % 1024) ((v >>> 32).setWidth 32) (v.setWidth 32) (nbBuf w))) d x)))
def execNbview (d a c : Reg) (s : State) : Out :=
  exS2 s a c fun x w => dstS s d (nbCheck s x [(w, nbBufMask ||| 0x801F)] (nbBufCheck s w
    (ask s (.nb (.view (w.getLsbD 15) (w.toNat % 32) (nbBuf w))) d x)))
def execNbadv (d a b : Reg) (s : State) : Out :=
  exS2 s a b fun x v => dstS s d (nbCheck s x [(v, 0xFFFFFFFF)] (ask s (.nb (.adv (v.setWidth 32))) d x))
def execNbinit (d a b c : Reg) (s : State) : Out :=
  needSv s (.nbinit d a b c) (exS3 s a b c fun x v w => dstS s d (nbCheck s x [(v, 0x07FF07FF), (w, 0xFFFFFFFF)]
    (ask s (.nb (.init (v.toNat % 2048) (v.toNat / 65536 % 2048) (w.setWidth 32))) d x)))

end Sys2Proof.Machine
end

