-- ==== Sys2Proof/Machine/Float.lean ====
section
/-! DEFINITION. Scalar floating point: FOP32, FOP64 and FCVT (R128-R131). -/

namespace Sys2Proof.Machine

/-- The format of a precision, and the value bits of a register in it (R36). -/
def precFmt : Prec → Fmt
  | .single => f32
  | .double => f64
def precBits (p : Prec) (x : Word) : Nat := x.toNat % 2 ^ (precFmt p).width

/-- The clocks of the table of R99. -/
def arithClocks : Prec → Nat
  | .single => 4
  | .double => 5
def divClocks : Prec → Nat
  | .single => 14
  | .double => 28

/-- A result of several clocks retires with its flags in `fpcsr` (R101); one that parks on its destination leaves none (R29). -/
def retireFlags (s : State) (d : Reg) (x : Word) (fl : FFlags) (clocks : Nat) : Out :=
  dstS s d (retireLater (s.modThr fun th => th.flagF fl) d x clocks)
/-- A floating result retires: its value goes to s[d] with the upper bits zero (R36). -/
def retireF (s : State) (d : Reg) (r : Nat × FFlags) (clocks : Nat) : Out := retireFlags s d (BitVec.ofNat 64 r.1) r.2 clocks

/-- Two floating sources with a rounding. -/
def fop2 (s : State) (p : Prec) (d a b : Reg) (clocks : Nat) (f : Nat → Nat → Nat × FFlags) : Out :=
  exS2 s a b fun x y => retireF s d (f (precBits p x) (precBits p y)) clocks
/-- Three floating sources with one rounding. -/
def fop3 (s : State) (p : Prec) (d a b c : Reg) (f : Nat → Nat → Nat → Nat × FFlags) : Out :=
  exS3 s a b c fun x y z => retireF s d (f (precBits p x) (precBits p y) (precBits p z)) (arithClocks p)
/-- Two floating sources, a one-clock result without flags. -/
def fbits2 (s : State) (p : Prec) (d a b : Reg) (f : Nat → Nat → Nat) : Out :=
  scalar2 s d a b fun x y => BitVec.ofNat 64 (f (precBits p x) (precBits p y))

def execFadd (p : Prec) (r : Rnd) (d a b : Reg) (s : State) : Out :=
  fop2 s p d a b (arithClocks p) ((precFmt p).add (s.thr.mode r))
def execFsub (p : Prec) (r : Rnd) (d a b : Reg) (s : State) : Out :=
  fop2 s p d a b (arithClocks p) ((precFmt p).sub (s.thr.mode r))
def execFmul (p : Prec) (r : Rnd) (d a b : Reg) (s : State) : Out :=
  fop2 s p d a b (arithClocks p) ((precFmt p).mul (s.thr.mode r))
def execFdiv (p : Prec) (r : Rnd) (d a b : Reg) (s : State) : Out :=
  fop2 s p d a b (divClocks p) ((precFmt p).div (s.thr.mode r))
def execFsqrt (p : Prec) (r : Rnd) (d a : Reg) (s : State) : Out :=
  exS s a fun x => retireF s d ((precFmt p).sqrt (s.thr.mode r) (precBits p x)) (divClocks p)
def execFmin (p : Prec) (d a b : Reg) (s : State) : Out := fbits2 s p d a b (precFmt p).minB
def execFmax (p : Prec) (d a b : Reg) (s : State) : Out := fbits2 s p d a b (precFmt p).maxB
def execFsgnj (p : Prec) (d a b : Reg) (s : State) : Out :=
  fbits2 s p d a b fun x y => (precFmt p).withSign x ((precFmt p).negField y)
def execFsgnjn (p : Prec) (d a b : Reg) (s : State) : Out :=
  fbits2 s p d a b fun x y => (precFmt p).withSign x (!(precFmt p).negField y)
def execFsgnjx (p : Prec) (d a b : Reg) (s : State) : Out :=
  fbits2 s p d a b fun x y => (precFmt p).withSign x ((precFmt p).negField x != (precFmt p).negField y)
def execFma (p : Prec) (d a b c : Reg) (s : State) : Out := fop3 s p d a b c (precFmt p).fma
def execFms (p : Prec) (d a b c : Reg) (s : State) : Out := fop3 s p d a b c (precFmt p).fms
def execFnma (p : Prec) (d a b c : Reg) (s : State) : Out := fop3 s p d a b c (precFmt p).fnma
def execFclass (p : Prec) (d a : Reg) (s : State) : Out :=
  scalar1 s d a fun x => BitVec.ofNat 64 (2 ^ (precFmt p).classOf (precBits p x))
def execFeq (p : Prec) (d a b : Reg) (s : State) : Out :=
  scalar2 s d a b fun x y => boolWord ((precFmt p).eqB (precBits p x) (precBits p y))
def execFlt (p : Prec) (d a b : Reg) (s : State) : Out :=
  scalar2 s d a b fun x y => boolWord ((precFmt p).ltB (precBits p x) (precBits p y))
def execFle (p : Prec) (d a b : Reg) (s : State) : Out :=
  scalar2 s d a b fun x y => boolWord ((precFmt p).leB (precBits p x) (precBits p y))

-- FCVT (R130, R131)

/-- The floating format of a type, if it is one. -/
def cvtFmt : CvtType → Option Fmt
  | .f32 => some f32
  | .f64 => some f64
  | .bf16 => some bf16
  | .f16 => some f16
  | _ => none
/-- Width and signedness of an integer type. -/
def cvtInt : CvtType → Nat × Bool
  | .i32 => (32, true)
  | .n32 => (32, false)
  | .i64 => (64, true)
  | .n64 => (64, false)
  | _ => (64, false)
/-- The range of an integer type. -/
def intLo (t : CvtType) : Int := if (cvtInt t).2 then -(2 ^ ((cvtInt t).1 - 1)) else 0
def intHi (t : CvtType) : Int := if (cvtInt t).2 then 2 ^ ((cvtInt t).1 - 1) - 1 else 2 ^ (cvtInt t).1 - 1
/-- The integer that a source register holds. -/
def intOf (t : CvtType) (x : Word) : Int :=
  let n := x.toNat % 2 ^ (cvtInt t).1
  if (cvtInt t).2 then sgn (cvtInt t).1 n else n
/-- An integer kept to the low bits of a type (R81). -/
def intWrap (t : CvtType) (i : Int) : Int :=
  let n := wrapTo (cvtInt t).1 i
  if (cvtInt t).2 then sgn (cvtInt t).1 n else n

/-- The conversion from type src to type dst (R82, R83, R131): the register contents and the flags. -/
def cvtWord (rm : RMode) (sat : Bool) (dst src : CvtType) (x : Word) : Word × FFlags :=
  match cvtFmt dst, cvtFmt src with
  | some f, some g =>
    let r := cvtFloat f rm sat (g.unpack (x.toNat % 2 ^ g.width))
    (BitVec.ofNat 64 r.1, r.2)
  | some f, none =>
    let r := f.finish rm (ofInt (intOf src x))
    (BitVec.ofNat 64 r.1, r.2)
  | none, some g =>
    let r := toIntRange rm sat (intLo dst) (intHi dst) (g.unpack (x.toNat % 2 ^ g.width))
    (BitVec.ofInt 64 r.1, r.2)
  | none, none =>
    let i := intOf src x
    (BitVec.ofInt 64 (if sat then max (intLo dst) (min (intHi dst) i) else intWrap dst i), FFlags.none)

/-- `fcvt.dst.src`: field c carries the destination type and b the source type (R63). -/
def execFcvt (w : Bool) (r : Rnd) (c b : CvtType) (d a : Reg) (s : State) : Out :=
  exS s a fun x =>
    let y := cvtWord (s.thr.mode r) w c b x
    retireFlags s d y.1 y.2 3

end Sys2Proof.Machine
end

