-- ==== Sys2Proof/Machine/Vector.lean ====
section
/-! DEFINITION. The vector, compare, move, reduction, conversion, vector memory and guard instructions
(spec/07_vector_instructions.md, R133-R153). -/

namespace Sys2Proof.Machine

/-- The guard of an instruction. -/
def State.guard (s : State) (g : GReg) : Guard := s.thr.getG g

-- VOPF and VOPI (R137-R140)

/-- A vector result of one source: examine a, then d where the merge or the entry reads it; flags over the active lanes. -/
def vec1 (s : State) (w : Nat) (g : GReg) (d a : Reg) (clocks : Nat) (f : Nat → Nat × VFlags) : Out :=
  exV s a fun x => oldV s d (g != 0) fun old =>
    let r := mapLanes w (s.guard g) old fun i => f (laneAt w x i)
    retireV s [a] d r.1 r.2 clocks
/-- A vector result of two sources. -/
def vec2 (s : State) (w : Nat) (g : GReg) (d a b : Reg) (clocks : Nat) (f : Nat → Nat → Nat × VFlags) : Out :=
  exV s a fun x => exV s b fun y => oldV s d (g != 0) fun old =>
    let r := mapLanes w (s.guard g) old fun i => f (laneAt w x i) (laneAt w y i)
    retireV s [a, b] d r.1 r.2 clocks
/-- A vector result of two sources and the destination itself, which is always read (R138): of a read-bound one with no head yet, the read
parks before the write is found to be misuse (R161 orders neither first: DESIGN CHOICE, log 70). -/
def vec3 (s : State) (w : Nat) (g : GReg) (d a b : Reg) (clocks : Nat) (f : Nat → Nat → Nat → Nat × VFlags) : Out :=
  exV s a fun x => exV s b fun y => exV s d fun z =>
    let r := mapLanes w (s.guard g) z fun i => f (laneAt w x i) (laneAt w y i) (laneAt w z i)
    retireV s [a, b] d r.1 r.2 clocks

/-- Two floating lanes, rounded rne in the element type (R135). -/
def vopF2 (s : State) (t : FTy) (g : GReg) (d a b : Reg) (f : Fmt → Nat → Nat → Nat × FFlags) : Out :=
  vec2 s (ftyFmt t).width g d a b 4 fun x y => flagged (f (ftyFmt t) x y)
/-- A bit operation on floating lanes: no flag. -/
def vopBits2 (s : State) (t : FTy) (g : GReg) (d a b : Reg) (f : Fmt → Nat → Nat → Nat) : Out :=
  vec2 s (ftyFmt t).width g d a b 4 fun x y => bare (f (ftyFmt t) x y)
/-- The exact functions rounded once (R139). -/
def vopExact (s : State) (t : FTy) (g : GReg) (d a : Reg) (f : FVal → Exact) : Out :=
  vec1 s (ftyFmt t).width g d a 12 fun x => flagged ((ftyFmt t).finish .rne (f ((ftyFmt t).unpack x)))

def execVaddF (t : FTy) (g : GReg) (d a b : Reg) (s : State) : Out := vopF2 s t g d a b fun f => f.add .rne
def execVsubF (t : FTy) (g : GReg) (d a b : Reg) (s : State) : Out := vopF2 s t g d a b fun f => f.sub .rne
def execVmulF (t : FTy) (g : GReg) (d a b : Reg) (s : State) : Out := vopF2 s t g d a b fun f => f.mul .rne
def execVfma (t : FTy) (g : GReg) (d a b : Reg) (s : State) : Out :=
  vec3 s (ftyFmt t).width g d a b 4 fun x y z => flagged ((ftyFmt t).fma x y z)
def execVfms (t : FTy) (g : GReg) (d a b : Reg) (s : State) : Out :=
  vec3 s (ftyFmt t).width g d a b 4 fun x y z => flagged ((ftyFmt t).fms x y z)
def execVminF (t : FTy) (g : GReg) (d a b : Reg) (s : State) : Out := vopBits2 s t g d a b Fmt.minB
def execVmaxF (t : FTy) (g : GReg) (d a b : Reg) (s : State) : Out := vopBits2 s t g d a b Fmt.maxB
def execVabsF (t : FTy) (g : GReg) (d a : Reg) (s : State) : Out :=
  vec1 s (ftyFmt t).width g d a 4 fun x => bare ((ftyFmt t).withSign x false)
def execVneg (t : FTy) (g : GReg) (d a : Reg) (s : State) : Out :=
  vec1 s (ftyFmt t).width g d a 4 fun x => bare ((ftyFmt t).withSign x (!(ftyFmt t).negField x))
def execVrcp (t : FTy) (g : GReg) (d a : Reg) (s : State) : Out := vopExact s t g d a rcpV
def execVrsq (t : FTy) (g : GReg) (d a : Reg) (s : State) : Out := vopExact s t g d a rsqV
def execVexp2 (t : FTy) (g : GReg) (d a : Reg) (s : State) : Out := vopExact s t g d a exp2V
def execVlog2 (t : FTy) (g : GReg) (d a : Reg) (s : State) : Out := vopExact s t g d a log2V

/-- Two integer lanes of width w (R140). -/
def vopI2 (s : State) (t : ITy) (g : GReg) (d a b : Reg) (f : Nat → Nat → Nat → Nat) : Out :=
  let w := etyWidth (ityEty t)
  vec2 s w g d a b 4 fun x y => bare (f w x y)

/-- log2 of a lane width: a shift amount is y[log2 w - 1 : 0]. -/
def laneShift (w y : Nat) : Nat := y % w

def execVaddI (t : ITy) (g : GReg) (d a b : Reg) (s : State) : Out := vopI2 s t g d a b fun w x y => (x + y) % 2 ^ w
def execVsubI (t : ITy) (g : GReg) (d a b : Reg) (s : State) : Out := vopI2 s t g d a b fun w x y => (x + 2 ^ w - y) % 2 ^ w
def execVmulI (t : ITy) (g : GReg) (d a b : Reg) (s : State) : Out := vopI2 s t g d a b fun w x y => x * y % 2 ^ w
def execVmulh (t : ITy) (g : GReg) (d a b : Reg) (s : State) : Out :=
  vopI2 s t g d a b fun w x y => wrapTo w (sgn w x * sgn w y / 2 ^ w)
def execVminI (t : ITy) (g : GReg) (d a b : Reg) (s : State) : Out :=
  vopI2 s t g d a b fun w x y => if sgn w y < sgn w x then y else x
def execVmaxI (t : ITy) (g : GReg) (d a b : Reg) (s : State) : Out :=
  vopI2 s t g d a b fun w x y => if sgn w x < sgn w y then y else x
def execVminn (t : ITy) (g : GReg) (d a b : Reg) (s : State) : Out := vopI2 s t g d a b fun _ x y => min x y
def execVmaxn (t : ITy) (g : GReg) (d a b : Reg) (s : State) : Out := vopI2 s t g d a b fun _ x y => max x y
def execVand (t : ITy) (g : GReg) (d a b : Reg) (s : State) : Out := vopI2 s t g d a b fun _ => Nat.land
def execVor (t : ITy) (g : GReg) (d a b : Reg) (s : State) : Out := vopI2 s t g d a b fun _ => Nat.lor
def execVxor (t : ITy) (g : GReg) (d a b : Reg) (s : State) : Out := vopI2 s t g d a b fun _ => Nat.xor
def execVsll (t : ITy) (g : GReg) (d a b : Reg) (s : State) : Out :=
  vopI2 s t g d a b fun w x y => x * 2 ^ laneShift w y % 2 ^ w
def execVsrl (t : ITy) (g : GReg) (d a b : Reg) (s : State) : Out := vopI2 s t g d a b fun w x y => x / 2 ^ laneShift w y
def execVsra (t : ITy) (g : GReg) (d a b : Reg) (s : State) : Out :=
  vopI2 s t g d a b fun w x y => wrapTo w (sgn w x / 2 ^ laneShift w y)
def execVabsI (t : ITy) (g : GReg) (d a : Reg) (s : State) : Out :=
  let w := etyWidth (ityEty t)
  vec1 s w g d a 4 fun x => bare ((sgn w x).natAbs % 2 ^ w)
/-- A sum clamped to the signed range, with SAT when it clamps (R140). -/
def addSat (w x y : Nat) : Nat × VFlags :=
  let i := sgn w x + sgn w y
  let lo : Int := -(2 ^ (w - 1))
  let hi : Int := 2 ^ (w - 1) - 1
  if i < lo then (wrapTo w lo, { VFlags.none with sat := true })
  else if hi < i then (wrapTo w hi, { VFlags.none with sat := true })
  else bare (wrapTo w i)
def execVadds (t : ITy) (g : GReg) (d a b : Reg) (s : State) : Out :=
  let w := etyWidth (ityEty t)
  vec2 s w g d a b 4 (addSat w)

-- VCMP (R141)

/-- The condition of a compare on lanes of a type. -/
def vcondHolds (f : VCond) (t : ETy) (x y : Nat) : Bool :=
  let w := etyWidth t
  let fmt := (etyFloats t).getD f32
  match f with
  | .eq => x = y
  | .ne => x ≠ y
  | .lt => sgn w x < sgn w y
  | .ge => sgn w y ≤ sgn w x
  | .ltn => x < y
  | .gen => y ≤ x
  | .feq => fmt.eqB x y
  | .flt => fmt.ltB x y
  | .fle => fmt.leB x y
  | .fun => fmt.unordered x y

/-- The guard whose bit i is a test of i, for i below n; zero from n on. -/
def guardOf (n : Nat) (p : Nat → Bool) : Guard :=
  BitVec.ofNat 128 (((List.range n).map fun i => if p i then 2 ^ i else 0).foldl (· + ·) 0)

/-- A guard result lands in one clock (R136); the sources pop. -/
def retireG (s : State) (srcs : List Reg) (d : GReg) (x : Guard) : Out :=
  retire ((s.popV srcs).modThr fun th => th.setG d x) (wideWords x)

def execVcmp (f : VCond) (t : ETy) (g d : GReg) (a b : Reg) (s : State) : Out :=
  exV s a fun x => exV s b fun y =>
    let w := etyWidth t
    retireG s [a, b] d (guardOf (laneCount w) fun i => active (s.guard g) i && vcondHolds f t (laneAt w x i) (laneAt w y i))

-- VMOV (R142, R143)

def execVmov (t : ETy) (g : GReg) (d a : Reg) (s : State) : Out := vec1 s (etyWidth t) g d a 2 bare
/-- `vsel` writes every lane and never reads d (R133). -/
def execVsel (t : ETy) (g : GReg) (d a b : Reg) (s : State) : Out :=
  exV s a fun x => exV s b fun y =>
    let w := etyWidth t
    let r := (List.range (laneCount w)).map fun i => if active (s.guard g) i then laneAt w x i else laneAt w y i
    retireV s [a, b] d (ofLanes w r) VFlags.none 2
def execVbcast (t : ETy) (g : GReg) (d a : Reg) (s : State) : Out :=
  exS s a fun x => oldV s d (g != 0) fun old =>
    let w := etyWidth t
    let r := mapLanes w (s.guard g) old fun _ => bare (x.toNat % 2 ^ w)
    retireV s [] d r.1 r.2 2
/-- A scalar taken from a lane: sign-extended for an integer type, zero-extended for a floating one (R143, R144). -/
def laneWord (t : ETy) (x : Nat) : Word :=
  if (etyFloats t).isSome then BitVec.ofNat 64 x else BitVec.ofInt 64 (sgn (etyWidth t) x)
def execVextr (t : ETy) (d a b : Reg) (s : State) : Out :=
  exV s a fun x => exS s b fun y =>
    let w := etyWidth t
    dstS s d (retireLater (s.popV [a]) d (laneWord t (laneAt w x (y.toNat % laneCount w))) 2)
def execVins (t : ETy) (d a b : Reg) (s : State) : Out :=
  exS2 s a b fun x y => oldV s d true fun old =>
    let w := etyWidth t
    let k := y.toNat % laneCount w
    let r := (List.range (laneCount w)).map fun i => if i = k then x.toNat % 2 ^ w else laneAt w old i
    retireV s [] d (ofLanes w r) VFlags.none 2
def execVperm (t : ETy) (g : GReg) (d a b : Reg) (s : State) : Out :=
  exV s a fun x => exV s b fun y => oldV s d (g != 0) fun old =>
    let w := etyWidth t
    let r := mapLanes w (s.guard g) old fun i => bare (laneAt w x (laneAt w y i % laneCount w))
    retireV s [a, b] d r.1 r.2 4
def execVrot (t : ETy) (g : GReg) (d a b : Reg) (s : State) : Out :=
  exV s a fun x => exS s b fun y => oldV s d (g != 0) fun old =>
    let w := etyWidth t
    let r := mapLanes w (s.guard g) old fun i => bare (laneAt w x ((i + y.toNat) % laneCount w))
    retireV s [a] d r.1 r.2 4

-- VRED (R144, R145, R95-R97)

/-- One level of the pairwise tree over lanes that may be absent (R95); the lower index is the left operand. -/
def treeLevel (f : Nat → Nat → Nat × VFlags) : List (Option Nat) → List (Option Nat) × VFlags
  | x :: y :: xs =>
    let r := treeLevel f xs
    match x, y with
    | some p, some q => let z := f p q; (some z.1 :: r.1, z.2.or r.2)
    | some p, none => (some p :: r.1, r.2)
    | none, q => (q :: r.1, r.2)
  | xs => (xs, VFlags.none)
/-- The tree; the fuel is the number of levels. -/
def treeFold (f : Nat → Nat → Nat × VFlags) : Nat → List (Option Nat) → Option Nat × VFlags
  | 0, xs => ((xs.head?).join, VFlags.none)
  | n + 1, xs =>
    let r := treeLevel f xs
    let q := treeFold f n r.1
    (q.1, r.2.or q.2)

/-- The element operations of reductions (R80, R95). -/
def laneAdd (t : ETy) (x y : Nat) : Nat × VFlags :=
  match etyFloats t with
  | some f => flagged (f.add .rne x y)
  | none => bare ((x + y) % 2 ^ etyWidth t)
def laneMax (t : ETy) (x y : Nat) : Nat × VFlags :=
  match etyFloats t with
  | some f => bare (f.maxB x y)
  | none => bare (if sgn (etyWidth t) x < sgn (etyWidth t) y then y else x)
def laneMin (t : ETy) (x y : Nat) : Nat × VFlags :=
  match etyFloats t with
  | some f => bare (f.minB x y)
  | none => bare (if sgn (etyWidth t) y < sgn (etyWidth t) x then y else x)

/-- A NaN is taken as the canonical one, so that no payload reaches a result that it is combined into alone (R78). -/
def canonNan (f : Fmt) (x : Nat) : Nat := if f.isNan x then f.nanBits else x
def canonLane (t : ETy) (x : Nat) : Nat :=
  match etyFloats t with
  | some f => canonNan f x
  | none => x

/-- The lanes of a register that a guard leaves present. -/
def presentLanes (t : ETy) (g : Guard) (x : Vec) : List (Option Nat) :=
  (List.range (laneCount (etyWidth t))).map fun i => if active g i then some (canonLane t (laneAt (etyWidth t) x i)) else none

/-- A reduction to a scalar, with its result when every lane is absent. -/
def vred (s : State) (t : ETy) (g : GReg) (d a : Reg) (pre : Nat → Nat) (f : Nat → Nat → Nat × VFlags) (none' : Nat) : Out :=
  exV s a fun x =>
    let r := treeFold f 7 ((presentLanes t (s.guard g) x).map (Option.map pre))
    dstS s d (retireLater ((s.popV [a]).modThr fun th => th.flagV r.2) d (laneWord t (r.1.getD none')) 8)

/-- The results of R95 when every lane is absent. -/
def emptyMax (t : ETy) : Nat := match etyFloats t with | some f => f.infBits true | none => 2 ^ (etyWidth t - 1)
def emptyMin (t : ETy) : Nat := match etyFloats t with | some f => f.infBits false | none => 2 ^ (etyWidth t - 1) - 1

def execVredAdd (t : ETy) (g : GReg) (d a : Reg) (s : State) : Out := vred s t g d a id (laneAdd t) 0
def execVredMax (t : ETy) (g : GReg) (d a : Reg) (s : State) : Out := vred s t g d a id (laneMax t) (emptyMax t)
def execVredMin (t : ETy) (g : GReg) (d a : Reg) (s : State) : Out := vred s t g d a id (laneMin t) (emptyMin t)
def execVamax (t : FTy) (g : GReg) (d a : Reg) (s : State) : Out :=
  vred s (ftyEty t) g d a (fun x => (ftyFmt t).withSign x false) (laneMax (ftyEty t)) 0

/-- The running sum over the present lanes (R96): the result at each lane, and the flags. -/
def scanSum (f : Nat → Nat → Nat × VFlags) : Option Nat → List (Option Nat) → List (Option Nat) × VFlags
  | _, [] => ([], VFlags.none)
  | acc, none :: xs => let r := scanSum f acc xs; (none :: r.1, r.2)
  | none, some x :: xs => let r := scanSum f (some x) xs; (some x :: r.1, r.2)
  | some p, some x :: xs =>
    let z := f p x
    let r := scanSum f (some z.1) xs
    (some z.1 :: r.1, z.2.or r.2)

/-- Results where present, the old lanes elsewhere. -/
def mergeLanes (w : Nat) (old : Vec) (xs : List (Option Nat)) : Vec :=
  ofLanes w (((List.range (laneCount w)).zip xs).map fun p => p.2.getD (laneAt w old p.1))

def execVscanAdd (t : ETy) (g : GReg) (d a : Reg) (s : State) : Out :=
  exV s a fun x => oldV s d (g != 0) fun old =>
    let w := etyWidth t
    let r := scanSum (laneAdd t) none (presentLanes t (s.guard g) x)
    retireV s [a] d (mergeLanes w old r.1) r.2 12

/-- One composition of R97: the earlier (PA, PB) with the element (A, B). -/
def affine (p : Nat × Nat) (a b : Nat) : (Nat × Nat) × VFlags :=
  let x := f32.mul .rne a p.1
  let y := f32.fma a p.2 b
  ((x.1, y.1), (VFlags.ofIeee x.2).or (VFlags.ofIeee y.2))

/-- A half of an element of R145, a NaN as the canonical one (R78). -/
def affLane (x : Vec) (i : Nat) : Nat := canonNan f32 (laneAt 32 x i)

/-- The scan of R145 over elements e and up: lanes of results, absent elements left out. -/
def scanAff (g : Guard) (x : Vec) : Nat → Nat → Nat × Nat → List (Option Nat) × VFlags
  | 0, _, _ => ([], VFlags.none)
  | n + 1, e, p =>
    if active g e then
      let r := affine p (affLane x (2 * e)) (affLane x (2 * e + 1))
      let q := scanAff g x n (e + 1) r.1
      (some r.1.1 :: some r.1.2 :: q.1, r.2.or q.2)
    else
      let q := scanAff g x n (e + 1) p
      (none :: none :: q.1, q.2)

/-- The identity (1, 0) as f32 patterns; composing with it changes nothing and sets no flag (R145), so the first element
stands as it is. -/
def scanAffFrom (g : Guard) (x : Vec) : Nat → Nat → List (Option Nat) × VFlags
  | 0, _ => ([], VFlags.none)
  | n + 1, e =>
    if active g e then
      let a := affLane x (2 * e)
      let b := affLane x (2 * e + 1)
      let q := scanAff g x n (e + 1) (a, b)
      (some a :: some b :: q.1, q.2)
    else
      let q := scanAffFrom g x n (e + 1)
      (none :: none :: q.1, q.2)

def execVscanAff (g : GReg) (d a : Reg) (s : State) : Out :=
  exV s a fun x => oldV s d (g != 0) fun old =>
    let r := scanAffFrom (s.guard g) x 16 0
    retireV s [a] d (mergeLanes 32 old r.1) r.2 12

-- VCVT (R146-R148)

/-- The wide type of a narrow one: source width, and the widening of a lane (R146). -/
def ntyWidth : NTy → Nat
  | .bf16 | .f16 | .i16 => 16
  | .i8 => 8
def widenLane (t : NTy) (x : Nat) : Nat :=
  match t with
  | .bf16 => f32Bits (bf16.unpack x)
  | .f16 => f32Bits (f16.unpack x)
  | .i16 => wrapTo 32 (sgn 16 x)
  | .i8 => wrapTo 16 (sgn 8 x)
def narrowLane (t : NTy) (x : Nat) : Nat × VFlags :=
  match t with
  | .bf16 => flagged (cvtFloat bf16 .rne false (f32.unpack x))
  | .f16 => flagged (cvtFloat f16 .rne false (f32.unpack x))
  | .i16 => bare (x % 2 ^ 16)
  | .i8 => bare (x % 2 ^ 8)

def execVwid (t : NTy) (g : GReg) (d a : Reg) (s : State) : Out :=
  exV s a fun x => oldV s d (g != 0) fun old =>
    let w := ntyWidth t
    let r := mapLanes (2 * w) (s.guard g) old fun i => bare (widenLane t (laneAt w x i))
    retireV s [a] d r.1 r.2 4
def execVnar (t : NTy) (g : GReg) (d a b : Reg) (s : State) : Out :=
  exV s a fun x => exV s b fun y => oldV s d (g != 0) fun old =>
    let w := ntyWidth t
    let h := laneCount w / 2
    let r := mapLanes w (s.guard g) old fun i =>
      narrowLane t (if i < h then laneAt (2 * w) x i else laneAt (2 * w) y (i - h))
    retireV s [a, b] d r.1 r.2 4

/-- The scaled lane of `vscl` (R146). -/
def sclLane (t : STy) (k : Int) (x : Nat) : Nat × VFlags :=
  match t with
  | .f32 => flagged (f32.finish .rne (scaleV k (f32.unpack x)))
  | .bf16 => flagged (bf16.finish .rne (scaleV k (bf16.unpack x)))
  | .f16 => flagged (f16.finish .rne (scaleV k (f16.unpack x)))
  | .i32 =>
    let v : FVal := match f32.unpack x with
      | .fin n m e => .fin n m (e + k)
      | v => v
    let r := toIntRange .rne false (-(2 ^ 31)) (2 ^ 31 - 1) v
    flagged (wrapTo 32 r.1, r.2)
def styWidth : STy → Nat
  | .f32 | .i32 => 32
  | .bf16 | .f16 => 16
def execVscl (t : STy) (g : GReg) (d a b : Reg) (s : State) : Out :=
  exV s a fun x => exS s b fun y => oldV s d (g != 0) fun old =>
    let w := styWidth t
    let k := sgn 8 (y.toNat % 256)
    let r := mapLanes w (s.guard g) old fun i => sclLane t k (laneAt w x i)
    retireV s [a] d r.1 r.2 4

/-- The element width of a block format, the container width, and the half of the register it fills (R86, R147). -/
def selBits : BlkSel → Nat
  | .sx7 => 7
  | .sx4 => 4
  | .sx2l | .sx2h => 2
def selContainer : BlkSel → Nat
  | .sx7 | .sx4 => 8
  | .sx2l | .sx2h => 4
def selBase : BlkSel → Nat
  | .sx2h => 512
  | _ => 0
def selHalf : BlkSel → Bool
  | .sx2l | .sx2h => true
  | _ => false

/-- Register r + k of a group. -/
def regPlus (r : Reg) (k : Nat) : Reg := Fin.ofNat 32 (r.val + k)

/-- The container of an element: its sign at the container's top bit, its magnitude in the low bits (R86). -/
def containerOf (c : Nat) (x : Bool × Nat) : Nat := (if x.1 then 2 ^ (c - 1) else 0) + x.2
/-- The number of a list of containers. -/
def containersNat (c : Nat) (xs : List (Bool × Nat)) : Nat := lanesNat c (xs.map (containerOf c))

/-- Encode the eight blocks of a conversion group (R147). -/
def encodeGroup (b : Nat) (xs : List FVal) : List (Blk × VFlags) :=
  (List.range 8).map fun k => blockEncode b ((xs.drop (16 * k)).take 16)

/-- Several destinations of one multi-clock result. -/
def dstsS (s : State) : List Reg → Out → Out
  | [], k => k
  | r :: rs, k => dstS s r (dstsS s rs k)
def dstsV (s : State) : List Reg → Out → Out
  | [], k => k
  | r :: rs, k => dstV s r (dstsV s rs k)

def execVq (t : BlkSel) (g : GReg) (d a b : Reg) (s : State) : Out :=
  exV s a fun x0 => exV s (regPlus a 1) fun x1 => exV s (regPlus a 2) fun x2 => exV s (regPlus a 3) fun x3 =>
  oldV s d (selHalf t) fun old =>
    let gd := s.guard g
    let xs := (List.range 128).map fun e =>
      if active gd e then f32.unpack (laneAt 32 (if e < 32 then x0 else if e < 64 then x1 else if e < 96 then x2 else x3) (e % 32))
      else FVal.fin false 0 0
    let blks := encodeGroup (selBits t) xs
    let c := selContainer t
    let img := containersNat c (blks.flatMap fun p => p.1.elems)
    let keep := if selHalf t then (if selBase t = 0 then old.toNat / 2 ^ 512 * 2 ^ 512 else old.toNat % 2 ^ 512) else 0
    let v : Vec := BitVec.ofNat 1024 (keep + img * 2 ^ selBase t)
    let scales := BitVec.ofNat 64 (lanesNat 8 (blks.map fun p => p.1.e))
    let shifts := BitVec.ofNat 64 (lanesNat 8 (blks.map fun p => shiftByte p.1.sigma))
    let fl := gather blks
    dstV s d (dstsS s [b, regPlus b 1] (
      let s := s.modThr fun th => th.flagV fl
      let s := s.putLater ((if b = 0 then [] else [.s b scales]) ++ [.s (regPlus b 1) shifts]) 16
      retire (s.putV d v 16) (wideWords v ++ [scales, shifts])))

def execVdq (t : BlkSel) (g : GReg) (d a b : Reg) (s : State) : Out :=
  exV s a fun x => exS2 s b (regPlus b 1) fun sc sh =>
  oldV s d (g != 0) fun o0 => oldV s (regPlus d 1) (g != 0) fun o1 => oldV s (regPlus d 2) (g != 0) fun o2 =>
  oldV s (regPlus d 3) (g != 0) fun o3 =>
    let gd := s.guard g
    let c := selContainer t
    let bits := selBits t
    let img := x.toNat / 2 ^ selBase t
    let blk (k : Nat) : Blk := ⟨sc.toNat / 2 ^ (8 * k) % 256, shiftsOf (sh.toNat / 2 ^ (8 * k) % 256),
      (List.range 16).map fun j =>
        let y := img / 2 ^ (c * (16 * k + j)) % 2 ^ c
        (decide (y / 2 ^ (c - 1) = 1), y % 2 ^ bits)⟩
    let vals := (List.range 8).flatMap fun k => blockValues bits (blk k)
    let snf := (List.range 128).any fun e => active gd e && sc.toNat / 2 ^ (8 * (e / 16)) % 256 = 0xFF
    let out (k : Nat) (old : Vec) : Vec := ofLanes 32 ((List.range 32).map fun i =>
      if active gd (32 * k + i) then f32Bits (vals.getD (32 * k + i) .nan) else laneAt 32 old i)
    let ws : List RegWrite := [.v d (out 0 o0), .v (regPlus d 1) (out 1 o1), .v (regPlus d 2) (out 2 o2), .v (regPlus d 3) (out 3 o3)]
    dstsV s [d, regPlus d 1, regPlus d 2, regPlus d 3]
      (retire (((s.popV [a]).modThr fun th => th.flagV { VFlags.none with snf := snf }).putLater ws 16) ((List.range 4).flatMap fun k => wideWords (out k ([o0, o1, o2, o3].getD k 0))))

-- VMEM (R149-R152)

/-- The active lanes of an access with their addresses. -/
def laneAddrs (w : Nat) (g : Guard) (f : Nat → Word) : List (Nat × Word) :=
  ((List.range (laneCount w)).filter (active g)).map fun i => (i, f i)

/-- The checks of R49 and R50 over the active lanes, lane by lane (R150), and then those of R380: the first lane that fails decides. -/
def checkLanes (s : State) (n : Nat) (load : Bool) (as : List (Nat × Word)) (k : Out) : Out :=
  let priv (a : Word) : Bool := regionOf a = 3 && !s.thr.sv
  match as.find? fun p => priv p.2 || decide (p.2.toNat % n ≠ 0) with
  | some p => trap s (if priv p.2 then .priv else .misalign) p.2
  | none => match as.find? fun p => s.tile.watched p.2 n load (!load) with
    | some p => trap s .watch p.2
    | none => k

/-- The fretboard checks over the active lanes (R150). -/
def checkFretLanes (s : State) (n : Nat) (write : Bool) (as : List (Nat × Word)) (k : Out) : Out :=
  let rs := as.flatMap fun p => s.ownBytes p.2 n
  if s.fretHolds s.curTile rs write then park s (.fretboard rs write) else k

/-- A vector load: one pending fill until every active lane has returned (R150), after some clocks when it is a local `vld` or
`vldb` (R136); into a write-bound register the element is
appended at retirement and completed by the load. With no active lane nothing is appended: the load retires without any access (R150),
though R154 has every write of the register append (DESIGN CHOICE, log 70). -/
def vload (s : State) (w : Nat) (g : GReg) (srcs : List Reg) (d : Reg) (clocks : Option Nat) (f : Nat → Word) : Out :=
  let as := laneAddrs w (s.guard g) f
  oldV s d (g != 0) fun _ => dstV s d (checkLanes s (w / 8) true as (checkFretLanes s (w / 8) false as (
    if as.isEmpty then retire (s.popV srcs) []
    else needCnt s .ld (
      let due := clocks.bind (s.localDue (as.map (·.2)))
      let bound := (s.thr.bindOf d).kind != .unbound
      let s := s.popV srcs
      let id := s.freshId
      let s := s.issueLoad (.vector d w as bound) due
      let s := match bound, streamOf d with
        | true, some q => s.appendV q 0 (some id)
        | _, _ => s.modThr fun th => th.pendV d
      retire s (as.map (·.2))))))

/-- Lanes of one access that lie in one 64-byte granule and follow each other form one piece; the lanes stay in ascending
order (R150, R255). -/
def joinPieces : List (Word × List Byte) → List (Word × List Byte)
  | [] => []
  | (a, bs) :: rest =>
    match joinPieces rest with
    | (a', bs') :: rest' =>
      if a + BitVec.ofNat 64 bs.length = a' ∧ granuleOf a = granuleOf a' then (a, bs ++ bs') :: rest' else (a, bs) :: (a', bs') :: rest'
    | [] => [(a, bs)]

/-- A vector store (R150): lanes are written in ascending order. -/
def vstore (s : State) (w : Nat) (g : GReg) (srcs : List Reg) (v : Vec) (f : Nat → Word) : Out :=
  let as := laneAddrs w (s.guard g) f
  checkLanes s (w / 8) false as (checkFretLanes s (w / 8) true as (
    if as.isEmpty then retire (s.popV srcs) []
    else needCnt s .st (
      let pieces := joinPieces (as.map fun p => (p.2, leBytes (laneAt w v p.1) (w / 8)))
      retire ((s.popV srcs).issueStore .plain false [] (w / 8) pieces) (as.flatMap fun p => [p.2, BitVec.ofNat 64 (laneAt w v p.1)]))))

def execVld (t : ETy) (g : GReg) (d a : Reg) (s : State) : Out :=
  exS s a fun x => let w := etyWidth t; vload s w g [] d (some 8) fun i => x + BitVec.ofNat 64 (i * (w / 8))
def execVst (t : ETy) (g : GReg) (d a : Reg) (s : State) : Out :=
  exS s a fun x => exV s d fun v => let w := etyWidth t; vstore s w g [d] v fun i => x + BitVec.ofNat 64 (i * (w / 8))
def execVgat (_t : WTy) (g : GReg) (d a b : Reg) (s : State) : Out :=
  exS s a fun x => exV s b fun y => vload s 32 g [b] d none fun i => x + BitVec.ofNat 64 (laneAt 32 y i)
def execVsct (_t : WTy) (g : GReg) (d a b : Reg) (s : State) : Out :=
  exS s a fun x => exV s b fun y => exV s d fun v => vstore s 32 g [b, d] v fun i => x + BitVec.ofNat 64 (laneAt 32 y i)
def execVldb (t : ETy) (g : GReg) (d a : Reg) (s : State) : Out :=
  exS s a fun x => vload s (etyWidth t) g [] d (some 6) fun _ => x

-- GMASK (R153)

def execGand (d a b : GReg) (s : State) : Out := retireG s [] d (s.guard a &&& s.guard b)
def execGor (d a b : GReg) (s : State) : Out := retireG s [] d (s.guard a ||| s.guard b)
def execGxor (d a b : GReg) (s : State) : Out := retireG s [] d (s.guard a ^^^ s.guard b)
def execGnot (d a : GReg) (s : State) : Out := retireG s [] d (~~~(s.guard a))
def execGpop (d : Reg) (a : GReg) (s : State) : Out :=
  retireS s d (BitVec.ofNat 64 ((List.range 128).filter fun i => (s.guard a).getLsbD i).length)
def execGfirst (d : Reg) (a : GReg) (s : State) : Out :=
  retireS s d (BitVec.ofNat 64 (((List.range 128).find? fun i => (s.guard a).getLsbD i).getD 128))
def execGmov (d : Reg) (a : GReg) (h : Bool) (s : State) : Out :=
  retireS s d (if h then (s.guard a >>> 64).setWidth 64 else (s.guard a).setWidth 64)
def execGset (d : GReg) (a b : Reg) (s : State) : Out := exS2 s a b fun x y => retireG s [] d (y ++ x)

end Sys2Proof.Machine
end

