-- ==== Sys2Proof/Machine/Stream.lean ====
section
/-! DEFINITION. Binding, unbinding and reading the stream registers: STRM (R155-R161). -/

namespace Sys2Proof.Machine

/-- The binding instructions examine their scalar sources and not the stream register; an outstanding fill of it parks, and a
bound one is misuse (R155, R161, R35). -/
def canBind (s : State) (d : StreamReg) (k : Out) : Out :=
  if (s.thr.binds[d]).kind ≠ .unbound then engineError s (regWord (streamReg d))
  else if (s.thr.getV (streamReg d)).pend then park s (.fillPending (.v (streamReg d)))
  else k

/-- Bind a stream register. -/
def State.setBind (s : State) (d : StreamReg) (b : Bind) : State := s.modThr fun th => { th with binds := th.binds.set d b }

/-- The binding of a memory stream by an instruction of a pid (R156): its carrier request is still to come. The elements that a read stream
has room for take the place `id` in the order of retirement. -/
def memBind (base stride ctl : Word) (pos : Nat) (pid : BitVec 16) (id : Nat) : Bind :=
  ⟨if ctl.getLsbD 32 then .memWrite else .memRead, base, stride, ctl, pos, pos, false, [], 0, 0, 0, none, pid,
    if ctl.getLsbD 32 then [] else List.replicate (min bufRoom (ctl.toNat % 2 ^ 32 - pos)) id⟩

/-- The operand checks of `sbind.mem` (R156), in order: the trap they raise. -/
def memBindFault (base stride ctl : Word) : Option (Cause × Word) :=
  if ctl.toNat / 2 ^ 33 ≠ 0 then some (.engineError, ctl)
  else if regionOf base = 3 then some (.engineError, base)
  else if base.toNat % 4 ≠ 0 ∨ stride.toNat % 4 ≠ 0 then some (.misalign, base)
  else none

def execSbindMem (d : StreamReg) (a b c : Reg) (s : State) : Out :=
  exS3 s a b c fun base stride ctl => canBind s d (
    match memBindFault base stride ctl with
    | some (cause, tval) => trap s cause tval
    | none => needEyelet s (retire ((s.submit (.bind d) false 0 none).setBind d (memBind base stride ctl 0 s.tile.pid s.freshId)) [base]))

/-- The operand check of `sbind.ch` (R158). A channel with pending receives may be bound: they wait, and match again once it is unbound
(DESIGN CHOICE, log 66). -/
def Tile.chanBindOk (x : Tile) (w : Word) : Bool :=
  decide (w.toNat / 8 = 0) && decide (w ≠ 0) && (x.channels[(Fin.ofNat 8 w.toNat : Fin 8)]).bound.isNone
/-- Bind a channel (R158). -/
def State.bindChan (s : State) (d : StreamReg) (w : Word) (pos : Nat) : State :=
  let c : Fin 8 := Fin.ofNat 8 w.toNat
  let k := s.curSlot
  let s := s.setBind d ⟨.chan, w, 0, 0, pos, pos, true, [], 0, 0, 0, none, 0, []⟩
  s.modCur fun x => ({ x with channels := x.channels.set c { x.channels[c] with bound := some (k, d) } } : Tile).deliver c

def execSbindCh (d : StreamReg) (a : Reg) (s : State) : Out :=
  exS s a fun w => canBind s d (if s.tile.chanBindOk w then retire (s.bindChan d w 0) [w] else engineError s w)

/-- The number of packages of a tile's gang (R395). -/
def State.gangPkgs (s : State) (t : TileId) : Nat :=
  match (s.tileAt t).gang with
  | none => 1
  | some g => match s.gangs.find? fun x => x.id = g with
    | some x => x.npk
    | none => 1

/-- The operand check of `sbind.out` (R159). -/
def State.outBindOk (s : State) (t : TileId) (a b : Word) : Bool :=
  decide (regionOf a = 1) && a &&& 0x3FFFF800FFFFFFF8#64 == 0 && a &&& 7 != 0 &&
    decide (dieOf (a.toNat / 2 ^ 32 % 2 ^ 11) < Config.dies) && decide (b.toNat / 2 ^ 17 = 0) &&
    (!b.getLsbD 16 || decide (b.toNat % 2 ^ 16 < s.gangPkgs t))
/-- The binding of an outbound stream. -/
def outBind (a b : Word) (pos : Nat) : Bind := ⟨.out, a, b, 0, pos, pos, true, [], 0, 0, 0, none, 0, []⟩

def execSbindOut (d : StreamReg) (a b : Reg) (s : State) : Out :=
  exS2 s a b fun x y => canBind s d
    (if s.outBindOk s.curTile x y then retire (s.setBind d (outBind x y 0)) [x] else engineError s x)

/-- Whether every appended element of a write-bound register has completed or been acknowledged (R160). -/
def Bind.drained (b : Bind) : Bool := !b.kind.writes || b.buf.isEmpty

/-- Release a binding (R160): the register is left empty and unbound; a channel's entries stay in the channel for receives, those of
elements that were formed and not popped among them (DESIGN CHOICE, log 66). -/
def Tile.unbind (x : Tile) (k : Slot) (d : StreamReg) : Tile :=
  let b : Bind := (x.slots[k]).binds[d]
  let c : Fin 8 := Fin.ofNat 8 b.base.toNat
  let x := x.modThr k fun th =>
    { th with binds := th.binds.set d Bind.reset, v := th.v.set (streamReg d) { th.getV (streamReg d) with full := false, poison := false } }
  match b.kind with
  | .chan => ({ x with channels := x.channels.set c { x.channels[c] with bound := none, formed := 0 } } : Tile).deliver c
  | _ => x

def execSunbind (d : StreamReg) (s : State) : Out :=
  let b := s.thr.binds[d]
  if b.kind = .unbound then retire s []
  else if b.drained then
    let k := s.curSlot
    retire (s.modCur fun x => x.unbind k d) []
  else park s (.streamDrain d)

/-- The code of a KIND (R160). -/
def kindCode : BindKind → Nat
  | .unbound => 0
  | .memRead => 1
  | .memWrite => 2
  | .chan => 3
  | .out => 4

/-- The status word of a stream register (R160). -/
def Tile.streamStatus (x : Tile) (b : Bind) : Word :=
  let c : Fin 8 := Fin.ofNat 8 b.base.toNat
  let left := if b.kind.isMem then b.count - b.pos else 0
  let buf := if b.kind = .chan then x.gathered c else b.buf.length
  let head := match b.kind with
    | .memRead => !b.buf.isEmpty
    | .chan => (x.chanHead c).isSome
    | _ => false
  BitVec.ofNat 64 (left * 2 ^ 32 + buf * 16 + (if head then 8 else 0) + kindCode b.kind)

def execSstat (d : Reg) (a : StreamReg) (s : State) : Out := retireS s d (s.tile.streamStatus (s.thr.binds[a]))

end Sys2Proof.Machine
end

