-- ==== Sys2Proof/Machine/Sync.lean ====
section
/-! DEFINITION. Register full/empty, monitors, barriers, the task queue, exit, yield and the slot timer
(spec/09_sync_instructions.md, R186-R201). -/

namespace Sys2Proof.Machine

-- FE (R186, R187)

/-- `fef` and `fee` on a register: misuse of a bound one, a pending fill, else the change (R187). -/
def feReg (c : RegClass) (d : Reg) (s : State) (fs : SReg → SReg) (fv : VReg → VReg) : Out :=
  match c with
  | .scalar =>
    if d = 0 then retire s []
    else if (s.thr.getS d).pend then park s (.fillPending (.s d))
    else retire (s.modThr fun th => { th with s := th.s.set d (fs (th.getS d)) }) []
  | .vector =>
    if (s.thr.bindOf d).kind ≠ .unbound then engineError s (regWord d)
    else if (s.thr.getV d).pend then park s (.fillPending (.v d))
    else retire (s.modThr fun th => { th with v := th.v.set d (fv (th.getV d)) }) []

def execFef (c : RegClass) (d : Reg) (s : State) : Out :=
  feReg c d s (fun r => { r with full := true }) (fun r => { r with full := true })
def execFee (c : RegClass) (d : Reg) (s : State) : Out :=
  feReg c d s (fun r => { r with full := false, poison := false }) (fun r => { r with full := false, poison := false })

/-- The status word of `feq` (R186). -/
def feqWord (full pend poison bound : Bool) : Word :=
  BitVec.ofNat 64 ((if full then 1 else 0) + (if pend then 2 else 0) + (if poison then 4 else 0) + (if bound then 8 else 0))

/-- The status of a vector register: of a bound one, that of its stream (R154, R156, R186). Of a write-bound one R186 gives no more than
bit 3; the other bits are 0 here (DESIGN CHOICE, log 70). -/
def Tile.feqV (x : Tile) (th : Thread) (a : Reg) : Word :=
  let b := th.bindOf a
  match b.kind with
  | .unbound => let r := th.getV a; feqWord r.full r.pend r.poison false
  | .memRead => feqWord (!b.buf.isEmpty) false (match b.buf with | e :: _ => e.poison | [] => false) true
  | .chan => feqWord (x.chanHead (Fin.ofNat 8 b.base.toNat)).isSome false false true
  | .memWrite | .out => feqWord false false false true

def execFeqReg (c : RegClass) (d a : Reg) (s : State) : Out :=
  match c with
  | .scalar => let r := s.thr.getS a; retireS s d (feqWord r.full r.pend r.poison false)
  | .vector => retireS s d (s.tile.feqV s.thr a)

-- MON (R188-R191)

/-- Disarm an entry; a notice on its way to it is void (R189). -/
def State.disarm (s : State) (t : TileId) (k : Slot) (e : Fin 4) : State :=
  let s : State := { s with notices := s.notices.filter fun n => n ≠ (t, k, e) }
  s.modThrAt t k fun th => { th with monitors := th.monitors.set e { th.monitors[e] with valid := false } }

/-- Whether an address is a fatal not-present one before any request is sent (R51, R213, R261). So is, for `marm` and `wadr`, any word of
device space, to which the spec gives no home that could watch it (DESIGN CHOICE, log 70). -/
def State.noPlace (s : State) (a : Word) : Bool :=
  match s.place s.curTile a with
  | .absent | .device _ => true
  | _ => false

/-- `marm` (R189): the entry is armed when the registration reaches the home. -/
def execMarm (a : Reg) (e : Fin 4) (s : State) : Out :=
  exS s a fun x =>
    if regionOf x = 3 ∧ s.thr.sv = false then trap s .priv x
    else if s.noPlace x then engineError (s.disarm s.curTile s.curSlot e) x
    else ask s (.marm e) 0 x

def execMdis (m : BitVec 4) (s : State) : Out :=
  retire (entries4.foldl (fun s e => if m.getLsbD e.val then s.disarm s.curTile s.curSlot e else s) s) []

/-- The W bits of the valid entries. -/
def Thread.wBits (th : Thread) : Nat :=
  (entries4.map fun e => if (th.monitors[e]).valid && (th.monitors[e]).w then 2 ^ e.val else 0).sum

/-- The result of an `mslp` that slept (R190). -/
def Thread.mslpResult (th : Thread) (cycle : Word) (trapped : Bool) : Word :=
  let timed : Bool := match th.sleep with
    | some sl => (match sl.deadline with | some d => decide (d ≤ cycle.toNat) | none => false)
    | none => false
  BitVec.ofNat 64 (th.wBits + (if timed then 256 else 0) + (if trapped then 1024 else 0))

/-- `mslp` (R172, R190): first issue, and the issue after the sleep. -/
def execMslp (d a : Reg) (s : State) : Out :=
  exS s a fun x => dstS s d (
    let th := s.thr
    match th.sleep with
    | some _ =>
      let w := th.mslpResult s.tile.cycle false
      retireS (s.modThr fun th => { th with sleep := none }) d w
    | none =>
      if th.wBits ≠ 0 then retireS s d (BitVec.ofNat 64 th.wBits)
      else if x = 0 ∧ (entries4.all fun e => !(th.monitors[e]).valid) = true then retireS s d 0x200
      else
        let deadline : Option Nat := if x = 0 then none else some (s.tile.cycle.toNat + x.toNat)
        .next (s.modThr fun th => { th with sleep := some ⟨d, deadline⟩, run := .sleeping }))

/-- `wadr` (R191): a watch at the word's home. One that issues again after a trap has withdrawn its watch starts its timeout afresh (DESIGN
CHOICE, log 70). -/
def execWadr (d a b c : Reg) (s : State) : Out :=
  exS3 s a b c fun x v w => dstS s d (
    let z : Size := if w.getLsbD 63 then .w32 else .w64
    let n := sizeBytes z
    let t := w.toNat % 2 ^ 63
    if regionOf x = 3 ∧ s.thr.sv = false then trap s .priv x
    else if x.toNat % n ≠ 0 then trap s .misalign x
    else
      let deadline : Option Nat := if t = 0 then none else some (s.tile.cycle.toNat + t)
      park (s.sendReq (.wadr z (BitVec.ofNat 64 (v.toNat % 2 ^ (8 * n))) deadline) d x) .wadr)

-- BAR (R174-R176, R192, R193)

def execBarReg (a : Reg) (s : State) : Out :=
  exS s a fun x =>
    let k := s.curSlot
    if x.toNat / 4 ≠ 0 then engineError s x
    else if x.getLsbD 1 then retire (s.modCur fun t => { t with barrier := t.barrier.leave k }) []
    else retire (s.modCur fun t => { t with barrier := { t.barrier with reg := t.barrier.reg ||| slotBit k, out := x.getLsbD 0 } }) []

/-- An arrival (R174): it needs registration; a second one in a generation parks. -/
def arrive (s : State) (k : Out) : Out :=
  let b := s.tile.barrier
  if b.reg &&& slotBit s.curSlot = 0 then engineError s (BitVec.ofNat 64 s.curSlot.val)
  else if b.arr &&& slotBit s.curSlot ≠ 0 then park s (.barrier b.gen)
  else k
/-- What an arrival publishes: with OUT = 1 all that happens before it; with OUT = 0 it is no release, and only what is acknowledged at tile
scope by then counts (R259). -/
def State.arrivalPast (s : State) : Past :=
  (s.pastOf s.curTile s.curSlot).filter fun q => s.tile.barrier.out || s.pastAcked .tile [q]
/-- Set the caller's ARR bit. -/
def State.setArrived (s : State) : State :=
  let k := s.curSlot
  let ps := s.arrivalPast
  (s.modCur fun t => { t with barrier := { t.barrier with arr := t.barrier.arr ||| slotBit k, past := t.barrier.past ++ ps } }).modThr fun th =>
    { th with barSeq := th.seq }

/-- The wait that an earlier issue of this instruction began. -/
def Thread.barWaiting (th : Thread) : Option BarWait :=
  match th.barWait with
  | some w => if w.pc = th.pc then some w else none
  | none => none
/-- Begin to wait for the current generation. -/
def beginWait (s : State) (arrived : Option Reg) : Out :=
  let g := s.tile.barrier.gen
  park (s.modThr fun th => { th with barWait := some ⟨th.pc, g, arrived⟩ }) (.barrier g)

def execBarArr (d : Reg) (s : State) : Out :=
  dstS s d (arrive s (retireS s.setArrived d (s.tile.barrier.gen.setWidth 64)))
/-- One that issues again while the generation that it waits for is the current one parks again, though no slot be registered by now (DESIGN
CHOICE, log 16). -/
def execBarWait (s : State) : Out :=
  match s.thr.barWaiting with
  | some w =>
    if w.gen = s.tile.barrier.gen then park s (.barrier w.gen)
    else retire (s.modThr fun th => { th with barWait := none }) []
  | none => if s.tile.barrier.reg = 0 then retire s [] else beginWait s none
def execBarArw (d : Reg) (s : State) : Out :=
  dstS s d (
    match s.thr.barWaiting with
    | some w =>
      if w.gen = s.tile.barrier.gen then park s (.barrier w.gen)
      else retireS (s.modThr fun th => { th with barWait := none }) d (w.gen.setWidth 64)
    | none => arrive s (beginWait s.setArrived (some d)))

-- TASK (R194-R201)

/-- The handle that is never queued (R195). -/
def noHandle : Word := BitVec.allOnes 64

def execTqpush (a : Reg) (s : State) : Out :=
  exS s a fun h =>
    if h = noHandle then engineError s h
    else if queueRoom ≤ s.tile.queue.length then park s .queueFull
    else retire (s.modCur fun x => x.push h) [h]

def execTqpop (d : Reg) (s : State) : Out :=
  dstS s d (match queueHead s.tile.queue with
    | some h => retireS (s.modCur fun x => x.pop h) d h
    | none => park s .queueEmpty)
def execTqpopNb (d : Reg) (s : State) : Out :=
  dstS s d (match queueHead s.tile.queue with
    | some h => retireS (s.modCur fun x => x.pop h) d h
    | none => retireS s d noHandle)
def execTqpeek (d : Reg) (s : State) : Out := retireS s d ((queueHead s.tile.queue).getD noHandle)

/-- The pending receives of a slot. -/
def Tile.recvsOf (x : Tile) (k : Slot) : Nat := (x.channels.toList.map fun c => (c.recvs.filter fun r => r.slot = k).length).sum

/-- The slot's monitors are disarmed and its notices void. -/
def State.disarmAll (s : State) (t : TileId) (k : Slot) : State := entries4.foldl (fun s e => s.disarm t k e) s

/-- Every stream register of a slot is unbound. -/
def Tile.unbindAll (x : Tile) (k : Slot) : Tile :=
  ([0, 1, 2, 3, 4, 5, 6, 7] : List StreamReg).foldl (fun x d => if ((x.slots[k]).binds[d]).kind = .unbound then x else x.unbind k d) x

/-- The slot becomes empty; its place in program order keeps rising. -/
def Tile.emptySlot (x : Tile) (k : Slot) : Tile := x.modThr k fun th => { Thread.reset with seq := th.seq }

/-- Steps 5 and 6 of `texit` (R198). -/
def State.exitThread (s : State) (t : TileId) (k : Slot) : State :=
  (s.disarmAll t k).modTile t fun x =>
    let x := (((x.foldPair k x.slots[k].pc []).unbindAll k).orphan k).emptySlot k
    { x with barrier := x.barrier.leave k }

/-- The first write-bound register that has not drained. -/
def Thread.undrained (th : Thread) : Option StreamReg :=
  ([0, 1, 2, 3, 4, 5, 6, 7] : List StreamReg).find? fun d => !(th.binds[d]).drained

/-- Whether the counters are zero but for the receives that `texit` withdraws. -/
def State.texitClear (s : State) (t : TileId) (k : Slot) : Bool :=
  let th := s.thrAt t k
  decide (th.cntLd ≤ (s.tileAt t).recvsOf k) && decide (th.cntSt = 0) && decide (th.cntCp = 0) && decide (th.cntTl = 0)
/-- Step 2 of `texit`: the receives are withdrawn, and LD falls by one for each. -/
def Tile.giveUpRecvs (x : Tile) (k : Slot) : Tile :=
  let n := x.recvsOf k
  (x.withdrawRecvs k).modThr k fun th => { th with cntLd := th.cntLd - n }

/-- `texit` (R198). Where a step parks or traps, what the earlier ones do is left undone (R28, R29). -/
def execTexit (s : State) : Out :=
  match s.thr.hold with
  | some h => engineError s h.addr
  | none =>
    if !s.texitClear s.curTile s.curSlot then park s .wait
    else reportFault s (match s.thr.undrained with
      | some d => park s (.streamDrain d)
      | none => .next ((s.modCur fun x => x.giveUpRecvs s.curSlot).exitThread s.curTile s.curSlot))

/-- `tyield` (R199): the next clock the thread owns is not its own. -/
def execTyield (s : State) : Out := retire (s.modThr fun th => { th with yielded := true }) []

/-- The new `tmcmp` of `tmset` (R200). -/
def newTmcmp (sv : Bool) (cycle x old : Word) : Word :=
  let t := BitVec.ofNat 64 (min (cycle.toNat + x.toNat) (2 ^ 64 - 1))
  if sv then (if x = 0 then 0 else t)
  else if x ≠ 0 ∧ (old = 0 ∨ t.toNat < old.toNat) then t else old

def execTmset (d a : Reg) (s : State) : Out :=
  exS s a fun x =>
    let old := s.thr.tmcmp
    let c := s.tile.cycle
    let new := newTmcmp s.thr.sv c x old
    dstS s d (retireS (if new = old then s else s.modThr fun th => th.setTmcmp new c) d old)

/-- What a destination word names (R202): the package number with X = 1, the tile and the channel. -/
structure Dest where
  pkg  : Option (BitVec 16)
  tile : TileId
  chan : Fin 8
  deriving DecidableEq, Repr

/-- Read a destination word; none when it breaks R202, the rule on CH aside. Bits [63:62] that are not 01 break its layout, though they are
not in its list of traps: they trap as the others do (DESIGN CHOICE, log 70). -/
def destOf (npk : Nat) (w : Word) : Option Dest :=
  let n := w.toNat
  let pkg := n / 2 ^ 45 % 2 ^ 16
  let x := w.getLsbD 61
  let t := n / 2 ^ 32 % 2 ^ 11
  if regionOf w ≠ 1 ∨ n / 2 ^ 43 % 4 ≠ 0 ∨ n / 8 % 2 ^ 29 ≠ 0 ∨ (x = false ∧ pkg ≠ 0) ∨ pkg ≥ npk ∨ dieOf t ≥ Config.dies then none
  else some ⟨if x then some (BitVec.ofNat 16 pkg) else none, t, Fin.ofNat 8 n⟩

/-- Check a destination word against a rule on its channel (R202). -/
def needDest (s : State) (w : Word) (chanOk : Fin 8 → Bool) (k : Dest → Out) : Out :=
  match destOf (s.gangPkgs s.curTile) w with
  | some d => if chanOk d.chan then k d else engineError s w
  | none => engineError s w

/-- An item of the executing thread leaves for another tile; ST rises by one (R197, R205). -/
def State.send (s : State) (kind : SentKind) (d : Dest) (lo hi md : Word) (ts : Option Word) (rel : Option Scope) : State :=
  let it : SentItem := {
    kind := kind, slot := s.curSlot, seq := s.thr.seq, pkg := normPkg (s.pkgOf s.curTile) d.pkg, dest := d.tile, chan := d.chan, lo := lo, hi := hi
    md := md, ts := ts, rel := rel, past := if rel.isSome then s.pastOf s.curTile s.curSlot else [], refused := none, counted := true }
  (s.modCur fun x => { x with sent := x.sent ++ [it] }).modThr fun th => { th with seq := th.seq + 1, cntSt := th.cntSt + 1 }

/-- `tlaunch` (R195, R202). A bad destination word traps before the handle that is never queued: no rule puts either first (DEDUCED, log
13). -/
def execTlaunch (a b : Reg) (s : State) : Out :=
  exS2 s a b fun w h => needDest s w (fun c => c = 0) fun d =>
    if h = noHandle then engineError s h
    else needCnt s .st (retire (s.send .wake d h 0 0 none none) [w, h])

end Sys2Proof.Machine
end

