-- ==== Sys2Proof/Machine/Message.lean ====
section
/-! DEFINITION. Short messages: MSG (spec/09_sync_instructions.md, R202-R212). -/

namespace Sys2Proof.Machine

/-- The scope of an ordering code. -/
def ordScope : MsgOrd → Option Scope
  | .plain => none
  | .rel sc => some sc

/-- `msend` and `msendt` (R205): the payload pair, M with the next sequence number, and for `msendt` the tile's `vtime`. -/
def sendMsg (o : MsgOrd) (timed : Bool) (a b : Reg) (s : State) : Out :=
  exS3 s a b (Reg.next b) fun w lo hi => needDest s w (fun c => c ≠ 0) fun d =>
    needCnt s .st (
      let pkg := s.pkgOf s.curTile
      let key := seqKey (normPkg pkg d.pkg) d.tile d.chan
      let md := metaWord pkg (if timed then 1 else 0) s.curTile (s.tile.seqNo key)
      let ts : Option Word := if timed then some s.tile.vtime else none
      retire ((s.send .msg d lo hi md ts (ordScope o)).modCur fun x => x.bumpSeq key 1) [w, lo, hi])

def execMsend (o : MsgOrd) (a b : Reg) (s : State) : Out := sendMsg o false a b s
def execMsendt (o : MsgOrd) (a b : Reg) (s : State) : Out := sendMsg o true a b s

/-- A receive is pending: LD rises, the destinations are pending fills, and an entry that waits is matched at once (R209). -/
def receive (s : State) (w : Word) (ch : Fin 8) (r : Recv) : Out :=
  let c : Channel := s.tile.channels[ch]
  let md := r.mdReg.getD 0
  if c.bound.isSome then engineError s w
  else if recvRoom ≤ c.recvs.length then park s (.recvFull ch)
  else dstS s r.d (dstS s (Reg.next r.d) (dstS s md (needCnt s .ld (
    let s := s.modThr fun th => { ((th.pendS r.d).pendS (Reg.next r.d)).pendS md with cntLd := th.cntLd + 1 }
    let s := s.modCur fun x => { x with channels := x.channels.set ch { c with recvs := c.recvs ++ [r] } }
    match retire s [w] with
    | .next s => .next (s.modCur fun x => x.deliver ch)
    | o => o))))

def execMrecv (d a c : Reg) (s : State) : Out :=
  exS s a fun w =>
    if w.toNat / 8 ≠ 0 then engineError s w
    else receive s w (Fin.ofNat 8 w.toNat) ⟨s.curSlot, d, if c = 0 then none else some c, none⟩

/-- The sender fields of M that a sender word names (R203, R209). -/
def senderFields (self : BitVec 16) (d : Dest) : Word := metaWord (d.pkg.getD self) 0 d.tile 0

def execMwait (d a b : Reg) (s : State) : Out :=
  exS2 s a b fun w q => needDest s w (fun _ => true) fun who =>
    if q.toNat / 2 ^ 32 ≠ 0 then engineError s q
    else receive s w who.chan ⟨s.curSlot, d, none, some (senderFields (s.pkgOf s.curTile) who, q.setWidth 32)⟩

/-- The unmatched deliverable entries that `mpeek` reads (R158, R210). -/
def Tile.peekable (x : Tile) (c : Fin 8) : List ChEntry :=
  ((x.channels[c]).loose.order x.horizon).map Prod.snd

/-- The answer of `mpeek` (R210). -/
def peekWord (es : List ChEntry) (n : Fin 3) : Word :=
  if n = 2 then BitVec.ofNat 64 es.length
  else match es with
    | [] => BitVec.allOnes 64
    | e :: _ => if n = 0 then e.md else e.ts.getD (BitVec.allOnes 64)

def execMpeek (d a : Reg) (n : Fin 3) (s : State) : Out :=
  exS s a fun w =>
    if w.toNat / 8 ≠ 0 then engineError s w
    else retireS s d (peekWord (s.tile.peekable (Fin.ofNat 8 w.toNat)) n)

/-- `mcfg` (R206). -/
def execMcfg (a b : Reg) (s : State) : Out :=
  exS2 s a b fun w m =>
    let ch : Fin 8 := Fin.ofNat 8 w.toNat
    let c : Channel := s.tile.channels[ch]
    if w.toNat / 8 ≠ 0 ∨ m.toNat / 2 ≠ 0 ∨ ch = 0 ∨ c.entries.isEmpty = false ∨ c.recvs.isEmpty = false ∨ c.bound.isSome = true then
      engineError s w
    else retire (s.modCur fun x => { x with channels := x.channels.set ch { c with horizon := m.getLsbD 0 } }) [w]

end Sys2Proof.Machine
end

