-- ==== Sys2Proof/Machine/System.lean ====
section
/-! DEFINITION. The system instructions: SYS (spec/18_faults_preemption.md, R357, R359, R364, R370-R378). -/

namespace Sys2Proof.Machine

def execSys (n : BitVec 5) (s : State) : Out := trap s .syscall (n.setWidth 64)
def execBrk (n : BitVec 5) (s : State) : Out := trap s .break (n.setWidth 64)

/-- `eret` (R357). -/
def execEret (s : State) : Out :=
  needSv s .eret (
    let k := s.curSlot
    .next (s.modCur fun x => (x.modThr k Thread.returnTrap).foldPair k x.slots[k].pc []))

/-- The slot word of `tkill` and `scrub` (R370): a slot of this tile that is not 0 and not the caller's. -/
def needSlot (s : State) (x : Word) (k : Slot → Out) : Out :=
  if x.toNat / 8 ≠ 0 ∨ x = 0 ∨ x = BitVec.ofNat 64 s.curSlot.val then engineError s x else k (Fin.ofNat 8 x.toNat)

/-- `tkill` (R370): EVENT 2, INFO the killing slot; an empty or killed slot stays as it is. -/
def execTkill (a : Reg) (s : State) : Out :=
  needSv s (.tkill a) (exS s a fun x => needSlot s x fun k =>
    match (s.thrAt s.curTile k).run with
    | .empty | .killed => retire s [x]
    | _ => retire ((s.disarmAll s.curTile k).kill s.curTile k 2 (BitVec.ofNat 64 s.curSlot.val)) [x])

/-- `scrub` empties a killed slot (R370); what its thread had bound is unbound (DESIGN CHOICE, log 77). -/
def execScrub (a : Reg) (s : State) : Out :=
  needSv s (.scrub a) (exS s a fun x => needSlot s x fun k =>
    match (s.thrAt s.curTile k).run with
    | .killed => retire (s.modCur fun t => (t.unbindAll k).emptySlot k) [x]
    | _ => engineError s x)

-- Pairing (R371, R378)

/-- LGF that a control word selects; none when it is bad (R371). -/
def lgfOf (x : Word) : Option Nat :=
  if x.toNat / 32 ≠ 0 then none
  else if x = 0 then some 12
  else if 10 ≤ x.toNat ∧ x.toNat ≤ 16 then some x.toNat else none

/-- Whether a tile can become the odd half of a pair (R371); the element of a memory stream in flight is a fretboard entry too (R285). -/
def Tile.canPair (x : Tile) : Bool :=
  (userSlots.all fun k => (x.slots[k]).run == .empty || (x.slots[k]).run == .killed) && x.ops.isEmpty && x.flights.isEmpty && x.eyelets.isEmpty &&
    x.promises.isEmpty && x.pairing.isNone

/-- A tile that is not paired, or whose interval has begun and retired nothing yet. -/
def Tile.agreed (x : Tile) : Bool :=
  match x.pairing with
  | none => true
  | some p => p.retired = 0

/-- Take the present state of a paired tile as its agreement point. -/
def State.snapshot (s : State) (t : TileId) : State :=
  match (s.tileAt t).pairing with
  | none => s
  | some p =>
    let s := s.modTile t fun x => { x with pairing := some { p with retired := 0, print := 0, undo := [], undoAcc := [], inbound := [], resvs := s.resvs.filter fun q => locTile q.loc = some t } }
    { s with
      snapshots := assocSet s.snapshots t (s.tileAt t)
      snapStaged := s.snapStaged.filter (fun e => e.tile ≠ t) ++ s.staged.filter fun e => e.tile = t }

/-- The two tiles are a pair from here on; the partner holds the copy of the tile's state and is hidden (R371, R372). -/
def State.joinPair (s : State) (lgf : Nat) : State :=
  let t := s.curTile
  let p : Pairing := {
    partner := t + 1, even := true, lgf := lgf, interval := 0, miss := 0, retired := 0, print := 0, undo := [], undoAcc := [], inbound := []
    replay := [], ending := false, unpair := none, resvs := [] }
  (s.modTile t fun x => { x with pairing := some p }).modTile (t + 1) fun y => { y with hidden := true, pairing := some { p with partner := t, even := false } }
/-- What has cleared a slot's park is over: its wait has been met, and it re-executes its instruction (R167). -/
def Thread.meet (th : Thread) : Thread := { th with met := some th.pc }
/-- The wait of the executing instruction has been met. -/
def State.isMet (s : State) : Bool := s.thr.met == some s.thr.pc
/-- The executing instruction, whose wait has been met, goes on. -/
def State.goesOn (s : State) : State := s.modThr fun th => { th with met := none }

/-- `pair` (R371): parks until the partner holds a copy of the tile's whole state; then it retires, and its retirement is the first agreement
point. -/
def execPair (d a : Reg) (s : State) : Out :=
  needSv s (.pair d a) (exS s a fun x => dstS s d (
    match lgfOf x with
    | none => engineError s x
    | some lgf =>
      if colOf s.curTile % 2 = 1 ∨ s.tile.pairing.isSome ∨ (s.tileAt (s.curTile + 1)).canPair = false then engineError s x
      else if s.isMet then
        let s := s.goesOn.joinPair lgf
        match retireS s d s.tile.pairstat with
        | .next s' => .next (s'.snapshot s.curTile)
        | o => o
      else park s .wait))

/-- The end of an interval that the program asks for: it parks until the interval agrees (R378). -/
def endInterval (s : State) (unpairs : Bool) : Out :=
  match s.tile.pairing with
  | none => retire s.goesOn []
  | some p =>
    if s.isMet then retire s.goesOn []
    else
    let k := s.curSlot
    park (s.modCur fun x => { x with pairing := some { p with ending := true, unpair := if unpairs then some k else p.unpair } }) .wait

def execUnpair (s : State) : Out := needSv s .unpair (endInterval s true)
def execFprt (s : State) : Out := endInterval s false

-- The matrix sequencer (R364)

/-- Whether the sequencer has taken an accumulator operation that is not complete: it runs to completion before a freeze holds. -/
def State.headBusy (s : State) (t : TileId) : Bool :=
  ((s.tileAt t).mxq.filterMap s.opAt).any fun e => e.state != .held && (match e.req.op with
    | .mma _ _ _ _ _ _ _ => false
    | _ => true)

/-- A freeze holds once its sequencer is free of such an operation, be the thread that asked for it gone or not (R364). -/
def State.settleFreeze (s : State) (t : TileId) : State :=
  if (s.tileAt t).freezing && !s.headBusy t then s.modTile t fun x => { x with frozen := true, freezing := false } else s

def execMxfrz (s : State) : Out :=
  needSv s .mxfrz (
    if s.tile.frozen then retire s []
    else if s.headBusy s.curTile then park (s.modCur fun x => { x with freezing := true }) .wait
    else retire (s.modCur fun x => { x with frozen := true, freezing := false }) [])
/-- On a sequencer that is not frozen `mxthaw` does nothing, not even to a freeze that is still to come. -/
def execMxthaw (s : State) : Out := needSv s .mxthaw (retire (s.modCur fun x => { x with frozen := false }) [])

end Sys2Proof.Machine
end

