-- ==== Sys2Proof/Machine/Engine.lean ====
section
/-! DEFINITION. The issue of copy, matrix, accumulator, tree and conversion instructions (spec/15_async_instructions.md,
R305-R335): operand examination, the checks, the counter, the eyelet and the tag. -/

namespace Sys2Proof.Machine

/-- Whether an address lies in device space: never legal for an engine (R305). -/
def isDevice (a : Word) : Bool := regionOf a = 3

/-- The checks of operand words in order: each word with whether it is good (R305). -/
def engCheck (s : State) : List (Word × Bool) → Out → Out
  | [], k => k
  | (w, ok) :: ws, k => if ok then engCheck s ws k else engineError s w

/-- A copy or drain issues (R305, R306): CP, an eyelet, the next tag in s[d]; a copy carries the thread's armed flag
(R314). -/
def issueCp (s : State) (d : Reg) (op : EngOp) (isCopy tl : Bool) : Out :=
  dstS s d (needCnt s .cp ((if tl then needCnt s .tl else id) (needEyelet s (
    let tag := s.tile.tag
    let flag := if isCopy then s.thr.armed else none
    let s := (s.submit op false tag flag).modCur fun x => { x with tag := x.tag + 1 }
    let s := s.modThr fun th => { th with
      cntCp := th.cntCp + 1
      cntTl := if tl then th.cntTl + 1 else th.cntTl
      armed := if isCopy then none else th.armed }
    retire (s.putS d (tag.setWidth 64)) [tag.setWidth 64]))))

/-- A tile operation issues (R305): TL and an eyelet. -/
def issueTl (s : State) (op : EngOp) (direct : Bool) (k : State → Out) : Out :=
  needCnt s .tl (needEyelet s
    (k ((s.submit op direct 0 none).modThr fun th => { th with cntTl := th.cntTl + 1 })))

-- CPY (R310-R315)

/-- A byte count of a copy (R311). -/
def countOk (w : Word) : Bool := w.toNat / 2 ^ 32 = 0 && w ≠ 0

def execCpy (d a b c : Reg) (s : State) : Out :=
  exS3 s a b c fun dst src n =>
    engCheck s [(dst, !isDevice dst), (src, !isDevice src), (n, countOk n)]
      (issueCp s d (.cpy dst src (n.toNat % 2 ^ 32)) true false)

/-- The lasts of `cpyt` are at s[c] and s[c] + 64, and neither may lie in device space (R312). -/
def execCpyt (d a b c : Reg) (s : State) : Out :=
  exS3 s a b c fun dst src last =>
    engCheck s [(dst, !isDevice dst), (src, !isDevice src), (last, !isDevice last && !isDevice (last + 64))]
      (issueCp s d (.cpyt dst src last) true false)

-- The matrix control word (R317)

def ctlM (c : Word) : Nat := c.toNat / 2 ^ 8 % 256 + 1
def ctlN (c : Word) : Nat := c.toNat / 2 ^ 16 % 256 + 1
def ctlRow0 (c : Word) : Nat := c.toNat / 2 ^ 33 % 128
def ctlCol0 (c : Word) : Nat := c.toNat / 2 ^ 40 % 128
def ctlFn (c : Word) : Nat := c.toNat / 2 ^ 48 % 16
def ctlOpnd (c : Word) : Bool := c.getLsbD 1

/-- The issue checks of the control word of `mma` (R317). -/
def ctlOk (c : Word) : Bool :=
  c &&& 0xFFFF8000000000FE == 0 &&
    (if ctlG c then ctlRow0 c = 0 && ctlCol0 c = 0
     else decide (ctlRow0 c + ctlM c ≤ 128) && decide (ctlCol0 c + ctlN c ≤ 128))
/-- Those of `cpym`, which uses OPND and FN (R313). -/
def ctlOkM (c : Word) : Bool :=
  c &&& 0xFFF08000000000FD == 0 && decide (ctlFn c ≤ 7) && decide (ctlRow0 c + ctlM c ≤ 128) &&
    decide (ctlCol0 c + ctlN c ≤ 128)

/-- A matrix operand address: local or tile-addressed, aligned to 64 (R318). -/
def operandOk (a : Word) : Bool := decide (regionOf a ≤ 1) && a.toNat % 64 = 0
/-- A metadata address (R321). -/
def metaOk (a : Word) : Bool := decide (regionOf a ≤ 1)
/-- Local, or tile-addressed naming the issuing tile (R119, R325). -/
def ownTile (t : TileId) (a : Word) : Bool := regionOf a = 0 || (regionOf a = 1 && a.toNat / 2 ^ 32 % 2 ^ 11 = t)

/-- `cpym` (R313); the destination is local and aligned to 64. -/
def execCpym (d a b c : Reg) (s : State) : Out :=
  exS3 s a b c fun dst src ctl => exS2 s (Reg.next c) (Reg.next (Reg.next c)) fun n other =>
    engCheck s [(ctl, ctlOkM ctl), (n, countOk n), (dst, ownTile s.curTile dst && dst.toNat % 64 = 0), (src, !isDevice src),
        (other, operandOk other)]
      (issueCp s d (.cpym dst src ctl (n.toNat % 2 ^ 32) other) true true)

def execCpyf (z : Size) (a b : Reg) (s : State) : Out :=
  exS2 s a b fun x v =>
    if isDevice x ∨ x.toNat % sizeBytes z ≠ 0 then engineError s x
    else retire (s.modThr fun th => { th with armed := some ⟨x, v, z⟩ }) [x, v]

/-- Whether an operation carries a copy tag. -/
def EngOp.tagged : EngOp → Bool
  | .cpy _ _ _ | .cpyt _ _ _ | .cpym _ _ _ _ _ | .adrn _ _ _ => true
  | _ => false

/-- The state of the youngest outstanding copy with a tag (R315): 4 READ_DONE, 3 ACTIVE, 2 HELD, 1 in an eyelet; a request
that is accepted and not yet entered counts as in its eyelet, and a copy whose entry is FREE and whose flag write or completion entry is still to
come as none, since no code is theirs (DEDUCED, log 17). -/
def Tile.tagState (x : Tile) (tag : BitVec 16) : Nat :=
  if (x.eyelets ++ x.accepted).any fun r => r.op.tagged && r.tag == tag then 1
  else match lastWhere (fun (e : EngEntry) => e.req.op.tagged && e.req.tag == tag) x.ops with
  | some e => match e.state with
    | .held => 2
    | .active => 3
    | .readDone => 4
  | none => 0

/-- The fretboard entries not FREE (R285): operations, and element accesses of memory streams in flight (R156). -/
def Tile.entriesUsed (x : Tile) : Nat := x.ops.length + x.flights.length

def execCpyq (d a : Reg) (s : State) : Out :=
  exS s a fun q =>
    if q.toNat / 2 ^ 17 ≠ 0 ∨ (q.getLsbD 16 = true ∧ q.toNat % 2 ^ 16 ≠ 0) then engineError s q
    else retireS s d (BitVec.ofNat 64
      (if q.getLsbD 16 then s.tile.entriesUsed % 256 + s.tile.eyelets.length * 256 else s.tile.tagState (q.setWidth 16)))

-- MMA (R316-R322)

def execMma (f : MmaFmt) (a b c : Reg) (s : State) : Out :=
  exS3 s a b c fun x y ctl =>
    engCheck s [(ctl, ctlOk ctl), (x, operandOk x), (y, operandOk y)]
      (issueTl s (.mma f false x y ctl 0 false) false fun s => retire s [x, y, ctl])

def execMmaSp (f : MmaFmt) (a b c d : Reg) (s : State) : Out :=
  exS3 s a b c fun x y ctl => exS s d fun md =>
    engCheck s [(ctl, ctlOk ctl), (x, operandOk x), (y, operandOk y), (md, metaOk md)]
      (issueTl s (.mma f true x y ctl md false) false fun s => retire s [x, y, ctl, md])

-- ACC (R323-R327)

/-- The fields of a region word (R324). -/
def rgRow0 (w : Word) : Nat := w.toNat % 256
def rgCol0 (w : Word) : Nat := w.toNat / 2 ^ 8 % 256
def rgRows (w : Word) : Nat := w.toNat / 2 ^ 16 % 256 + 1
def rgCols (w : Word) : Nat := w.toNat / 2 ^ 24 % 256 + 1
def rgFmt (w : Word) : EFmt := regionFmt (w.toNat / 2 ^ 32 % 16)
/-- The bytes of one row, and from one row to the next. -/
def rgRowBytes (w : Word) : Nat := rowBytes (rgFmt w) (rgCols w)
def rgPitch (w : Word) : Nat := let p := w.toNat / 2 ^ 36 % 2 ^ 20; if p = 0 then rgRowBytes w else p

/-- The issue checks of a region word (R324). -/
def regionOk (w : Word) (isAcz : Bool) : Bool :=
  let p := w.toNat / 2 ^ 36 % 2 ^ 20
  decide (w.toNat / 2 ^ 56 = 0) && decide (w.toNat / 2 ^ 32 % 16 ≤ 7) && decide (rgRow0 w + rgRows w ≤ 128) &&
    decide (rgCol0 w + rgCols w ≤ 128) && ((blkBits (rgFmt w)).isNone || rgCols w % 16 = 0) &&
    (p = 0 || (p % 4 = 0 && decide (rgRowBytes w ≤ p))) && (!isAcz || w.toNat / 2 ^ 32 = 0)

/-- An accumulator operation that a supervisor issues while the sequencer is frozen runs at once (R365). -/
def State.direct (s : State) : Bool := s.tile.frozen && s.thr.sv

def execAcz (a : Reg) (s : State) : Out :=
  exS s a fun w => engCheck s [(w, regionOk w true)] (issueTl s (.acz w) s.direct fun s => retire s [w])
/-- The scratchpad address of `acld` and `acst` (R325). -/
def accAddrOk (t : TileId) (x w : Word) : Bool := ownTile t x && x.toNat % fmtAlign (rgFmt w) = 0
def execAcld (a b : Reg) (s : State) : Out :=
  exS2 s a b fun x w =>
    engCheck s [(w, regionOk w false), (x, accAddrOk s.curTile x w)] (issueTl s (.acld x w) s.direct fun s => retire s [x, w])
def execAcst (a b : Reg) (s : State) : Out :=
  exS2 s a b fun x w =>
    engCheck s [(w, regionOk w false), (x, accAddrOk s.curTile x w)] (issueTl s (.acst x w) s.direct fun s => retire s [x, w])
/-- `adrn` (R326): the spec asks no alignment of its destination. -/
def execAdrn (d a b c : Reg) (s : State) : Out :=
  exS3 s a b c fun x w h =>
    engCheck s [(w, regionOk w false), (x, decide (regionOf x ≤ 1)), (h, h != noHandle)] (issueCp s d (.adrn x w h) false false)

/-- A row selector (R327). -/
def selOk (w : Word) : Bool := decide (w.toNat / 2 ^ 16 = 0) && decide (w.toNat % 256 ≤ 127) && decide (w.toNat / 256 % 256 ≤ 96)
def execAcrd (d a : Reg) (s : State) : Out :=
  exS s a fun w => dstV s d (engCheck s [(w, selOk w)] (issueTl s (.acrd d w) s.direct fun s =>
    retire (s.modThr fun th => th.pendV d) [w]))
def execAcwr (b a : Reg) (s : State) : Out :=
  exS s a fun w => exV s b fun v => engCheck s [(w, selOk w)] (issueTl s (.acwr w v) s.direct fun s => retire s [w])

-- TREE (R328-R332)

/-- TYPE of a tree control word (R329). -/
def treeTy (c : Word) : Option ETy :=
  match c.toNat / 2 ^ 12 % 8 with
  | 0 => some .f32
  | 1 => some .bf16
  | 2 => some .f16
  | 4 => some .i32
  | _ => none
def treeN (c : Word) : Nat := c.toNat % 1024 + 1
def treeTot (c : Word) : Bool := c.getLsbD 15
def TreeFn.isScan : TreeFn → Bool
  | .scanAdd | .scanAff => true
  | _ => false

/-- The issue checks of a tree control word (R329). -/
def treeCtlOk (f : TreeFn) (c : Word) : Bool :=
  decide (c.toNat / 2 ^ 16 = 0) && decide (c.toNat / 2 ^ 10 % 4 = 0) && (treeTy c).isSome && (f.isScan || !treeTot c) &&
    (f != .scanAff || treeTy c == some .f32)
/-- A source or destination of a tree operation (R329). -/
def treeAddrOk (c a : Word) : Bool :=
  regionOf a = 0 && a.toNat % (if treeTy c == some .bf16 || treeTy c == some .f16 then 2 else 4) = 0

/-- The data operations that a tile has outstanding (R302). -/
def EngOp.isTree : EngOp → Bool
  | .tree _ _ _ _ => true
  | _ => false
def Tile.treeOps (x : Tile) : Nat :=
  ((x.eyelets ++ x.accepted).filter fun r => r.op.isTree).length + (x.ops.filter fun e => e.req.op.isTree).length

/-- A tree data operation (R302, R329). -/
def treeOp (f : TreeFn) (a b c : Reg) (s : State) : Out :=
  exS3 s a b c fun dst src ctl =>
    engCheck s [(ctl, treeCtlOk f ctl), (dst, treeAddrOk ctl dst), (src, treeAddrOk ctl src)]
      (needCnt s .tl (if 4 ≤ s.tile.treeOps then park s .eyelet
        else issueTl s (.tree f dst src ctl) false fun s => retire s [dst, src, ctl]))

def execTredAdd (a b c : Reg) (s : State) : Out := treeOp .add a b c s
def execTredMax (a b c : Reg) (s : State) : Out := treeOp .max a b c s
def execTredMin (a b c : Reg) (s : State) : Out := treeOp .min a b c s
def execTscanAdd (a b c : Reg) (s : State) : Out := treeOp .scanAdd a b c s
def execTscanAff (a b c : Reg) (s : State) : Out := treeOp .scanAff a b c s
def execTbar (s : State) : Out := issueTl s .tbar false fun s => retire s []

-- CCV (R333-R335)

def ccvCount (c : Word) : Nat := c.toNat % 2 ^ 32
def ccvSrc (c : Word) : EFmt := regionFmt (c.toNat / 2 ^ 32 % 16)
def ccvDst (c : Word) : EFmt := regionFmt (c.toNat / 2 ^ 36 % 16)
def ccvSat (c : Word) : Bool := c.getLsbD 40

/-- The issue checks of a conversion control word (R333, R335). -/
def ccvCtlOk (c : Word) (scaled : Bool) : Bool :=
  let blk := (blkBits (ccvSrc c)).isSome || (blkBits (ccvDst c)).isSome
  decide (c.toNat / 2 ^ 41 = 0) && ccvSrc c != .raw && ccvDst c != .raw && ccvSrc c != ccvDst c && decide (1 ≤ ccvCount c) &&
    (!blk || ccvCount c % 16 = 0) && (!scaled || ((floatFmt (ccvSrc c)).isSome && (blkBits (ccvDst c)).isSome))
/-- A conversion operand is local, or names the issuing tile (R417). -/
def ccvAddrOk (t : TileId) (f : EFmt) (a : Word) : Bool := ownTile t a && a.toNat % fmtAlign f = 0

def execCcv (a b c : Reg) (s : State) : Out :=
  exS3 s a b c fun dst src ctl =>
    engCheck s [(ctl, ccvCtlOk ctl false), (dst, ccvAddrOk s.curTile (ccvDst ctl) dst), (src, ccvAddrOk s.curTile (ccvSrc ctl) src)]
      (issueTl s (.ccv dst src ctl) false fun s => retire s [dst, src, ctl])
def execCcvq (a b c d : Reg) (s : State) : Out :=
  exS3 s a b c fun dst src ctl => exS s d fun sc =>
    engCheck s [(ctl, ccvCtlOk ctl true), (dst, ccvAddrOk s.curTile (ccvDst ctl) dst), (src, ccvAddrOk s.curTile (ccvSrc ctl) src),
        (sc, ownTile s.curTile sc)]
      (issueTl s (.ccvq dst src ctl sc) false fun s => retire s [dst, src, ctl, sc])

end Sys2Proof.Machine
end

