-- ==== Sys2Proof/Machine/Copy.lean ====
section
/-! DEFINITION. The work of copies (R217-R219, R236-R239, R290-R294, R310-R312): sides, lasts, plans, and the bytes of one
piece. -/

namespace Sys2Proof.Machine

-- Reads and writes of an engine (R250, R252)

/-- What an engine read finds: it waits for a translation, meets a fatal access at an address, or has its bytes. -/
inductive EngRead where
  | waits
  | fatal (a : Word)
  | bytes (bs : List Byte)
  deriving DecidableEq, Repr

/-- An engine read of a tile: the home's array merged with the tile's own staged entries (R250). -/
def State.engRead (s : State) (t : TileId) (acc : Acc) : List Word → EngRead
  | [] => .bytes []
  | a :: as =>
    match s.reach t acc.pid acc.id false a with
    | .fatal => .fatal a
    | .waits => .waits
    | .home h => match State.engRead s t acc as with
      | .bytes bs => .bytes (s.viewByte t h.loc :: bs)
      | r => r

/-- Where an engine write of a tile goes. -/
inductive EngWrite where
  | waits
  | fatal (a : Word)
  | cells (cs : List Host.Cell)
  deriving DecidableEq, Repr

def State.engWrite (s : State) (t : TileId) (acc : Acc) : List (Word × Byte) → EngWrite
  | [] => .cells []
  | (a, b) :: ws =>
    match s.reach t acc.pid acc.id true a with
    | .fatal => .fatal a
    | .waits => .waits
    | .home h => match State.engWrite s t acc ws with
      | .cells cs => .cells ((h.loc, b) :: cs)
      | r => r

/-- The places of engine writes in order, up to the first that waits or is fatal, and what stopped them. -/
def State.engCells (s : State) (t : TileId) (acc : Acc) : List (Word × Byte) → List Host.Cell × EngRead
  | [] => ([], .bytes [])
  | (a, b) :: ws =>
    match s.reach t acc.pid acc.id true a with
    | .fatal => ([], .fatal a)
    | .waits => ([], .waits)
    | .home h => let r := State.engCells s t acc ws; ((h.loc, b) :: r.1, r.2)

/-- The bytes that an engine reads in order, up to the first that waits or is fatal. -/
def State.engPrefix (s : State) (t : TileId) (acc : Acc) : List Word → List Byte
  | [] => []
  | a :: as =>
    match s.reach t acc.pid acc.id false a with
    | .home h => s.viewByte t h.loc :: State.engPrefix s t acc as
    | _ => []

/-- Of the cells that an operation in error may have written before it met the error, those that it has written: a free value for each
group of `n` bytes, since the spec does not say how far the writes have come (R293, R309; log 55). -/
def State.someCells (s : State) (n : Nat) (cs : List Host.Cell) : List Host.Cell :=
  ((List.range cs.length).zip cs).filterMap fun p =>
    if (s.openValue (cs.map fun c => c.2.toNat) (p.1 / n)).getLsbD 0 then some p.2 else none

/-- The formats of the banks that n bytes from a scratchpad address touch, the first byte's first; none elsewhere (R217). -/
def State.touched (s : State) (t : TileId) (a : Word) (n : Nat) : List (BitVec 4) :=
  match s.place t a with
  | .bank u o =>
    let first := o / Config.bankBytes
    let last := min (o + n - 1) (Config.scratchBytes - 1) / Config.bankBytes
    (List.range (last + 1 - first)).map fun i => (s.tileAt u).fmts[(Fin.ofNat 16 (first + i) : Fin 16)]
  | _ => []

-- Lasts (R239, R291, R292)

/-- The addresses of the 64 bytes of a last. -/
def lastAddrs (a : Word) : List Word := addrsFrom a 64

/-- The bytes of an element of a last's side, and the elements it stands for (R312). -/
def lastUnit (l : BitVec 512) : Nat := esBytes (lastEs l)
def lastElems (l : BitVec 512) : Nat := if 4 ≤ lastEs l then 16 else 1
/-- The number of units of a side (R312). -/
def lastCount (l : BitVec 512) : Nat := ((List.range (lastNdim l)).map (lastDim l)).foldl (· * ·) 1

/-- The index along dimension k of unit n, i0 fastest (R291). -/
def unitIndex (l : BitVec 512) (n k : Nat) : Nat :=
  if k < lastNdim l then n / ((List.range k).map (lastDim l)).foldl (· * ·) 1 % lastDim l k else 0

/-- An operand address of a copy, drain or conversion: one that names the issuing tile is the local address at its offset (R417). -/
def ownBase (t : TileId) (a : Word) : Word :=
  if regionOf a = 1 ∧ a.toNat / 2 ^ 21 % 2 ^ 41 = t * 2 ^ 11 then a &&& 0x1FFFFF else a

/-- The address of unit n of a side of a copy of tile t (R291); the base of a mesh-mapped side is a local offset (R292). -/
def unitAddr (t : TileId) (l : BitVec 512) (base : Word) (n : Nat) : Word :=
  let base := ownBase t base
  let idx := (List.range 4).map (unitIndex l n)
  let m := lastMapdim l
  if m = 0xFF then
    let o : Int := ((List.range 4).map fun k => (idx.getD k 0 : Int) * lastStr l k).foldl (· + ·) 0
    base + BitVec.ofInt 64 (o * lastUnit l)
  else
    let im := idx.getD m 0
    let tn := lastNrows l * lastNcols l
    let nb := (lastDim l m + lastBlk l - 1) / lastBlk l
    let blk := im / lastBlk l
    let per := (nb + tn - 1) / tn
    let ti := if lastCyc l = 1 then blk % tn else blk / per
    let lb := if lastCyc l = 1 then blk / tn else blk % per
    let j := lb * lastBlk l + im % lastBlk l
    let tile := tileNo (lastMdie l) (lastRow0 l + ti / lastNcols l) (lastCol0 l + ti % lastNcols l)
    let o : Int := ((List.range 4).map fun k => (if k = m then (j : Int) else (idx.getD k 0 : Int)) * lastStr l k).foldl (· + ·) 0
    let off := (base + BitVec.ofInt 64 (o * lastUnit l)).toNat
    BitVec.ofNat 64 (2 ^ 62 + tile * 2 ^ 32 + min off (2 ^ 21))

-- Plans (R217, R219, R312)

/-- What a copy does: its conversion, the bytes, elements and number of its source units, and those of its destination. -/
structure CopyPlan where
  conv   : Option (EFmt × EFmt)
  sUnit  : Nat
  sElems : Nat
  sCount : Nat
  dUnit  : Nat
  dElems : Nat
  dCount : Nat
  deriving DecidableEq, Repr

/-- Destination, source and byte count of a copy without lasts. -/
def EngOp.linear : EngOp → Option (Word × Word × Nat)
  | .cpy d s n => some (d, s, n)
  | .cpym d s _ n _ => some (d, s, n)
  | _ => none

/-- The formats between which a copy converts (R217): both sides in scratchpad, neither mixed nor raw, and not the same. -/
def convOf (src dst : List (BitVec 4)) : Option (EFmt × EFmt) :=
  match src.eraseDups, dst.eraseDups with
  | [a], [b] => if bankFmt a ≠ .raw ∧ bankFmt b ≠ .raw ∧ a ≠ b then some (bankFmt a, bankFmt b) else none
  | _, _ => none

/-- A mixed side faces a bank that is not raw (R217). -/
def mixedBad (src dst : List (BitVec 4)) : Bool :=
  let mixed (l : List (BitVec 4)) : Bool := decide (1 < l.eraseDups.length)
  let typed (l : List (BitVec 4)) : Bool := l.any fun c => bankFmt c != .raw
  !src.isEmpty && !dst.isEmpty && ((mixed src && typed dst) || (mixed dst && typed src))

/-- The plan of a linear copy, or the error of its dispatch checks (R219). -/
def linearPlan (conv : Option (EFmt × EFmt)) (n : Nat) : EngErr ⊕ CopyPlan :=
  match conv with
  | none => .inr ⟨none, 1, 1, n, 1, 1, n⟩
  | some (sf, df) =>
    let us := n / unitBytes sf
    let es := us * unitElems sf
    let blk := (blkBits sf).isSome || (blkBits df).isSome
    if n % unitBytes sf ≠ 0 ∨ (blk = true ∧ es % 16 ≠ 0) then .inl .count
    else .inr ⟨conv, unitBytes sf, unitElems sf, us, unitBytes df, unitElems df, es / unitElems df⟩

/-- The plan of a tensor copy (R291, R312). A side whose units do not fit the conversion or the other side's units has no whole
elements (log 40). -/
def tensorPlan (conv : Option (EFmt × EFmt)) (dl sl : BitVec 512) : EngErr ⊕ CopyPlan :=
  let es := lastCount sl * lastElems sl
  if es ≠ lastCount dl * lastElems dl then .inl .count
  else
    let plan : CopyPlan := ⟨conv, lastUnit sl, lastElems sl, lastCount sl, lastUnit dl, lastElems dl, lastCount dl⟩
    match conv with
    | none => if lastUnit sl = lastUnit dl ∧ lastElems sl = lastElems dl then .inr plan else .inl .count
    | some (sf, df) =>
      if unitBytes sf = lastUnit sl ∧ unitElems sf = lastElems sl ∧ unitBytes df = lastUnit dl ∧ unitElems df = lastElems dl ∧
          es % (if unitElems sf = unitElems df then 1 else 16) = 0 then .inr plan else .inl .count

/-- The bases of a side's alignment (R312). -/
def lastAligned (l : BitVec 512) (base : Word) : Bool := base.toNat % (if 4 ≤ lastEs l then 2 else lastUnit l) = 0

/-- The plan of a dispatched copy: `lasts` are [destination, source]. -/
def EngEntry.plan (e : EngEntry) : EngErr ⊕ CopyPlan :=
  match e.req.op.linear, e.req.op, e.lasts with
  | some (_, _, n), _, _ => if mixedBad e.fmtA e.fmtB then .inl .format else linearPlan (convOf e.fmtA e.fmtB) n
  | none, .cpyt dst src last, [dl, sl] =>
    if last.toNat % 64 ≠ 0 ∨ lastCopyOk dl = false ∨ lastCopyOk sl = false ∨ lastAligned dl dst = false ∨
        lastAligned sl src = false then .inl .last
    else if mixedBad e.fmtA e.fmtB then .inl .format
    else tensorPlan (convOf e.fmtA e.fmtB) dl sl
  | _, _, _ => .inl .fault

/-- The elements of one piece: 256 bytes of source (R283), in whole sixteens. -/
def CopyPlan.piece (p : CopyPlan) : Nat := max 16 (256 / p.sUnit * p.sElems / 16 * 16)
def CopyPlan.pieces (p : CopyPlan) : Nat := (p.sCount * p.sElems + p.piece - 1) / p.piece
/-- The units of piece g of a side. -/
def pieceUnits (p : CopyPlan) (elems count g : Nat) : List Nat :=
  let lo := g * p.piece / elems
  let hi := min count ((g + 1) * p.piece / elems)
  (List.range (hi - lo)).map (lo + ·)

/-- The byte addresses of units of a linear side, and of a side with a last. -/
def linearAddrs (base : Word) (unit : Nat) (us : List Nat) : List Word :=
  us.flatMap fun u => addrsFrom (base + BitVec.ofNat 64 (u * unit)) unit
def lastAddrsOf (t : TileId) (l : BitVec 512) (base : Word) (us : List Nat) : List Word :=
  us.flatMap fun u => addrsFrom (unitAddr t l base u) (lastUnit l)

/-- The source byte that lands for byte i of a copy whose local source and destination overlap (R290): the byte itself, or one
that the same copy may have written over it, some hops back along the distance d. -/
def overlapIndex (pick : Nat → BitVec 64) (d : Int) (n i : Nat) : Nat :=
  let hops : Nat := if 0 < d then i / d.toNat else (n - 1 - i) / (-d).toNat
  let j := (pick i).toNat % (hops + 1)
  ((i : Int) - j * d).toNat

/-- The distance of an overlapping local copy. -/
def State.overlap (s : State) (t : TileId) (dst src : Word) (n : Nat) : Option Int :=
  match s.ownOff t dst, s.ownOff t src with
  | some d, some c => if d ≠ c ∧ d < c + n ∧ c < d + n then some ((d : Int) - c) else none
  | _, _ => none

/-- The source addresses of piece g, and the destination addresses. -/
def State.pieceAddrs (s : State) (t : TileId) (e : EngEntry) (p : CopyPlan) (g : Nat) : List Word × List Word :=
  let su := pieceUnits p p.sElems p.sCount g
  let du := pieceUnits p p.dElems p.dCount g
  match e.req.op.linear, e.req.op, e.lasts with
  | some (dst, src, n), _, _ =>
    let su := match p.conv, s.overlap t dst src n with
      | none, some d => su.map (overlapIndex (s.openValue [dst.toNat, src.toNat, n]) d n)
      | _, _ => su
    (linearAddrs (ownBase t src) p.sUnit su, linearAddrs (ownBase t dst) p.dUnit du)
  | none, .cpyt dst src _, [dl, sl] => (lastAddrsOf t sl src su, lastAddrsOf t dl dst du)
  | _, _, _ => ([], [])

/-- The destination bytes of a piece from its source bytes, and the flags (R218). -/
def pieceBytes (p : CopyPlan) (bs : List Byte) : List Byte × VFlags :=
  match p.conv with
  | none => (bs, VFlags.none)
  | some (sf, df) =>
    let r := convertUnits false sf df (bytesUnits sf (bs.length / p.sUnit) bs)
    (unitsBytes df r.1, r.2)

/-- What moving a piece finds: it waits, it meets a fatal access, or it has its cells and flags. -/
inductive Piece where
  | waits
  | fatal (a : Word)
  | moves (cs : List Host.Cell) (fl : VFlags)
  deriving DecidableEq, Repr

/-- One piece of a copy (R283, R293): source first, then destination. -/
def State.piece (s : State) (t : TileId) (e : EngEntry) (p : CopyPlan) (g : Nat) : Piece :=
  let as := s.pieceAddrs t e p g
  match s.engRead t e.acc as.1 with
  | .waits => .waits
  | .fatal a => .fatal a
  | .bytes bs =>
    let r := pieceBytes p bs
    match s.engWrite t e.acc (as.2.zip r.1) with
    | .waits => .waits
    | .fatal a => .fatal a
    | .cells cs => .moves cs r.2

/-- The pieces of n that may come next: any that has not moved (R290), but the first in the modes in which results repeat, where neither what
a piece reads of the copy's own writes nor what a copy in error has written is left to its engine's pace (R6). -/
def State.nextPieces (s : State) (e : EngEntry) (n : Nat) : List Nat :=
  let left := (List.range n).filter fun g => !e.moved.contains g
  if s.dmode = 0 then left else left.take 1

/-- The first fatal access of some pieces in order: which of several a completion entry names the spec leaves open (R290, R308; DESIGN CHOICE,
log 55). -/
def State.pieceFault (s : State) (t : TileId) (e : EngEntry) (p : CopyPlan) (gs : List Nat) : Option Word :=
  gs.findSome? fun g => match s.piece t e p g with
    | .fatal a => some a
    | _ => none

/-- Elements that a conversion handles together: sixteen where either format is a block format, else one. -/
def convGroup (sf df : EFmt) : Nat := if (blkBits sf).isSome || (blkBits df).isSome then 16 else 1

/-- The whole groups of elements that n bytes of units of a format hold. -/
def wholeElems (sf df : EFmt) (n : Nat) : Nat := n / unitBytes sf * unitElems sf / convGroup sf df * convGroup sf df

/-- The cells of a piece with a fatal access that may be written none the less: granules move in no fixed order (R290). -/
def State.pieceBefore (s : State) (t : TileId) (e : EngEntry) (p : CopyPlan) (g : Nat) : List Host.Cell :=
  let as := s.pieceAddrs t e p g
  match p.conv with
  | none => (as.1.zip as.2).filterMap fun q => match s.reach t e.req.pid e.access false q.1, s.reach t e.req.pid e.access true q.2 with
    | .home h, .home d => some (d.loc, s.viewByte t h.loc)
    | _, _ => none
  | some (sf, df) =>
    let bs := s.engPrefix t e.acc as.1
    let bs := bs.take (wholeElems sf df bs.length / p.sElems * p.sUnit)
    (s.engCells t e.acc (as.2.zip (pieceBytes p bs).1)).1

/-- The cells that the first of some pieces with a fatal access may have written. -/
def State.copyBefore (s : State) (t : TileId) (e : EngEntry) (p : CopyPlan) (gs : List Nat) : List Host.Cell :=
  (gs.findSome? fun g => match s.piece t e p g with
    | .fatal _ => some (s.pieceBefore t e p g)
    | _ => none).getD []

end Sys2Proof.Machine
end

