-- ==== Sys2Proof/Machine/Matrix.lean ====
section
/-! DEFINITION. The work of the matrix sequencer: operand checks and decoding (R217-R219, R318, R319, R321), K chunks and slice
pairings (R89-R94), quadrants (R322), accumulator regions and rows (R324-R327), and the order of cells (R296). -/

namespace Sys2Proof.Machine

-- Operands (R222, R318, R319)

/-- The format a function's raw bank stands for (R318). -/
def mmaOwn : MmaFmt → EFmt
  | .bf16 => .bf16
  | .f16 => .f16
  | .sx7 => .sx7
  | .sx4 => .sx4
  | .sx2 => .sx2
  | .i8 => .i8
  | .f32x3 | .f32x6 => .f32
/-- Whether a function works on blocks. -/
def mmaBlk (f : MmaFmt) : Bool := (blkBits (mmaOwn f)).isSome

/-- The format in which an operand decodes by the code of its first bank; none when it is not accepted (R217, R319). An operand
in no bank keeps the function's own until its access fails. -/
def operandFmt (f : MmaFmt) (codes : List (BitVec 4)) : Option EFmt :=
  match (codes.head?.map bankFmt).getD .raw with
  | .raw => some (mmaOwn f)
  | e => if e = mmaOwn f ∨ (mmaBlk f = true ∧ (blkBits e).isSome = true) then some e else none

/-- The bank codes that an operand of some rows touches. -/
def State.mmaCodes (s : State) (t : TileId) (f : MmaFmt) (a : Word) (rows k : Nat) : List (BitVec 4) :=
  let first := s.touched t a 1
  match operandFmt f first with
  | some e => s.touched t a (rows * rowBytes e k)
  | none => first

/-- A tile-addressed operand that names a tile of another cluster, or none (R222). -/
def outOfCluster (t : TileId) (a : Word) : Bool :=
  let u := a.toNat / 2 ^ 32 % 2 ^ 11
  decide (regionOf a = 1) && !(dieOf u == dieOf t && clusterOf u == clusterOf t)

/-- A matrix operation as its operands and formats give it (R317-R319). -/
structure MmaPlan where
  f  : MmaFmt
  sp : Bool
  a  : Word
  b  : Word
  md : Word
  c  : Word
  fa : EFmt
  fb : EFmt
  deriving DecidableEq, Repr

/-- The stored elements of a row of A (R318). -/
def MmaPlan.ka (p : MmaPlan) : Nat := if p.sp then ctlK p.c / 2 else ctlK p.c

/-- The format of an operand, all its banks alike (R318). -/
def mmaFmt (f : MmaFmt) (codes : List (BitVec 4)) : Option EFmt :=
  if 1 < codes.eraseDups.length then none else operandFmt f codes

/-- The plan of a dispatched matrix operation, or the error of its dispatch checks: A, then B, then the metadata, then the
shape (log 41). -/
def EngEntry.mmaPlan (e : EngEntry) (t : TileId) : EngErr ⊕ MmaPlan :=
  match e.req.op with
  | .mma f sp a b c md _ =>
    if outOfCluster t a then .inl .cluster
    else match mmaFmt f e.fmtA with
    | none => .inl .format
    | some fa =>
      if outOfCluster t b then .inl .cluster
      else match mmaFmt f e.fmtB with
      | none => .inl .format
      | some fb =>
        let blk := (blkBits fa).isSome || (blkBits fb).isSome
        if sp && outOfCluster t md then .inl .cluster
        else if (blk && ctlK c % 16 != 0) || (sp && (ctlK c % 8 != 0 || ((blkBits fa).isSome && ctlK c % 32 != 0))) then .inl .shape
        else .inr ⟨f, sp, a, b, md, c, fa, fb⟩
  | _ => .inl .fault

-- Operand values (R78, R91, R93, R94)

/-- An operand element: an integer, or its slices, an absent one none (R93), with the flags of its decoding (R88) or slicing. A value that
is not sliced is `hi`. -/
structure MVal where
  int : Int
  hi  : Option FVal
  mid : Option FVal
  lo  : Option FVal
  fl  : VFlags
  deriving DecidableEq, Repr

def MVal.whole (fl : VFlags) (v : FVal) : MVal := ⟨0, some v, none, none, fl⟩

/-- The value of an exact number rounded to bf16, and the flags. -/
def toBf16 (rm : RMode) (x : Exact) : FVal × FFlags := let r := bf16.finish rm x; (bf16.unpack r.1, r.2)

/-- The slices of an f32 operand (R93). `RneBf16` sets the flags of its rounding (R26); the truncation to `mid` is no rounding helper and
sets none (DEDUCED). -/
def slices (six : Bool) (x : Nat) : MVal :=
  match f32.unpack x with
  | .fin n m e =>
    let v : FVal := .fin n m e
    let hi := f32.unpack (x - x % 65536)
    let r := addV .rne v hi.neg
    if six then
      let mid := (toBf16 .rtz r).1
      let lo := match r with
        | .num n' m' e' _ => toBf16 .rne (addV .rne (.fin n' m' e') mid.neg)
        | _ => toBf16 .rne r
      ⟨0, some hi, some mid, some lo.1, VFlags.ofIeee lo.2⟩
    else
      let lo := toBf16 .rne r
      ⟨0, some hi, none, some lo.1, VFlags.ofIeee lo.2⟩
  | v => MVal.whole VFlags.none v

/-- A bf16 or f16 operand: a subnormal is read as a zero of its sign (R78). -/
def flushed (f : Fmt) (x : Nat) : FVal := if f.isSub x then f.unpack (f.zeroBits (f.negField x)) else f.unpack x

/-- The elements of a block (R88). -/
def blockVals (b u : Nat) : List MVal := let k := blockLoad b u; (blockValues b k).map (MVal.whole (blockDecodeFlags k))

/-- The elements of one unit of an operand. -/
def unitVals (f : MmaFmt) (e : EFmt) (u : Nat) : List MVal :=
  match e with
  | .sx7 => blockVals 7 u
  | .sx4 => blockVals 4 u
  | .sx2 => blockVals 2 u
  | .bf16 => [MVal.whole VFlags.none (flushed bf16 u)]
  | .f16 => [MVal.whole VFlags.none (flushed f16 u)]
  | .f32 => [slices (f == .f32x6) u]
  | _ => [⟨sgn 8 u, none, none, none, VFlags.none⟩]

/-- The rows of an operand: n rows of k elements, packed (R318). -/
def operandRows (f : MmaFmt) (e : EFmt) (k : Nat) : Nat → List Byte → List (List MVal)
  | 0, _ => []
  | n + 1, bs =>
    let rb := rowBytes e k
    ((bytesUnits e (rb / unitBytes e) (bs.take rb)).flatMap (unitVals f e)) :: operandRows f e k n (bs.drop rb)

-- Sparse metadata (R321)

/-- Nibble i of the metadata, the low nibble of each byte first. -/
def nibble (bs : List Byte) (i : Nat) : Nat := (bs.getD (i / 2) 0).toNat / 16 ^ (i % 2) % 16
/-- A nibble whose first position is not below its second. -/
def badNibble (n : Nat) : Bool := decide (n / 4 ≤ n % 4)

/-- A row of A at its logical positions; none where the element is not stored (R94, R321). -/
def expandRow : List Nat → List MVal → List (Option MVal)
  | [], _ => []
  | n :: ns, x :: y :: rest =>
    ((List.range 4).map fun p => if p = n % 4 then some x else if p = n / 4 then some y else none) ++ expandRow ns rest
  | _ :: ns, rest => List.replicate 4 none ++ expandRow ns rest

/-- The operands as the sequencer reads them. -/
structure MmaData where
  as : List (List (Option MVal))
  bs : List (List MVal)
  deriving DecidableEq, Repr

/-- The 64-byte blocks of n bytes from an address: of each, its number, and where it begins and ends among the bytes (R223). -/
def blockSpans (a n : Nat) : List (Nat × Nat × Nat) :=
  if n = 0 then []
  else (List.range ((a + n - 1) / 64 + 1 - a / 64)).map fun i =>
    let b := a / 64 + i
    (b, max a (64 * b) - a, min (a + n) (64 * b + 64) - a)
/-- The number under which an operand's block is kept: operand 0 is A, 1 is B, 2 the metadata. -/
def blockKey (which b : Nat) : Nat := 3 * b + which

/-- The bytes of an operand, those of blocks that a group operation has read already as they were read (R223). -/
def State.mmaBytes (s : State) (t : TileId) (e : EngEntry) (which : Nat) (a : Word) (n : Nat) : EngRead :=
  match s.engRead t e.acc (addrsFrom a n) with
  | .bytes bs =>
    if e.got.isEmpty then .bytes bs
    else .bytes ((blockSpans a.toNat n).flatMap fun b => match e.got.find? fun q => q.1 = blockKey which b.1 with
      | some q => q.2
      | none => (bs.drop b.2.1).take (b.2.2 - b.2.1))
  | r => r

/-- The operand bytes of a matrix operation: A, B, then the metadata. -/
structure MmaRaw where
  a  : List Byte
  b  : List Byte
  md : List Byte
  deriving DecidableEq, Repr

/-- Read the operands of a matrix operation (R318, R321). -/
def State.mmaRaw (s : State) (t : TileId) (e : EngEntry) (p : MmaPlan) : (EngErr × Word) ⊕ MmaRaw :=
  let m := ctlM p.c
  let k := ctlK p.c
  match s.mmaBytes t e 0 p.a (m * rowBytes p.fa p.ka) with
  | .bytes xa =>
    match s.mmaBytes t e 1 p.b (ctlN p.c * rowBytes p.fb k) with
    | .bytes xb =>
      if p.sp then
        match s.mmaBytes t e 2 p.md ((m * (k / 4) + 1) / 2) with
        | .bytes xm => .inr ⟨xa, xb, xm⟩
        | .fatal a => .inl (.fault, a)
        | .waits => .inl (.fault, p.md)
      else .inr ⟨xa, xb, []⟩
    | .fatal a => .inl (.fault, a)
    | .waits => .inl (.fault, p.b)
  | .fatal a => .inl (.fault, a)
  | .waits => .inl (.fault, p.a)

/-- The operands that the bytes hold, or the error of bad metadata (R321). -/
def MmaPlan.data (p : MmaPlan) (r : MmaRaw) : (EngErr × Word) ⊕ MmaData :=
  let m := ctlM p.c
  let k := ctlK p.c
  let ra := operandRows p.f p.fa p.ka m r.a
  let rb := operandRows p.f p.fb k (ctlN p.c) r.b
  if p.sp then
    let nibs := (List.range m).map fun i => (List.range (k / 4)).map fun q => nibble r.md (i * (k / 4) + q)
    if nibs.any fun r => r.any badNibble then .inl (.metadata, 0)
    else .inr ⟨(nibs.zip ra).map fun r => expandRow r.1 r.2, rb⟩
  else .inr ⟨ra.map fun r => r.map some, rb⟩

def State.mmaRead (s : State) (t : TileId) (e : EngEntry) (p : MmaPlan) : (EngErr × Word) ⊕ MmaData :=
  match s.mmaRaw t e p with
  | .inl x => .inl x
  | .inr r => p.data r

-- Chunks (R89-R93)

/-- The slices of a pairing: of A and of B, 0 hi, 1 mid, 2 lo. -/
def MVal.slice (x : MVal) : Nat → Option FVal
  | 0 => x.hi
  | 1 => x.mid
  | _ => x.lo
/-- The slice pairings in order (R93). -/
def pairings : MmaFmt → List (Nat × Nat)
  | .f32x3 => [(2, 0), (0, 2), (0, 0)]
  | .f32x6 => [(2, 0), (1, 1), (0, 2), (1, 0), (0, 1), (0, 0)]
  | _ => [(0, 0)]

/-- The products of a chunk that are present: +0 where A is not stored, none where a slice is absent (R93, R94). -/
def chunkTerms (pr : Nat × Nat) (as : List (Option MVal)) (bs : List MVal) : List (FVal × Bool) :=
  (as.zip bs).filterMap fun p => match p.1 with
    | none => some (.fin false 0 0, false)
    | some x => match x.slice pr.1, p.2.slice pr.2 with
      | some u, some v => some (term u v)
      | _, _ => none

/-- The integer products of a chunk (R92). -/
def intSum : List (Option MVal × MVal) → Int
  | [] => 0
  | (some x, y) :: ps => x.int * y.int + intSum ps
  | (none, _) :: ps => intSum ps

/-- One chunk, or one pairing of a chunk, into a cell (R89-R93). -/
def accumulate (f : MmaFmt) (pr : Nat × Nat) (as : List (Option MVal)) (bs : List MVal) (c : BitVec 32) : BitVec 32 × FFlags :=
  if f = .i8 then (c + BitVec.ofInt 32 (intSum (as.zip bs)), FFlags.none)
  else
    let ts := chunkTerms pr as bs
    if ts.isEmpty then (c, FFlags.none)
    else
      let p := f32.finish .rne (chunkSum ts)
      let r := f32.add .rne c.toNat p.1
      (BitVec.ofNat 32 r.1, p.2.or r.2)

/-- The k positions of a chunk (R89, R91). -/
def chunkLen (f : MmaFmt) : Nat := if mmaBlk f then 16 else 8
def chunkOf {α : Type} (f : MmaFmt) (c : Nat) (xs : List α) : List α := (xs.drop (chunkLen f * c)).take (chunkLen f)

-- Cells (R220, R320, R322)

def Tile.cell (x : Tile) (r c : Nat) : BitVec 32 := assocGet 0#32 x.acc (r * 128 + c)
/-- The first write of an interval to a cell of a paired tile is logged (R376). -/
def Tile.logCell (x : Tile) (n : Nat) : Tile :=
  match x.pairing with
  | some p => if p.undoAcc.contains n then x else { x with pairing := some { p with undoAcc := p.undoAcc ++ [n] } }
  | none => x
def Tile.setCell (x : Tile) (n : Nat) (v : BitVec 32) : Tile := { x with acc := assocSet x.acc n v }
/-- Write a cell, given its row and column. -/
def Tile.putCell (x : Tile) (r c : Nat) (v : BitVec 32) : Tile := (x.logCell (r * 128 + c)).setCell (r * 128 + c) v

/-- The rows or columns of a matrix that a member computes: the first, and their number (R322). -/
def quadSpan (g : Bool) (total half : Nat) : Nat × Nat :=
  if g then (128 * half, min total (128 * half + 128) - min total (128 * half)) else (0, total)
def mmaRows (c : Word) (u : TileId) : Nat × Nat := quadSpan (ctlG c) (ctlM c) (rowOf u % 2)
def mmaCols (c : Word) (u : TileId) : Nat × Nat := quadSpan (ctlG c) (ctlN c) (colOf u % 2)

/-- The flags of the elements of a chunk in some rows. -/
def rowFlags (f : MmaFmt) (c : Nat) (rows : List (List (Option MVal))) : VFlags :=
  rows.foldl (fun fl r => (chunkOf f c r).foldl (fun fl x => match x with
    | some v => fl.or v.fl
    | none => fl) fl) VFlags.none

/-- One chunk, or one pairing of a chunk, over the cells that tile u computes (R320), with the flags of its operands and sums. -/
def mmaStep (p : MmaPlan) (d : MmaData) (u : TileId) (q : Quad) (x : Tile) : Tile × VFlags :=
  let pr := (pairings p.f).getD q.pair (0, 0)
  let rs := mmaRows p.c u
  let cs := mmaCols p.c u
  let as := (d.as.drop rs.1).take rs.2
  let bs := (d.bs.drop cs.1).take cs.2
  let fl := if rs.2 = 0 ∨ cs.2 = 0 then VFlags.none
    else (rowFlags p.f q.chunk as).or (rowFlags p.f q.chunk (bs.map fun r => r.map some))
  let cells := (List.range rs.2).flatMap fun i => (List.range cs.2).map fun j => (i, j)
  let r := cells.foldl (fun (acc : Tile × FFlags) ij =>
    let r := ctlRow0 p.c + ij.1
    let c := ctlCol0 p.c + ij.2
    let o := accumulate p.f pr (chunkOf p.f q.chunk (as.getD ij.1 [])) (chunkOf p.f q.chunk (bs.getD ij.2 [])) (acc.1.cell r c)
    (acc.1.putCell r c o.1, acc.2.or o.2)) (x, FFlags.none)
  (r.1, fl.or (VFlags.ofIeee r.2))

-- The blocks that a chunk reads (R223)

/-- Where the bytes of elements lo to hi - 1 of a packed row begin and end. -/
def elemSpan (e : EFmt) (k row lo hi : Nat) : Nat × Nat :=
  (row * rowBytes e k + lo / unitElems e * unitBytes e, row * rowBytes e k + min (rowBytes e k) ((hi + unitElems e - 1) / unitElems e * unitBytes e))
/-- The blocks of an operand that some spans of its bytes meet, with their bytes. -/
def spanBlocks (which : Nat) (a : Word) (bs : List Byte) (spans : List (Nat × Nat)) : List (Nat × List Byte) :=
  ((blockSpans a.toNat bs.length).filter fun b => spans.any fun r => decide (r.1 < b.2.2) && decide (b.2.1 < r.2)).map fun b =>
    (blockKey which b.1, (bs.drop b.2.1).take (b.2.2 - b.2.1))
/-- The operand blocks that tile u uses in a chunk. -/
def MmaPlan.chunkBlocks (p : MmaPlan) (r : MmaRaw) (u : TileId) (chunk : Nat) : List (Nat × List Byte) :=
  let l := chunkLen p.f
  let rows (x : Nat × Nat) : List Nat := (List.range x.2).map (x.1 + ·)
  let k := ctlK p.c
  let half := if p.sp then 2 else 1
  let lo := l * chunk
  let hi := min k (lo + l)
  let as := (rows (mmaRows p.c u)).map fun i => elemSpan p.fa p.ka i (lo / half) (hi / half)
  let bs := (rows (mmaCols p.c u)).map fun j => elemSpan p.fb k j lo hi
  let ms := (rows (mmaRows p.c u)).map fun i => ((i * (k / 4) + lo / 4) / 2, (i * (k / 4) + hi / 4 + 1) / 2)
  spanBlocks 0 p.a r.a as ++ spanBlocks 1 p.b r.b bs ++ spanBlocks 2 p.md r.md ms

/-- The progress after a chunk or pairing (R295, R364). -/
def Quad.advance (q : Quad) (f : MmaFmt) (k : Nat) : Quad :=
  if q.pair + 1 < mmaPairs f then { q with pair := q.pair + 1 }
  else if q.chunk + 1 < mmaChunks f k then { q with chunk := q.chunk + 1, pair := 0 }
  else { q with fin := true }

-- Accumulator operations (R324-R327)

/-- The cells of a region, row by row, and the scratchpad addresses of row r. -/
def rgRow (w : Word) (r : Nat) : List (Nat × Nat) := (List.range (rgCols w)).map fun c => (rgRow0 w + r, rgCol0 w + c)
def rgAddrs (x w : Word) (r : Nat) : List Word := addrsFrom (x + BitVec.ofNat 64 (r * rgPitch w)) (rgRowBytes w)

/-- The bytes that cells become in a region's format, row by row, and the flags (R325). -/
def Tile.regionBytes (x : Tile) (w : Word) : List Byte × VFlags :=
  let rows := (List.range (rgRows w)).map fun r => fromCells (rgFmt w) ((rgRow w r).map fun c => (x.cell c.1 c.2).toNat)
  (rows.flatMap fun r => unitsBytes (rgFmt w) r.1, rows.foldl (fun fl r => fl.or r.2) VFlags.none)

/-- The byte of a cell in an operation's results: four for each cell, at 4 · (128 · row + column). -/
def cellBytes (c : Nat × Nat) (v : Nat) : List Host.Cell := (List.range 4).zip (leBytes v 4) |>.map fun p => ((c.1 * 128 + c.2) * 4 + p.1, p.2)

/-- The cells that scratchpad bytes become, and the flags (R325). -/
def regionCells (w : Word) (bs : List Byte) : List Host.Cell × VFlags :=
  let us := fun r => bytesUnits (rgFmt w) (rgRowBytes w / unitBytes (rgFmt w)) (bs.drop (r * rgRowBytes w))
  let rows := (List.range (rgRows w)).map fun r => (r, toCells (rgFmt w) (us r))
  (rows.flatMap fun r => ((rgRow w r.1).zip r.2.1).flatMap fun p => cellBytes p.1 p.2, rows.foldl (fun fl r => fl.or r.2.2) VFlags.none)

/-- Write result bytes into the accumulator store. -/
def Tile.putAcc (x : Tile) : List Host.Cell → Tile
  | (a, b0) :: (_, b1) :: (_, b2) :: (_, b3) :: rest =>
    Tile.putAcc ((x.logCell (a / 4)).setCell (a / 4) (BitVec.ofNat 32 (leNat [b0, b1, b2, b3]))) rest
  | _ => x

/-- The cells of a row selector (R327). -/
def selCells (w : Word) : List (Nat × Nat) := (List.range 32).map fun i => (w.toNat % 256, w.toNat / 256 % 256 + i)

-- The order of cells (R221, R296)

/-- The cells that an operation touches in a tile: first row, rows, first column, columns; and whether it writes them. -/
structure Span where
  row   : Nat
  rows  : Nat
  col   : Nat
  cols  : Nat
  write : Bool
  deriving DecidableEq, Repr

def EngOp.span (o : EngOp) (u : TileId) : Option Span :=
  match o with
  | .mma _ _ _ _ c _ _ => some ⟨ctlRow0 c, (mmaRows c u).2, ctlCol0 c, (mmaCols c u).2, true⟩
  | .acz w | .acld _ w => some ⟨rgRow0 w, rgRows w, rgCol0 w, rgCols w, true⟩
  | .acst _ w | .adrn _ w _ => some ⟨rgRow0 w, rgRows w, rgCol0 w, rgCols w, false⟩
  | .acrd _ w => some ⟨w.toNat % 256, 1, w.toNat / 256 % 256, 32, false⟩
  | .acwr w _ => some ⟨w.toNat % 256, 1, w.toNat / 256 % 256, 32, true⟩
  | _ => none

def Span.meets (p q : Span) : Bool :=
  decide (p.row < q.row + q.rows) && decide (q.row < p.row + p.rows) && decide (p.col < q.col + q.cols) && decide (q.col < p.col + p.cols)

/-- Whether an earlier operation holds back a later one on a tile's cells (R296). -/
def cellsHold (u : TileId) (o n : EngEntry) : Bool :=
  match o.req.op.span u, n.req.op.span u with
  | some p, some q => p.meets q && (p.write || (q.write && o.state != .readDone))
  | _, _ => false

/-- The operations before a place in an order. -/
def beforeIn (q : TileId × Nat) : List (TileId × Nat) → List (TileId × Nat)
  | [] => []
  | p :: ps => if p = q then [] else p :: beforeIn q ps

/-- The tiles that an operation of a tile involves (R297). -/
def groupTiles (t : TileId) : List TileId := let b := groupBase t; [b, b + 1, b + 16, b + 17]
def EngOp.tilesOf (o : EngOp) (t : TileId) : List TileId := if o.isGroup then groupTiles t else [t]

end Sys2Proof.Machine
end

