-- ==== Sys2Proof/Machine/Tree.lean ====
section
/-! DEFINITION. The data channel of the reduction tree (R301-R304, R328-R331, R407): contributions, the fixed shape over virtual
participants, and the results of the members. -/

namespace Sys2Proof.Machine

-- Participants (R183, R329)

/-- A gang by its number. -/
def State.gangAt (s : State) (g : Nat) : Option Gang := s.gangs.find? fun x => x.id = g
/-- The gang of a tile. -/
def State.gangOf (s : State) (t : TileId) : Option Gang := (s.tileAt t).gang.bind s.gangAt

/-- The least exponent of a power of two that is at least n; the fuel bounds it. -/
def log2Up (n : Nat) : Nat → Nat
  | 0 => 0
  | k + 1 => let r := log2Up n k; if 2 ^ r < n then r + 1 else r

/-- log2 W of a gang, and the participants of each tile (R329). -/
def Gang.lgw (g : Gang) : Nat := if g.mode.toNat % 4 = 0 then log2Up g.ranks 20 else g.mode.toNat / 16 % 16
def Gang.perTile (g : Gang) : Nat := if g.mode.toNat % 4 = 0 then 1 else max 1 (2 ^ g.lgw / max 1 g.ranks)
/-- The rank of a tile of this package (R183). -/
def Gang.rankOf (g : Gang) (t : TileId) : Nat := g.rank0 + (g.tiles.filter fun u => u < t).length

-- Elements (R329)

/-- The bytes of an element (R329). -/
def treeEs (fn : Nat) (c : Word) : Nat :=
  if fn = 4 then 8 else match treeTy c with
  | some .bf16 | some .f16 => 2
  | _ => 4

/-- The bytes that a tile with Q participants contributes, and those of its result (R329, R331). -/
def treeSrcLen (fn : Nat) (c : Word) (q : Nat) : Nat := q * treeN c * treeEs fn c
def treeDstLen (fn : Nat) (c : Word) (q : Nat) : Nat :=
  (if 3 ≤ fn then q + (if treeTot c then 1 else 0) else 1) * treeN c * treeEs fn c

/-- The floating format of a tree type; none for i32. -/
def treeFmt (c : Word) : Option Fmt :=
  match treeTy c with
  | some .f32 => some f32
  | some .bf16 => some bf16
  | some .f16 => some f16
  | _ => none

/-- Composition of an earlier and a later affine element, A in the lower word (R97). -/
def affCompose (x y : Nat) : Nat × FFlags :=
  let a := f32.mul .rne (y % 2 ^ 32) (x % 2 ^ 32)
  let b := f32.fma (y % 2 ^ 32) (x / 2 ^ 32) (y / 2 ^ 32)
  (b.1 * 2 ^ 32 + a.1, a.2.or b.2)

/-- Combine two values, the earlier on the left (R95, R97, R330). -/
def treeCombine (fn : Nat) (c : Word) (x y : Nat) : Nat × FFlags :=
  match fn, treeFmt c with
  | 4, _ => affCompose x y
  | 1, some f => (f.maxB x y, FFlags.none)
  | 2, some f => (f.minB x y, FFlags.none)
  | _, some f => f.add .rne x y
  | 1, none => (if sgn 32 x < sgn 32 y then y else x, FFlags.none)
  | 2, none => (if sgn 32 y < sgn 32 x then y else x, FFlags.none)
  | _, none => ((x + y) % 2 ^ 32, FFlags.none)

/-- Combining with an absent operand returns the other and rounds nothing (R95, R331). -/
def combineOpt (op : Nat → Nat → Nat × FFlags) : Option Nat → Option Nat → Option Nat × FFlags
  | none, y => (y, FFlags.none)
  | x, none => (x, FFlags.none)
  | some x, some y => let r := op x y; (some r.1, r.2)

/-- How an absent result is written (R330, R331). -/
def treeAbsent (fn : Nat) (c : Word) : Nat :=
  match fn, treeFmt c with
  | 4, _ => 0x3F800000
  | 1, some f => f.infBits true
  | 2, some f => f.infBits false
  | 1, none => 0x80000000
  | 2, none => 0x7FFFFFFF
  | _, _ => 0

-- The fixed shape (R303, R331)

/-- One level up. -/
def pairUp (op : Nat → Nat → Nat × FFlags) : List (Option Nat) → List (Option Nat) × FFlags
  | x :: y :: rest =>
    let r := combineOpt op x y
    let rs := pairUp op rest
    (r.1 :: rs.1, r.2.or rs.2)
  | _ => ([], FFlags.none)

/-- The levels of the up-sweep, the root first; the count is log2 W. -/
def upSweep (op : Nat → Nat → Nat × FFlags) : Nat → List (Option Nat) → List (List (Option Nat)) × FFlags
  | 0, xs => ([xs], FFlags.none)
  | n + 1, xs =>
    let r := pairUp op xs
    let rs := upSweep op n r.1
    (rs.1 ++ [xs], r.2.or rs.2)

/-- One level down: what stands before each node of the level below. -/
def preDown (op : Nat → Nat → Nat × FFlags) : List (Option Nat) → List (Option Nat) → List (Option Nat) × FFlags
  | p :: ps, x :: _ :: rest =>
    let r := combineOpt op p x
    let rs := preDown op ps rest
    (p :: r.1 :: rs.1, r.2.or rs.2)
  | _, _ => ([], FFlags.none)

/-- The down-sweep through the levels below the root. -/
def downSweep (op : Nat → Nat → Nat × FFlags) : List (Option Nat) → List (List (Option Nat)) → List (Option Nat) × FFlags
  | pre, [] => (pre, FFlags.none)
  | pre, below :: ls =>
    let r := preDown op pre below
    let rs := downSweep op r.1 ls
    (rs.1, r.2.or rs.2)

/-- One element over its W contributions: the exclusive prefixes (for a scan), the total, and the flags. -/
def treeElem (op : Nat → Nat → Nat × FFlags) (scan : Bool) (l : Nat) (xs : List (Option Nat)) : List (Option Nat) × Option Nat × FFlags :=
  let up := upSweep op l xs
  let total := (up.1.headD []).headD none
  if scan then
    let d := downSweep op [none] (up.1.drop 1)
    (d.1, total, up.2.or d.2)
  else ([], total, up.2)

-- The whole operation

/-- Element e of participant j of a contribution. -/
def partElem (fn : Nat) (c : Word) (bs : List Byte) (j e : Nat) : Nat :=
  let es := treeEs fn c
  leNat ((bs.drop ((j * treeN c + e) * es)).take es)

/-- The W contributions to element e: rank r hosts participants r · Q to r · Q + Q - 1 (R183); those beyond are absent. -/
def treeColumn (fn : Nat) (c : Word) (w q : Nat) (parts : List TreePart) (e : Nat) : List (Option Nat) :=
  (List.range w).map fun v => (parts.find? fun p => p.rank = v / q).map fun p => partElem fn c p.data (v % q) e

/-- The results of all elements (R330, R331). -/
def treeAll (fn : Nat) (c : Word) (l q : Nat) (parts : List TreePart) : List (List (Option Nat) × Option Nat) × FFlags :=
  let rs := (List.range (treeN c)).map fun e => treeElem (treeCombine fn c) (decide (3 ≤ fn)) l (treeColumn fn c (2 ^ l) q parts e)
  (rs.map fun r => (r.1, r.2.1), rs.foldl (fun fl r => fl.or r.2.2) FFlags.none)

/-- A NaN of a format becomes the canonical one (R78). -/
def Fmt.canon (f : Fmt) (x : Nat) : Nat := if f.isNan x then f.nanBits else x
/-- An element of a result: a NaN in it is the canonical one, what it combines with nothing included (R78, R331); an affine element is two
numbers of binary32. -/
def treeCanon (fn : Nat) (c : Word) (x : Nat) : Nat :=
  if fn = 4 then f32.canon (x / 2 ^ 32) * 2 ^ 32 + f32.canon (x % 2 ^ 32)
  else match treeFmt c with
  | some f => f.canon x
  | none => x

/-- The bytes that the member of a rank writes (R330, R331). -/
def treeResult (fn : Nat) (c : Word) (q rank : Nat) (rs : List (List (Option Nat) × Option Nat)) : List Byte :=
  let put (x : Option Nat) : List Byte := leBytes ((x.map (treeCanon fn c)).getD (treeAbsent fn c)) (treeEs fn c)
  if 3 ≤ fn then
    ((List.range q).flatMap fun j => rs.flatMap fun r => put (r.1.getD (rank * q + j) none)) ++
      (if treeTot c then rs.flatMap fun r => put r.2 else [])
  else rs.flatMap fun r => put r.2

/-- The k-th operations differ in function, element type or count (R302). -/
def treeMismatch (parts : List TreePart) : Bool :=
  (parts.map fun p => (p.fn, p.ctl.toNat / 2 ^ 12 % 8, treeN p.ctl)).eraseDups.length > 1

end Sys2Proof.Machine
end

