-- ==== Sys2Proof/Machine/Welt.lean ====
section
/-! DEFINITION. The welt unit (spec/17_promises.md): weight headers (R337-R339), the welt table and handles (R340), the order of its
operations (R341), and their arithmetic (R342-R344). -/

namespace Sys2Proof.Machine

-- Weight headers (R337-R339)

/-- n bits of a header from bit lo. -/
def hdField (h : BitVec 512) (lo n : Nat) : Nat := h.toNat / 2 ^ lo % 2 ^ n

def hdV (h : BitVec 512) : Bool := h.getLsbD 0
def hdOpt (h : BitVec 512) : Bool := h.getLsbD 1
def hdOrd (h : BitVec 512) : Bool := h.getLsbD 2
def hdPred (h : BitVec 512) : Bool := h.getLsbD 3
def hdBrk (h : BitVec 512) : Bool := h.getLsbD 4
def hdH (h : BitVec 512) : Nat := hdField h 8 8
def hdNr (h : BitVec 512) : Nat := hdField h 16 7 + 1
def hdNc (h : BitVec 512) : Nat := hdField h 24 7 + 1
def hdNf (h : BitVec 512) : Nat := hdField h 32 6 + 1
def hdN (h : BitVec 512) : BitVec 32 := BitVec.ofNat 32 (hdField h 64 32)
def hdEta (h : BitVec 512) : Nat := hdField h 96 32
def hdBeta (h : BitVec 512) : Nat := hdField h 128 32
def hdAlpha (h : BitVec 512) : Nat := hdField h 160 32
def hdWptr (h : BitVec 512) : Word := BitVec.ofNat 64 (hdField h 192 64)
def hdVptr (h : BitVec 512) : Word := BitVec.ofNat 64 (hdField h 256 64)
def hdQptr (h : BitVec 512) : Word := BitVec.ofNat 64 (hdField h 320 64)
def hdSptr (h : BitVec 512) : Word := BitVec.ofNat 64 (hdField h 384 64)
/-- The number of weights. -/
def hdE (h : BitVec 512) : Nat := hdNr h * hdNc h
/-- RS, the bytes of a save record (R340). -/
def hdRs (h : BitVec 512) : Nat := if hdPred h then 4 * (hdNr h + hdNf h + hdNc h) else 4 * hdE h
/-- The elements of the predictor state (R339). -/
def hdQn (h : BitVec 512) : Nat := if hdPred h then hdNf h * hdNc h else hdE h

/-- A pointer is a multiple of 4 and no device-space address (R339). -/
def ptrOk (a : Word) : Bool := a.toNat % 4 = 0 && regionOf a ≠ 3
/-- A header is valid (R339). -/
def hdOk (h : BitVec 512) : Bool :=
  hdV h && !hdBrk h && decide (1 ≤ hdH h) && decide (hdField h 448 64 = 0) && decide (hdField h 38 26 = 0) && decide (hdField h 31 1 = 0) &&
    decide (hdField h 23 1 = 0) && decide (hdField h 5 3 = 0) && ptrOk (hdWptr h) && ptrOk (hdQptr h) && ptrOk (hdSptr h) &&
    (!hdOpt h || ptrOk (hdVptr h))

/-- Replace n bits of a header from bit lo. -/
def hdPut (h : BitVec 512) (lo n v : Nat) : BitVec 512 :=
  BitVec.ofNat 512 (h.toNat - hdField h lo n * 2 ^ lo + v % 2 ^ n * 2 ^ lo)
def hdSetN (h : BitVec 512) (n : BitVec 32) : BitVec 512 := hdPut h 64 32 n.toNat

def Tile.hdr (x : Tile) (k : Fin 16) : BitVec 512 := x.headers[k]
def Tile.putHdr (x : Tile) (k : Fin 16) (h : BitVec 512) : Tile := { x with headers := x.headers.set k h }

-- The table (R340)

/-- The handle of a promise. -/
def Tile.handleOf (x : Tile) (p : Promise) : Word :=
  BitVec.ofNat 64 ((x.gens.toList.getD p.ent 0).toNat * 2 ^ 48 + p.n0.toNat * 2 ^ 10 + p.hdr.val * 2 ^ 6 + p.ent)

/-- The live or held promise that a handle names. -/
def Tile.promiseOf (x : Tile) (h : Word) : Option Promise := x.promises.find? fun p => x.handleOf p == h

/-- The lowest free entry (R340). -/
def Tile.freeEnt (x : Tile) : Option Nat := (List.range 64).find? fun e => x.promises.all fun p => p.ent ≠ e

/-- The open promises of a header, oldest first. -/
def Tile.openOn (x : Tile) (k : Fin 16) : List Promise := x.promises.filter fun p => p.hdr = k

/-- Whether a retired operation on a header is not yet applied (R337). -/
def EngOp.weltHdr : EngOp → Option (Fin 16)
  | .welt _ h _ _ _ => some h
  | _ => none
def Tile.requests (x : Tile) : List EngReq := x.eyelets ++ x.accepted ++ x.ops.map (·.req)
def Tile.unapplied (x : Tile) (k : Fin 16) : Bool :=
  (x.eyelets ++ x.accepted).any (fun r => r.op.weltHdr == some k) ||
    x.ops.any fun e => e.req.op.weltHdr == some k && e.out.isNone && e.err.isNone

-- The order (R341)

/-- A promise that is open is closed: its entry is free, and slots parked on a full table re-check (R349). -/
def Tile.close (x : Tile) (ent : Nat) : Tile :=
  ({ x with promises := x.promises.filter fun p => p.ent ≠ ent } : Tile).wake fun p => p == .weltFull

/-- The number of the request that closes the promise in an entry, among those held. -/
def Tile.holder (x : Tile) (ent : Nat) : Option Nat :=
  (x.requests.find? fun r => x.weltHeld.contains r.id && (match r.op with
    | .welt _ _ _ e _ => e == ent
    | _ => false)).map (·.id)

/-- An operation takes its place, with the count N of that moment. -/
def Tile.placeOp (x : Tile) (id : Nat) (k : Fin 16) : Tile :=
  { x with weltQ := x.weltQ ++ [(id, hdN (x.hdr k))], weltHeld := x.weltHeld.filter fun i => i ≠ id }

/-- Held operations that no older promise of the header holds any more take their places in promise order; the fuel bounds
their number (R341). -/
def Tile.releaseHeld (k : Fin 16) : Nat → Tile → Tile
  | 0, x => x
  | n + 1, x =>
    match x.openOn k with
    | p :: _ =>
      if p.held then
        match x.holder p.ent with
        | some id => Tile.releaseHeld k n ((x.placeOp id k).close p.ent)
        | none => x
      else x
    | [] => x

/-- A redemption or retirement that need not wait takes its place and closes its promise (R341). -/
def Tile.placeClosing (x : Tile) (id : Nat) (k : Fin 16) (ent : Nat) : Tile := Tile.releaseHeld k 64 ((x.placeOp id k).close ent)
/-- One that must wait is held. -/
def Tile.holdOp (x : Tile) (id ent : Nat) : Tile :=
  { x with
    weltHeld := x.weltHeld ++ [id]
    promises := x.promises.map fun p => if p.ent = ent then { p with held := true } else p }

/-- The oldest promise of a header that an update would carry past its horizon (R345). -/
def Tile.expiring (x : Tile) (k : Fin 16) : Option Promise :=
  (x.openOn k).find? fun p => decide (hdH (x.hdr k) < (hdN (x.hdr k) - p.n0).toNat)

-- What an operation reads and writes (R340, R342, R350)

/-- The save record of a promise. -/
def saveAddr (h : BitVec 512) (n0 : BitVec 32) : Word := hdSptr h + BitVec.ofNat 64 (n0.toNat % (hdH h + 1) * hdRs h)

/-- The elements of the operand that an operation reads (R342, R343). -/
def operandLen (fn : WeltFn) (h : BitVec 512) : Nat :=
  match fn with
  | .prmi => if hdPred h then hdNr h + hdNf h else 0
  | .wupd => if hdPred h then hdNr h + hdNc h else hdE h
  | .prmr _ => if hdPred h then hdNc h else hdE h
  | .prmx _ _ => 0

/-- The ranges that an operation touches: address, bytes, and whether it writes them (R350). -/
def weltRanges (fn : WeltFn) (h : BitVec 512) (n0 : BitVec 32) (operand : Word) : List (Word × Nat × Bool) :=
  let opnd := if operandLen fn h = 0 then [] else [(operand, 4 * operandLen fn h, false)]
  let save (w : Bool) := (saveAddr h n0, hdRs h, w)
  let wv := (hdWptr h, 4 * hdE h, true) :: (if hdOpt h then [(hdVptr h, 4 * hdE h, true)] else [])
  let q (w : Bool) := (hdQptr h, 4 * hdQn h, w)
  match fn with
  | .wupd => opnd ++ wv
  | .prmi => opnd ++ wv ++ [save true, q false]
  | .prmr _ => opnd ++ wv ++ [save false, q true]
  | .prmx _ true => wv ++ [save false]
  | .prmx _ false => []

-- Arithmetic (R25, R342, R343)

/-- An exact product of f32 patterns, and whether it is 0 × ∞. The factors are taken from the last to the first, which only NV can show, where
one is a NaN and others are 0 and ∞ (DESIGN CHOICE, log 70). -/
def prodTerm : List Nat → FVal × Bool
  | [] => (.fin false 1 0, false)
  | [x] => (f32.unpack x, false)
  | x :: xs =>
    let r := prodTerm xs
    let p := term (f32.unpack x) r.1
    (p.1, p.2 || r.2)

/-- `Rne32` of an exact sum of exact products (R25, R342). -/
def rne32 (ts : List (List Nat)) : Nat × FFlags := f32.finish .rne (chunkSum (ts.map prodTerm))
/-- The negative of an f32 pattern. -/
def negF (x : Nat) : Nat := if x < 2 ^ 31 then x + 2 ^ 31 else x - 2 ^ 31

/-- Compute elements and gather their flags. -/
def mapF {α : Type} (f : α → Nat × FFlags) : List α → List Nat × FFlags
  | [] => ([], FFlags.none)
  | x :: xs =>
    let r := f x
    let rs := mapF f xs
    (r.1 :: rs.1, r.2.or rs.2)

/-- The outer product of rows and columns, each element rounded, row by row. -/
def outer (xs ys : List Nat) : List Nat × FFlags := mapF (fun p : Nat × Nat => rne32 [[p.1, p.2]]) (xs.flatMap fun x => ys.map fun y => (x, y))

/-- Column c of a row-major array. -/
def columnOf (nc : Nat) (m : List Nat) (rows c : Nat) : List Nat := (List.range rows).map fun r => m.getD (r * nc + c) 0

/-- What an operation has done so far: the bytes it has written, in order, and its flags. -/
structure WeltRun where
  cells : List Host.Cell
  flags : FFlags
  deriving DecidableEq, Repr

/-- What an operation comes to: it waits for a translation, meets a fatal access with part of it done, or is done. -/
inductive WeltOut where
  | waits
  | fatal (a : Word) (r : WeltRun)
  | done (r : WeltRun)
  deriving DecidableEq, Repr

def WeltRun.start : WeltRun := ⟨[], FFlags.none⟩
def WeltRun.raise (r : WeltRun) (fl : FFlags) : WeltRun := { r with flags := r.flags.or fl }

/-- An operation goes on where it has not stopped. -/
def WeltOut.andThen (k : WeltRun → WeltOut) : WeltOut → WeltOut
  | .done r => k r
  | o => o

/-- A byte as an operation sees it, which sees what it has written itself. -/
def State.weltByte (s : State) (t : TileId) (r : WeltRun) (l : Nat) : Byte :=
  match lastWhere (fun (c : Host.Cell) => c.1 = l) r.cells with
  | some c => c.2
  | none => s.viewByte t l

/-- The places of the bytes that an operation accesses, in order. -/
def State.weltPlaces (s : State) (t : TileId) (acc : Acc) (write : Bool) (r : WeltRun) : List Word → (List Nat → WeltOut) → WeltOut
  | [], k => k []
  | a :: as, k =>
    match s.reach t acc.pid acc.id write a with
    | .fatal => .fatal a r
    | .waits => .waits
    | .home h => State.weltPlaces s t acc write r as fun ls => k (h.loc :: ls)

/-- Read n f32 elements. -/
def State.rdF (s : State) (t : TileId) (acc : Acc) (r : WeltRun) (a : Word) (n : Nat) (k : List Nat → WeltOut) : WeltOut :=
  s.weltPlaces t acc false r (addrsFrom a (4 * n)) fun ls => k (bytesUnits .f32 n (ls.map (s.weltByte t r)))

/-- Write an f32 element, with the flags of its computation. -/
def State.wrF (s : State) (t : TileId) (acc : Acc) (r : WeltRun) (a : Word) (v : Nat × FFlags) : WeltOut :=
  s.weltPlaces t acc true r (addrsFrom a 4) fun ls => .done ⟨r.cells ++ ls.zip (leBytes v.1 4), r.flags.or v.2⟩

/-- Element e of an array becomes a function of itself. -/
def State.stepF (s : State) (t : TileId) (acc : Acc) (base : Word) (e : Nat) (f : Nat → Nat × FFlags) (r : WeltRun) : WeltOut :=
  let a := base + BitVec.ofNat 64 (4 * e)
  s.rdF t acc r a 1 fun xs => s.wrF t acc r a (f (xs.getD 0 0))

/-- A step for each element of a list, in order; e numbers the first. -/
def eachElem {α : Type} (f : Nat → α → WeltRun → WeltOut) (e : Nat) : List α → WeltRun → WeltOut
  | [], r => .done r
  | x :: xs, r => (f e x r).andThen (eachElem f (e + 1) xs)

/-- Element e of an update (R342), with its gradient: V[e] is written before W[e] is read. -/
def State.updateElem (s : State) (t : TileId) (acc : Acc) (h : BitVec 512) (e g : Nat) (r : WeltRun) : WeltOut :=
  if hdOpt h then
    let a := hdVptr h + BitVec.ofNat 64 (4 * e)
    s.rdF t acc r a 1 fun v =>
      let v' := rne32 [[hdBeta h, v.getD 0 0], [g]]
      (s.wrF t acc r a v').andThen (s.stepF t acc (hdWptr h) e fun w => rne32 [[w], [negF (hdEta h), v'.1]])
  else s.stepF t acc (hdWptr h) e (fun w => rne32 [[w], [negF (hdEta h), g]]) r

/-- An update with gradient g (R342), after what is done. -/
def State.weltUpdate (s : State) (t : TileId) (acc : Acc) (h : BitVec 512) (g : List Nat) (r : WeltRun) : WeltOut :=
  eachElem (s.updateElem t acc h) 0 g r

/-- `wupd` (R342). -/
def State.weltWupd (s : State) (t : TileId) (acc : Acc) (h : BitVec 512) (operand : Word) : WeltOut :=
  s.rdF t acc .start operand (operandLen .wupd h) fun o =>
    if hdPred h then
      let g := outer (o.take (hdNr h)) (o.drop (hdNr h))
      s.weltUpdate t acc h g.1 (WeltRun.start.raise g.2)
    else s.weltUpdate t acc h o .start

/-- The save record of a promise is written (R340). -/
def State.weltSave (s : State) (t : TileId) (acc : Acc) (h : BitVec 512) (n0 : BitVec 32) (xs : List Nat) (r : WeltRun) : WeltOut :=
  eachElem (fun e x r => s.wrF t acc r (saveAddr h n0 + BitVec.ofNat 64 (4 * e)) (x, FFlags.none)) 0 xs r

/-- `prmi` (R342): the prediction, its save record, and the update with it. -/
def State.weltPrmi (s : State) (t : TileId) (acc : Acc) (h : BitVec 512) (n0 : BitVec 32) (operand : Word) : WeltOut :=
  if hdPred h then
    s.rdF t acc .start operand (operandLen .prmi h) fun o => s.rdF t acc .start (hdQptr h) (hdQn h) fun m =>
      let x := o.take (hdNr h)
      let f := o.drop (hdNr h)
      let go := mapF (fun c => rne32 ((f.zip (columnOf (hdNc h) m (hdNf h) c)).map fun p => [p.1, p.2])) (List.range (hdNc h))
      let g := outer x go.1
      (s.weltSave t acc h n0 (o ++ go.1) (WeltRun.start.raise (go.2.or g.2))).andThen (s.weltUpdate t acc h g.1)
  else
    s.rdF t acc .start (hdQptr h) (hdE h) fun q => (s.weltSave t acc h n0 q .start).andThen (s.weltUpdate t acc h q)

/-- p and S after k steps (R343). -/
def powers (b : Nat) : Nat → Nat × Nat × FFlags
  | 0 => (0x3F800000, 0x3F800000, FFlags.none)
  | k + 1 =>
    let r := powers b k
    let p := rne32 [[r.1, b]]
    let S := rne32 [[r.2.1], [p.1]]
    (p.1, S.1, (r.2.2.or p.2).or S.2)

/-- W and V of a redemption with δ (R343): W[e] is written before V[e] is read. -/
def State.weltCorrect (s : State) (t : TileId) (acc : Acc) (h : BitVec 512) (k : Nat) (d : List Nat) (r : WeltRun) : WeltOut :=
  let ps := powers (if hdOpt h then hdBeta h else 0) k
  let es := rne32 [[hdEta h, ps.2.1]]
  let elem (e x : Nat) (r : WeltRun) : WeltOut :=
    let o := s.stepF t acc (hdWptr h) e (fun w => rne32 [[w], [negF es.1, x]]) r
    if hdOpt h then o.andThen (s.stepF t acc (hdVptr h) e fun v => rne32 [[v], [ps.1, x]]) else o
  eachElem elem 0 d (r.raise (ps.2.2.or es.2))

/-- The predictor's training (R343): element e of Q or M moves by α times a product. -/
def State.weltTrain (s : State) (t : TileId) (acc : Acc) (h : BitVec 512) (ps : List (List Nat)) (r : WeltRun) : WeltOut :=
  eachElem (fun e p => s.stepF t acc (hdQptr h) e fun q => rne32 [[q], hdAlpha h :: p]) 0 ps r

/-- A redemption (R343), or the reverting retirement, whose gradient is zero and which does not train (R344). -/
def State.weltRedeem (s : State) (t : TileId) (acc : Acc) (h : BitVec 512) (n0 n : BitVec 32) (train : Bool) (operand : Word) : WeltOut :=
  let k := (n - n0 - 1).toNat
  let withG (len : Nat) (f : List Nat → WeltOut) : WeltOut :=
    if train then s.rdF t acc .start operand len f else f (List.replicate len 0)
  let minus := fun p : Nat × Nat => rne32 [[p.1], [negF p.2]]
  let training (ps : List (List Nat)) (r : WeltRun) : WeltOut := if train then s.weltTrain t acc h ps r else .done r
  if hdPred h then
    s.rdF t acc .start (saveAddr h n0) (hdNr h + hdNf h + hdNc h) fun sv => withG (hdNc h) fun g =>
      let x := sv.take (hdNr h)
      let f := (sv.drop (hdNr h)).take (hdNf h)
      let dout := mapF minus (g.zip (sv.drop (hdNr h + hdNf h)))
      let d := outer x dout.1
      (s.weltCorrect t acc h k d.1 (WeltRun.start.raise (dout.2.or d.2))).andThen
        (training (f.flatMap fun a => dout.1.map fun b => [a, b]))
  else
    s.rdF t acc .start (saveAddr h n0) (hdE h) fun sv => withG (hdE h) fun g =>
      let d := mapF minus (g.zip sv)
      (s.weltCorrect t acc h k d.1 (WeltRun.start.raise d.2)).andThen (training (d.1.map fun x => [x]))

/-- An operation at its place, with the count n there (R341-R344). -/
def State.weltWork (s : State) (t : TileId) (acc : Acc) (fn : WeltFn) (h : BitVec 512) (n0 n : BitVec 32) (operand : Word) : WeltOut :=
  match fn with
  | .wupd => s.weltWupd t acc h operand
  | .prmi => s.weltPrmi t acc h n0 operand
  | .prmr _ => s.weltRedeem t acc h n0 n true operand
  | .prmx _ true => s.weltRedeem t acc h n0 n false operand
  | .prmx _ false => .done .start

end Sys2Proof.Machine
end

