-- ==== Sys2Proof/Machine/Promise.lean ====
section
/-! DEFINITION. The promise instructions: PRM (spec/17_promises.md, R345-R353). -/

namespace Sys2Proof.Machine

/-- A header word that names a valid header (R349). -/
def needHdr (s : State) (w : Word) (k : Fin 16 → Out) : Out :=
  let h : Fin 16 := Fin.ofNat 16 w.toNat
  if w.toNat / 16 ≠ 0 ∨ hdOk (s.tile.hdr h) = false then engineError s w else k h

/-- A handle that names a live promise whose header is not broken (R349, R352). -/
def needLive (s : State) (w : Word) (k : Promise → Out) : Out :=
  match s.tile.promiseOf w with
  | some p => if p.held || hdBrk (s.tile.hdr p.hdr) then engineError s w else k p
  | none => engineError s w

/-- An operand address that is read (R348, R349). -/
def needOperand (s : State) (r : Reg) (k : Word → Out) : Out :=
  exS s r fun a => if ptrOk a then k a else engineError s a

/-- The expiry check of an update (R345). -/
def needTime (s : State) (h : Fin 16) (k : Out) : Out :=
  match s.tile.expiring h with
  | some p => trap s .promiseExpired (s.tile.handleOf p)
  | none => k

/-- A PRM operation issues (R349): TL and an eyelet; the continuation makes the changes of retirement, told the request's
number. -/
def issueWelt (s : State) (op : EngOp) (k : State → Nat → Out) : Out :=
  needCnt s .tl (needEyelet s (
    k ((s.submit op false 0 none).modThr fun th => { th with cntTl := th.cntTl + 1 }) s.tile.nextId))

/-- The promise that a `prmi` makes, in an entry (R340, R347). -/
def Tile.issue (x : Tile) (ent : Nat) (h : Fin 16) (slot : Slot) : Tile :=
  let n0 := hdN (x.hdr h)
  { x with
    gens := x.gens.set (Fin.ofNat 64 ent : Fin 64) (x.gens[(Fin.ofNat 64 ent : Fin 64)] + 1)
    promises := x.promises ++ [⟨ent, h, n0, some slot, x.vtime, false⟩] }
/-- An update raises N at its retirement (R342). -/
def Tile.raiseN (x : Tile) (h : Fin 16) : Tile := x.putHdr h (hdSetN (x.hdr h) (hdN (x.hdr h) + 1))

/-- `prmi` past its checks: it parks when the table is full, else takes the lowest free entry (R340, R349). -/
def issuePrmi (s : State) (d : Reg) (h : Fin 16) (operand : Word) : Out :=
  needTime s h (needCnt s .tl (
    match s.tile.freeEnt with
    | none => park s .weltFull
    | some ent =>
      let n0 := hdN (s.tile.hdr h)
      issueWelt s (.welt .prmi h n0 ent operand) fun s id =>
        let k := s.curSlot
        let s := s.modCur fun x => ((x.issue ent h k).raiseN h).placeOp id h
        let s := s.modThr fun th => { th with lastN0 := n0 }
        let handle := match s.tile.promises.find? fun p => p.ent = ent with
          | some p => s.tile.handleOf p
          | none => 0
        retire (s.putS d handle) [handle]))

def execPrmi (d a b : Reg) (s : State) : Out :=
  exS s a fun w => needHdr s w fun h =>
    if hdPred (s.tile.hdr h) then exS s b fun x => dstS s d (if ptrOk x then issuePrmi s d h x else engineError s x)
    else dstS s d (issuePrmi s d h 0)

def execWupd (a b : Reg) (s : State) : Out :=
  exS s a fun w => needHdr s w fun h => needOperand s b fun x => needTime s h (
    let n0 := hdN (s.tile.hdr h)
    issueWelt s (.welt .wupd h n0 64 x) fun s id => retire (s.modCur fun t => (t.raiseN h).placeOp id h) [w, x])

/-- Whether a redemption or retirement is strict (R346). -/
def Tile.strict (x : Tile) (o : PrmOrd) (h : Fin 16) : Bool :=
  !x.throughput || (match o with
    | .strict => true
    | .arrival => false
    | .hdr => !hdOrd (x.hdr h))

/-- A redemption or retirement takes its place, or is held while an older promise of its header is open (R341, R346). -/
def Tile.settle (x : Tile) (strict : Bool) (id : Nat) (p : Promise) : Tile :=
  let first := match x.openOn p.hdr with
    | q :: _ => q.ent = p.ent
    | [] => true
  if strict && !first then x.holdOp id p.ent else x.placeClosing id p.hdr p.ent

def execPrmr (o : PrmOrd) (a b : Reg) (s : State) : Out :=
  exS s a fun w => needLive s w fun p => needOperand s b fun x =>
    let strict := s.tile.strict o p.hdr
    issueWelt s (.welt (.prmr strict) p.hdr p.n0 p.ent x) fun s id => retire (s.modCur fun t => t.settle strict id p) [w, x]

def execPrmx (o : PrmOrd) (pol : PrmPolicy) (a : Reg) (s : State) : Out :=
  exS s a fun w => needLive s w fun p =>
    let strict := s.tile.strict o p.hdr
    issueWelt s (.welt (.prmx strict (pol == .revert)) p.hdr p.n0 p.ent 0) fun s id => retire (s.modCur fun t => t.settle strict id p) [w]

/-- `prmq` of a handle: STATE and K (R351). -/
def Tile.askPromise (x : Tile) (w : Word) : Word :=
  match x.promiseOf w with
  | some p => BitVec.ofNat 64 (min 255 (hdN (x.hdr p.hdr) - p.n0 - 1).toNat * 2 ^ 8 + (if p.held then 2 else 1))
  | none => 0
/-- `prmq.hdr`: N, OPEN, BRK and V (R351). -/
def Tile.askHeader (x : Tile) (k : Fin 16) : Word :=
  let h := x.hdr k
  BitVec.ofNat 64 ((if hdV h then 2 ^ 40 else 0) + (if hdBrk h then 2 ^ 39 else 0) + (x.openOn k).length * 2 ^ 32 + (hdN h).toNat)

def execPrmq (sel : PrmSel) (d a : Reg) (s : State) : Out :=
  exS s a fun w => match sel with
    | .promise => retireS s d (s.tile.askPromise w)
    | .header => if w.toNat / 16 ≠ 0 then engineError s w else retireS s d (s.tile.askHeader (Fin.ofNat 16 w.toNat))

end Sys2Proof.Machine
end

