-- ==== Sys2Proof/Machine/Device.lean ====
section
/-! DEFINITION. The registers of device space (R214): which register a byte belongs to, what it reads as, and what a write does
(R216, R235, R337, R363, R379, R410). -/

namespace Sys2Proof.Machine

/-- A register of device space that a thread or the host can access. -/
inductive DevReg where
  | fmt (t : TileId) (n : Fin 16)                          -- bank format (R216)
  | brk (t : TileId) (i : Fin 4)                           -- breakpoint (R379)
  | watchAddr (t : TileId) (j : Fin 2)
  | watchCtl (t : TileId) (j : Fin 2)
  | record (t : TileId) (k : Slot) (r : StreamReg) (w : Fin 4)   -- binding record (R363)
  | suspect (t : TileId) (i : Fin 3)                       -- SUSPECT record (R410)
  | header (t : TileId) (k : Fin 16) (w : Fin 8)           -- weight header (R337)
  | pdbase | inval | resume                                -- station control (R235)
  deriving DecidableEq, Repr

/-- The register at an offset of a tile control window. -/
def ctlReg (t : TileId) (off : Nat) : Option DevReg :=
  if off < 0x80 then some (.fmt t (Fin.ofNat 16 (off / 8)))
  else if 0x100 ≤ off ∧ off < 0x120 then some (.brk t (Fin.ofNat 4 ((off - 0x100) / 8)))
  else if 0x140 ≤ off ∧ off < 0x160 then
    (if (off - 0x140) / 8 % 2 = 0 then some (.watchAddr t (Fin.ofNat 2 ((off - 0x140) / 16)))
     else some (.watchCtl t (Fin.ofNat 2 ((off - 0x140) / 16))))
  else if 0x1100 ≤ off ∧ off < 0x1800 then
    some (.record t (Fin.ofNat 8 ((off - 0x1000) / 0x100)) (Fin.ofNat 8 (off / 0x20 % 8)) (Fin.ofNat 4 (off / 8 % 4)))
  else if 0x2000 ≤ off ∧ off < 0x2018 then some (.suspect t (Fin.ofNat 3 ((off - 0x2000) / 8)))
  else none

/-- The register that the byte at a device-space address belongs to, and the byte's place in it (R214). -/
def devOf (a : Word) : Option (DevReg × Nat) :=
  let n := a.toNat
  let cls := n / 2 ^ 43 % 16
  let t := n / 2 ^ 32 % 2 ^ 11
  let off := n % 2 ^ 32
  if regionOf a ≠ 3 ∨ n / 2 ^ 47 % 2 ^ 15 ≠ 0 ∨ dieOf t ≥ Config.dies then none
  else match cls with
  | 0 => (ctlReg t off).map fun r => (r, off % 8)
  | 2 => if off < 0x400 then some (.header t (Fin.ofNat 16 (off / 64)) (Fin.ofNat 8 (off / 8)), off % 8) else none
  | 3 =>
    if t % 256 ≠ 0 then none
    else if off < 8 then some (.pdbase, off)
    else if off < 16 then some (.inval, off - 8)
    else if off < 24 then some (.resume, off - 16)
    else none
  | _ => none

/-- Word w of a binding record (R363). -/
def recordWord (b : Bind) (w : Fin 4) : Word :=
  if b.kind = .unbound then 0
  else match w with
  | 0 => b.base
  | 1 => b.stride
  | 2 => b.ctl
  | 3 => BitVec.ofNat 64 (kindCode b.kind * 2 ^ 32 + b.pos % 2 ^ 32)

/-- What a register reads as. -/
def State.devRead (s : State) : DevReg → Word
  | .fmt t n => ((s.tileAt t).fmts[n]).setWidth 64
  | .brk t i => (s.tileAt t).brks[i]
  | .watchAddr t j => ((s.tileAt t).watches[j]).addr
  | .watchCtl t j => ((s.tileAt t).watches[j]).ctl
  | .record t k r w => recordWord ((s.thrAt t k).binds[r]) w
  | .suspect t 0 => (s.tileAt t).suspect.lpv
  | .suspect t 1 => (s.tileAt t).suspect.detv
  | .suspect t 2 => (s.tileAt t).suspect.word
  | .header t k w => BitVec.ofNat 64 (hdField ((s.tileAt t).hdr k) (64 * w.val) 64)
  | .pdbase => s.pdbase
  | .inval | .resume => 0

/-- One byte of device space; none where the window defines nothing, or its die is lost (R214, R404). -/
def State.devByte (s : State) (a : Word) : Option Byte :=
  match devOf a with
  | some (r, i) =>
    if s.lostDies.contains (a.toNat / 2 ^ 40 % 8) then none
    else some (BitVec.ofNat 8 ((s.devRead r).toNat / 256 ^ i))
  | none => none

/-- n bytes of device space. -/
def State.devBytes (s : State) (a : Word) : Nat → Option (List Byte)
  | 0 => some []
  | n + 1 => match s.devByte a, s.devBytes (a + 1) n with
    | some b, some bs => some (b :: bs)
    | _, _ => none

/-- The register that some bytes are stored to and the value of its 8 bytes after them, the other bytes as they read. -/
def State.devStore (s : State) (a : Word) (bs : List Byte) : Option (DevReg × Word) :=
  match devOf a with
  | some (r, i) =>
    if s.lostDies.contains (a.toNat / 2 ^ 40 % 8) then none
    else
      let old := leBytes (s.devRead r).toNat 8
      some (r, BitVec.ofNat 64 (leNat (old.take i ++ bs ++ old.drop (i + bs.length))))
  | none => none

-- Writes (R216, R235, R337, R363, R379)

/-- A bank format register: codes 9 to 15 leave it (R216). -/
def Tile.setFmt (x : Tile) (n : Fin 16) (v : Word) : Tile :=
  let c : BitVec 4 := v.setWidth 4
  if 9 ≤ c.toNat then x else { x with fmts := x.fmts.set n c }

/-- A watchpoint control word that takes effect (R379). -/
def watchCtlOk (v : Word) : Bool := v &&& 0xFFFFFFFFFFFFFC08 == 0 && decide (v.toNat / 16 % 64 ≤ 6)
def Tile.setWatchCtl (x : Tile) (j : Fin 2) (v : Word) : Tile :=
  if watchCtlOk v then { x with watches := x.watches.set j { x.watches[j] with ctl := v } } else x
def Tile.setWatchAddr (x : Tile) (j : Fin 2) (v : Word) : Tile :=
  { x with watches := x.watches.set j { x.watches[j] with addr := v } }
def Tile.setBrk (x : Tile) (i : Fin 4) (v : Word) : Tile := { x with brks := x.brks.set i v }

-- The host-memory log (R414, R415)

/-- Whether the log is set and has room for one more record of 32 bytes. -/
def State.logRoom (s : State) : Bool := decide (32 * (s.logNext + 1) ≤ s.logSize)

/-- Write a record and signal it: vector 2 for a system event, vector 0 for a fault (R414, R415). -/
def State.writeRecord (s : State) (r : LogRec) : State :=
  let at32 := hostLoc (s.logBase.toNat + 32 * s.logNext)
  let bytes := leBytes r.w0.toNat 8 ++ leBytes r.w1.toNat 8 ++ leBytes r.w2.toNat 8 ++ leBytes s.logSeq 8
  let s := s.perform (((List.range 32).zip bytes).map fun p => (at32 + p.1, p.2))
  { s with logNext := s.logNext + 1, logSeq := s.logSeq + 1, msix := s.msix ++ [if r.w0.getLsbD 63 then 2 else 0] }

/-- A new record; it waits behind those that wait, and while the log is full or not set. -/
def State.logRecord (s : State) (r : LogRec) : State :=
  if s.logWait.isEmpty && s.logRoom then s.writeRecord r else { s with logWait := s.logWait ++ [r] }

/-- Records that wait are written in order as far as there is room; the fuel is their number. -/
def State.drainLog : Nat → State → State
  | 0, s => s
  | n + 1, s =>
    match s.logWait with
    | [] => s
    | r :: rest => if s.logRoom then State.drainLog n (({ s with logWait := rest } : State).writeRecord r) else s

/-- The host sets the log anew: records start at its base, those that wait first (log 51). -/
def State.setLog (s : State) (base : Word) (size : Nat) : State :=
  State.drainLog s.logWait.length { s with logBase := base, logSize := size, logNext := 0 }

/-- A system event (R415). -/
def State.sysEvent (s : State) (code : Nat) (w1 w2 : Word) : State := s.logRecord ⟨BitVec.ofNat 64 (2 ^ 63 + code), w1, w2⟩

-- Station control (R226, R230, R231, R235)

/-- PDBASE: bits [39:12] (R235); with its write translation is set up (R428). -/
def State.setPdbase (s : State) (v : Word) : State := { s with pdbase := v &&& 0x000000FFFFFFF000, root := { s.root with xlatSet := true } }

/-- Whether two virtual addresses lie in one leaf of a level (R227). -/
def sameLeaf (level va vb : Nat) : Bool := va / leafSize level = vb / leafSize level
/-- Whether the outcome of the walk of a 64 KiB page covers another: a leaf covers all the pages it maps (R227). -/
def Walk.covers (w : Walk) (own page : BitVec 36) : Bool :=
  match w with
  | .leaf _ level _ => sameLeaf level (own.toNat * 2 ^ 16) (page.toNat * 2 ^ 16)
  | .fatal => own = page

/-- The cached translations of a station (R226). -/
def xlatRoom : Nat := 4096

/-- A station caches the outcome of a walk. With all its entries in use it drops one, which the spec does not name: a free value does
(log 65). -/
def State.putXlat (s : State) (x : Xlat) : State :=
  let rest := s.xlats.filter fun y => !(y.die = x.die && y.station = x.station && y.pid = x.pid && y.page = x.page)
  let here := rest.filter fun y => y.die = x.die && y.station = x.station
  if here.length < xlatRoom then { s with xlats := rest ++ [x] }
  else
    let out := here[(Config.freeValue s.free).toNat % here.length]?
    { s with free := s.free + 1, xlats := (rest.filter fun y => some y ≠ out) ++ [x] }

/-- The pid and the page of an INVAL or RESUME word (R235). -/
def stationPid (v : Word) : BitVec 16 := v.setWidth 16
def stationPage (v : Word) : BitVec 36 := (v >>> 28).setWidth 36

/-- INVAL: the translations of the page, or of the whole pid, are dropped in every station (R235, R238). -/
def State.invalidate (s : State) (v : Word) : State :=
  { s with xlats := s.xlats.filter fun x => !(x.pid = stationPid v && (v.getLsbD 16 || x.walk.covers x.page (stationPage v))) }

/-- Requests for a page have been given a translation, by which they go from then on (R234). -/
def State.translate (s : State) (pid : BitVec 16) (page : BitVec 36) (rs : List PageReq) (w : Walk) : State :=
  { s with trans := s.trans ++ rs.map fun r => ⟨pid, page, r, w⟩ }

/-- An access of a tile that has gone by a cached translation for some of its bytes keeps it for the others (R234). -/
def State.keepTrans (s : State) (t : TileId) (acc : Acc) (as : List Word) : State :=
  let pages := ((as.filter fun a => regionOf a = 2).map fun a => pageOf (a.toNat % 2 ^ 52)).eraseDups
  { s with trans := s.trans ++ pages.filterMap fun p =>
      if s.trans.any fun x => x.isFor t (.access acc.id) acc.pid p then none
      else (s.cached (dieOf t) acc.pid (p.toNat * 2 ^ 16)).map fun w => ⟨acc.pid, p, ⟨t, .access acc.id, false⟩, w⟩ }

/-- Whether a request is a fetch. -/
def PageReq.isFetch (r : PageReq) : Bool := match r.asker with
  | .fetch _ => true
  | .access _ => false
/-- The fault record of a page that some stations hold, with what their requests ask for and the number of the stations (R230, R414). -/
def faultRecord (pid : BitVec 16) (page : BitVec 36) (hs : List HeldPage) : LogRec :=
  let rs := hs.flatMap (·.reqs)
  ⟨BitVec.ofNat 64 (pid.toNat + (if rs.any (·.write) then 2 ^ 16 else 0) + (if rs.any PageReq.isFetch then 2 ^ 17 else 0)),
    BitVec.ofNat 64 (page.toNat * 2 ^ 28), BitVec.ofNat 64 hs.length⟩
/-- Where the stations hold a page of a pid. -/
def State.heldAt (s : State) (pid : BitVec 16) (page : BitVec 36) : List HeldPage := s.heldPages.filter fun x => x.pid = pid && x.page = page
/-- A record of a page that still waits for room in the log keeps up with what the stations hold (R230, R414). -/
def State.renewRecord (s : State) (pid : BitVec 16) (page : BitVec 36) : State :=
  let new := faultRecord pid page (s.heldAt pid page)
  { s with logWait := s.logWait.map fun r => if r.w0.getLsbD 63 = false ∧ (r.w0.setWidth 16 : BitVec 16) = pid ∧ r.w1 = new.w1 then new else r }

/-- A station walks again for the requests that it holds: a page that is held again stays held (R230). -/
def State.rewalk (s : State) (h : HeldPage) : State :=
  match s.walkAt h.die h.pid (h.page.toNat * 2 ^ 16) with
  | .found w =>
    (({ s with heldPages := s.heldPages.filter (· ≠ h) } : State).putXlat ⟨h.die, h.station, h.pid, h.page, w⟩).translate h.pid h.page h.reqs w
  | .held | .cut => s

/-- The requests of a held page complete as fatal; a fetch among them traps (R230). -/
def State.abortHeld (s : State) (h : HeldPage) : State :=
  let s := ({ s with heldPages := s.heldPages.filter (· ≠ h) } : State).translate h.pid h.page (h.reqs.filter fun r => !r.isFetch) .fatal
  h.reqs.foldl (fun s r => match r.asker with
    | .fetch k =>
      let x := s.tileAt r.tile
      if x.pid = h.pid && (x.slots[k]).fetches h.page x.throughput then s.fetchTrap r.tile k else s
    | .access _ => s) s

/-- Whether a held page is the one that a RESUME word names. -/
def HeldPage.isOf (h : HeldPage) (v : Word) : Bool := h.pid = stationPid v && h.page = stationPage v
/-- Whether a RESUME must wait, for a station does not reach the tables that it walks again (R235, R388). -/
def State.resumeCut (s : State) (v : Word) : Bool :=
  !v.getLsbD 16 && s.heldPages.any fun h => h.isOf v && s.walkAt h.die h.pid (h.page.toNat * 2 ^ 16) == .cut

/-- RESUME: a held page is answered in every station (R230, R235). Its requests are walked for again, or with ABORT complete as fatal. A
page that is held again, now unanswered, has a new fault record (R414). -/
def State.answerPage (s : State) (v : Word) : State :=
  let mine (h : HeldPage) : Bool := h.isOf v
  let held := s.heldPages.filter mine
  if v.getLsbD 16 then held.foldl State.abortHeld s
  else
    let s := held.foldl State.rewalk s
    let still := s.heldPages.filter mine
    if still.isEmpty then s else s.logRecord (faultRecord (stationPid v) (stationPage v) still)

/-- A header write is fatal while a promise of the header is open or an operation on it is not yet applied (R337). -/
def Tile.hdrBusy (x : Tile) (k : Fin 16) : Bool := !(x.openOn k).isEmpty || x.unapplied k

/-- Stage word 0, 1 or 2 of a binding record (R363). -/
def Bind.stageWord (b : Bind) (w : Fin 4) (v : Word) : Bind :=
  match w with
  | 0 => { b with stage0 := v }
  | 1 => { b with stage1 := v }
  | 2 => { b with stage2 := v }
  | 3 => b

/-- The checks on a record's words, as the binding instruction makes them (R363); the words of a kind that does not use them
are zero. -/
def State.recordOk (s : State) (t : TileId) (b : Bind) (v : Word) : Bool :=
  let kind := v.toNat / 2 ^ 32 % 8
  decide (v.toNat / 2 ^ 35 = 0) && (match kind with
    | 1 | 2 => (memBindFault b.stage0 b.stage1 b.stage2).isNone && (b.stage2.getLsbD 32 == decide (kind = 2))
    | 3 => (s.tileAt t).chanBindOk b.stage0 && b.stage1 == 0 && b.stage2 == 0
    | 4 => s.outBindOk t b.stage0 b.stage1 && b.stage2 == 0
    | _ => false)

/-- The binding that a record's words make in a tile; a restored memory stream takes no carrier request, and the pid of the store's moment. -/
def recordBind (x : Tile) (b : Bind) (v : Word) : Bind :=
  let pos := v.toNat % 2 ^ 32
  match v.toNat / 2 ^ 32 % 8 with
  | 1 | 2 => { memBind b.stage0 b.stage1 b.stage2 pos x.pid x.nextId with live := true }
  | 3 => ⟨.chan, b.stage0, 0, 0, pos, pos, true, [], 0, 0, 0, none, 0, []⟩
  | _ => outBind b.stage0 b.stage1 pos

/-- Bind a stream register of a slot. -/
def State.bindAt (s : State) (t : TileId) (k : Slot) (r : StreamReg) (b : Bind) : State :=
  s.modTile t fun x =>
    let x := { x.modThr k fun th => { th with binds := th.binds.set r b } with nextId := x.nextId + 1 }
    if b.kind = .chan then
      let c : Fin 8 := Fin.ofNat 8 b.base.toNat
      ({ x with channels := x.channels.set c { x.channels[c] with bound := some (k, r) } } : Tile).deliver c
    else x

/-- A store of a word of a binding record: none where it is a fatal access (R363). -/
def State.storeRecord (s : State) (t : TileId) (k : Slot) (r : StreamReg) (w : Fin 4) (v : Word) : Option State :=
  let b : Bind := (s.thrAt t k).binds[r]
  if b.kind ≠ .unbound then none
  else if w ≠ 3 then some (s.bindAt t k r (b.stageWord w v))
  else if v.toNat / 2 ^ 32 % 8 = 0 then (if v.toNat / 2 ^ 35 = 0 then some s else none)
  else if s.recordOk t b v then some (s.bindAt t k r (recordBind (s.tileAt t) b v)) else none

/-- A write of a register of device space: none where it is a fatal access. The SUSPECT record is read-only, and a write of it
changes nothing (R410). -/
def State.devWrite (s : State) (r : DevReg) (v : Word) : Option State :=
  match r with
  | .fmt t n => some (s.modTile t fun x => x.setFmt n v)
  | .brk t i => some (s.modTile t fun x => x.setBrk i v)
  | .watchAddr t j => some (s.modTile t fun x => x.setWatchAddr j v)
  | .watchCtl t j => some (s.modTile t fun x => x.setWatchCtl j v)
  | .record t k q w => s.storeRecord t k q w v
  | .suspect _ _ => some s
  | .header t k w =>
    if (s.tileAt t).hdrBusy k then none
    else some (s.modTile t fun x => x.putHdr k (hdPut (x.hdr k) (64 * w.val) 64 v.toNat))
  | .pdbase => some (s.setPdbase v)
  | .inval => some (s.invalidate v)
  | .resume => some (s.answerPage v)

end Sys2Proof.Machine
end

