-- ==== Sys2Proof/Machine/MemEvents.lean ====
section
/-! DEFINITION. The events of threads and homes: annulled words, landing results, loads, stores, the requests of answered forms and
their answers (R75, R99, R116, R117, R151, R169, R170, R246, R247, R260-R272). -/

namespace Sys2Proof.Machine

-- Time of a tile

/-- A clock of a tile has come. -/
def State.dueAt (s : State) (t : TileId) (due : Nat) : Bool := decide (due ≤ (s.tileAt t).cycle.toNat)

/-- While any die is halted for debug, timeouts, reservation counts and slot timers stand still (R381). -/
def State.anyHalted (s : State) : Bool := s.dies.toList.any fun d => d.halted
/-- A tile whose die is halted does not move. -/
def State.dieHalted (s : State) (t : TileId) : Bool := (s.dies[(Fin.ofNat 6 (dieOf t) : Fin 6)]).halted

-- Traps that are due (R355, R382)

/-- Whether an asynchronous trap is pending that the thread may take (R355). -/
def Thread.trapReady (th : Thread) : Bool :=
  th.aie && (th.pending.pairMismatch.isSome || th.pending.preempt.isSome || th.pending.suspect.isSome ||
    th.pending.rsvTimeout.isSome || th.pending.timer)

/-- Whether a thread's `bar.arw` retires before a trap: the generation that it waits for has completed, or the tile has sent that
generation's arrival into the tree (R169, R174). -/
def State.arwStays (s : State) (t : TileId) (k : Slot) : Bool :=
  match (s.thrAt t k).barWaiting with
  | some ⟨_, gen, some _⟩ => (s.tileAt t).barrier.sent.isSome || gen ≠ (s.tileAt t).barrier.gen
  | _ => false

/-- Whether a slot holds a thread. -/
def Thread.resident (th : Thread) : Bool := th.run ≠ .empty && th.run ≠ .killed

/-- A pending trap may be taken now: AIE is set, nothing that the instruction has asked for is outstanding, and no answered instruction uses
the cycle to retire (R169, R170, R172, R174, R382). -/
def State.mayTrap (s : State) (t : TileId) (k : Slot) : Bool :=
  let th := s.thrAt t k
  th.resident && th.trapReady && th.req.isNone && th.sleep.isNone && !s.arwStays t k && th.rouse ≠ .starts && th.rouse ≠ .answers && th.rouse ≠ .retires

-- Annulled words (R75, R110, R111, R380)

/-- An enabled breakpoint of the tile that catches a word (R380). -/
def Tile.breaks (x : Tile) (pc : Word) (annulled : Bool) : Bool :=
  x.brks.toList.any fun b => b.getLsbD 0 && (!annulled || b.getLsbD 1) && (b &&& ~~~3#64) == pc

/-- Whether a breakpoint stops the annulled word at a slot's PC. -/
def State.annulBreaks (s : State) (t : TileId) (k : Slot) : Bool :=
  let th := s.thrAt t k
  !th.pastBrk && (s.tileAt t).breaks th.pc true

/-- A word in a shadow is fetched and consumed, or raises BREAK first. Its fetch may cache its line (R53, R75); it waits for no
translation (DEDUCED: a word that cannot be fetched passes as well). -/
def State.annul (s : State) (t : TileId) (k : Slot) : State :=
  let th := s.thrAt t k
  if s.annulBreaks t k then s.takeTrap t k false .break th.pc th.pc th.shadow
  else (s.fetch t k th.pc).2.modThrAt t k fun th => { th with pc := th.pc + 4, shadow := th.shadow - 1, fetched := none, pastBrk := false }

def execAnnulledWord (t : TileId) (k : Slot) (s : State) : Out :=
  let th := s.thrAt t k
  if th.run = .ready ∧ th.shadow ≠ 0 ∧ s.mayTrap t k = false then .next (s.annul t k) else noEvent "ANNULLED_WORD"

-- Results (R99, R136)

/-- The element at a place is due. -/
def execResultLand (t : TileId) (k : Slot) (i : Nat) (s : State) : Out :=
  match (s.thrAt t k).results[i]? with
  | some r =>
    if s.dueAt t r.due then
      .next (s.modThrAt t k fun th => r.writes.foldl Thread.fill { th with results := dropAt th.results i })
    else noEvent "RESULT_LAND"
  | none => noEvent "RESULT_LAND"

-- Loads (R116, R150, R151)

/-- The addresses of the bytes that a load reads, in the order of its lanes. -/
def LoadDest.addrs : LoadDest → List Word
  | .scalar _ t a => addrsFrom a (ldBytes t)
  | .vector _ w lanes _ => lanes.flatMap fun p => addrsFrom p.2 (w / 8)

/-- Address lists that begin in one granule and follow each other are one part. -/
def joinLanes : List (List Word) → List (List Word)
  | [] => []
  | as :: rest =>
    match joinLanes rest with
    | bs :: more => if as.head?.map granuleOf = bs.head?.map granuleOf then (as ++ bs) :: more else as :: bs :: more
    | [] => [as]

/-- The parts in which a load returns: a scalar access whole, the lanes of a vector access by 64-byte granules, each read in one step
and the parts in any order (R120, R152, R255). -/
def LoadDest.parts : LoadDest → List (List Word)
  | .scalar _ t a => [addrsFrom a (ldBytes t)]
  | .vector _ w lanes _ => joinLanes (lanes.map fun p => addrsFrom p.2 (w / 8))

/-- The parts that have not returned, by number, and the addresses of their bytes. -/
def LoadReq.partsLeft (l : LoadReq) : List Nat := (List.range l.dest.parts.length).filter fun g => !l.got.any fun p => p.1 = g
def LoadReq.left (l : LoadReq) : List Word := l.partsLeft.flatMap fun g => l.dest.parts.getD g []

/-- The bytes of a load that has returned, in the order of its lanes; none where a part is fatal (R151). -/
def LoadReq.whole (l : LoadReq) : Option (List Byte) :=
  ((List.range l.dest.parts.length).mapM fun g => (l.got.find? fun p => p.1 = g).bind (·.2)).map List.flatten

/-- Whether two device-space addresses name the same byte of a register. -/
def sameDevice (a b : Word) : Bool := match devOf a, devOf b with
  | some x, some y => x == y
  | _, _ => false

/-- Whether a store that happens before a load of a byte of device space is still on its way: the thread's own earlier one, or one that an
acquire has put before it (R120, R241). -/
def State.deviceStore (s : State) (t : TileId) (k : Slot) (seq : Nat) (a : Word) : Bool :=
  let meets (r : StoreReq) : Bool := r.addrs.any fun b => sameDevice a b
  ((s.tileAt t).stores.any fun r => r.slot == k && decide (r.seq < seq) && meets r) ||
    (s.thrAt t k).past.any fun q => match s.storeOf q with
      | some r => meets r
      | none => false
/-- Whether a store of another slot that an acquire has put before the thread's loads still waits in the tile's own bank with a byte of a
place, where it answers no load of the thread (R242, R246). -/
def State.pastInBank (s : State) (t : TileId) (k : Slot) (l : Nat) : Bool :=
  (s.thrAt t k).past.any fun q => decide (q.1 = t) && match s.storeOf q with
    | some r => r.stage == .bank && r.slot != k && (s.storeByte t r l).isSome
    | none => false

/-- What a part of a load finds: it waits, it is fatal, or it has its bytes. -/
inductive LoadOut where
  | waits
  | fatal
  | bytes (bs : List Byte)
  deriving DecidableEq, Repr

/-- The bytes of a part of a load: of device space, or from the homes and forwarding points on the way (R214, R242, R246). -/
def State.loadOut (s : State) (t : TileId) (k : Slot) (l : LoadReq) (part : Nat) : LoadOut :=
  let as := l.dest.parts.getD part []
  let one (a : Word) : LoadOut :=
    if regionOf a = 3 then
      (if s.deviceStore t k l.seq a || (!s.deviceOpen t a && !s.lostDies.contains (a.toNat / 2 ^ 40 % 8)) then .waits else match s.devByte a with
      | some b => .bytes [b]
      | none => .fatal)
    else match s.reach t l.pid l.id false a with
      | .waits => .waits
      | .fatal => .fatal
      | .home h => if s.pastInBank t k h.loc then .waits else .bytes [s.loadByte t k l.id l.seq .plain h]
  let rs := as.map one
  if rs.contains .waits then .waits
  else if rs.contains .fatal then .fatal
  else .bytes (rs.flatMap fun r => match r with | .bytes bs => bs | _ => [])

/-- The lanes of a vector with those a load returns. -/
def setLanes (w : Nat) (old : Vec) (lanes : List (Nat × Word)) (bs : List Byte) : Vec :=
  let vals := (List.range lanes.length).map fun i => leNat ((bs.drop (i * (w / 8))).take (w / 8))
  let new := (lanes.map Prod.fst).zip vals
  ofLanes w ((List.range (laneCount w)).map fun i => match new.find? fun p => p.1 = i with
    | some p => p.2
    | none => laneAt w old i)

/-- Complete the element of a write-bound register that waits for a load; one that a fatal access leaves without data is
poisoned and has a value of no rule (log 44). -/
def Bind.completeElem (b : Bind) (id : Nat) (w : Nat) (lanes : List (Nat × Word)) (data : Option (List Byte)) (free : Vec) : Bind :=
  { b with buf := b.buf.map fun e =>
      if e.wait = some id then
        (match data with
         | some bs => { e with val := setLanes w e.val lanes bs, wait := none }
         | none => { e with val := free, poison := true, wait := none })
      else e }

/-- A free vector value. -/
def freeVec (pick : Nat → BitVec 64) : Vec := BitVec.ofNat 1024 (lanesNat 64 ((List.range 16).map fun i => (pick i).toNat))

/-- Load data or poison lands, and LD falls (R31, R116). -/
def State.landLoad (s : State) (t : TileId) (k : Slot) (l : LoadReq) (data : Option (List Byte)) : State :=
  let s := s.modThrAt t k fun th => ({ th with loads := th.loads.filter fun x => x.id ≠ l.id } : Thread).dropLd
  match l.dest with
  | .scalar d ty _ => s.modThrAt t k fun th => match data with
    | some bs => th.fill (.s d (ldExtend ty (leNat bs)))
    | none => th.fillPoison (.s d)
  | .vector d w lanes app =>
    match app, streamOf d with
    | true, some q =>
      let free := freeVec (s.openValue (lanes.map fun p => p.2.toNat))
      let s : State := { s with free := s.free + 16 }
      (s.modThrAt t k fun th => { th with binds := th.binds.set q (th.binds[q].completeElem l.id w lanes data free) }).pushElems t k q
    | _, _ => s.modThrAt t k fun th => match data with
      | some bs => th.fill (.v d (setLanes w (th.getV d).val lanes bs))
      | none => th.fillPoison (.v d)

/-- The fill of a load that a rolled-back pair delivers again (R376). -/
def Pairing.replayOf (p : Pairing) (k : Slot) (id : Nat) : Option (Nat × Option (List Byte)) :=
  match p.replay.find? fun x => match x.2 with | .fill j i _ => decide (j = k ∧ i = id) | _ => false with
  | some (n, .fill _ _ d) => some (n, d)
  | _ => none

/-- A part of a load returns; the last one fills the destination. -/
def State.fillPart (s : State) (t : TileId) (k : Slot) (l : LoadReq) (part : Nat) (data : Option (List Byte)) : State :=
  let l : LoadReq := { l with got := l.got ++ [(part, data)] }
  if l.partsLeft.isEmpty then
    (if l.due.isSome then s else s.modTile t fun x => x.noteIn (.fill k l.id l.whole)).landLoad t k l l.whole
  else s.modThrAt t k fun th => { th with loads := th.loads.map fun x => if x.id = l.id then l else x }

def execLoadFill (t : TileId) (k : Slot) (r : LoadPart) (s : State) : Out :=
  let (id, part) := (r.id, r.part)
  match (s.thrAt t k).loads.find? fun l => l.id = id with
  | none => noEvent "LOAD_FILL"
  | some l =>
    let early := match l.due with
      | some d => !s.dueAt t d
      | none => false
    if !l.partsLeft.contains part then noEvent "LOAD_FILL"
    else match (s.tileAt t).pairing with
    | some p => match p.replayOf k id with
      | some (n, d) =>
        if p.retired < n then noEvent "LOAD_FILL"
        else
          let p' : Pairing := { p with replay := p.replay.filter fun x => x ≠ (n, .fill k id d), inbound := p.inbound ++ [(n, .fill k id d)] }
          .next ((s.modTile t fun x => { x with pairing := some p' }).landLoad t k l d)
      | none => fill s t k l part early
    | none => fill s t k l part early
where
  fill (s : State) (t : TileId) (k : Slot) (l : LoadReq) (part : Nat) (early : Bool) : Out :=
    if early then noEvent "LOAD_FILL"
    else match s.loadOut t k l part with
    | .waits => noEvent "LOAD_FILL"
    | .fatal => .next (s.fillPart t k l part none)
    | .bytes bs => .next ((if l.partsLeft = [part] then s else s.keepTrans t ⟨l.pid, l.id⟩ (l.dest.parts.getD part [])).fillPart t k l part (some bs))

-- Stores (R117, R151, R245, R246)

/-- What a store finds at its home: it waits for a translation; it has a fatal lane, the lowest at an address, and the homes and bytes of
its other lanes (R151); or it may be written at the homes of its bytes. -/
inductive StoreOut where
  | waits
  | fatal (a : Word) (live : List (Home × Byte))
  | homes (hs : List Home)
  deriving DecidableEq, Repr
/-- Where each byte of a store leads; one that was translated goes by that translation (R234). -/
def State.storeReach (s : State) (t : TileId) (r : StoreReq) : List Reach :=
  if r.homes.isEmpty then r.addrs.map (s.lead t r.pid r.id true) else r.homes.map fun h => if s.isLost h then .fatal else .home h
def State.storeOut (s : State) (t : TileId) (r : StoreReq) : StoreOut :=
  let rs := s.storeReach t r
  let laneOf (i : Nat) : Nat := i / max 1 r.lane
  match rs.findIdx? (· == .fatal) with
  | some i =>
    let dead := ((List.range rs.length).filter fun j => rs[j]? == some .fatal).map laneOf
    let left := (((List.range rs.length).zip (rs.zip r.bytes)).filter fun q => !dead.contains (laneOf q.1)).map (·.2)
    match joinReach (left.map (·.1)) with
    | .homes hs => .fatal (r.addrs.getD (laneOf i * max 1 r.lane) 0) (hs.zip (left.map (·.2)))
    | _ => .waits
  | none => match joinReach rs with
    | .homes hs => .homes hs
    | _ => .waits

/-- The next point on a store's way (R245, R246): the die's bridge buffer for another die, the Lace buffer for another package. -/
def State.nextStage (s : State) (t : TileId) (r : StoreReq) : StoreStage :=
  match r.stage, s.storeHome t r with
  | .egress, some h => if h.die ≠ dieOf t ∨ h.pkg ≠ s.domPkg then .bridge else .performed
  | .bridge, some h => if h.pkg ≠ s.domPkg then .lace else .performed
  | _, _ => .performed

/-- Whether two stores lie in one granule: by address in one queue, or by the places that their addresses lead to (R241, R246). -/
def State.sameGranule (s : State) (t u : TileId) (q r : StoreReq) : Bool :=
  (decide (t = u) && (match q.first, r.first with
    | some a, some b => granuleOf a == granuleOf b
    | _, _ => false)) ||
  (match s.storeHome t q, s.storeHome u r with
    | some g, some h => g.loc / 64 == h.loc / 64
    | _, _ => false)

/-- Whether an older store holds a store at its point: to one granule, stores leave in order (R246, R264). -/
def State.storeBehind (s : State) (t : TileId) (r : StoreReq) : Bool :=
  let older (u : TileId) (q : StoreReq) : Bool := q.stage == r.stage && decide (q.stamp < r.stamp) && s.sameGranule u t q r
  match r.stage with
  | .bank | .egress => (s.tileAt t).stores.any (older t)
  | .bridge => s.tiles.any fun p => decide (dieOf p.1 = dieOf t) && p.2.stores.any (older p.1)
  | .lace => s.tiles.any fun p => p.2.stores.any (older p.1)
  | .performed => false

/-- Whether a lower lane of the same instruction has not got as far: lanes are written in ascending order (R150). -/
def Tile.laneBehind (x : Tile) (r : StoreReq) (nxt : StoreStage) : Bool :=
  x.stores.any fun q => q.slot == r.slot && q.seq == r.seq && decide (q.id < r.id) && decide (stageRank q.stage < stageRank nxt)

/-- The homes and bytes of what a store still writes are performed, if there are any. -/
def State.performLive (s : State) (t : TileId) (live : List (Home × Byte)) : State :=
  let cells := live.map fun p => (p.1.loc, p.2)
  if cells.isEmpty then s else (s.noteCells t cells).perform cells

/-- Whether a load has still to read one of some bytes, given their places and device addresses. -/
def State.readsAt (s : State) (t : TileId) (l : LoadReq) (ls : List Nat) (devs : List Word) : Bool :=
  l.left.any fun a => if regionOf a = 3 then devs.any (sameDevice a) else match s.writeHome t l.id l.pid a with
    | some h => ls.contains h.loc
    | none => false
/-- Whether an earlier load of the thread from some bytes is still outstanding, given the bytes' places and device addresses (R241,
edge 1). -/
def State.loadBefore (s : State) (t : TileId) (k : Slot) (seq : Nat) (ls : List Nat) (devs : List Word) : Bool :=
  (s.thrAt t k).loads.any fun l => decide (l.seq < seq) && s.readsAt t l ls devs
/-- Whether a load that happens before an access of some bytes, as `ps` says, is still outstanding from one of them (R241, edges 2, 3 and 5). -/
def State.pastReads (s : State) (ps : Past) (ls : List Nat) (devs : List Word) : Bool :=
  ps.any fun q => match s.loadOf q with
    | some l => s.readsAt q.1 l ls devs
    | none => false

/-- Whether another piece of the same instruction is still listed. -/
def Tile.morePieces (x : Tile) (r : StoreReq) : Bool := x.stores.any fun q => q.id ≠ r.id && q.slot == r.slot && q.seq == r.seq

/-- A store leaves the lists: ST falls with the last piece of its instruction (R47, R150). -/
def State.endStore (s : State) (t : TileId) (r : StoreReq) : State :=
  s.modTile t fun x =>
    let last := r.counted && !r.acked && !x.morePieces r
    let x : Tile := { x with stores := x.stores.filter fun q => q.id ≠ r.id }
    if last then x.modThr r.slot Thread.dropSt else x

/-- The fault of a store is kept for a report: one for each piece, that of its lowest faulting lane (R117, R127, R151). -/
def State.noteFault (s : State) (t : TileId) (r : StoreReq) (a : Word) : State :=
  if r.counted then s.modThrAt t r.slot fun th =>
    if th.faults.any fun f => f.seq = r.seq ∧ f.id = r.id then th else { th with faults := th.faults ++ [⟨r.seq, r.id, a⟩] }
  else s

/-- An `arel` that is done passes its grant on (R271, R272). -/
def State.passGrant (s : State) (t : TileId) (r : StoreReq) : State :=
  match r.kind with
  | .arel l z => s.releaseResv t r.slot l z
  | _ => s

/-- A fatal store: the data of its fatal lanes is discarded and the fault kept for a report, its other lanes are written; the grant of an
`arel` passes on (R117, R127, R151, R272). -/
def State.failStore (s : State) (t : TileId) (r : StoreReq) (a : Word) (live : List (Home × Byte)) : State :=
  (((s.performLive t live).noteFault t r a).passGrant t r).endStore t r

/-- A release that is performed leaves a mark with its bytes while stores that happen before it are on their way (R241, R247). -/
def State.markRelease (s : State) (t : TileId) (r : StoreReq) (ls : List Nat) : State :=
  match r.kind.scope with
  | some sc =>
    let ps := s.livePast r.past
    if ps.isEmpty || ls.isEmpty then s else { s with rels := s.rels ++ [⟨ls, t, sc, ps⟩] }
  | none => s

/-- A store is performed at its home; an `arel` then passes its grant on (R271). -/
def State.performStore (s : State) (t : TileId) (r : StoreReq) (hs : List Home) : State :=
  let cells := (hs.map (·.loc)).zip r.bytes
  ((((s.noteCells t cells).perform cells).markRelease t r (cells.map (·.1))).passGrant t r).endStore t r

/-- A store may move on from its point. -/
def State.storeFree (s : State) (t : TileId) (r : StoreReq) : Bool :=
  let ls := (s.storeCells t r).map (·.1)
  let devs := r.addrs.filter fun a => regionOf a = 3
  !r.waits && (r.stage == .bank || !s.egressHeld t r.slot r.seq) && !s.storeBehind t r && !s.loadBefore t r.slot r.seq ls devs &&
    !s.pastReads r.past ls devs

/-- The first n bytes of a store's next piece are done. -/
def State.advanceStore (s : State) (t : TileId) (r : StoreReq) (n : Nat) : State :=
  match r.pieces with
  | (a, bs) :: rest =>
    let left := if bs.length ≤ n then rest else (a + BitVec.ofNat 64 n, bs.drop n) :: rest
    if left.isEmpty then s.endStore t r
    else s.modTile t fun x => { x with stores := x.stores.map fun (q : StoreReq) => if q.id = r.id then { q with pieces := left } else q }
  | [] => s

/-- Whether a store to device space has its effect: a plain store to a register that there is (R120, R261). -/
def State.devTakes (s : State) (r : StoreReq) (a : Word) (bs : List Byte) : Bool := r.kind == .plain && (s.devStore a bs).isSome

/-- A store moves to a buffer on its way, translated; ST falls for a release that its scope's buffer has accepted (R245, R264). -/
def State.moveStore (s : State) (t : TileId) (r : StoreReq) (nxt : StoreStage) (hs : List Home) : State :=
  let r' : StoreReq := { r with stage := nxt, stamp := s.stamp, homes := hs }
  let fell := match r.kind with
    | .release sc => s.ackedAt t sc r'
    | _ => false
  let s : State := { s with stamp := s.stamp + 1 }
  s.modTile t fun x =>
    let x : Tile := { x with stores := x.stores.map fun (q : StoreReq) => if q.id = r.id then { r' with acked := r.acked || fell } else q }
    if fell && r.counted && !r.acked then x.modThr r.slot Thread.dropSt else x

def execStoreAck (t : TileId) (id : Nat) (nxt : StoreStage) (s : State) : Out :=
  match (s.tileAt t).stores.find? fun r => r.id = id with
  | none => noEvent "STORE_ACK"
  | some r =>
    if !s.storeFree t r || (s.tileAt t).laneBehind r nxt then noEvent "STORE_ACK"
    else if r.toDevice then
      -- a part that no register takes is discarded; the others are performed by the events of their registers
      match r.pieces, nxt with
      | (a, bs) :: _, .performed =>
        if s.devTakes r a bs then noEvent "STORE_ACK" else .next ((s.noteFault t r a).advanceStore t r (8 - a.toNat % 8))
      | _, _ => noEvent "STORE_ACK"
    else match s.storeOut t r with
    | .waits => noEvent "STORE_ACK"
    | .fatal a live =>
      if nxt = .performed ∧ live.all (fun p => s.homeOpen t p.1) = true then .next (s.failStore t r a live) else noEvent "STORE_ACK"
    | .homes hs =>
      if nxt ≠ s.nextStage t r ∨ (nxt = .performed ∧ !hs.all (s.homeOpen t)) ∨ (nxt = .lace ∧ !s.ioOpen (dieOf t)) then noEvent "STORE_ACK"
      else if nxt = .performed then .next (s.performStore t r hs)
      else .next (s.moveStore t r nxt hs)

/-- Whether a pair holds a release: one that leaves its tiles, until its interval agrees (R375). -/
def State.releaseHeld (s : State) (t : TileId) (r : StoreReq) : Bool := r.stage != .bank && s.egressHeld t r.slot r.seq

def execReleaseLeaves (t : TileId) (id : Nat) (s : State) : Out :=
  match (s.tileAt t).stores.find? fun r => r.id = id with
  | some r =>
    match r.kind.scope with
    | some sc =>
      if r.waits && s.releaseGoes t r.slot r.seq sc r.past && !s.releaseHeld t r then
        .next (s.modTile t fun x => { x with stores := x.stores.map fun q => if q.id = id then { q with waits := false } else q })
      else noEvent "RELEASE_LEAVES"
    | none => noEvent "RELEASE_LEAVES"
  | none => noEvent "RELEASE_LEAVES"

-- Requests at their homes (R169, R189, R191, R263-R270, R278, R279)

/-- The answer to a form whose address is fatal (R189, R191, R263, R266, R269, R270). -/
def fatalAnswer : ReqOp → Answer
  | .stef _ _ | .stff _ _ | .ste | .marm _ => .fault
  | _ => .poison

/-- Whether a tile reaches a board's home; one that is declared lost keeps nothing waiting (R388, R401, R404, R406). -/
def State.boardOpen (s : State) (t : TileId) (home : Nat × Fin 8 × Nat) : Bool := s.boardLost home || s.wayTo t home.1 home.2.1.val false
/-- A notice-board operation reaches the home of its board; a post leaves as a release, and what an operation acquires from each post that it
sees is acknowledged at a scope that covers both tiles (R258, R279, R280). -/
def State.boardAccess (s : State) (t : TileId) (k : Slot) (r : Req) (op : NbOp) : Option State :=
  match boardOf r.addr with
  | none => none
  | some (d, i) =>
    let home := s.boardHome d i
    let seen := match s.boardAt home with
      | some b => if s.boardLost home || b.dead then [] else b.seen op
      | none => []
    let leaves := match op with
      | .post _ _ _ _ => s.releaseGoes t k r.seq (s.boardScope t home) r.past
      | _ => true
    if leaves && s.boardOpen t home && seen.all (fun p => s.pastAcked (narrowest p.tile t) p.past) then
      let o := s.boardOp home op t r.past
      some ((o.1.answerAt t k o.2).acquire t k (s.livePast (seen.flatMap (·.past))))
    else none

/-- Arm a monitor entry with the line at some places; a notice of an older line is void (R171, R189). Only the home's answer changes the
entry, so one whose registration a trap withdraws keeps its old line and bits (DESIGN CHOICE, log 71). -/
def State.arm (s : State) (t : TileId) (k : Slot) (e : Fin 4) (line : Word) (ls : List Nat) : State :=
  let s : State := { s with notices := s.notices.filter fun n => n ≠ (t, k, e) }
  s.modThrAt t k fun th => { th with monitors := th.monitors.set e ⟨true, line, ls, false⟩ }

/-- Whether a request must still wait at its home: for a write that it must not bypass, or, for a form that writes, for a load that happens
before it from its bytes, of its thread or of another (R241, R242, R246). -/
def State.reqHeld (s : State) (t : TileId) (k : Slot) (r : Req) (hs : List Home) : Bool :=
  let ls := hs.map (·.loc)
  r.held.any s.storeListed || (r.op.writes && (s.loadBefore t k r.seq ls [] || s.pastReads (s.thrAt t k).past ls []))

/-- Whether a request stays in the tile's own scratchpad. -/
def State.ownReq (s : State) (t : TileId) (r : Req) : Bool :=
  match r.op with
  | .nb _ => false
  | _ => (s.ownOff t r.first).isSome
/-- Whether a pair holds a request: one that leaves its tiles, until its interval agrees (R375). -/
def State.reqEgress (s : State) (t : TileId) (k : Slot) (r : Req) : Bool := !s.ownReq t r && s.egressHeld t k r.seq

/-- A request is performed at its home or listed there. -/
def State.homeWork (s : State) (t : TileId) (k : Slot) (r : Req) (hs : List Home) : State :=
  let ls := hs.map (·.loc)
  match r.op with
  | .acq _ sc =>
    (s.answerAt t k (.value (BitVec.ofNat 64 (leNat (hs.map (s.loadByte t k r.id r.seq (Points.acq sc))))) 0)).acquire t k
      (s.livePast (hs.flatMap (s.bytePast t k r.id r.seq sc)))
  | .ldfe _ | .ldff _ | .stef _ _ | .stff _ _ | .ste =>
    if s.feReady r.op ls then (s.fePerform t k r.op ls).serveAt (placeOf hs) else s.enlist t k hs id
  | .arsv z | .rmw _ z _ _ => s.joinResv t k hs z
  | .marm e => (s.arm t k e r.first ls).answerAt t k (.armed ls)
  | .wadr _ cmp _ =>
    let v := s.viewNat t ls
    if v ≠ cmp.toNat then s.answerAt t k (.value (BitVec.ofNat 64 v) 0) else s.enlist t k hs id
  | .nb _ => s

/-- A request that has been sent arrives at its home, and keeps the homes of its bytes. -/
def State.arriveHome (s : State) (t : TileId) (k : Slot) (r : Req) : Option State :=
  match r.op with
  | .nb op => s.boardAccess t k r op
  | _ =>
    match s.reqReach t r with
    | .waits => none
    | .fatal => some (s.answerAt t k (fatalAnswer r.op))
    | .homes hs =>
      if s.reqHeld t k r hs then none
      else some ((s.modThrAt t k fun th => { th with req := th.req.map fun q => { q with homes := hs } }).homeWork t k r hs)

def execHomeAccess (t : TileId) (k : Slot) (s : State) : Out :=
  match (s.thrAt t k).req with
  | some r =>
    if r.stage ≠ .sent ∨ s.reqEgress t k r = true then noEvent "HOME_ACCESS"
    else match s.arriveHome t k r with
    | some s' => .next s'
    | none => noEvent "HOME_ACCESS"
  | none => noEvent "HOME_ACCESS"

-- Answers (R260, R263, R266, R269, R278, R279)

/-- The answered form of a slot retires with a value in its destination. -/
def State.retireAnswer (s : State) (t : TileId) (k : Slot) (r : Req) (f : Thread → Thread) (notes : List Word) : State :=
  let pc := (s.thrAt t k).pc
  (s.modThrAt t k fun th => f { th with req := none }).retireAt t k (pc + 4) (r.addr :: notes)

/-- An answered form ends in a trap; it retires nothing. -/
def State.trapAnswer (s : State) (t : TileId) (k : Slot) (c : Cause) (tval : Word) : State :=
  (s.modThrAt t k fun th => { th with req := none }).takeTrap t k false c tval (s.thrAt t k).pc 0

/-- Whether an answered form writes its destination register. -/
def ReqOp.writesReg : ReqOp → Bool
  | .stef _ _ | .stff _ _ | .ste | .marm _ => false
  | _ => true

/-- The image of a view is written in the caller's scratchpad before the instruction retires (R279). -/
def State.writeImage (s : State) (t : TileId) (buf : Nat) (img : List Byte) : State :=
  s.perform (((List.range img.length).zip img).map fun p => (tileLoc t (buf + p.1), p.2))

/-- The answer reaches the tile. -/
def State.takeAnswer (s : State) (t : TileId) (k : Slot) (r : Req) : Answer → State
  | .value v fl =>
    s.retireAnswer t k r (fun th =>
      let th := { th with fpcsr := th.fpcsr ||| fl }
      if r.op.writesReg then th.fill (.s r.d v) else th) [v]
  | .poison => s.retireAnswer t k r (fun th => th.fillPoison (.s r.d)) []
  | .granted v hs =>
    let dl := (s.tileAt t).cycle.toNat + Config.grantClocks
    let z := match r.op with
      | .arsv z => z
      | _ => .w64
    s.retireAnswer t k r (fun th => ({ th with hold := some ⟨r.addr, z, hs, dl⟩ } : Thread).fill (.s r.d v)) [v]
  | .armed _ => s.retireAnswer t k r id []
  | .board st img =>
    let s := match r.op, img with
      | .nb op, some bs => (match op.buf with
        | some b => s.writeImage t b bs
        | none => s)
      | _, _ => s
    s.retireAnswer t k r (fun th => th.fill (.s r.d st)) [st]
  | .missing => s.trapAnswer t k .engineError r.addr
  | .fault =>
    match r.op with
    | .marm e => (s.modThrAt t k fun th => { th with monitors := th.monitors.set e { th.monitors[e] with valid := false } }).trapAnswer
        t k .engineError r.addr
    | _ => s.trapAnswer t k .storeFault r.addr

/-- Whether an answer's image must still wait: for a store to the buffer or a load from it that happens before, of the thread or of another
(R241, R243). -/
def State.imageHeld (s : State) (t : TileId) (k : Slot) (r : Req) (a : Answer) : Bool :=
  match r.op, a with
  | .nb op, .board _ (some bs) => (match op.buf with
    | some b =>
      let ls := (List.range bs.length).map fun i => tileLoc t (b + i)
      let past := (s.thrAt t k).past
      let writes (u : TileId) (q : StoreReq) : Bool := (s.storeCells u q).any fun c => ls.contains c.1
      s.loadBefore t k r.seq ls [] || s.pastReads past ls [] || ((s.tileAt t).stores.any fun q => q.slot == k && decide (q.seq < r.seq) && writes t q) ||
        past.any fun p => match s.storeOf p with
          | some q => writes p.1 q
          | none => false
    | none => false)
  | _, _ => false

/-- The answer that a rolled-back pair delivers again, with the count of instructions retired before it (R376). -/
def Pairing.answerOf (p : Pairing) (k : Slot) (id : Nat) : Option (Nat × InItem) :=
  p.replay.find? fun x => match x.2 with
    | .answer j i _ => decide (j = k ∧ i = id)
    | _ => false
/-- Whether a pair must first come to the point at which an answer reached it before (R376). -/
def Tile.answerEarly (x : Tile) (k : Slot) (id : Nat) : Bool :=
  match x.pairing with
  | some p => match p.answerOf k id with
    | some q => decide (p.retired < q.1)
    | none => false
  | none => false
/-- The answer has been delivered again. -/
def Tile.dropReplay (x : Tile) (k : Slot) (id : Nat) : Tile :=
  match x.pairing with
  | some p => { x with pairing := some { p with replay := p.replay.filter fun q => match q.2 with
      | .answer j i _ => !decide (j = k ∧ i = id)
      | _ => true } }
  | none => x

/-- Whether a request's answer, or the confirmation of its withdrawal, comes back from its home (R388, R401). One that met a fatal access was
answered at its own station. -/
def State.answerOpen (s : State) (t : TileId) (r : Req) : Bool :=
  match r.op, boardOf r.addr with
  | .nb _, some (d, i) => let home := s.boardHome d i; s.boardLost home || s.backOpen t ⟨0, home.2.1.val, home.1, none⟩
  | .nb _, none => true
  | _, _ => r.homes.all (s.backOpen t)

/-- Whether an answer reaches its thread now; not on a halted die (R381). -/
def State.answerFree (s : State) (t : TileId) (k : Slot) (r : Req) (a : Answer) : Bool :=
  !s.dieHalted t && s.answerOpen t r && !s.imageHeld t k r a && !(s.tileAt t).answerEarly k r.id
/-- An answer reaches its thread: its instruction retires in the slot's next issue cycle (R169), or traps. A register that the thread held
empty becomes full by the answer's write, whoever waits for it (R34). -/
def State.giveAnswer (s : State) (t : TileId) (k : Slot) (r : Req) (a : Answer) : State :=
  ((s.modTile t fun x => (x.dropReplay k r.id).noteIn (.answer k r.id a)).takeAnswer t k r a).modThrAt t k fun th => { th with rouse := .answers }
def execAnswer (t : TileId) (k : Slot) (s : State) : Out :=
  match (s.thrAt t k).req with
  | some r =>
    match r.stage with
    | .answered a => if s.answerFree t k r a then .next (s.giveAnswer t k r a) else noEvent "ANSWER"
    | _ => noEvent "ANSWER"
  | none => noEvent "ANSWER"

-- Refusal and withdrawal (R170, R191)

/-- A refused item is sent again; the trap of a withdrawn one is another event. -/
def execRefusedResend (r : Resend) (s : State) : Out :=
  match r with
  | .request t k =>
    match (s.thrAt t k).req with
    | some q =>
      match q.stage with
      | .refused due =>
        if s.dueAt t due then .next (s.modThrAt t k fun th => { th with req := some { q with stage := .sent } })
        else noEvent "REFUSED_RESEND"
      | _ => noEvent "REFUSED_RESEND"
    | none => noEvent "REFUSED_RESEND"
  | .item t i =>
    match (s.tileAt t).sent[i]? with
    | some it =>
      match it.refused with
      | some due =>
        if s.dueAt t due then
          .next (s.modTile t fun x => { x with sent := x.sent.set i { it with refused := none } })
        else noEvent "REFUSED_RESEND"
      | none => noEvent "REFUSED_RESEND"
    | none => noEvent "REFUSED_RESEND"
  | .walk i =>
    match s.refused[i]? with
    | some q => if s.dueAt q.req.tile q.due then .next { s with refused := dropAt s.refused i } else noEvent "REFUSED_RESEND"
    | none => noEvent "REFUSED_RESEND"

/-- A withdrawal reaches the home: an entry that still waits goes; a request that the home has not yet performed goes as well, whether it is
on its way, at the station that holds its page, or refused (R170, R260, R261). -/
def execWithdrawal (t : TileId) (k : Slot) (s : State) : Out :=
  let th := s.thrAt t k
  match th.req with
  | some r =>
    if !th.trapReady || (r.stage == .listed && !r.homes.all fun h => s.isLost h || s.homeOpen t h) then noEvent "WITHDRAWAL"
    else match r.stage with
    | .sent | .listed | .refused _ =>
      .next ((s.dropWaits t k).modThrAt t k fun th => { th with req := some { r with stage := .withdrawn } })
    | _ => noEvent "WITHDRAWAL"
  | none => noEvent "WITHDRAWAL"

-- Monitors and timeouts (R171, R190, R191)

/-- A notice of a write to the line of an armed entry has come (R171). -/
def State.notice (s : State) (t : TileId) (k : Slot) (e : Fin 4) : State :=
  s.modThrAt t k fun th => if (th.monitors[e]).valid then th.setW e else th
/-- A notice comes over the bridges to its tile (R171, R388); a pair notes it (R376). -/
def execMonitorNotice (t : TileId) (k : Slot) (e : Fin 4) (s : State) : Out :=
  if s.notices.contains (t, k, e) && (((s.thrAt t k).monitors[e]).locs.head?.map s.homeOf).all (s.backOpen t) then
    let s : State := { s with notices := s.notices.filter fun n => n ≠ (t, k, e) }
    .next ((s.modTile t fun x => x.noteIn (.notice k e)).notice t k e)
  else noEvent "MONITOR_NOTICE"

def execMslpTimeout (t : TileId) (k : Slot) (s : State) : Out :=
  let th := s.thrAt t k
  match th.run, th.sleep with
  | .sleeping, some ⟨_, some d⟩ =>
    if s.dueAt t d && !s.anyHalted then .next (s.modThrAt t k fun th => { th with run := .ready, rouse := .clears }) else noEvent "MSLP_TIMEOUT"
  | _, _ => noEvent "MSLP_TIMEOUT"

/-- The deadline of a watch. -/
def Req.deadline (r : Req) : Option Nat :=
  match r.op with
  | .wadr _ _ d => d
  | _ => none

/-- The timeout of `wadr` is decided at the home: the word there is the answer (R191). -/
def execWadrTimeout (t : TileId) (k : Slot) (s : State) : Out :=
  match (s.thrAt t k).req with
  | some r =>
    match r.deadline, s.reqReach t r with
    | some d, .homes hs =>
      if s.dueAt t d && !s.anyHalted && (r.stage == .sent || r.stage == .listed || (match r.stage with | .refused _ => true | _ => false)) then
        .next ((s.dropWaits t k).answerAt t k (.value (BitVec.ofNat 64 (s.viewNat t (hs.map (·.loc)))) 0))
      else noEvent "WADR_TIMEOUT"
    | _, _ => noEvent "WADR_TIMEOUT"
  | none => noEvent "WADR_TIMEOUT"

end Sys2Proof.Machine
end

