-- ==== Sys2Proof/Machine/Engines.lean ====
section
/-! DEFINITION. What the events of the carrier and the engines share: fretboard intervals (R285, R286), conflicts (R288), the bytes
an operation computes (R289, R325-R327, R334, R335), errors (R302, R309), completion entries (R293, R300, R308), and the agreement points
of a pair (R375). -/

namespace Sys2Proof.Machine

-- Agreement points of a pair (R374, R375)

/-- Whether some cells lie outside a tile. -/
def leaves (t : TileId) (cs : List Host.Cell) : Bool := cs.any fun c => locTile c.1 ≠ some t

/-- What an engine of a pair does outside its tile happens at an agreement point, which then includes it (R375, log 48). -/
def State.egressOk (s : State) (t : TileId) (out : Bool) : Bool := !out || (s.tileAt t).agreed
def State.afterEgress (s : State) (t : TileId) (out : Bool) : State := if out then s.snapshot t else s

-- Intervals (R285, R286)

/-- The entries of a fretboard (R285). -/
def fretRoom : Nat := 128

/-- The fretboard entries that a request takes (R283, R298). -/
def EngOp.entries : EngOp → Nat
  | .bind _ => 0
  | .cpym _ _ _ _ _ => 2
  | _ => 1

/-- The own bytes of n bytes from an address, as first and last. -/
def State.ownRange (s : State) (t : TileId) (a : Word) (n : Nat) : List (Nat × Nat) :=
  if n = 0 then []
  else match s.ownOff t a with
    | some o => [(o, min (o + n - 1) (Config.scratchBytes - 1))]
    | none => []

/-- A contiguous range, widened (R286 steps 1 and 2). -/
def State.rangeIvs (s : State) (t : TileId) (a : Word) (n : Nat) (w : Bool) : List Interval :=
  (s.ownRange t a n).map fun r => widen r.1 r.2 w

/-- The least and the greatest of some ranges. -/
def hullOf : List (Nat × Nat) → Option (Nat × Nat)
  | [] => none
  | r :: rs => match hullOf rs with
    | some h => some (min r.1 h.1, max r.2 h.2)
    | none => some r

/-- A strided, shaped or mapped access: one hull for each bank it touches (R286 step 3). -/
def bankHulls (rs : List (Nat × Nat)) (w : Bool) : List Interval :=
  (List.range 16).filterMap fun b =>
    let lo := b * Config.bankBytes
    let hi := lo + Config.bankBytes - 1
    let inBank := rs.filterMap fun r => if r.1 ≤ hi ∧ lo ≤ r.2 then some (max r.1 lo, min r.2 hi) else none
    (hullOf inBank).map fun h => widen h.1 h.2 w

def insertIv (x : Interval) : List Interval → List Interval
  | [] => [x]
  | y :: ys => if x.first ≤ y.first then x :: y :: ys else y :: insertIv x ys
def mergeFrom (c : Interval) : List Interval → List Interval
  | [] => [c]
  | y :: ys => if y.first ≤ c.last + 1 then mergeFrom { c with last := max c.last y.last } ys else c :: mergeFrom y ys
/-- Intervals of one direction, joined where they overlap or touch (R286 step 4). -/
def joinIvs (ivs : List Interval) : List Interval :=
  match ivs.foldl (fun acc x => insertIv x acc) [] with
  | [] => []
  | x :: xs => mergeFrom x xs
/-- One hull over the intervals of one direction (R286 step 5). -/
def hullIvs (ivs : List Interval) (w : Bool) : List Interval :=
  match hullOf (ivs.map fun i => (i.first, i.last)) with
  | some h => [⟨h.1, h.2, w⟩]
  | none => []
/-- The at most four intervals of an entry (R286). -/
def formIvs (ivs : List Interval) : List Interval :=
  let r := joinIvs (ivs.filter fun i => !i.write)
  let w := joinIvs (ivs.filter fun i => i.write)
  if r.length + w.length ≤ 4 then r ++ w else hullIvs r false ++ hullIvs w true

/-- The bytes that a linear copy of n source bytes writes, by the bank formats of this moment (R219; log 46). -/
def State.copyDstLen (s : State) (t : TileId) (dst src : Word) (n : Nat) : Nat :=
  match convOf (s.touched t src n) (s.touched t dst 1) with
  | some (sf, df) => n / unitBytes sf * unitElems sf / unitElems df * unitBytes df
  | none => n

/-- The own bytes of a side of a tensor copy. -/
def State.sideRanges (s : State) (t : TileId) (l : BitVec 512) (base : Word) : List (Nat × Nat) :=
  if lastCopyOk l then (List.range (lastCount l)).flatMap fun n => s.ownRange t (unitAddr t l base n) (lastUnit l) else []

/-- The own bytes of a region's rows (R324); packed rows are one range. -/
def State.regionIvs (s : State) (t : TileId) (a w : Word) (write : Bool) : List Interval :=
  if rgPitch w = rgRowBytes w then s.rangeIvs t a (rgRows w * rgRowBytes w) write
  else bankHulls ((List.range (rgRows w)).flatMap fun r => s.ownRange t (a + BitVec.ofNat 64 (r * rgPitch w)) (rgRowBytes w)) write

/-- The R intervals of a matrix operand of some rows of k elements (R295, R318). Their length is by the bank format at the entering, though the
operation samples formats at its dispatch (R216, R283), where its entry is made already (DEDUCED, log 46). -/
def State.operandIvs (s : State) (t : TileId) (f : MmaFmt) (a : Word) (rows k : Nat) : List Interval :=
  s.rangeIvs t a (rows * rowBytes ((operandFmt f (s.touched t a 1)).getD (mmaOwn f)) k) false

/-- The two lasts of a tensor copy of tile t, destination first (R312); a pair that names the tile is local (R417). -/
def EngOp.lastAddrs (t : TileId) : EngOp → List Word
  | .cpyt _ _ a => [ownBase t a, ownBase t a + 64]
  | _ => []
/-- Whether both lasts lie whole in the tile's own scratchpad, so that the carrier reads them at acceptance (R239). -/
def State.ownLasts (s : State) (t : TileId) (o : EngOp) : Bool :=
  !(o.lastAddrs t).isEmpty && (o.lastAddrs t).all fun a => a.toNat % 64 = 0 && (s.ownOff t a).isSome

/-- The whole scratchpad, for the side of a tensor copy of tile t whose last is not read yet; none for a side with a base in global space or
in another tile, none of whose bytes can be the tile's own (R285). -/
def wholeIv (t : TileId) (base : Word) (write : Bool) : List Interval :=
  if regionOf (ownBase t base) = 0 then [⟨0, Config.scratchBytes - 1, write⟩] else []

/-- The participants that a tile hosts (R183, R329). -/
def State.perTile (s : State) (t : TileId) : Nat :=
  match s.gangOf t with
  | some g => g.perTile
  | none => 1

/-- The intervals of an operation (R286). A tensor copy whose lasts are read only at its dispatch (R239) takes the whole scratchpad until
then (log 47). -/
def State.opIvs (s : State) (t : TileId) (op : EngOp) (lasts : List (BitVec 512)) : List Interval :=
  match op with
  | .cpy d a n => s.rangeIvs t a n false ++ s.rangeIvs t d (s.copyDstLen t d a n) true
  | .cpym d a _ n _ => s.rangeIvs t a n false ++ s.rangeIvs t d (s.copyDstLen t d a n) true
  | .cpyt d a _ => (op.lastAddrs t).flatMap (fun l => s.rangeIvs t l 64 false) ++ match lasts with
    | [dl, sl] => bankHulls (s.sideRanges t sl a) false ++ bankHulls (s.sideRanges t dl d) true
    | _ => wholeIv t a false ++ wholeIv t d true
  | .mma f sp a b c md _ =>
    s.operandIvs t f a (ctlM c) (if sp then ctlK c / 2 else ctlK c) ++ s.operandIvs t f b (ctlN c) (ctlK c) ++
      (if sp then s.rangeIvs t md ((ctlM c * (ctlK c / 4) + 1) / 2) false else [])
  | .acld a w => s.regionIvs t a w false
  | .acst a w => s.regionIvs t a w true
  | .adrn a w _ => s.regionIvs t a w true
  | .tree fn d a c =>
    let q := s.perTile t
    s.rangeIvs t a (treeSrcLen fn.code c q) false ++ s.rangeIvs t d (treeDstLen fn.code c q) true
  | .ccv d a c =>
    s.rangeIvs t a (rowBytes (ccvSrc c) (ccvCount c)) false ++ s.rangeIvs t d (rowBytes (ccvDst c) (ccvCount c)) true
  | .ccvq d a c sc =>
    s.rangeIvs t a (rowBytes (ccvSrc c) (ccvCount c)) false ++ s.rangeIvs t sc (ccvCount c / 16) false ++
      s.rangeIvs t d (rowBytes (ccvDst c) (ccvCount c)) true
  | .welt fn h n0 _ o => (weltRanges fn ((s.tileAt t).hdr h) n0 o).flatMap fun r => s.rangeIvs t r.1 r.2.1 r.2.2
  | .acz _ | .acrd _ _ | .acwr _ _ | .tbar | .bind _ => []

-- Dispatch (R251, R288, R295, R365)

def EngOp.isWelt : EngOp → Bool
  | .welt _ _ _ _ _ => true
  | _ => false

/-- The entries of a tile older than one. -/
def Tile.olderOps (x : Tile) (id : Nat) : List EngEntry := x.ops.takeWhile fun o => o.req.id ≠ id

/-- The older operations that hold one back (R288); welt operations never hold one another (R350). -/
def Tile.blockers (x : Tile) (e : EngEntry) : List EngEntry :=
  (x.olderOps e.req.id).filter fun o => !(o.req.op.isWelt && e.req.op.isWelt) && e.ivs.any fun i => o.blocks i.first i.last i.write

/-- Whether an older entry holds an operation back: another operation's, or that of a stream element in flight (R285, R288). -/
def State.conflicts (s : State) (t : TileId) (e : EngEntry) : Bool :=
  !((s.tileAt t).blockers e).isEmpty ||
    (s.flightIvs t).any fun f => decide (f.1 < (s.tileAt t).rank e) && e.ivs.any fun i => f.2.meets i.first i.last && (f.2.write || i.write)

/-- Whether an operation of a tile is held on the fretboard for another one, directly or through others; the fuel bounds the chain. -/
def Tile.waitsOn (x : Tile) (q : Nat) : Nat → Nat → Bool
  | 0, _ => false
  | n + 1, p => match x.ops.find? fun o => o.req.id = p with
    | some e => (x.blockers e).any fun o => o.req.id = q || Tile.waitsOn x q n o.req.id
    | none => false

/-- Whether an operation may start on a tile's sequencer (R295, R296, R364): it is next in the order of R221, in which an earlier operation
stands before it until it is taken, but for one that the fretboard holds for this very operation, which neither could pass otherwise: the spec
does not speak of that (DESIGN CHOICE, log 75), and its cells are free. -/
def State.seqReady (s : State) (u : TileId) (q : TileId × Nat) (e : EngEntry) : Bool :=
  let x := s.tileAt u
  let y := s.tileAt q.1
  let passed (p : TileId × Nat) : Bool := match s.opAt p with
    | some o => (o.state != .held || (decide (p.1 = q.1) && y.waitsOn q.2 y.ops.length p.2)) && !cellsHold u o e
    | none => false
  x.mxq.contains q && !x.frozen && !x.freezing && (beforeIn q x.mxq).all passed && (x.mxq.filterMap s.opAt).all fun o => o.state != .active

/-- Whether an earlier store of the thread to local scratchpad is not yet written in its bank (R251). -/
def Tile.storesBefore (x : Tile) (slot : Slot) (seq : Nat) : Bool :=
  x.stores.any fun r => r.slot = slot && r.stage == .bank && decide (r.seq < seq)

/-- Whether an operation is a conversion (R300). -/
def EngOp.isConv : EngOp → Bool
  | .ccv _ _ _ | .ccvq _ _ _ _ => true
  | _ => false

/-- Whether its engine takes an operation now. The conversion engine takes them one by one as they retired (R300). The matrix sequencer
takes a supervisor's on a frozen sequencer at once, behind its earlier ones (R365), else in the order of R221 in every tile involved
(R295-R297). -/
def State.seqTakes (s : State) (t : TileId) (e : EngEntry) : Bool :=
  if e.req.op.isConv then !((s.tileAt t).olderOps e.req.id).any fun o => o.req.op.isConv
  else if !e.req.op.onSeq then true
  else if e.req.direct then ((s.tileAt t).olderOps e.req.id).all fun o => !o.req.direct
  else (e.req.op.tilesOf t).all fun u => s.seqReady u (t, e.req.id) e

/-- The bank formats that an operation samples at its dispatch (R216, R217, R318). -/
def State.sampled (s : State) (t : TileId) (op : EngOp) (lasts : List (BitVec 512)) : List (BitVec 4) × List (BitVec 4) :=
  match op with
  | .cpy d a n => (s.touched t a n, s.touched t d (max 1 (s.copyDstLen t d a n)))
  | .cpym d a _ n _ => (s.touched t a n, s.touched t d (max 1 (s.copyDstLen t d a n)))
  | .cpyt d a _ => match lasts with
    | [dl, sl] =>
      let side (l : BitVec 512) (base : Word) : List (BitVec 4) :=
        if lastCopyOk l then (List.range (lastCount l)).flatMap fun n => s.touched t (unitAddr t l base n) (lastUnit l) else []
      (side sl a, side dl d)
    | _ => ([], [])
  | .mma f sp a b c _ _ => (s.mmaCodes t f a (ctlM c) (if sp then ctlK c / 2 else ctlK c), s.mmaCodes t f b (ctlN c) (ctlK c))
  | _ => ([], [])

-- What an operation computes (R289, R325-R327, R334, R335)

/-- What an operation comes to. -/
inductive OpRes where
  | waits
  | fatal (a : Word)
  | out (o : EngOut)
  deriving DecidableEq, Repr

/-- The writes of an operation to memory. -/
def State.writesOut (s : State) (t : TileId) (acc : Acc) (as : List Word) (bs : List Byte) (fl : BitVec 64) : OpRes :=
  match s.engWrite t acc (as.zip bs) with
  | .waits => .waits
  | .fatal a => .fatal a
  | .cells cs => .out ⟨cs, fl, bs.length⟩

/-- Bytes that lie in both operands of a conversion: each is what was there or what the conversion wrote (R290, R334). -/
def mixShared (pick : Nat → BitVec 64) (shared : Word → Option Byte) (as : List Word) (bs : List Byte) : List Byte :=
  ((List.range bs.length).zip (as.zip bs)).map fun p =>
    match shared p.2.1 with
    | some old => if (pick p.1).getLsbD 0 then p.2.2 else old
    | none => p.2.2

/-- The result of a conversion of n source units at an address. -/
def State.convertWork (s : State) (t : TileId) (acc : Acc) (dst src ctl : Word) (f : List Nat → OpRes ⊕ (List Nat × VFlags)) : OpRes :=
  let (dst, src) := (ownBase t dst, ownBase t src)
  let n := rowBytes (ccvSrc ctl) (ccvCount ctl)
  let sa := addrsFrom src n
  match s.engRead t acc sa with
  | .waits => .waits
  | .fatal a => .fatal a
  | .bytes bs =>
    match f (bytesUnits (ccvSrc ctl) (n / unitBytes (ccvSrc ctl)) bs) with
    | .inl r => r
    | .inr r =>
      let out := unitsBytes (ccvDst ctl) r.1
      let as := addrsFrom dst out.length
      let old (a : Word) : Option Byte := match s.ownOff t a, s.ownOff t src with
        | some o, some b => if b ≤ o ∧ o < b + n then bs[o - b]? else none
        | _, _ => none
      s.writesOut t acc as (mixShared (s.openValue [dst.toNat, src.toNat, ctl.toNat]) old as out) r.2.bits

/-- The work of an accumulator operation or a conversion, reading at this moment. -/
def State.opWork (s : State) (t : TileId) (e : EngEntry) : OpRes :=
  let x := s.tileAt t
  match e.req.op with
  | .acz w => .out ⟨((List.range (rgRows w)).flatMap (rgRow w)).flatMap fun c => cellBytes c 0, 0, 0⟩
  | .acld a w =>
    match s.engRead t e.acc ((List.range (rgRows w)).flatMap (rgAddrs a w)) with
    | .waits => .waits
    | .fatal a => .fatal a
    | .bytes bs => let r := regionCells w bs; .out ⟨r.1, r.2.bits, 0⟩
  | .acst a w => let r := x.regionBytes w; s.writesOut t e.acc ((List.range (rgRows w)).flatMap (rgAddrs a w)) r.1 r.2.bits
  | .adrn a w _ => let r := x.regionBytes w; s.writesOut t e.acc ((List.range (rgRows w)).flatMap (rgAddrs (ownBase t a) w)) r.1 r.2.bits
  | .acrd _ sel => .out ⟨(selCells sel).flatMap fun c => cellBytes c (x.cell c.1 c.2).toNat, 0, 0⟩
  | .acwr sel v => .out ⟨((selCells sel).zip (lanesOf 32 v)).flatMap fun p => cellBytes p.1 p.2, 0, 0⟩
  | .ccv d a c => s.convertWork t e.acc d a c fun us => .inr (convertUnits (ccvSat c) (ccvSrc c) (ccvDst c) us)
  | .ccvq d a c sc => s.convertWork t e.acc d a c fun us =>
      match s.engRead t e.acc (addrsFrom (ownBase t sc) (ccvCount c / 16)) with
      | .waits => .inl .waits
      | .fatal a => .inl (.fatal a)
      | .bytes bs => .inr (convertScaled (ccvSrc c) (ccvDst c) us (bs.map fun b => b.toNat))
  | _ => .waits

/-- Whether an operation's result comes from `opWork`. -/
def EngOp.computes : EngOp → Bool
  | .acz _ | .acld _ _ | .acst _ _ | .adrn _ _ _ | .acrd _ _ | .acwr _ _ | .ccv _ _ _ | .ccvq _ _ _ _ => true
  | _ => false

/-- Whether an operation is a copy. -/
def EngOp.isCopy : EngOp → Bool
  | .cpy _ _ _ | .cpyt _ _ _ | .cpym _ _ _ _ _ => true
  | _ => false

/-- The destination bytes of a copy. -/
def EngEntry.copied (e : EngEntry) : Nat :=
  match e.plan with
  | .inr p => p.dUnit * p.dCount
  | .inl _ => 0

/-- The bytes that an operation in flight accesses, as ranges: what it reads and what it writes. -/
def State.opRanges (s : State) (t : TileId) (e : EngEntry) : List (Word × Nat) × List (Word × Nat) :=
  let region (a w : Word) : List (Word × Nat) := (List.range (rgRows w)).map fun r => (a + BitVec.ofNat 64 (r * rgPitch w), rgRowBytes w)
  match e.req.op with
  | .cpy d a n => ([(a, n)], [(d, e.copied)])
  | .cpym d a _ n _ => ([(a, n)], [(d, e.copied)])
  | .cpyt d a l =>
    (match e.lasts with
    | [dl, sl] => ((List.range (lastCount sl)).map fun n => (unitAddr t sl a n, lastUnit sl),
        (List.range (lastCount dl)).map fun n => (unitAddr t dl d n, lastUnit dl))
    | _ => ([(ownBase t l, 128)], []))
  | .mma _ _ _ _ _ _ _ =>
    (match e.mmaPlan t with
    | .inr p => ([(p.a, ctlM p.c * rowBytes p.fa p.ka), (p.b, ctlN p.c * rowBytes p.fb (ctlK p.c)), (p.md, (ctlM p.c * (ctlK p.c / 4) + 1) / 2)], [])
    | .inl _ => ([], []))
  | .acld a w => (region a w, [])
  | .acst a w => ([], region a w)
  | .adrn a w _ => ([], region a w)
  | .tree fn d a c => ([(a, treeSrcLen fn.code c (s.perTile t))], [(d, treeDstLen fn.code c (s.perTile t))])
  | .ccv d a c => ([(a, rowBytes (ccvSrc c) (ccvCount c))], [(d, rowBytes (ccvDst c) (ccvCount c))])
  | .ccvq d a c sc => ([(a, rowBytes (ccvSrc c) (ccvCount c)), (sc, ccvCount c / 16)], [(d, rowBytes (ccvDst c) (ccvCount c))])
  | .welt fn h n0 _ o =>
    let rs := weltRanges fn ((s.tileAt t).hdr h) n0 o
    ((rs.filter fun r => !r.2.2).map (fun r => (r.1, r.2.1)), (rs.filter fun r => r.2.2).map fun r => (r.1, r.2.1))
  | .acz _ | .acrd _ _ | .acwr _ _ | .tbar | .bind _ => ([], [])

/-- The pages that some bytes lie in. -/
def pagesOf (r : Word × Nat) : List (BitVec 36) :=
  if regionOf r.1 ≠ 2 ∨ r.2 = 0 then []
  else
    let lo := r.1.toNat % 2 ^ 52 / 2 ^ 16
    let hi := (r.1.toNat % 2 ^ 52 + r.2 - 1) / 2 ^ 16
    (List.range (hi + 1 - lo)).map fun i => BitVec.ofNat 36 (lo + i)

-- Address generation (R283 step 4)

/-- Whether the carrier generates an operation's addresses: a copy's and a drain's. -/
def EngOp.generates : EngOp → Bool
  | .adrn _ _ _ => true
  | op => op.isCopy
/-- The pieces of 256 bytes in which it does; none where a copy has no plan. -/
def EngEntry.pieces (e : EngEntry) : Option Nat :=
  match e.req.op with
  | .adrn _ w _ => some ((rgRows w * rgRowBytes w + 255) / 256)
  | _ => match e.plan with
    | .inr p => some p.pieces
    | .inl _ => none
/-- Every piece is generated. -/
def EngEntry.allMoved (e : EngEntry) : Bool :=
  match e.pieces with
  | some n => (List.range n).all fun g => e.moved.contains g
  | none => false
/-- Whether every piece with a source byte in the tile's own banks is moved: the read-done point of a copy (R289). -/
def State.localMoved (s : State) (t : TileId) (e : EngEntry) : Bool :=
  match e.plan with
  | .inr p => (List.range p.pieces).all fun g => e.moved.contains g || !(s.pieceAddrs t e p g).1.any fun a => (s.ownOff t a).isSome
  | .inl _ => false
/-- The pages that the transfer of an operation touches. -/
def State.opPages (s : State) (t : TileId) (e : EngEntry) : List (BitVec 36) :=
  let r := s.opRanges t e
  ((r.1 ++ r.2).flatMap pagesOf).eraseDups
/-- The steps that are left: a request for each page, then the pieces. -/
def State.genSteps (s : State) (t : TileId) (e : EngEntry) : List GenStep :=
  if !e.req.op.generates || e.err.isSome then []
  else match (List.range (s.opPages t e).length).filter fun i => !e.asked.contains i with
  | [] => (s.nextPieces e (e.pieces.getD 0)).map .piece
  | is => is.map .page

/-- Every quadrant of a matrix operation is complete (R297). -/
def EngEntry.allFin (e : EngEntry) (t : TileId) : Bool := (e.req.op.tilesOf t).all fun u => (e.quadOf u).fin

-- Errors (R302, R309, R314)

/-- The error that an operation in flight meets now, with INFO (R308, R309). -/
def State.opError (s : State) (t : TileId) (e : EngEntry) : Option (EngErr × Word) :=
  match e.err, e.state with
  | some x, _ => some x
  | none, .held => none
  | none, _ =>
    match e.req.op with
    | .mma _ _ _ _ _ _ _ =>
      if e.allFin t then none
      else match e.mmaPlan t with
      | .inl c => some (c, 0)
      | .inr p => match s.mmaRead t e p with
        | .inl x => some x
        | .inr _ => none
    | op =>
      if op.isCopy then
        match e.plan with
        | .inl c => some (c, 0)
        | .inr p => match s.pieceFault t e p (s.nextPieces e p.pieces) with
          | some a => some (.fault, a)
          | none => none
      else if op.computes && e.out.isNone then (match s.opWork t e with
        | .fatal a => some (.fault, a)
        | _ => none)
      else none

/-- The cells of a conversion before its first fatal access. -/
def State.convertBefore (s : State) (t : TileId) (acc : Acc) (dst src ctl : Word) (scales : Option Word) : List Host.Cell :=
  let sf := ccvSrc ctl
  let df := ccvDst ctl
  let bs := s.engPrefix t acc (addrsFrom (ownBase t src) (rowBytes sf (ccvCount ctl)))
  let sc := match scales with
    | some a => s.engPrefix t acc (addrsFrom (ownBase t a) (ccvCount ctl / 16))
    | none => []
  let es := wholeElems sf df bs.length
  let us := bytesUnits sf ((match scales with
    | some _ => min es (16 * sc.length)
    | none => es) / unitElems sf) bs
  let out := match scales with
    | some _ => (convertScaled sf df us (sc.map fun b => b.toNat)).1
    | none => (convertUnits (ccvSat ctl) sf df us).1
  let bytes := unitsBytes df out
  (s.engCells t acc ((addrsFrom (ownBase t dst) bytes.length).zip bytes)).1

/-- What an operation that meets a fatal access has written by then (R293, R309, R326; log 55): accumulator cells, or bytes that are
staged. -/
def State.writeBefore (s : State) (t : TileId) (e : EngEntry) : State :=
  let x := s.tileAt t
  let stageSome (cs : List Host.Cell) : State := ({ s with free := s.free + cs.length } : State).stage t e.req.id (s.someCells 1 cs)
  match e.req.op with
  | .acld a w =>
    let bs := s.engPrefix t e.acc ((List.range (rgRows w)).flatMap (rgAddrs a w))
    let cs := (regionCells w bs).1.take (4 * (bs.length / unitBytes (rgFmt w) * unitElems (rgFmt w)))
    ({ s with free := s.free + cs.length } : State).modTile t fun x => x.putAcc (s.someCells 4 cs)
  | .acst a w => stageSome (s.engCells t e.acc (((List.range (rgRows w)).flatMap (rgAddrs a w)).zip (x.regionBytes w).1)).1
  | .adrn a w _ => stageSome (s.engCells t e.acc (((List.range (rgRows w)).flatMap (rgAddrs (ownBase t a) w)).zip (x.regionBytes w).1)).1
  | .ccv d a c => stageSome (s.convertBefore t e.acc d a c none)
  | .ccvq d a c sc => stageSome (s.convertBefore t e.acc d a c (some sc))
  | op =>
    if op.isCopy && !e.allMoved then
      match e.plan with
      | .inr p =>
        let cs := s.copyBefore t e p (s.nextPieces e p.pieces)
        let s : State := { s with free := s.free + e.copied }
        ({ s with free := s.free + cs.length } : State).stage t e.req.id (s.someCells 1 cs)
      | .inl _ => s
    else s

-- Ends of operations (R287, R289, R293, R300, R307, R308)

/-- The code of an error (R309). -/
def errCode : EngErr → Nat
  | .fault => 1 | .last => 2 | .count => 3 | .format => 4 | .cluster => 5 | .shape => 6 | .metadata => 7 | .data => 8

/-- The first word of a completion entry (R308). -/
def completionWord (r : EngReq) (status : Nat) (flags : BitVec 64) : Word :=
  BitVec.ofNat 64 (r.tag.toNat * 2 ^ 48 + status * 2 ^ 40 + flags.toNat % 256 * 2 ^ 32 + r.slot.val * 2 ^ 24 + r.op.opf.2 * 2 ^ 7 + r.op.opf.1)

/-- A completion entry is sent to channel 0 of the tile; it is held until the channel has room (R211, R308). -/
def State.completionEntry (s : State) (t : TileId) (r : EngReq) (status : Nat) (flags : BitVec 64) (info : Word) (cp tl : Option Slot) : State :=
  let x := s.tileAt t
  let h : HeldEntry := ⟨completionWord r status flags, info, metaWord (s.pkgOf t) 3 t x.compSeq, cp, tl⟩
  s.putTile t { x with heldEnts := x.heldEnts ++ [h], compSeq := x.compSeq + 1 }

/-- The slot whose counter an operation counts in, while its thread lives. -/
def EngReq.owner (r : EngReq) : Option Slot := if r.counted then some r.slot else none

/-- An entry becomes FREE (R287): the operation leaves the orders. -/
def State.freeOp (s : State) (t : TileId) (e : EngEntry) : State :=
  let id := e.req.id
  let drop := fun (l : List (TileId × Nat)) => l.filter fun p => p ≠ (t, id)
  let s := s.modTile t fun x => { x with ops := x.ops.filter fun o => o.req.id ≠ id }
  let s := (e.req.op.tilesOf t).foldl (fun (s : State) u => s.modTile u fun x => { x with mxq := drop x.mxq, grpq := drop x.grpq }) s
  let s := (e.req.op.tilesOf t).foldl State.settleFreeze s
  { s with staged := s.staged.map fun (w : Staged) => if w.tile = t ∧ w.op = id then { w with done := true } else w }

/-- The flags of a tile operation reach `vstat` of its thread, and TL falls (R307, R47). -/
def State.endTl (s : State) (t : TileId) (r : EngReq) (fl : BitVec 64) : State :=
  match r.owner with
  | some k => s.modThrAt t k fun th => ({ th with vstat := th.vstat ||| fl } : Thread).dropTl
  | none => s

/-- The follow-on command of a `cpym` among the entries of a tile (R298). -/
def Tile.commandOf (x : Tile) (r : EngReq) : Option EngEntry :=
  x.ops.find? fun e => e.req.slot = r.slot && e.req.seq = r.seq && (match e.req.op with
    | .mma _ _ _ _ _ _ cmd => cmd
    | _ => false)

/-- An operation ends in error: its entry is sent, and the command of a failed `cpym` is dropped (R293, R300, R313). -/
def State.failOp (s : State) (t : TileId) (e : EngEntry) (c : EngErr) (info : Word) : State :=
  let r := e.req
  let cmd : Option EngEntry := match r.op with
    | .cpym _ _ _ _ _ => (s.tileAt t).commandOf r
    | _ => none
  let s := s.freeOp t e
  let s := match cmd with
    | some m => s.freeOp t m
    | none => s
  if r.op.tagged then s.completionEntry t r (errCode c) e.flags info r.owner (cmd.bind fun m => m.req.owner)
  else s.completionEntry t r (errCode c) 0 info none r.owner

/-- The WAKE of a drain, to the tile that its destination names (R299, R326). -/
def State.drainWake (s : State) (t : TileId) (r : EngReq) (dst handle : Word) : State :=
  let u := match s.place t dst with
    | .bank u _ => u
    | _ => t
  let it : SentItem := {
    kind := .drainWake, slot := r.slot, seq := (s.thrAt t r.slot).seq, pkg := none, dest := u, chan := 0, lo := handle, hi := 0, md := 0, ts := none
    rel := none, past := [], refused := none, counted := false }
  s.modTile t fun x => { x with sent := x.sent ++ [it] }

end Sys2Proof.Machine
end

