-- ==== Sys2Proof/Machine/EngineEvents.lean ====
section
/-! DEFINITION. The events of the carrier and the engines (spec/14_async_engines.md, R282-R309, R364, R365; R250). -/

namespace Sys2Proof.Machine

/-- An operation on an engine that moves: the engines of a halted die stop (R381). -/
def State.movingOp (s : State) (t : TileId) (id : Nat) : Option EngEntry := if s.dieHalted t then none else s.opAt (t, id)

-- The carrier (R283)

/-- Read the lasts that lie in the tile's own scratchpad (R239). -/
def State.readOwnLasts (s : State) (t : TileId) (op : EngOp) : List (BitVec 512) :=
  if s.ownLasts t op then (op.lastAddrs t).map fun a => BitVec.ofNat 512 (s.viewNat t ((addrsFrom a 64).filterMap fun b =>
    (s.ownOff t b).map (tileLoc t)))
  else []

/-- The generator of a memory stream takes its binding (R156). -/
def Tile.startStream (x : Tile) (k : Slot) (q : StreamReg) : Tile :=
  let b : Bind := (x.slots[k]).binds[q]
  if b.kind.isMem then x.modThr k fun th => { th with binds := th.binds.set q { b with live := true } } else x

/-- The fretboard entries that are in use or kept for accepted requests. -/
def Tile.entriesTaken (x : Tile) : Nat := x.entriesUsed + (x.accepted.map fun a => a.op.entries).sum
/-- Whether the fretboard has room for n more entries, beside those that stream elements will take before them. -/
def Tile.fretTakes (x : Tile) (n : Nat) : Bool := decide (x.entriesTaken + (x.elements.length - x.flights.length) + n ≤ fretRoom)

/-- Step 1 of R283: the oldest eyelet is accepted and freed, once the fretboard has room for its entries. The binding of a memory stream
waits for no store (R281). -/
def execCarrierAccept (t : TileId) (s : State) : Out :=
  let x := s.tileAt t
  match x.eyelets with
  | [] => noEvent "CARRIER_ACCEPT"
  | r :: rest =>
    if !x.fretTakes r.op.entries then noEvent "CARRIER_ACCEPT"
    else match r.op with
    | .bind q => .next (s.putTile t (({ x with eyelets := rest } : Tile).startStream r.slot q))
    | _ =>
      let r : EngReq := { r with lasts := s.readOwnLasts t r.op }
      .next (s.putTile t { x with eyelets := rest, accepted := x.accepted ++ [r] })

/-- A fretboard entry just made. -/
def entryOf (r : EngReq) (ivs : List Interval) (age ord : Nat) : EngEntry :=
  ⟨r, .held, ivs, [], [], r.lasts, 0, age, [], [], [], [], 0, [], ord, [], none, none⟩

/-- The matrix function of a code, 0 to 7 (R65). -/
def mmaOfCode (n : Nat) : MmaFmt :=
  ([.bf16, .f16, .sx7, .sx4, .sx2, .i8, .f32x3, .f32x6] : List MmaFmt).getD n .bf16

/-- The follow-on command of a `cpym` (R298, R313), under the number after the copy's. It goes by its own OP and F, so the F of its error entry is FN
(DESIGN CHOICE, log 75: R308 names TAG and OP only). -/
def commandReq (r : EngReq) : Option EngReq :=
  match r.op with
  | .cpym d _ c _ o =>
    let f := mmaOfCode (ctlFn c)
    let op : EngOp := if ctlOpnd c then .mma f false o d c 0 true else .mma f false d o c 0 true
    some { r with id := r.id + 1, op := op, flag := none }
  | _ => none

/-- An operation enters the fretboard, with the next entry order. -/
def State.enter (s : State) (t : TileId) (r : EngReq) (ivs : List Interval) (ord : Nat) : State :=
  s.modTile t fun x => { x with ops := x.ops ++ [entryOf r (formIvs ivs) x.nextId ord], nextId := x.nextId + 1 }

/-- Step 2 of R283: the oldest accepted request is entered (R286, R298). -/
def execFretboardEnter (t : TileId) (s : State) : Out :=
  let x := s.tileAt t
  match x.accepted with
  | [] => noEvent "FRETBOARD_ENTER"
  | r :: rest =>
    let tree := r.op.isTree
    let s := s.putTile t { x with accepted := rest, treeCount := x.treeCount + if tree then 1 else 0 }
    let s := s.enter t r (s.opIvs t r.op r.lasts) (if tree then x.treeCount else 0)
    .next (match commandReq r with
      | some m =>
        let spared := match r.op with
          | .cpym d a _ n _ => s.rangeIvs t d (s.copyDstLen t d a n) false
          | _ => []
        s.enter t m (spared ++ s.opIvs t m.op []) 0
      | none => s)

/-- What the lasts of a copy come to at its dispatch (R239). -/
inductive LastsOut where
  | waits
  | fatal (a : Word)
  | lasts (ls : List (BitVec 512))
  deriving DecidableEq, Repr

def State.readLasts (s : State) (t : TileId) (acc : Acc) : List Word → LastsOut
  | [] => .lasts []
  | a :: as =>
    match s.engRead t acc (addrsFrom a 64) with
    | .waits => .waits
    | .fatal _ => .fatal a
    | .bytes bs => match State.readLasts s t acc as with
      | .lasts ls => .lasts (BitVec.ofNat 512 (leNat bs) :: ls)
      | r => r

/-- The scope of a gang (R259): its package, or the domain when it has more. -/
def State.gangScope (s : State) (t : TileId) : Scope := if s.gangPkgs t ≤ 1 then .package else .domain

def State.putGang (s : State) (g : Gang) : State := { s with gangs := s.gangs.map fun h => if h.id = g.id then g else h }
/-- A tile's arrival of a rank publishes stores to the gang (R259). -/
def State.publish (s : State) (t : TileId) (rank : Nat) (ps : Past) : State :=
  match s.gangOf t with
  | some g => if ps.isEmpty then s else s.putGang { g with barPast := g.barPast ++ [(rank, ps)] }
  | none => s

/-- The intervals of an operation once its lasts are known: those of a copy that reads them at its dispatch are formed then (R286). -/
def State.ivsWith (s : State) (t : TileId) (e : EngEntry) (lasts : List (BitVec 512)) : List Interval :=
  if e.req.lasts.isEmpty && !lasts.isEmpty then formIvs (s.opIvs t e.req.op lasts) else e.ivs

/-- An operation becomes active: formats and lasts are sampled. A matrix operation begins where it stands, at its first chunk unless a write
of `mxstate` has moved it (R366). -/
def State.activate (s : State) (t : TileId) (e : EngEntry) (access : Nat) (lasts : List (BitVec 512)) (err : Option (EngErr × Word)) : State :=
  let fs := s.sampled t e.req.op lasts
  let ivs := s.ivsWith t e lasts
  let quads : List Quad := match e.req.op with
    | .mma _ _ _ _ _ _ _ => (e.req.op.tilesOf t).map e.quadOf
    | _ => []
  s.modTile t fun x => ({ x with nextId := x.nextId + 1 } : Tile).modOp e.req.id fun o =>
    { o with state := .active, ivs := ivs, fmtA := fs.1, fmtB := fs.2, lasts := lasts, access := access, quads := quads, err := err }

/-- The dispatch of a tensor copy whose lasts are not read yet: the first attempt sends the request where it must wait for a
translation (R239). One whose intervals then conflict with an older entry's stays held. -/
def State.dispatchLasts (s : State) (t : TileId) (e : EngEntry) : Option State :=
  let fresh := (s.tileAt t).nextId
  let access := if e.access = 0 then fresh else e.access
  match e.req.op.lastAddrs t with
  | a :: _ =>
    if a.toNat % 64 ≠ 0 then some (s.activate t e fresh [0, 0] none)
    else match s.readLasts t ⟨e.req.pid, access⟩ (e.req.op.lastAddrs t) with
    | .lasts ls => if s.conflicts t { e with ivs := s.ivsWith t e ls } then none else some (s.activate t e fresh ls none)
    | .fatal a => some (s.activate t e fresh [0, 0] (some (.fault, a)))
    | .waits =>
      if e.access = 0 then
        some (s.modTile t fun x => ({ x with nextId := x.nextId + 1 } : Tile).modOp e.req.id fun o => { o with access := fresh })
      else none
  | [] => some (s.activate t e fresh e.lasts none)

/-- Step 3 of R283: an entry that may start is handed to its engine (R288, R251, R295). A `tbar` sends its arrival (R259, R332). -/
def execDispatch (t : TileId) (id : Nat) (s : State) : Out :=
  let x := s.tileAt t
  match s.movingOp t id with
  | none => noEvent "DISPATCH"
  | some e =>
    if e.state ≠ .held ∨ s.conflicts t e ∨ x.storesBefore e.req.slot e.req.seq ∨ s.seqTakes t e = false then noEvent "DISPATCH"
    else match e.req.op with
    | .tbar =>
      if s.releaseGoes t e.req.slot e.req.seq (s.gangScope t) e.req.past && x.agreed then
        let s := s.activate t e x.nextId [] none
        let s := s.modTile t fun x => ({ x with barCount := x.barCount + 1 } : Tile).modOp id fun o => { o with ord := x.barCount }
        .next ((s.publish t x.barCount e.req.past).snapshot t)
      else noEvent "DISPATCH"
    | _ =>
      if e.lasts.isEmpty then
        match s.dispatchLasts t e with
        | some s' => .next s'
        | none => noEvent "DISPATCH"
      else .next (s.activate t e x.nextId e.lasts none)

-- Address generation (R283 step 4, R290-R293)

/-- A step on a copy or drain: the request for the translation of a page, or a piece's addresses. Where its addresses are generated a copy's
piece moves: its source is read and its destination staged (R250); a drain reads and writes later (log 33). -/
def execAddressGeneration (t : TileId) (id : Nat) (g : GenStep) (s : State) : Out :=
  match s.movingOp t id with
  | none => noEvent "ADDRESS_GENERATION"
  | some e =>
    if e.state = .held ∨ (s.genSteps t e).contains g = false then noEvent "ADDRESS_GENERATION"
    else match g with
    | .page i => .next (s.modOpAt (t, id) fun o => { o with asked := o.asked ++ [i] })
    | .piece g =>
      match e.req.op.isCopy, e.plan with
      | true, .inr p =>
        (match s.piece t e p g with
        | .moves cs fl =>
          let out := leaves t cs
          if s.egressOk t out then
            let s : State := { s with free := s.free + e.copied }
            let as := s.pieceAddrs t e p g
            let s := s.keepTrans t e.acc (as.1 ++ as.2)
            let s := (s.stage t id cs).modOpAt (t, id) fun o => { o with moved := o.moved ++ [g], flags := o.flags ||| fl.bits }
            .next (s.afterEgress t out)
          else noEvent "ADDRESS_GENERATION"
        | _ => noEvent "ADDRESS_GENERATION")
      | true, .inl _ => noEvent "ADDRESS_GENERATION"
      | false, _ => .next (s.modOpAt (t, id) fun o => { o with moved := o.moved ++ [g] })

-- Read-done (R287, R289)

/-- The R intervals of an entry are released. -/
def State.markRead (s : State) (t : TileId) (id : Nat) (f : EngEntry → EngEntry) : State :=
  s.modOpAt (t, id) fun o => f { o with state := .readDone }

/-- Whether an operation passes through READ_DONE: it has an R interval to release, or it reads cells that later operations write (R287,
R296). -/
def EngEntry.releases (e : EngEntry) : Bool := e.ivs.any (fun i => !i.write) || (match e.req.op with
  | .acst _ _ | .adrn _ _ _ => true
  | _ => false)

/-- The contribution of a tree operation (R304). -/
def State.treeRead (s : State) (t : TileId) (e : EngEntry) : EngRead :=
  match e.req.op with
  | .tree fn _ a c => s.engRead t e.acc (addrsFrom a (treeSrcLen fn.code c (s.perTile t)))
  | _ => .waits

def execReadDone (t : TileId) (id : Nat) (s : State) : Out :=
  match s.movingOp t id with
  | none => noEvent "READ_DONE"
  | some e =>
    if e.state ≠ .active ∨ e.err.isSome ∨ e.releases = false then noEvent "READ_DONE"
    else match e.req.op with
    | .mma _ _ _ _ _ _ _ => if e.allFin t then .next (s.markRead t id (fun o => o)) else noEvent "READ_DONE"
    | .tree _ _ _ _ =>
      match s.treeRead t e with
      | .bytes bs => .next (s.markRead t id fun o => { o with contrib := bs })
      | _ => noEvent "READ_DONE"
    | .welt _ _ _ _ _ => if e.out.isSome then .next (s.markRead t id (fun o => o)) else noEvent "READ_DONE"
    | op =>
      if op.isCopy then (if s.localMoved t e then .next (s.markRead t id (fun o => o)) else noEvent "READ_DONE")
      else if op.computes then
        if op.generates && !e.allMoved then noEvent "READ_DONE"
        else match s.opWork t e with
        | .out o => .next ({ s with free := s.free + o.bytes.length }.markRead t id fun q => { q with out := some o })
        | _ => noEvent "READ_DONE"
      else noEvent "READ_DONE"

-- Completion (R289, R293, R294, R299, R300)

/-- Nothing that an entry reads is still held by its R intervals. -/
def EngEntry.mayEnd (e : EngEntry) : Bool := e.state == .readDone || (e.state == .active && e.ivs.all fun i => i.write)

/-- A copy completes: every write of it is staged (R289). Its entry is FREE, the command of a `cpym` takes its place in the order (R298),
and its completion entry is sent, but where a flag is still to be written (R293, R294). The command goes on though the flag write then be
fatal (DESIGN CHOICE, log 75). -/
def State.completeCopy (s : State) (t : TileId) (e : EngEntry) : State :=
  let cmd : Option EngEntry := match e.req.op with
    | .cpym _ _ _ _ _ => (s.tileAt t).commandOf e.req
    | _ => none
  let s := s.freeOp t e
  let s := match cmd with
    | some m => s.modTile t fun x => { x with mxq := x.mxq ++ [(t, m.req.id)] }
    | none => s
  match e.req.flag with
  | none => s.completionEntry t e.req 0 e.flags (BitVec.ofNat 64 e.copied) e.req.owner none
  | some _ => s.modTile t fun x => { x with flagging := x.flagging ++ [⟨e.req, e.access, e.flags, e.copied⟩] }

/-- A copy whose flag is still to be written. -/
def Tile.flagOf (x : Tile) (id : Nat) : Option Flagging := x.flagging.find? fun f => f.req.id = id

/-- Where the flag write of a copy goes (R294, R314). -/
def State.flagWrite (s : State) (t : TileId) (f : Flagging) : EngWrite :=
  match f.req.flag with
  | some a => let n := sizeBytes a.size; s.engWrite t f.acc ((addrsFrom a.addr n).zip (leBytes a.val.toNat n))
  | none => .cells []

/-- Whether no bridge holds back the commit of a copy's payload, which comes before its flag (R250, R294, R388). -/
def State.payloadOpen (s : State) (t : TileId) (id : Nat) : Bool := s.staged.all fun w => !(w.tile = t && w.op = id) || s.commitOpen t w.loc
/-- The end of a copy with a flag: its payload is committed, and its completion entry follows what is done with the flag (R294, R314). -/
def State.endFlag (s : State) (t : TileId) (f : Flagging) (cells : List Host.Cell) (status : Nat) (info : Word) : State :=
  let s := s.commitWhere fun w => w.tile = t && w.op = f.req.id
  let s := if cells.isEmpty then s else (s.noteCells t cells).perform cells
  let s := s.modTile t fun x => { x with flagging := x.flagging.filter fun g => g.req.id ≠ f.req.id }
  s.completionEntry t f.req status f.flags info f.req.owner none

/-- The flag of a complete copy is written, one write that the thread domain sees (R294). -/
def completeFlag (t : TileId) (id : Nat) (s : State) : Out :=
  match (s.tileAt t).flagOf id with
  | none => noEvent "OPERATION_COMPLETE"
  | some f =>
    match s.flagWrite t f with
    | .cells cs =>
      let out := leaves t cs
      if s.egressOk t out && s.payloadOpen t id then .next ((s.endFlag t f cs 0 (BitVec.ofNat 64 f.count)).afterEgress t out) else noEvent "OPERATION_COMPLETE"
    | _ => noEvent "OPERATION_COMPLETE"

/-- A fatal flag write ends the copy in error, with the flag's address (R309, R314). -/
def failFlag (t : TileId) (id : Nat) (err : EngErr) (s : State) : Out :=
  match (s.tileAt t).flagOf id with
  | none => noEvent "ERROR_COMPLETION"
  | some f =>
    match err, f.req.flag, s.flagWrite t f with
    | .fault, some a, .fatal _ => if s.payloadOpen t id then .next (s.endFlag t f [] (errCode .fault) a.addr) else noEvent "ERROR_COMPLETION"
    | _, _, _ => noEvent "ERROR_COMPLETION"

/-- The writes of a computed operation are made: accumulator cells at once, memory by staging (R250). -/
def State.completeOut (s : State) (t : TileId) (e : EngEntry) (o : EngOut) : State :=
  match e.req.op with
  | .acz _ | .acld _ _ | .acwr _ _ => ((s.modTile t fun x => x.putAcc o.bytes).freeOp t e).endTl t e.req o.flags
  | .acrd d _ =>
    let s := (s.freeOp t e).endTl t e.req 0
    match e.req.owner with
    | some k =>
      let due := (s.tileAt t).cycle.toNat
      s.modThrAt t k fun th => { th with results := th.results ++ [⟨[.v d (BitVec.ofNat 1024 (leNat (o.bytes.map (·.2))))], due⟩] }
    | none => s
  | .adrn dst _ h =>
    let s := s.stage t e.req.id o.bytes
    let s := s.commitWhere fun w => w.tile = t && w.op = e.req.id
    let s := match e.req.owner with
      | some k => s.modThrAt t k fun th => { th with vstat := th.vstat ||| o.flags }
      | none => s
    ((s.drainWake t e.req dst h).freeOp t e).completionEntry t e.req 0 0 (BitVec.ofNat 64 o.count) e.req.owner none
  | _ => ((s.stage t e.req.id o.bytes).freeOp t e).endTl t e.req o.flags

/-- The result of an operation: what it computed at its read-done point, or what it computes now. -/
def State.resultOf (s : State) (t : TileId) (e : EngEntry) : Option EngOut :=
  match e.out with
  | some o => some o
  | none => if e.req.op.computes then (match s.opWork t e with
      | .out o => some o
      | _ => none)
    else none

/-- Whether an operation's writes go to memory. -/
def EngOp.toMemory : EngOp → Bool
  | .acst _ _ | .adrn _ _ _ | .ccv _ _ _ | .ccvq _ _ _ _ | .tree _ _ _ _ => true
  | _ => false

/-- Whether the bytes of a drain, which it commits (R250, R293), reach their homes (R388). -/
def State.drainOpen (s : State) (t : TileId) (op : EngOp) (o : EngOut) : Bool :=
  match op with
  | .adrn _ _ _ => o.bytes.all fun c => s.commitOpen t c.1
  | _ => true

/-- An operation completes, or the flag of a copy that has (R289, R293, R294). -/
def execOperationComplete (t : TileId) (id : Nat) (s : State) : Out :=
  if s.dieHalted t then noEvent "OPERATION_COMPLETE"
  else match s.opAt (t, id) with
  | none => completeFlag t id s
  | some e =>
    if e.mayEnd = false ∨ e.err.isSome then noEvent "OPERATION_COMPLETE"
    else match e.req.op with
    | .mma _ _ _ _ _ _ _ => if e.allFin t then .next ((s.freeOp t e).endTl t e.req e.flags) else noEvent "OPERATION_COMPLETE"
    | .welt _ _ _ _ _ =>
      (match e.out with
      | some o => .next ((s.freeOp t e).endTl t e.req o.flags)
      | none => noEvent "OPERATION_COMPLETE")
    | op =>
      if op.isCopy then
        (if e.allMoved then .next (s.completeCopy t e) else noEvent "OPERATION_COMPLETE")
      else if op.generates && !e.allMoved then noEvent "OPERATION_COMPLETE"
      else match s.resultOf t e with
        | some o =>
          let out := op.toMemory && leaves t o.bytes
          if s.egressOk t out && s.drainOpen t op o then .next ((({ s with free := s.free + o.bytes.length } : State).completeOut t e o).afterEgress t out)
          else noEvent "OPERATION_COMPLETE"
        | none => noEvent "OPERATION_COMPLETE"

/-- An operation ends in the error that it meets (R293, R300, R309). -/
def execErrorCompletion (t : TileId) (id : Nat) (err : EngErr) (s : State) : Out :=
  if s.dieHalted t then noEvent "ERROR_COMPLETION"
  else match s.opAt (t, id) with
  | none => failFlag t id err s
  | some e =>
    match s.opError t e with
    | some (c, info) =>
      if c = err then
        let s := if c = .fault ∧ e.err = none then s.writeBefore t e else s
        .next (s.failOp t e c info)
      else noEvent "ERROR_COMPLETION"
    | none => noEvent "ERROR_COMPLETION"

/-- A home commits the staged bytes of a tile in one granule, that of the i-th entry (R250). -/
def execStagingCommit (i : Nat) (s : State) : Out :=
  match s.staged[i]? with
  | some e => .next (s.commitWhere fun w => w.tile = e.tile && w.loc / 64 = e.loc / 64)
  | none => noEvent "STAGING_COMMIT"

-- The matrix sequencer (R295-R297, R364)

/-- A group operation reaches a member, which places it in its order; the arbiter's order is that of arrival (R297). From a pair it goes to
another tile at an agreement point (R375). -/
def execGroupBroadcast (t : TileId) (id : Nat) (m : TileId) (s : State) : Out :=
  match s.movingOp t id with
  | none => noEvent "GROUP_BROADCAST"
  | some e =>
    let base := groupBase t
    let q := (s.tileAt base).grpq
    let q := if q.contains (t, id) then q else q ++ [(t, id)]
    let before := (beforeIn (t, id) q).filterMap s.opAt
    if s.egressOk t (decide (m ≠ t)) && e.req.op.isGroup && e.state == .held && (groupTiles t).contains m && !e.members.contains m && before.all (fun o => o.members.contains m) then
      let s := s.modTile base fun x => { x with grpq := q }
      let s := s.modOpAt (t, id) fun o => { o with members := o.members ++ [m] }
      .next ((s.modTile m fun x => { x with mxq := x.mxq ++ [(t, id)] }).afterEgress t (decide (m ≠ t)))
    else noEvent "GROUP_BROADCAST"

/-- The matrix operation that runs on a tile's sequencer. -/
def State.runningMma (s : State) (t : TileId) : Option ((TileId × Nat) × EngEntry) :=
  ((s.tileAt t).mxq.filterMap fun p => (s.opAt p).map fun e => (p, e)).find? fun r => r.2.state == .active && (match r.2.req.op with
    | .mma _ _ _ _ _ _ _ => true
    | _ => false)

/-- A gap: the start of a chunk is delayed by a chunk time, which the die counts (R422, R423). There is none in isochronous mode (R420). -/
def State.takeGap (s : State) (t : TileId) : State :=
  let i : Fin 6 := Fin.ofNat 6 (dieOf t)
  let d : Die := s.dies[i]
  { s with dies := s.dies.set i { d with gaps := if d.gaps = BitVec.allOnes 32 then d.gaps else d.gaps + 1 } }

/-- The head operation of a tile's sequencer takes its next chunk, or slice pairing of a chunk (R89-R94, R295, R364), or takes a gap
before it. The quadrant of a pair's group operation in another tile moves at an agreement point (R375). An operation that is to end in error takes
no chunk once its bytes show it, so it changes no cell then (DESIGN CHOICE, log 55). -/
def execKChunkBoundary (c : ChunkStart) (s : State) : Out :=
  let t := c.tile
  match s.runningMma t with
  | none => noEvent "K_CHUNK_BOUNDARY"
  | some (p, e) =>
    let q := e.quadOf t
    let out := decide (p.1 ≠ t)
    if (s.tileAt t).frozen ∨ e.err.isSome ∨ q.fin ∨ s.dieHalted t ∨ s.egressOk p.1 out = false then noEvent "K_CHUNK_BOUNDARY"
    else if c.gap then (if s.dmode = 2 then noEvent "K_CHUNK_BOUNDARY" else .next (s.takeGap t))
    else match e.mmaPlan p.1 with
    | .inl _ => noEvent "K_CHUNK_BOUNDARY"
    | .inr plan =>
      match s.mmaRaw p.1 e plan with
      | .inl _ => noEvent "K_CHUNK_BOUNDARY"
      | .inr raw => match plan.data raw with
        | .inl _ => noEvent "K_CHUNK_BOUNDARY"
        | .inr data =>
          let r := mmaStep plan data t q (s.tileAt t)
          let new := if e.req.op.isGroup then (plan.chunkBlocks raw t q.chunk).filter fun b => !e.got.any fun c => c.1 = b.1 else []
          let s := (s.putTile t r.1).modOpAt p fun o =>
            ({ o with flags := o.flags ||| r.2.bits, got := o.got ++ new } : EngEntry).putQuad (q.advance plan.f (ctlK plan.c))
          .next (s.afterEgress p.1 out)

end Sys2Proof.Machine
end

