-- ==== Sys2Proof/Machine/TreeEvents.lean ====
section
/-! DEFINITION. The events of the reduction tree, the barriers, the horizon and the welt unit (R175, R176, R259, R301-R304, R332, R341,
R352, R391, R392, R407). -/

namespace Sys2Proof.Machine

/-- The INFO of an error that another member's failure causes (R302, R308). -/
def allOnes64 : Word := BitVec.allOnes 64

-- The data channel (R302-R304, R407)

/-- The k-th data operation of a tile. -/
def Tile.treeOpAt (x : Tile) (k : Nat) : Option EngEntry := x.ops.find? fun e => e.req.op.isTree && e.ord = k

/-- The error that an operation's own contribution meets (R302). -/
def State.treeOwnErr (s : State) (t : TileId) (e : EngEntry) : Option (EngErr × Word) :=
  match e.err with
  | some x => some x
  | none =>
    if e.state == .active then (match s.treeRead t e with
      | .fatal a => some (.fault, a)
      | _ => none)
    else none

/-- A tile has contributed to the k-th operation, or failed to. -/
def State.treeReady (s : State) (g : Gang) (k : Nat) (t : TileId) : Bool :=
  let x := s.tileAt t
  decide (k < x.treeCount) && x.agreed && (match x.treeOpAt k with
    | some e => e.state == .readDone || (s.treeOwnErr t e).isSome
    | none => g.treeFails.contains k)

/-- The contribution of a tile to the k-th operation (R303). -/
def State.treePart (s : State) (g : Gang) (k : Nat) (t : TileId) : Option TreePart :=
  match (s.tileAt t).treeOpAt k with
  | some e => match e.req.op with
    | .tree fn _ _ c => some ⟨g.rankOf t, fn.code, c, (s.treeOwnErr t e).isNone, e.contrib⟩
    | _ => none
  | none => none

/-- The k-th operation of a tile ends in an error. -/
def State.treeEnd (s : State) (k : Nat) (err : EngErr × Word) (t : TileId) : State :=
  match (s.tileAt t).treeOpAt k with
  | some e => s.modOpAt (t, e.req.id) fun o => { o with err := some err }
  | none => s
/-- A contribution to the k-th operation has failed: a tile whose own it was reports its own error, another FAULT (R302). -/
def State.treeFail (s : State) (k : Nat) (t : TileId) : State :=
  match (s.tileAt t).treeOpAt k with
  | some e => s.treeEnd k ((s.treeOwnErr t e).getD (.fault, allOnes64)) t
  | none => s

/-- A member's result, on its way into its own scratchpad (R304, R330, R331). -/
def State.treeGive (s : State) (g : Gang) (k : Nat) (rs : List (List (Option Nat) × Option Nat)) (fl : FFlags) (t : TileId) : State :=
  match (s.tileAt t).treeOpAt k with
  | some e => match e.req.op with
    | .tree fn dst _ c =>
      let bs := treeResult fn.code c g.perTile (g.rankOf t) rs
      (match s.engWrite t e.acc ((addrsFrom dst bs.length).zip bs) with
      | .cells cs => s.modOpAt (t, e.req.id) fun o => { o with out := some ⟨cs, fl.bits, bs.length⟩ }
      | .fatal a =>
        let cs := s.someCells 1 (s.engCells t e.acc ((addrsFrom dst bs.length).zip bs)).1
        ({ s with free := s.free + bs.length }.stage t e.req.id cs).modOpAt (t, e.req.id) fun o => { o with err := some (.fault, a) }
      | .waits => s)
    | _ => s
  | none => s

-- Steps across packages (R407)

/-- The levels above the package roots (R407). -/
def Gang.levels (g : Gang) : Nat := log2Up g.npk 20
/-- How far an operation of a channel has combined across packages. -/
def Gang.work (g : Gang) (c : TreeChan) (k : Nat) : TreeWork :=
  match g.tree.find? fun w => w.chan = c && w.k = k with
  | some w => w
  | none => ⟨c, k, 0, [], 0, false⟩
def Gang.putWork (g : Gang) (w : TreeWork) : Gang := { g with tree := (g.tree.filter fun x => !(x.chan = w.chan && x.k = w.k)) ++ [w] }
def Gang.dropWork (g : Gang) (c : TreeChan) (k : Nat) : Gang := { g with tree := g.tree.filter fun x => !(x.chan = c && x.k = k) }
/-- Whether the other packages have combined, or a step of theirs was given up. -/
def Gang.joined (g : Gang) (c : TreeChan) (k : Nat) : Bool := let w := g.work c k; w.lost || decide (g.levels ≤ w.level)
/-- The number of operations of a channel that the gang has completed. -/
def Gang.chanDone (g : Gang) : TreeChan → Nat
  | .data => g.treeDone
  | .barrier => g.barDone

/-- Whether the parts that a step brings come from tiles of other packages that no earlier step has brought. -/
def Gang.partsOk (g : Gang) (w : TreeWork) (ps : List TreePart) : Bool :=
  ps.all fun p => decide (p.rank < g.ranks) && (decide (p.rank < g.rank0) || decide (g.rank0 + g.tiles.length ≤ p.rank)) &&
    !w.parts.any fun q => q.rank = p.rank

/-- The packages of a gang whose partial result a level brings: the other half of the pair of subtrees that it joins (R407). -/
def Gang.partners (g : Gang) (level : Nat) : List Nat :=
  (List.range g.npk).filter fun p => p / 2 ^ (level + 1) = g.pkg.toNat / 2 ^ (level + 1) ∧ p / 2 ^ level ≠ g.pkg.toNat / 2 ^ level
/-- Whether a step of a level can arrive: a route reaches one of the packages that it brings, where there are any (R401). -/
def State.stepOpen (s : State) (g : Gang) (level : Nat) : Bool :=
  let ps := g.partners level
  ps.isEmpty || ps.any fun p => !s.unreach.contains ((g.nodes.getD p 0).toNat)

/-- The step of a level arrives and is acknowledged, or is lost and sent again, up to RETRY times, whereupon the operation is given up. A
step that has arrived before is discarded (R407). None arrives from packages that no route reaches (R401). -/
def execTreeStep (gid : Nat) (l : TreeLevel) (parts : Option (List TreePart)) (s : State) : Out :=
  let (c, k, level) := (l.chan, l.k, l.level)
  match s.gangAt gid with
  | none => noEvent "TREE_STEP"
  | some g =>
    let w := g.work c k
    if g.npk ≤ 1 ∨ k < g.chanDone c ∨ g.levels ≤ level ∨ w.lost ∨ w.level < level then noEvent "TREE_STEP"
    else match parts with
    | some ps =>
      if !s.stepOpen g level then noEvent "TREE_STEP"
      else if level < w.level then .next s
      else if (c = .barrier ∧ ps ≠ []) ∨ g.partsOk w ps = false then noEvent "TREE_STEP"
      else .next (s.putGang (g.putWork { w with level := level + 1, parts := w.parts ++ ps, tries := 0 }))
    | none =>
      if level < w.level then noEvent "TREE_STEP"
      else if g.retry ≤ w.tries then .next (s.putGang (g.putWork { w with lost := true }))
      else .next (s.putGang (g.putWork { w with tries := w.tries + 1 }))

/-- Whether every tile of a gang reaches the root of the tree, on I/O die 0 (R2, R301). -/
def State.treeOpen (s : State) (g : Gang) : Bool := g.tiles.all fun t => s.meshOpen (dieOf t) 6

/-- The k-th operations of a gang combine (R302): a mismatch is SHAPE for all, a failed contribution its own error and FAULT for the
others, and a step across packages that is given up FAULT for all (R407). -/
def execTreeResult (gid : Nat) (s : State) : Out :=
  match s.gangAt gid with
  | none => noEvent "TREE_RESULT"
  | some g =>
    let k := g.treeDone
    let w := g.work .data k
    if g.tiles.isEmpty ∨ (g.tiles.all (s.treeReady g k)) = false ∨ g.joined .data k = false ∨ s.treeOpen g = false then noEvent "TREE_RESULT"
    else
      let parts := g.tiles.filterMap (s.treePart g k) ++ w.parts
      let s1 :=
        if w.lost then g.tiles.foldl (fun s t => s.treeEnd k (.fault, allOnes64) t) s
        else if treeMismatch parts then g.tiles.foldl (fun s t => s.treeEnd k (.shape, 0) t) s
        else if g.treeFails.contains k ∨ parts.any fun p => !p.ok then g.tiles.foldl (fun s t => s.treeFail k t) s
        else match parts with
          | p :: _ =>
            let r := treeAll p.fn p.ctl g.lgw g.perTile parts
            g.tiles.foldl (fun s t => s.treeGive g k r.1 r.2 t) s
          | [] => s
      let g' : Gang := { g.dropWork .data k with treeDone := k + 1, treeFails := g.treeFails.filter fun j => j ≠ k }
      .next (g.tiles.foldl (fun s t => s.snapshot t) (s1.putGang g'))

-- Barriers (R174-R176, R259, R332)

/-- A slot that is released from a generation acquires what its arrivals published (R259). -/
def Thread.released (th : Thread) (gen : BitVec 16) (ps : Past) : Thread :=
  match th.barWait with
  | some w => if w.gen = gen then { th with past := th.past ++ ps } else th
  | none => th
/-- A generation completes: ARR is cleared, GEN rises, and the slots that wait for it become ready, in this clock or from the next (R167,
R175). -/
def Tile.completeBarrier (x : Tile) (rouse : Rouse) (ps : Past) : Tile :=
  let b := x.barrier
  let one (th : Thread) : Thread := match th.run with
    | .parked p => if p = .barrier b.gen then { th with run := .ready, rouse := rouse } else th
    | _ => th
  { x with
    barrier := { b with arr := 0, gen := b.gen + 1, sent := none, past := [] }
    slots := x.slots.map fun th => one (th.released b.gen ps) }

/-- Every slot that has arrived has its earlier writes acknowledged at the gang's scope (R259). -/
def State.arrivalsClear (s : State) (t : TileId) : Bool :=
  let x := s.tileAt t
  s.pastAcked (s.gangScope t) x.barrier.past &&
    userSlots.all fun k => x.barrier.arr &&& slotBit k == 0 || s.releaseClear t k (x.slots[k]).barSeq (s.gangScope t)

/-- A generation in which every registered slot has arrived completes, in the clock after the last arrival, or sends the tile's arrival into
the tree (R175). -/
def execBarrierComplete (t : TileId) (s : State) : Out :=
  let x := s.tileAt t
  let b := x.barrier
  if b.reg = 0 ∨ b.arr ≠ b.reg ∨ b.sent.isSome = true then noEvent "BARRIER_COMPLETE"
  else if !b.out then .next (s.modTile t fun x => x.completeBarrier .none b.past)
  else if s.arrivalsClear t && x.agreed then
    let s := s.putTile t { x with barrier := { b with sent := some x.barCount, past := [] }, barCount := x.barCount + 1 }
    .next ((s.publish t x.barCount b.past).snapshot t)
  else noEvent "BARRIER_COMPLETE"

/-- The k-th barrier of the gang completes in a tile: its `tbar` ends and TL falls, or its tile barrier completes, where the tile's arrival of
that rank is the one that still stands (R175, R332). A step across packages that was given up ends a `tbar` with FAULT (R407); it completes
a tile barrier like any other (log 42). A slot that registers after the tile's arrival was sent holds nothing up: the generation completes
though ARR is not REG (DESIGN CHOICE, log 74). -/
def State.passBarrier (s : State) (k : Nat) (lost : Bool) (ps : Past) (t : TileId) : State :=
  let s := match (s.tileAt t).ops.find? fun e => e.req.op == .tbar && e.state == .active && e.ord = k with
    | some e =>
      if lost then s.modOpAt (t, e.req.id) fun o => { o with err := some (.fault, allOnes64) }
      else
        let s := (s.freeOp t e).endTl t e.req 0
        (match e.req.owner with
        | some k => s.acquire t k ps
        | none => s)
    | none => s.modTile t fun x => if x.barrier.sent = some k then x.completeBarrier .clears ps else x
  s.modTile t fun x => { x with barDone := k + 1 }

/-- The gang's next barrier completes once every tile has sent its arrival of that rank, and the other packages have combined theirs (R175,
R301, R332, R407). -/
def execGangBarrierComplete (gid : Nat) (s : State) : Out :=
  match s.gangAt gid with
  | none => noEvent "GANG_BARRIER_COMPLETE"
  | some g =>
    let k := g.barDone
    if g.tiles.isEmpty ∨ (g.tiles.all fun t => decide (k < (s.tileAt t).barCount) && (s.tileAt t).agreed) = false ∨
        g.joined .barrier k = false ∨ s.treeOpen g = false then
      noEvent "GANG_BARRIER_COMPLETE"
    else
      let ps := s.livePast (g.barPast.flatMap fun q => if q.1 = k then q.2 else [])
      let s := g.tiles.foldl (fun s t => s.passBarrier k (g.work .barrier k).lost ps t) s
      let g' : Gang := { g.dropWork .barrier k with barDone := k + 1, barPast := g.barPast.filter fun q => q.1 ≠ k }
      .next (g.tiles.foldl (fun s t => s.snapshot t) (s.putGang g'))

-- The horizon (R391-R394)

/-- The timestamps of what a tile has sent, or appended to an outbound stream, and no channel has yet accepted (R391). -/
def Tile.unaccepted (x : Tile) : List Word :=
  x.sent.filterMap (·.ts) ++ x.slots.toList.flatMap fun th => th.binds.toList.flatMap fun b =>
    if b.kind = .out then (b.buf.drop (b.next + b.buf.length - b.pos)).map (·.ts) else []

/-- The least of some words and a bound. -/
def leastWord (b : Word) (ws : List Word) : Word := ws.foldl (fun m w => if w.toNat < m.toNat then w else m) b

/-- What a tile contributes to a horizon round (R391); a hidden tile is its partner (R372). -/
def State.horizonPart (s : State) (t : TileId) : List Word :=
  let x := s.tileAt t
  if x.hidden then [] else x.vtime :: x.unaccepted

/-- The round of a running gang that is due at this clock is sampled (R391); `rest` is what the gang's other packages contribute. A round
whose clock has passed is not made up for. It stands still while a die is halted for debug (R394). -/
def execHorizonRound (gid : Nat) (rest : Word) (s : State) : Out :=
  match s.gangAt gid with
  | none => noEvent "HORIZON_ROUND"
  | some g =>
    let past := s.timebase.toNat - g.tick.toNat
    let j := past / Config.roundClocks
    if g.state ≠ .running ∨ g.tiles.isEmpty ∨ s.anyHalted ∨ s.timebase.toNat < g.tick.toNat ∨ past % Config.roundClocks ≠ 0 ∨ j ≤ g.round ∨
        (g.npk ≤ 1 ∧ rest ≠ allOnes64) then noEvent "HORIZON_ROUND"
    else .next (s.putGang { g with round := j, rounds := g.rounds ++ [(j, leastWord rest (g.tiles.flatMap s.horizonPart))] })

/-- Whether a round can combine: every tile reaches the root, and a route every package (R388, R391, R401). -/
def State.roundOpen (s : State) (g : Gang) : Bool := s.treeOpen g && g.nodes.all fun n => !s.unreach.contains n.toNat

/-- Round j has combined and reaches a tile: its `horizon` rises to the round's minimum, and channels in horizon order deliver (R392, R207). A
bridge or a route that is gone keeps a round from combining, and a bridge a combined one from a tile (R388, R401). -/
def execHorizonPublish (t : TileId) (j : Nat) (s : State) : Out :=
  match s.gangOf t with
  | none => noEvent "HORIZON_PUBLISH"
  | some g =>
    match g.rounds.find? fun p => p.1 = j with
    | some (_, m) =>
      if g.state = .running ∧ s.anyHalted = false ∧ s.meshOpen 6 (dieOf t) ∧ (g.combined.contains j || s.roundOpen g) then
        .next ((s.putGang { g with combined := (g.combined.filter (· ≠ j)) ++ [j] }).modTile t fun x =>
          ({ x with horizon := if x.horizon.toNat < m.toNat then m else x.horizon } : Tile).deliverAll)
      else noEvent "HORIZON_PUBLISH"
    | none => noEvent "HORIZON_PUBLISH"

-- The welt unit (R341, R350, R352)

/-- An operation in error breaks its header (R352). -/
def State.weltFail (s : State) (t : TileId) (id : Nat) (h : Fin 16) (e : EngErr × Word) : State :=
  (s.modTile t fun x => x.putHdr h (hdPut (x.hdr h) 4 1 1)).modOpAt (t, id) fun o => { o with err := some e }

/-- The operation at the head of the order is applied at its place (R341-R344), element by element; one that meets a fatal access leaves
what it has written by then (R293). -/
def execWeltApply (t : TileId) (s : State) : Out :=
  let x := s.tileAt t
  match x.weltQ with
  | [] => noEvent "WELT_APPLY"
  | (id, n) :: rest =>
    match s.movingOp t id with
    | none => noEvent "WELT_APPLY"
    | some e =>
      match e.req.op, e.state with
      | .welt fn h n0 _ operand, .active =>
        let popped := s.putTile t { x with weltQ := rest }
        let staged (r : WeltRun) (f : State → State) : Out :=
          let out := leaves t r.cells
          if s.egressOk t out then .next ((f (popped.stage t id r.cells)).afterEgress t out) else noEvent "WELT_APPLY"
        if e.err.isSome then .next popped
        else match s.weltWork t e.acc fn (x.hdr h) n0 n operand with
        | .waits => noEvent "WELT_APPLY"
        | .fatal a r => staged r fun s => s.weltFail t id h (.fault, a)
        | .done r => staged r fun s => s.modOpAt (t, id) fun o => { o with out := some ⟨[], r.flags.bits, 0⟩ }
      | _, _ => noEvent "WELT_APPLY"

end Sys2Proof.Machine
end

