-- ==== Sys2Proof/Machine/StreamEvents.lean ====
section
/-! DEFINITION. The events of the stream registers and of messages: stream elements (R154, R156, R157, R159, R160, R281), channel
acceptance (R205, R209, R211, R399, R402) and WAKEs (R179, R196). -/

namespace Sys2Proof.Machine

-- Memory streams (R156, R157, R281)

/-- Whether an older entry of the fretboard holds back the element access that a binding has in flight (R156, R285, R288). -/
def State.streamHeld (s : State) (t : TileId) (a : Word) (write : Bool) (age : Nat) : Bool :=
  match s.ownOff t a with
  | some o =>
    let iv := widen o (o + 127) write
    ((s.tileAt t).ops.any fun e => decide ((s.tileAt t).rank e < age) && e.blocks iv.first iv.last write) ||
      (s.flightIvs t).any fun f => decide (f.1 < age) && f.2.meets iv.first iv.last && (f.2.write || write)
  | none => false

/-- Whether the generator of a memory stream has an element to access and none in flight: one to fetch with room for it, or one to write
(R156). -/
def Bind.begins (b : Bind) : Bool :=
  b.live && b.flight.isNone && match b.kind with
    | .memRead => decide (b.buf.length < bufRoom) && decide (b.next < b.count)
    | .memWrite => match b.buf with
      | e :: _ => e.wait.isNone
      | [] => false
    | _ => false

/-- Whether a memory stream may begin its next element access. One to the tile's own scratchpad waits while a retired engine request is not
entered (R254), and a die halted for debug stands still (R381). -/
def State.streamBegins (s : State) (t : TileId) (k : Slot) (r : StreamReg) : Bool :=
  let x := s.tileAt t
  let b : Bind := (x.slots[k]).binds[r]
  b.begins && decide (x.entriesTaken < fretRoom) && !(x.unentered && (s.ownOff t (b.elemAddr b.next)).isSome) && !s.dieHalted t
/-- The generator begins an element access, which takes a fretboard entry (R156, R285). When it does so the spec leaves open but for an access
that is in flight, so it is an event of the agenda, the first of two of the element (log 45). -/
def beginStream (m : String) (t : TileId) (k : Slot) (r : StreamReg) (s : State) : Out :=
  if s.streamBegins t k r then
    .next (s.modTile t fun x =>
      { x.modThr k (fun th => { th with binds := th.binds.set r { th.binds[r] with flight := some x.nextId } }) with nextId := x.nextId + 1 })
  else noEvent m

/-- The place of a binding's element access in flight, of number n, among what stands on the fretboard. -/
def Tile.elemPlace (x : Tile) (b : Bind) (n : Nat) : Nat := if x.throughput then n else b.order.headD n
/-- The element access in flight of a binding ends; the binding moves on. -/
def State.stepBind (s : State) (t : TileId) (k : Slot) (r : StreamReg) (f : Bind → Bind) : State :=
  s.modThrAt t k fun th => { th with binds := th.binds.set r { f th.binds[r] with flight := none, next := (th.binds[r]).next + 1, order := (th.binds[r]).order.drop 1 } }

/-- A read stream's element begins, or the one in flight is fetched (R156); a fatal one becomes a poisoned head. -/
def execStreamFetch (t : TileId) (k : Slot) (r : StreamReg) (s : State) : Out :=
  let b : Bind := (s.thrAt t k).binds[r]
  let a := b.elemAddr b.next
  match b.kind, b.flight with
  | .memRead, some n =>
    if s.streamHeld t a false ((s.tileAt t).elemPlace b n) ∨ s.dieHalted t then noEvent "STREAM_FETCH"
    else
      let put (e : Elem) : Out :=
        .next ((s.stepBind t k r fun b => { b with buf := b.buf ++ [e] }).wakeAt t k fun p => p == .regEmpty (.v (streamReg r)))
      (match s.engRead t ⟨b.pid, n⟩ (addrsFrom a 128) with
      | .waits => noEvent "STREAM_FETCH"
      | .fatal _ => put ⟨0, true, none, 0, 0⟩
      | .bytes bs => put ⟨BitVec.ofNat 1024 (leNat bs), false, none, 0, 0⟩)
  | .memRead, none => beginStream "STREAM_FETCH" t k r s
  | _, _ => noEvent "STREAM_FETCH"

/-- A write stream's oldest element begins, or is written where it is in flight (R156); a fatal one is discarded. -/
def execStreamWrite (t : TileId) (k : Slot) (r : StreamReg) (s : State) : Out :=
  let b : Bind := (s.thrAt t k).binds[r]
  let a := b.elemAddr b.next
  match b.kind, b.flight, b.buf with
  | .memWrite, some n, e :: rest =>
    if s.streamHeld t a true ((s.tileAt t).elemPlace b n) ∨ s.dieHalted t then noEvent "STREAM_WRITE"
    else
      let done (s : State) : State := s.stepBind t k r fun b => { b with buf := rest }
      (match s.engWrite t ⟨b.pid, n⟩ ((addrsFrom a 128).zip (leBytes e.val.toNat 128)) with
      | .waits => noEvent "STREAM_WRITE"
      | .fatal _ => .next (done s)
      | .cells cs =>
        let out := leaves t cs
        if s.egressOk t out then
          let s := s.stage t n cs
          let s : State := { s with staged := s.staged.map fun (w : Staged) => if w.tile = t ∧ w.op = n then { w with done := true } else w }
          .next ((done s).afterEgress t out)
        else noEvent "STREAM_WRITE")
  | .memWrite, none, _ => beginStream "STREAM_WRITE" t k r s
  | _, _, _ => noEvent "STREAM_WRITE"

/-- The oldest element of an outbound stream is acknowledged once its channel has accepted all its entries (R159). -/
def execStreamElementAck (t : TileId) (k : Slot) (r : StreamReg) (s : State) : Out :=
  let b : Bind := (s.thrAt t k).binds[r]
  let left := ((s.tileAt t).sent.filter fun it => it.kind == .elem r && it.slot = k).length
  let flying := b.next + b.buf.length - b.pos
  if b.kind ≠ .out ∨ flying = 0 ∨ 8 * (flying - 1) < left then noEvent "STREAM_ELEMENT_ACK"
  else .next (s.modThrAt t k fun th => { th with binds := th.binds.set r { b with buf := b.buf.drop 1 } })

-- Channel acceptance (R205, R209, R211)

/-- An item has been accepted: it leaves the list, and ST falls where it counts (R197, R205). -/
def State.dropSent (s : State) (t : TileId) (i : Nat) (it : SentItem) : State :=
  s.modTile t fun x =>
    let x : Tile := { x with sent := dropAt x.sent i }
    if it.counted then x.modThr it.slot Thread.dropSt else x
/-- A refused item is sent again 64 clocks later (R205, R179). -/
def State.refuseSent (s : State) (t : TileId) (i : Nat) (it : SentItem) : State :=
  s.modTile t fun x => { x with sent := x.sent.set i { it with refused := some (x.cycle.toNat + Config.resendClocks) } }

/-- The channel entry that an item of a tile becomes (R203), with what its release puts before the receive (R212, R247). -/
def SentItem.entry (it : SentItem) (t : TileId) : ChEntry :=
  let past := match it.rel with
    | some sc => taken sc sc it.dest t it.past
    | none => []
  ⟨it.lo, it.hi, it.md, it.ts, it.rel, past⟩
def SentItem.isWake (it : SentItem) : Bool := it.kind == .wake || it.kind == .drainWake

/-- Whether a pair holds an item: one that leaves its tile, until its interval agrees (R375). -/
def State.itemHeld (s : State) (t : TileId) (it : SentItem) : Bool :=
  (it.pkg.isSome || it.dest ≠ t) && s.egressHeld t it.slot it.seq

/-- Whether one sequence number of a destination comes before another; they wrap (R203). -/
def seqBefore (a b : BitVec 32) : Bool := (a - b).msb
/-- Whether an entry to the channel of an item has an earlier number than it: one that is sent, or an element whose data has not come (R159,
R205). -/
def Tile.entryBefore (self : BitVec 16) (x : Tile) (it : SentItem) : Bool :=
  (x.sent.any fun o => o.isWake == false && o.pkg == it.pkg && o.dest = it.dest && o.chan = it.chan &&
    seqBefore (o.md.setWidth 32) (it.md.setWidth 32)) ||
  x.slots.toList.any fun th => th.binds.toList.any fun b => b.kind == .out && b.outKey self = seqKey it.pkg it.dest it.chan &&
    (b.buf.drop (b.next - (b.pos - b.buf.length))).any fun e => seqBefore (BitVec.ofNat 32 e.no) (it.md.setWidth 32)

/-- Whether an item may arrive now: it is not refused, no earlier entry of its tile to its channel is before it (R205), no earlier WAKE to its
tile (R179), a release has left (R247), and a pair holds it no longer (R375). -/
def State.sentFree (s : State) (t : TileId) (i : Nat) (it : SentItem) : Bool :=
  it.refused.isNone && !s.itemHeld t it &&
    (if it.isWake then ((s.tileAt t).sent.take i).all fun o => !(o.isWake && o.pkg == it.pkg && o.dest = it.dest)
     else !(s.tileAt t).entryBefore (s.pkgOf t) it) &&
    (match it.rel with
    | some sc => s.releaseGoes t it.slot it.seq sc it.past
    | none => true)

/-- What a held completion or system entry lowers at its acceptance (R293, R313). -/
def Tile.settleHeld (x : Tile) (h : HeldEntry) : Tile :=
  let x := match h.cp with
    | some k => x.modThr k Thread.dropCp
    | none => x
  match h.tl with
  | some k => x.modThr k Thread.dropTl
  | none => x

/-- Whether the way to an item's destination is open: the scheduled network's route, or an I/O die and Lace (R2, R388, R401). -/
def State.itemOpen (s : State) (g : Gang) (t : TileId) (it : SentItem) : Bool :=
  match it.pkg with
  | none => s.schedOpen (dieOf t) (dieOf it.dest)
  | some p => s.ioOpen (dieOf t) && !s.unreach.contains ((g.nodes.getD p.toNat 0).toNat)
def State.wayOpen (s : State) (t : TileId) (it : SentItem) : Bool :=
  match s.gangOf t with
  | some g => s.itemOpen g t it
  | none => it.pkg.isNone && s.schedOpen (dieOf t) (dieOf it.dest)

/-- The sender's package and tile in a metadata word, and with the channel the key of its sequence (R203). -/
def lacePkg (e : LaceEntry) : BitVec 16 := e.md.extractLsb' 48 16
def laceKey (e : LaceEntry) : Nat := (lacePkg e).toNat * 2 ^ 16 + e.md.toNat / 2 ^ 32 % 2 ^ 11 * 8 + e.chan.val
/-- The sequence of a sender and channel goes on after an entry. -/
def Tile.laceNext (x : Tile) (e : LaceEntry) : Tile := { x with laceSeqs := assocSet x.laceSeqs (laceKey e) (assocGet 0 x.laceSeqs (laceKey e) + 1) }
/-- The greatest horizon that a tile of a gang may have read (R392, R393). -/
def Gang.horizonRead (g : Gang) : Nat := g.rounds.foldl (fun m r => max m r.2.toNat) 0
/-- Whether an entry is one that a sender makes: from `msend`, `msendt` or a stream, whose entries are timed and carry no ordering, by a
tile of a logical die (R159, R203, R205). -/
def laceMade (e : LaceEntry) : Bool :=
  decide (e.md.toNat / 2 ^ 43 % 4 = 0) && decide (e.md.toNat / 2 ^ 40 % 8 < Config.dies) &&
    match e.md.toNat / 2 ^ 45 % 8 with
    | 0 => e.ts.isNone
    | 1 => e.ts.isSome
    | 2 => e.ts.isSome && e.rel.isNone
    | _ => false
/-- Whether an entry from another package may arrive at a tile: its sender is another package of the gang that can be reached, it is the next
of its sender and channel, and no horizon has passed its timestamp (R393, R399, R401). -/
def State.laceOk (s : State) (g : Gang) (x : Tile) (e : LaceEntry) : Bool :=
  laceMade e && decide ((lacePkg e).toNat < g.npk) && lacePkg e != g.pkg && !s.unreach.contains ((g.nodes.getD (lacePkg e).toNat 0).toNat) &&
    e.md.setWidth 32 == BitVec.ofNat 32 (assocGet 0 x.laceSeqs (laceKey e)) &&
    (match e.ts with
    | some w => decide (g.horizonRead ≤ w.toNat)
    | none => true)

/-- An entry arrives at a channel: it is accepted, or refused when the channel is full (R205). One for another package is accepted
there; one for a hidden tile is accepted and discarded (R372). -/
def execChannelAccept (src : MsgSrc) (s : State) : Out :=
  match src with
  | .sent t i =>
    (match (s.tileAt t).sent[i]? with
    | none => noEvent "CHANNEL_ACCEPT"
    | some it =>
      if it.isWake ∨ s.sentFree t i it = false ∨ s.wayOpen t it = false then noEvent "CHANNEL_ACCEPT"
      else if it.pkg.isSome ∨ (s.tileAt it.dest).hidden = true then .next (s.dropSent t i it)
      else if (s.tileAt it.dest).hasRoom it.chan then
        .next ((s.dropSent t i it).modTile it.dest fun x => if it.dest = t then x.place it.chan (it.entry t) else x.accept it.chan (it.entry t))
      else .next (s.refuseSent t i it))
  | .held t =>
    (match (s.tileAt t).heldEnts with
    | [] => noEvent "CHANNEL_ACCEPT"
    | h :: rest =>
      if (s.tileAt t).hasRoom 0 then
        .next (s.modTile t fun x => (({ x with heldEnts := rest } : Tile).settleHeld h).place 0 ⟨h.lo, h.hi, h.md, none, none, []⟩)
      else noEvent "CHANNEL_ACCEPT")
  | .lace e =>
    match s.gangOf e.dest with
    | none => noEvent "CHANNEL_ACCEPT"
    | some g =>
      let x := s.tileAt e.dest
      if dieOf e.dest ≥ Config.dies ∨ e.chan = 0 ∨ s.laceOk g x e = false ∨ s.ioOpen (dieOf e.dest) = false then noEvent "CHANNEL_ACCEPT"
      else if x.hidden then .next (s.modTile e.dest fun x => x.laceNext e)
      else if x.hasRoom e.chan = false then .next s
      else .next (s.modTile e.dest fun x => (x.laceNext e).accept e.chan ⟨e.lo, e.hi, e.md, e.ts, e.rel, []⟩)

-- WAKEs (R179, R196)

/-- A WAKE is the one that the queue accepts in this clock, and pushes its handle (R196). -/
def Tile.takeWake (x : Tile) (h : Word) : Tile := ({ x with woke := true } : Tile).push h
/-- So does one from outside a pair (R376). -/
def Tile.acceptWake (x : Tile) (h : Word) : Tile := (x.noteIn (.wake h)).takeWake h

/-- A WAKE arrives at a queue, one in a clock: it is pushed, or refused when the queue is full (R179, R196). -/
def execWake (src : WakeSrc) (s : State) : Out :=
  match src with
  | .sent t i =>
    (match (s.tileAt t).sent[i]? with
    | none => noEvent "WAKE"
    | some it =>
      let y := s.tileAt it.dest
      if it.isWake = false ∨ s.sentFree t i it = false ∨ s.wayOpen t it = false ∨ y.woke = true then noEvent "WAKE"
      else if it.pkg.isSome ∨ y.hidden = true then .next (s.dropSent t i it)
      else if y.queue.length < queueRoom then
        .next ((s.dropSent t i it).modTile it.dest fun x => if it.dest = t then x.takeWake it.lo else x.acceptWake it.lo)
      else .next (s.refuseSent t i it))
  | .lace dest h =>
    let y := s.tileAt dest
    if dieOf dest ≥ Config.dies ∨ h = noHandle ∨ y.woke = true ∨ s.ioOpen (dieOf dest) = false then noEvent "WAKE"
    else if y.hidden ∨ queueRoom ≤ y.queue.length then .next s
    else .next (s.modTile dest fun x => x.acceptWake h)

end Sys2Proof.Machine
end

