-- ==== Sys2Proof/Machine/Sha3.lean ====
section
/-! DEFINITION. SHA3-256, which spec/23_device.md names by FIPS 202 (R424, R426, R427). The algorithm is PRESUMED from that standard, which
the spec cites and does not print (log 10). -/

namespace Sys2Proof.Machine

/-- The state of the sponge: 25 words, five rows of five one after another. -/
abbrev Sponge := List Word

def Sponge.word (a : Sponge) (i : Nat) : Word := a.getD i 0
/-- The word that stands d columns to the right of word i in its row, round the row's end. -/
def Sponge.beside (a : Sponge) (i d : Nat) : Word := a.word (i / 5 * 5 + (i + d) % 5)
/-- Each word replaced by what a function of its place gives. -/
def Sponge.remake (f : Nat → Word) : Sponge := (List.range 25).map f

/-- Every word takes in the parities of the columns left and right of its own, the right one turned by one bit. -/
def Sponge.mixColumns (a : Sponge) : Sponge :=
  let parity : Sponge := (List.range 5).map fun x => (List.range 5).foldl (fun p row => p ^^^ a.word (5 * row + x)) 0
  .remake fun i => a.word i ^^^ parity.beside (i % 5) 4 ^^^ (parity.beside (i % 5) 1).rotateLeft 1

/-- All words but the first move along one closed walk of 24 places that begins at place 1; step n of it turns its word by 1 + 2 + ... + n
bits. -/
def Sponge.move (a : Sponge) : Sponge :=
  let go (st : Nat × Sponge) (n : Nat) : Nat × Sponge :=
    let to' := st.1 / 5 + 5 * ((2 * (st.1 % 5) + 3 * (st.1 / 5)) % 5)
    (to', st.2.set to' ((a.word st.1).rotateLeft (n * (n + 1) / 2 % 64)))
  ((List.range' 1 24).foldl go (1, a)).2

/-- Every word takes in the second word to its right where the first has zeros. -/
def Sponge.mixRows (a : Sponge) : Sponge := .remake fun i => a.word i ^^^ (a.beside i 2 &&& ~~~a.beside i 1)

/-- The shift register whose outputs are the bits of the round constants, and a round's seven bits of it, at the places 2^j - 1. -/
def shiftRegister (r : Nat) : Nat := if 128 ≤ r then 2 * r ^^^ 0x171 else 2 * r
def roundBits (r : Nat) : Word × Nat :=
  (List.range 7).foldl (fun q j => (if q.2 % 2 = 1 then q.1 ||| (1 : Word) <<< (2 ^ j - 1) else q.1, shiftRegister q.2)) (0, r)

/-- A round, with the register as it stands before and after. -/
def Sponge.round (q : Sponge × Nat) (_ : Nat) : Sponge × Nat :=
  let a := q.1.mixColumns.move.mixRows
  let c := roundBits q.2
  (a.set 0 (a.word 0 ^^^ c.1), c.2)
def Sponge.permute (a : Sponge) : Sponge := ((List.range 24).foldl Sponge.round (a, 1)).1

/-- The bytes of a block of SHA3-256. -/
def sha3Rate : Nat := 136
/-- What follows a message of n bytes: the bits 01, and 10...01 up to a whole number of blocks. -/
def sha3Tail (n : Nat) : List Byte :=
  match sha3Rate - 1 - n % sha3Rate with
  | 0 => [0x86]
  | z + 1 => 0x06 :: (List.replicate z 0 ++ [0x80])
/-- A block comes into the first 17 words. -/
def Sponge.absorb (a : Sponge) (block : List Byte) : Sponge :=
  Sponge.permute <| .remake fun i =>
    a.word i ^^^ BitVec.ofNat 64 (((block.drop (8 * i)).take 8).foldr (fun b n => b.toNat + 256 * n) 0)

/-- The SHA3-256 digest of a byte string. -/
def digest (m : List Byte) : List Byte :=
  let whole := m ++ sha3Tail m.length
  let a := (List.range (whole.length / sha3Rate)).foldl (fun (a : Sponge) i => a.absorb ((whole.drop (sha3Rate * i)).take sha3Rate))
    (.remake fun _ => 0)
  (List.range 32).map fun i => (a.word (i / 8) >>> (8 * (i % 8))).setWidth 8

end Sys2Proof.Machine
end

