-- ==== Sys2Proof/Machine/Wear.lean ====
section
/-! DEFINITION. The wear log and the counts not yet flushed to it (R424, R425), and the quarantine records of its rows (R385,
R409). -/

namespace Sys2Proof.Machine

/-- Add to a count that the next flush brings into the log (R425); the count is named by its offset (R424). -/
def State.wearAdd (s : State) (off : Nat) : State := { s with wearNew := assocSet s.wearNew off (assocGet 0 s.wearNew off + 1) }

/-- The offsets of R424: droops of a die, replays of a bridge, retransmissions of a port, and the pairing disagreements of a
physical tile. -/
def droopOff (die : Nat) : Nat := 0x0900 + 8 * die
def replayOff (b : Nat) : Nat := 0x0940 + 8 * b
def laceOff (p : Nat) : Nat := 0x09C0 + 8 * p
def State.pairOff (s : State) (t : TileId) : Nat := 0x2480 + 2 * (dieOf t * 272 + rowOf t * 17 + s.physCol t)

/-- The bytes of a counter at an offset (R424). -/
def wearBytes (off : Nat) : Nat := if off < 0x0B00 then 8 else if off < 0x2480 then 4 else 2

/-- A counter of n bytes rises by an amount and saturates (R424). -/
def satAdd (n old add : Nat) : Nat := min (old + add) (256 ^ n - 1)

/-- Bring one count into the log. -/
def wearMerge (w : Memory) (c : Nat × Nat) : Memory :=
  let n := wearBytes c.1
  w.writeBytes c.1 (leBytes (satAdd n (w.readNat c.1 n) c.2) n)

/-- The digest of the log's body (R424). -/
def wearDigest (w : Memory) : List Byte := digest (w.readBytes 0x40 0xFFC0)

/-- The log with VERSION 1 and a fresh digest. -/
def wearSeal (w : Memory) : Memory :=
  (w.write 0 ((w.read 0 &&& 0xF0) ||| 1)).writeBytes 0x20 (wearDigest w)

/-- A flush: the counts come into the log, FLUSHES rises, and the digest is renewed (R424, R425). -/
def State.flushWear (s : State) : State :=
  let w := s.wearNew.foldl wearMerge s.wear
  let w := w.writeBytes 2 (leBytes (satAdd 4 (w.readNat 2 4) 1) 4)
  { s with wear := wearSeal w, wearNew := [] }

/-- The digest that the log holds is that of its body (R425). -/
def wearGood (w : Memory) : Bool := w.readBytes 0x20 32 == wearDigest w

/-- The row byte of a physical row: VALID in bit 7, SKIP in [4:0] (R424). -/
def rowByte (w : Memory) (row : Nat) : Byte := w.read (0x40 + row)
/-- SKIP of a row as loaded at reset: the quarantine record, else the fuse (R385). -/
def loadedSkip (w : Memory) (row : Nat) : BitVec 5 :=
  if (rowByte w row).getLsbD 7 then (rowByte w row).setWidth 5 else Config.fuseSkip row

/-- The history entries that the log keeps (R424). -/
def historyRoom : Nat := 64

/-- A quarantine: the row byte and a history entry are written at once (R424, R425). The entries are written in turn, so that the next one is
the oldest once all are in use, whatever their ticks. -/
def State.wearQuarantine (s : State) (die row cluster : Nat) (new : BitVec 5) : State :=
  let r := die * 16 + row
  let old := s.skipOf r
  let w := s.wear.write (0x40 + r) (0x80 ||| new.setWidth 8)
  let at16 := 0x100 + 16 * s.wearNext
  let hi := die + row * 2 ^ 8 + cluster * 2 ^ 16 + old.toNat * 2 ^ 24 + new.toNat * 2 ^ 32
  let w := w.writeBytes at16 (leBytes s.timebase.toNat 8 ++ leBytes hi 8)
  { s with wear := wearSeal w, wearNext := (s.wearNext + 1) % historyRoom, skips := assocSet s.skips r new }

end Sys2Proof.Machine
end

