-- ==== Sys2Proof/Machine/TrapEvents.lean ====
section
/-! DEFINITION. The events of traps, errors, debug and pairing (spec/18_faults_preemption.md, R170, R172, R174, R201, R272, R354-R358,
R367-R369, R371-R378, R381). -/

namespace Sys2Proof.Machine

-- Asynchronous traps (R354, R355)

/-- The pending trap of the highest priority: its cause, `tval`, and the thread without it (R355, R201). -/
def Thread.pickTrap (th : Thread) : Option (Cause × Word × Thread) :=
  let p := th.pending
  match p.pairMismatch, p.preempt, p.suspect, p.rsvTimeout with
  | some v, _, _, _ => some (.pairMismatch, v, { th with pending := { p with pairMismatch := none } })
  | none, some v, _, _ => some (.preempt, v, { th with pending := { p with preempt := none } })
  | none, none, some v, _ => some (.suspect, v, { th with pending := { p with suspect := none } })
  | none, none, none, some v => some (.rsvTimeout, v, { th with pending := { p with rsvTimeout := none } })
  | none, none, none, none =>
    if p.timer then some (.timer, th.tmcmp, { th with tmcmp := 0, pending := { p with timer := false } }) else none

/-- An asynchronous trap ends a sleep: `mslp` retires in the thread's next issue cycle, and the trap is taken at the next instruction
(R172, R190). -/
def State.endSleep (s : State) (t : TileId) (k : Slot) : State :=
  let th := s.thrAt t k
  match th.sleep with
  | some sl =>
    let w := th.mslpResult (s.tileAt t).cycle true
    (s.modThrAt t k fun th => { th.setS sl.d w with sleep := none }).retireAt t k (th.pc + 4) [w]
  | none => s

/-- A `bar.arw` that waits for a generation loses its arrival (R174). -/
def State.endArw (s : State) (t : TileId) (k : Slot) : State :=
  match (s.thrAt t k).barWaiting with
  | some ⟨_, _, some _⟩ =>
    s.modTile t fun x => { x.modThr k (fun th => { th with barWait := none }) with
      barrier := { x.barrier with arr := x.barrier.arr &&& ~~~(slotBit k) } }
  | _ => s

/-- Take the pending trap (R354, R355): `epc` is the next instruction to issue, SKIP the shadow that remains. -/
def State.asyncTrap (s : State) (t : TileId) (k : Slot) : State :=
  let s := s.endArw t k
  match (s.thrAt t k).pickTrap with
  | some (c, v, th) => (s.putThrAt t k th).takeTrap t k true c v th.pc th.shadow
  | none => s

def execTrapEntry (t : TileId) (k : Slot) (s : State) : Out :=
  if k ≠ 0 ∧ s.mayTrap t k = true then .next (s.asyncTrap t k) else noEvent "TRAP_ENTRY"

/-- The home confirms a withdrawal: the trap is taken in the thread's next issue cycle, with `epc` at the parked instruction (R170,
R382). -/
def execWithdrawalConfirm (t : TileId) (k : Slot) (s : State) : Out :=
  match (s.thrAt t k).req with
  | some r =>
    if r.stage = .withdrawn ∧ r.homes.all (s.backOpen t) = true then .next (s.modThrAt t k fun th => { th with req := none, run := .ready, rouse := .clears })
    else noEvent "WITHDRAWAL_CONFIRM"
  | none => noEvent "WITHDRAWAL_CONFIRM"

/-- The slot timer is due (R201). -/
def execTimer (t : TileId) (k : Slot) (s : State) : Out :=
  let th := s.thrAt t k
  if th.resident && th.tmcmp ≠ 0 && decide (th.tmcmp.toNat ≤ (s.tileAt t).cycle.toNat) && !th.pending.timer && !s.anyHalted then
    .next (s.modThrAt t k fun th => { th with pending := { th.pending with timer := true } })
  else noEvent "TIMER"

/-- A grant has been held for its count without its `arel`: the hold ends without a write, and RSV_TIMEOUT is pending (R272). -/
def execRsvTimeout (t : TileId) (k : Slot) (s : State) : Out :=
  match (s.thrAt t k).hold with
  | some h =>
    if s.dueAt t h.deadline && !s.anyHalted then
      .next ((s.endHold t k).modThrAt t k fun th => { th with pending := { th.pending with rsvTimeout := some h.addr } })
    else noEvent "RSV_TIMEOUT"
  | none => noEvent "RSV_TIMEOUT"

-- Uncorrectable errors (R367, R368)

/-- The operation at the head of the welt unit's order meets uncorrectable data (R352): the elements that it has written before stay, in the
order of R342 and R343; how many they are is a free value, for the bad word may lie anywhere. One that reads nothing meets none. -/
def weltData (t : TileId) (id : Nat) (e : EngEntry) (fn : WeltFn) (h : Fin 16) (n0 : BitVec 32) (operand : Word) (s : State) : Out :=
  let no := noEvent "UNCORRECTABLE_ERROR"
  let x := s.tileAt t
  let fail (rest : List (Nat × BitVec 32)) (cells : List Host.Cell) (most : Nat) : Out :=
    let cs := cells.take (4 * ((Config.freeValue s.free).toNat % (most + 1)))
    let out := leaves t cs
    if s.egressOk t out then
      .next ((((({ s with free := s.free + 1 } : State).putTile t { x with weltQ := rest }).stage t id cs).weltFail t id h (.data, 0)).afterEgress t out)
    else no
  match x.weltQ, fn with
  | _, .prmx _ false => no
  | (i, n) :: rest, _ =>
    if i ≠ id then no
    else match s.weltWork t e.acc fn (x.hdr h) n0 n operand with
    | .waits => no
    | .fatal _ r => fail rest r.cells (r.cells.length / 4)
    | .done r => fail rest r.cells (r.cells.length / 4 - 1)
  | [], _ => no

/-- An uncorrectable error is consumed (R367). -/
def execUncorrectableError (u : ErrUse) (s : State) : Out :=
  match u with
  | .load t k id =>
    match (s.thrAt t k).loads.find? fun l => l.id = id with
    | some l =>
      (match l.partsLeft.find? fun g => match s.loadOut t k l g with
        | .bytes _ => true
        | _ => false with
      | some g => .next (s.fillPart t k l g none)
      | none => noEvent "UNCORRECTABLE_ERROR")
    | none => noEvent "UNCORRECTABLE_ERROR"
  | .answered t k =>
    match (s.thrAt t k).req with
    | some r => match r.stage with
      | .answered (.value v fl) =>
        if r.op.writesReg && s.answerFree t k r (.value v fl) then .next (s.giveAnswer t k r .poison) else noEvent "UNCORRECTABLE_ERROR"
      | .answered (.granted v l) =>
        if s.answerFree t k r (.granted v l) then .next ((s.giveAnswer t k r (.granted v l)).modThrAt t k fun th => th.poisonS r.d)
        else noEvent "UNCORRECTABLE_ERROR"
      | _ => noEvent "UNCORRECTABLE_ERROR"
    | none => noEvent "UNCORRECTABLE_ERROR"
  | .acrd t id =>
    match s.opAt (t, id) with
    | some e => match e.req.op, e.state with
      | .acrd d _, .active =>
        let s := (s.freeOp t e).endTl t e.req 0
        .next (match e.req.owner with
          | some k => s.modThrAt t k fun th => th.fillPoison (.v d)
          | none => s)
      | _, _ => noEvent "UNCORRECTABLE_ERROR"
    | none => noEvent "UNCORRECTABLE_ERROR"
  | .store t id => if (s.tileAt t).stores.any fun r => r.id = id then .next s else noEvent "UNCORRECTABLE_ERROR"
  | .engine t id =>
    match s.opAt (t, id) with
    | some e =>
      if e.state = .held ∨ (e.state = .readDone ∧ e.req.op.isCopy = false) ∨ e.err.isSome then noEvent "UNCORRECTABLE_ERROR"
      else match e.req.op with
      | .welt fn h n0 _ operand => weltData t id e fn h n0 operand s
      | .tree _ _ _ _ =>
        let s := s.modOpAt (t, id) fun o => { o with err := some (.data, 0) }
        .next (match s.gangOf t with
          | some g => s.putGang { g with treeFails := g.treeFails ++ [e.ord] }
          | none => s)
      | .acz _ | .acwr _ _ | .acrd _ _ | .tbar | .bind _ => noEvent "UNCORRECTABLE_ERROR"
      | _ => .next (s.modOpAt (t, id) fun o => { o with err := some (.data, 0) })
    | none => noEvent "UNCORRECTABLE_ERROR"
  | .line t va => match (s.tileAt t).lineOf va with
    | some l => if s.rereadOpen t l then .next (s.rereadLine t l) else noEvent "UNCORRECTABLE_ERROR"
    | none => noEvent "UNCORRECTABLE_ERROR"
  | .thread t k =>
    let th := s.thrAt t k
    if k ≠ 0 ∧ th.resident = true then .next ((s.disarmAll t k).kill t k 1 th.pc) else noEvent "UNCORRECTABLE_ERROR"

-- Debug halt (R381)

def State.setDie (s : State) (d : Nat) (f : Die → Die) : State :=
  let i : Fin 6 := Fin.ofNat 6 d
  { s with dies := s.dies.set i (f s.dies[i]) }
def State.dieAt (s : State) (d : Nat) : Die := s.dies[(Fin.ofNat 6 d : Fin 6)]

def execDebugHalt (d : Nat) (s : State) : Out :=
  if d < Config.dies ∧ (s.dieAt d).halted = false then .next (s.setDie d fun x => { x with halted := true }) else noEvent "DEBUG_HALT"
def execDebugResume (d : Nat) (s : State) : Out :=
  if d < Config.dies ∧ (s.dieAt d).halted = true then .next (s.setDie d fun x => { x with halted := false }) else noEvent "DEBUG_RESUME"

-- Pairing (R371-R378)

/-- The instruction that a parked slot waits to finish. -/
def Thread.waitsFor (th : Thread) : Option Instr :=
  match th.run, th.fetched with
  | .parked .wait, some w => (decodeWord w).toOption
  | _, _ => none

/-- Copy the scratchpad bytes of a tile to the next tile, with their full/empty bits. -/
def copyBank (t : TileId) (m : Memory) : Memory :=
  let lo := tileLoc t 0
  let mid := tileLoc (t + 1) 0
  let hi := tileLoc (t + 2) 0
  m.filter (fun c => c.1 < mid) ++ ((m.filter fun c => lo ≤ c.1 ∧ c.1 < mid).map fun c => (c.1 + 2 ^ 21, c.2)) ++ m.filter fun c => hi ≤ c.1
def copyFe (t : TileId) (l : List Nat) : List Nat :=
  let lo := wordOf (tileLoc t 0)
  let mid := wordOf (tileLoc (t + 1) 0)
  let hi := wordOf (tileLoc (t + 2) 0)
  l.filter (fun w => w < mid) ++ ((l.filter fun w => lo ≤ w ∧ w < mid).map fun w => w + 2 ^ 19) ++ l.filter fun w => hi ≤ w

/-- A tile that no gang holds: its slots empty and its units idle; the stores that left it go on, and its scratchpad formats,
accumulator store, weight headers, control registers and GEN stand (R176, R398). -/
def Tile.idle (x : Tile) : Tile :=
  { Tile.reset with
    cycle := x.cycle, fmts := x.fmts, acc := x.acc, headers := x.headers, brks := x.brks, watches := x.watches, nextId := x.nextId
    slots := x.slots.map fun th => { Thread.reset with seq := th.seq }
    stores := x.stores.map fun (r : StoreReq) => { r with counted := false }
    sent := x.sent.map fun (r : SentItem) => { r with counted := false, refused := r.refused.map fun _ => 0 }
    waitList := x.waitList
    barrier := { Barrier.reset with gen := x.barrier.gen } }

/-- The odd tile of a pair becomes a tile of its own: slots and engine work emptied, its scratchpad and accumulator store the
pair's, and its GEN as well, which the emptied barrier keeps (R176, R377, R378). -/
def State.freePartner (s : State) (t : TileId) : State :=
  let x := s.tileAt t
  let s : State := { s with mem := copyBank t s.mem, fe := copyFe t s.fe, snapshots := s.snapshots.filter fun p => p.1 ≠ t, snapStaged := s.snapStaged.filter fun e => e.tile ≠ t }
  (s.modTile (t + 1) fun y => { y.idle with
      vtime := x.vtime, horizon := x.horizon, mode := y.mode, pid := y.pid, gang := y.gang, acc := x.acc, headers := x.headers, fmts := x.fmts
      barrier := { Barrier.reset with gen := x.barrier.gen } }).modTile t fun x => { x with pairing := none }

/-- A slot that waits has what it waits for: it is ready from the next clock (R167). -/
def State.meetAt (s : State) (t : TileId) (k : Slot) : State := (s.modThrAt t k Thread.meet).wakeAt t k fun _ => true
/-- Whether a slot waits for the copy of its tile's state. -/
def Thread.waitsPair (th : Thread) : Bool := match th.waitsFor with
  | some (.pair _ _) => true
  | _ => false

/-- The partner holds a copy of the tile's state (R371): `pair` has what it waits for (R167). -/
def execPairCopyDone (t : TileId) (s : State) : Out :=
  match userSlots.find? fun k => (s.thrAt t k).waitsPair with
  | some k =>
    if (s.tileAt (t + 1)).canPair ∧ (s.tileAt t).pairing = none ∧ s.dieHalted t = false then .next (s.meetAt t k) else noEvent "PAIR_COPY_DONE"
  | none => noEvent "PAIR_COPY_DONE"

/-- Entries of the undo log of an interval: the scratchpad words and the accumulator cells first written in it (R376). -/
def Pairing.undoCount (p : Pairing) : Nat := p.undo.length + p.undoAcc.length

/-- Whether some ranges have bytes outside a tile. -/
def State.outside (s : State) (t : TileId) (rs : List (Word × Nat)) : Bool := rs.any fun r => r.2 ≠ 0 && (s.ownOff t r.1).isNone

/-- Whether a unit of a pair has an effect outside its tile to come, which waits for an agreement (R375, log 48): an engine's writes, a
stream element, a copy's flag, a group operation, a tree operation, or a barrier's arrival. -/
def State.unitEgress (s : State) (t : TileId) : Bool :=
  let x := s.tileAt t
  (x.ops.any fun e => match e.req.op with
    | .tbar => true
    | .tree _ _ _ _ => e.state != .held
    | .mma _ _ _ _ _ _ _ => e.req.op.isGroup && !e.allFin t
    | _ => e.state != .held && s.outside t (s.opRanges t e).2) ||
  (x.flagging.any fun f => match f.req.flag with
    | some a => s.outside t [(a.addr, 1)]
    | none => false) ||
  (x.flights.any fun f => f.2.2 && s.outside t [(f.2.1, 128)]) ||
  (x.barrier.out && decide (x.barrier.reg ≠ 0) && x.barrier.arr == x.barrier.reg)

/-- Whether a pair holds egress (R375). -/
def State.holdsEgress (s : State) (t : TileId) : Bool :=
  let x := s.tileAt t
  x.stores.any (fun r => r.stage != .bank && s.egressHeld t r.slot r.seq) || x.sent.any (s.itemHeld t) || (!x.agreed && s.unitEgress t) ||
    userSlots.any fun k => match (x.slots[k]).req with
      | some r => r.stage == .sent && s.reqEgress t k r
      | none => false

/-- Whether the interval of a pair ends now (R374). -/
def State.intervalOver (s : State) (t : TileId) (p : Pairing) : Bool :=
  let x := s.tileAt t
  decide (2 ^ p.lgf ≤ p.retired) || decide (4096 ≤ p.undoCount) || p.ending ||
    (s.holdsEgress t && userSlots.all fun k => (x.slots[k]).run ≠ .ready)

/-- The request that a slot waited for at the agreement point, as it stands after a rollback: one in the pair's own scratchpad as it stood,
and one outside as it has come to stand, answered again where its answer has come, sent again where it had been withdrawn (R376). -/
def State.rollReq (s : State) (t : TileId) (p : Pairing) (k : Slot) (r0 : Req) : Req :=
  if s.ownReq t r0 then r0
  else match (s.thrAt t k).req with
  | some r => if r.id = r0.id then (if r.stage == .withdrawn then { r0 with stage := .sent, homes := [] } else r) else again
  | none => again
where
  again : Req := match (p.inbound ++ p.replay).findSome? fun q => match q.2 with
      | .answer j i a => if j = k ∧ i = r0.id then some a else none
      | _ => none with
    | some a => { r0 with stage := .answered a }
    | none => if r0.stage == .listed then { r0 with stage := .sent, homes := [] } else r0

/-- The stores and sent items of a pair after a rollback: those to its own bank and to itself as they stood, those of earlier intervals to the
outside as they have come to stand (R375, R376). -/
def Tile.rollStores (x x0 : Tile) : List StoreReq :=
  (x.stores.filter fun r => r.stage != .bank && decide (r.seq < (x0.slots[r.slot]).seq) && !(r.pieces.isEmpty && (x0.slots[r.slot]).hold.isSome)) ++
    x0.stores.filter fun r => r.stage == .bank
def Tile.rollSent (t : TileId) (x x0 : Tile) : List SentItem :=
  let own (it : SentItem) : Bool := it.pkg.isNone && it.dest = t
  (x.sent.filter fun it => !own it && decide (it.seq < (x0.slots[it.slot]).seq)) ++ x0.sent.filter own

/-- The monitors of a slot as they stood; an entry whose `marm` has been answered at a home outside since is armed with what the home watches
(R171, R376). -/
def rearmed (th0 : Thread) (req : Option Req) : Vector Monitor 4 :=
  match th0.req, req with
  | some r0, some r => match r0.stage, r.op, r.stage with
    | .answered _, _, _ => th0.monitors
    | _, .marm e, .answered (.armed ls) => th0.monitors.set e ⟨true, r.first, ls, false⟩
    | _, _, _ => th0.monitors
  | _, _ => th0.monitors
/-- A slot as it stood at the agreement point (R376), with what has come about outside the pair since: acknowledged stores, and
an answer to the request that it waits for. -/
def State.rollSlot (s : State) (t : TileId) (x0 : Tile) (p : Pairing) (k : Slot) : Thread :=
  let x := s.tileAt t
  let th0 : Thread := x0.slots[k]
  let kept := (x.rollStores x0).filter fun r => r.slot = k && r.counted && !r.acked
  let items := (Tile.rollSent t x x0).filter fun r => r.slot = k && r.counted
  let req := th0.req.map (s.rollReq t p k)
  { th0 with
    cntSt := (kept.map (·.seq)).eraseDups.length + items.length
    faults := (x.slots[k]).faults.filter fun f => decide (f.seq < th0.seq)
    req := req
    monitors := rearmed th0 req }

/-- The reservation queue of a word of the pair after a rollback: the places of its own slots as they stood, those of others as they have come
to stand (R376). -/
def rollQueue (t : TileId) (now was : ResvQueue) : ResvQueue :=
  let own (w : TileId × Slot) : Bool := decide (w.1 = t)
  { now with
    holder := (now.holder.filter fun w => !own w).or (was.holder.filter own)
    waiting := (was.waiting.filter fun w => own w || now.waiting.contains w) ++ now.waiting.filter fun w => !own w && !was.waiting.contains w }
/-- The reservation queues of the pair's own words are rolled back, and a word that no one holds then passes on. -/
def State.rollResvs (s : State) (t : TileId) (old : List ResvQueue) : State :=
  let keys := (((s.resvs.filter fun q => locTile q.loc = some t) ++ old).map fun q => (q.loc, q.size)).eraseDups
  keys.foldl (fun s key =>
    let q := rollQueue t (s.resvAt key.1 key.2) ((old.find? fun q => q.loc = key.1 && q.size == key.2).getD ⟨key.1, key.2, none, []⟩)
    State.grantNext q.waiting.length key.1 key.2 (s.putResv q)) s

/-- Both tiles return to the last agreement point (R376); an `unpair` that had issued issues again (R378). -/
def State.rollback (s : State) (t : TileId) (p : Pairing) : State :=
  match s.snapshots.find? fun q => q.1 = t with
  | none => s
  | some (_, x0) =>
    let x := s.tileAt t
    let p' : Pairing := { p with
      miss := p.miss + 1, retired := 0, print := 0, undo := [], undoAcc := [], inbound := []
      replay := p.inbound ++ p.replay, ending := false, unpair := none }
    let x' : Tile := { x0 with
      cycle := x.cycle
      slots := Vector.ofFn fun k => s.rollSlot t x0 p k
      stores := x.rollStores x0
      sent := Tile.rollSent t x x0
      waitList := x.waitList.filter (fun w => w.tile ≠ t) ++ x0.waitList.filter (fun w => w.tile = t)
      pairing := some p' }
    let own (e : Staged) : Bool := e.tile = t && locTile e.loc == some t
    let s : State := { s with staged := s.staged.filter (fun e => !own e) ++ s.snapStaged.filter own }
    let s := p.undo.reverse.foldl (fun (s : State) u => { s with
        mem := s.mem.writeBytes (4 * u.1) (leBytes u.2.1.toNat 4)
        fe := if u.2.2 then feInsert u.1 s.fe else feRemove u.1 s.fe }) s
    (s.putTile t x').rollResvs t p.resvs

/-- The slots that `fprt` and `unpair` hold have the agreement that they wait for (R167, R378). -/
def State.meetFprt (s : State) (t : TileId) : State :=
  userSlots.foldl (fun s k => match (s.thrAt t k).waitsFor with
    | some .fprt | some .unpair => s.meetAt t k
    | _ => s) s

/-- A pair takes an item from outside again (R376). -/
def State.redo (s : State) (t : TileId) (i : InItem) : State :=
  match i with
  | .entry c e => s.modTile t fun x => x.accept c e
  | .wake h => s.modTile t fun x => x.acceptWake h
  | .write cells =>
    (((cells.foldl State.putByte (s.modTile t fun x => x.noteIn i)).noteTiles (cells.map (·.1)) fun u => u = t).rewatch).serveAt ((cells.map (·.1)).headD 0)
  | .mark ws full =>
    ((ws.foldl (if full then State.setFull else State.setEmpty) (s.modTile t fun x => x.noteIn i)).noteTiles (ws.map (4 * ·)) fun u => u = t).serveAt
      (4 * ws.headD 0)
  | .preempt k v => (s.modTile t fun x => x.noteIn i).modThrAt t k fun th => { th with pending := { th.pending with preempt := some v } }
  | .suspect k v => (s.modTile t fun x => x.noteIn i).modThrAt t k fun th => { th with pending := { th.pending with suspect := some v } }
  | .fill k id d => match (s.thrAt t k).loads.find? fun l => l.id = id with
    | some l => s.landLoad t k l d
    | none => s
  | .notice k e => (s.modTile t fun x => x.noteIn i).notice t k e
  | .answer _ _ _ => s

/-- Take an item off a replay list. -/
def State.dropReplayed (s : State) (t : TileId) (q : Nat × InItem) : State :=
  s.modTile t fun x => match x.pairing with
    | some p => { x with pairing := some { p with replay := p.replay.erase q } }
    | none => x

/-- What is delivered again at its issue point by itself; fills and answers are events of their own. -/
def InItem.byItself : InItem → Bool
  | .fill _ _ _ | .answer _ _ _ => false
  | _ => true

/-- Deliver again all that a rolled-back pair has come to, in order; the fuel bounds it. -/
def State.replayAll : Nat → TileId → State → State
  | 0, _, s => s
  | n + 1, t, s => match (s.tileAt t).pairing with
    | some p => match p.replay.find? fun q => decide (q.1 ≤ p.retired) && q.2.byItself with
      | some q => State.replayAll n t ((s.dropReplayed t q).redo t q.2)
      | none => s
    | none => s
def State.replayDue (s : State) (t : TileId) : State :=
  match (s.tileAt t).pairing with
  | some p => State.replayAll p.replay.length t s
  | none => s
/-- What is left to be delivered again is delivered, for the interval is over or there is no pair any more. -/
def State.replayRest (s : State) (t : TileId) (p : Pairing) : State := p.replay.foldl (fun s q => s.redo t q.2) s

/-- A disagreement is counted for both tiles (R424). -/
def State.countMiss (s : State) (t : TileId) : State := (s.wearAdd (s.pairOff t)).wearAdd (s.pairOff (t + 1))

/-- A pair's interval ends and the fingerprints are compared; `odd` is that of the odd tile (R374, R376, R377). -/
def execIntervalEnd (t : TileId) (odd : BitVec 64) (s : State) : Out :=
  match (s.tileAt t).pairing with
  | none => noEvent "INTERVAL_END"
  | some p =>
    if p.even = false ∨ s.dieHalted t = true ∨ s.intervalOver t p = false then noEvent "INTERVAL_END"
    else if odd = p.print then
      let s := (s.modTile t fun x => { x with pairing := some { p with replay := [] } }).replayRest t p
      let s := s.modTile t fun x => { x with slots := x.slots.map fun th => { th with seq := th.seq + 1 } }
      let s := s.meetFprt t
      if p.unpair.isSome then .next (s.freePartner t)
      else .next ((s.modTile t fun x => { x with pairing := some { p with interval := p.interval + 1, miss := 0, replay := [], ending := false } }).snapshot t)
    else if p.miss < 2 then .next ((s.countMiss t).rollback t p)
    else
      let s := (s.countMiss t).rollback t p
      let q := (s.tileAt t).pairing.getD p
      let s := (s.freePartner t).replayRest t q
      let info : Word := p.interval.setWidth 64
      let s := s.modTile t fun x => { x with slots := x.slots.map fun th =>
          if th.resident then { th with pending := { th.pending with pairMismatch := some info } } else th }
      .next (s.sysEntry t 4 0 info)

end Sys2Proof.Machine
end

