-- ==== Sys2Proof/Machine/DeviceEvents.lean ====
section
/-! DEFINITION. The events of translation and of device registers (R214, R216, R226-R235, R337, R363, R379), and the host-memory
log (R414, R415). -/

namespace Sys2Proof.Machine

-- Walks (R226-R231)

/-- Whether n bytes from an address meet a page. -/
def rangeInPage (page : BitVec 36) (r : Word × Nat) : Bool :=
  let lo := r.1.toNat % 2 ^ 52
  r.2 ≠ 0 && regionOf r.1 = 2 && decide (lo < (page.toNat + 1) * 2 ^ 16) && decide (page.toNat * 2 ^ 16 < lo + r.2)

/-- The requests of a thread's outstanding accesses to a page of a pid; `fetches` says that its tile fetches with that pid through the
stations. -/
def Thread.wants (th : Thread) (t : TileId) (k : Slot) (pid : BitVec 16) (page : BitVec 36) (fetches : Bool) : List PageReq :=
  let loads := (th.loads.filter fun l => l.pid = pid && l.left.any (inPage page)).map fun l => (⟨t, .access l.id, false⟩ : PageReq)
  let req := match th.req with
    | some r => if r.pid = pid && (r.stage == .sent) && r.addrs.any (inPage page) then [(⟨t, .access r.id, r.op.writes⟩ : PageReq)] else []
    | none => []
  let fetch := if th.fetches page fetches then [(⟨t, .fetch k, false⟩ : PageReq)] else []
  let streams := th.binds.toList.flatMap fun (b : Bind) =>
    match b.flight with
    | some n => if b.pid = pid && (addrsFrom (b.elemAddr b.next) 128).any (inPage page) then [(⟨t, .access n, b.kind == .memWrite⟩ : PageReq)] else []
    | none => []
  loads ++ req ++ fetch ++ streams

/-- Whether the carrier has asked for the translation of a page for a copy or drain (R283 step 4). -/
def State.asksPage (s : State) (t : TileId) (e : EngEntry) (page : BitVec 36) : Bool :=
  e.asked.any fun i => (s.opPages t e)[i]? == some page

/-- The requests of a die's tiles that need a page of a pid, but for those that have its translation or wait to be sent again (R226, R231,
R234). -/
def State.wanted (s : State) (die : Nat) (pid : BitVec 16) (page : BitVec 36) : List PageReq :=
  let all := s.tiles.flatMap fun p =>
    if dieOf p.1 ≠ die then []
    else
      let x := p.2
      let stores := (x.stores.filter fun r => r.pid = pid && r.stage == .egress && r.homes.isEmpty && !r.waits &&
        !s.egressHeld p.1 r.slot r.seq && r.pieces.any fun q => rangeInPage page (q.1, q.2.length)).map fun r => (⟨p.1, .access r.id, true⟩ : PageReq)
      let engines := (x.ops.filter fun e => e.req.pid = pid).flatMap fun e =>
        if (e.state == .held && decide (e.access = 0)) || (e.req.op.generates && e.state != .held && !s.asksPage p.1 e page) then []
        else
          let rs := s.opRanges p.1 e
          let one (write : Bool) (l : List (Word × Nat)) : List PageReq :=
            if l.any (rangeInPage page) then [⟨p.1, .access e.access, write⟩] else []
          one false rs.1 ++ one true rs.2
      let flags := (x.flagging.filter fun f => f.req.pid = pid && (match f.req.flag with
        | some a => rangeInPage page (a.addr, sizeBytes a.size)
        | none => false)).map fun f => (⟨p.1, .access f.access, true⟩ : PageReq)
      stores ++ (userSlots.flatMap fun k => (x.slots[k]).wants p.1 k pid page (x.pid = pid && x.throughput)) ++ engines ++ flags
  all.filter fun r => !(s.refused.any fun q => q.page = page && q.req = r) && !s.trans.any fun x => x.isFor r.tile r.asker pid page

/-- Whether a byte was translated through the leaf that maps an address, or any leaf of the pid (R235). -/
def Home.through (h : Home) (a : Word) (hit : Nat → Word → Bool) : Bool := match h.level with
  | some n => hit n a
  | none => false

/-- Whether a thread still waits for an access of a number with bytes in a page. -/
def Thread.awaits (th : Thread) (id : Nat) (page : BitVec 36) : Bool :=
  (th.loads.any fun l => l.id = id && l.left.any (inPage page)) ||
    (match th.req with
    | some r => r.id = id && (r.stage == .sent || r.stage == .listed || (match r.stage with | .refused _ => true | _ => false))
    | none => false) ||
    th.binds.toList.any fun (b : Bind) => b.flight == some id
/-- Whether an operation has bytes of a page still to access: a copy those of the pieces that have not moved. -/
def State.opAwaits (s : State) (t : TileId) (e : EngEntry) (page : BitVec 36) : Bool :=
  if e.req.op.isCopy && e.state != .held then
    match e.plan with
    | .inr p => (List.range p.pieces).any fun g => !e.moved.contains g && (let as := s.pieceAddrs t e p g; (as.1 ++ as.2).any (inPage page))
    | .inl _ => false
  else true
/-- Whether a request that has a translation is not yet performed. -/
def State.transAwaited (s : State) (x : Translated) : Bool :=
  let y := s.tileAt x.req.tile
  match x.req.asker with
  | .fetch k => y.pid = x.pid && (y.slots[k]).fetches x.page y.throughput
  | .access id =>
    (y.stores.any fun r => r.id = id && r.pieces.any fun q => rangeInPage x.page (q.1, q.2.length)) ||
      (userSlots.any fun k => (y.slots[k]).awaits id x.page) || (y.ops.any fun e => e.access = id && s.opAwaits x.req.tile e x.page) ||
      y.flagging.any fun f => f.access = id

/-- Whether a request of a pid, translated through a leaf that a predicate on its level and the address takes, is not yet performed (R234,
R235). -/
def State.translatedIn (s : State) (pid : BitVec 16) (hit : Nat → Word → Bool) : Bool :=
  s.tiles.any fun p =>
    (p.2.stores.any fun r => r.pid = pid && (r.addrs.zip r.homes).any fun q => q.2.through q.1 hit) ||
    (userSlots.any fun k => match (p.2.slots[k]).req with
      | some r => r.pid = pid && (r.stage == .listed) && (r.addrs.zip r.homes).any fun q => q.2.through q.1 hit
      | none => false)

/-- The held-page entries of a station (R231). -/
def heldRoom : Nat := 64

/-- A page is held: an entry of the station, and one fault record for each page until it is answered (R230, R231, R414). -/
def State.holdPage (s : State) (h : HeldPage) : State :=
  let known := s.heldPages.any fun x => x.pid = h.pid && x.page = h.page
  let s : State := { s with heldPages := s.heldPages ++ [h] }
  if known then s.renewRecord h.pid h.page else s.logRecord (faultRecord h.pid h.page [h])

/-- Requests that would need a 65th held page are refused, and sent again 64 clocks later (R231). -/
def State.refusePage (s : State) (page : BitVec 36) (rs : List PageReq) : State :=
  { s with refused := s.refused ++ rs.map fun r => ⟨page, r, (s.tileAt r.tile).cycle.toNat + Config.resendClocks⟩ }

/-- Requests reach a station for the translation of a page (R226-R231): they join the page's entry where it is held; else they are given its
cached translation, by which they go from then on (R234), or the station walks, which gives them what it caches, holds the page, or refuses
the requests. What has been performed needs no translation any more. -/
def execTranslationWalk (die station : Nat) (pid : BitVec 16) (page : BitVec 36) (s : State) : Out :=
  let va := page.toNat * 2 ^ 16
  let here (h : HeldPage) : Bool := h.die = die && h.station = station && h.pid = pid && h.page = page
  let rs := s.wanted die pid page
  if stationOf va ≠ station ∨ rs.isEmpty then noEvent "TRANSLATION_WALK"
  else match s.heldPages.find? here with
  | some h =>
    let new := rs.filter fun r => !h.reqs.contains r
    if new.isEmpty then noEvent "TRANSLATION_WALK"
    else .next (({ s with heldPages := s.heldPages.map fun x => if here x then { x with reqs := x.reqs ++ new } else x } : State).renewRecord pid page)
  | none =>
    let s : State := { s with trans := s.trans.filter s.transAwaited }
    match s.cached die pid va, s.walkAt die pid va with
    | some w, _ => .next (s.translate pid page rs w)
    | none, .found w => .next ((s.putXlat ⟨die, station, pid, page, w⟩).translate pid page rs w)
    | none, .cut => noEvent "TRANSLATION_WALK"
    | none, .held =>
      if (s.heldPages.filter fun h => h.die = die && h.station = station).length < heldRoom then .next (s.holdPage ⟨die, station, pid, page, rs⟩)
      else .next (s.refusePage page rs)

-- Stores to registers (R117, R214)

/-- A register write that a store of a thread makes next: the tile, the store, the address and the bytes. -/
structure RegStore where
  tile  : TileId
  req   : StoreReq
  addr  : Word
  bytes : List Byte
  deriving DecidableEq, Repr

/-- Whether a tile reaches the register of an address, and that, where it is one of the station control, every station (R235, R388). -/
def State.regOpen (s : State) (t : TileId) (a : Word) : Bool :=
  s.deviceOpen t a && match devOf a with
    | some (.pdbase, _) | some (.inval, _) | some (.resume, _) => (List.range Config.dies).all fun d => s.lostDies.contains d || s.meshOpen (dieOf t) d
    | _ => true
/-- The register writes that may be performed now. -/
def State.regStores (s : State) : List RegStore :=
  s.tiles.flatMap fun p => p.2.stores.filterMap fun r =>
    match r.pieces with
    | (a, bs) :: _ =>
      if regionOf a = 3 && s.storeFree p.1 r && !p.2.laneBehind r .performed && s.devTakes r a bs && s.regOpen p.1 a then some ⟨p.1, r, a, bs⟩ else none
    | [] => none

/-- Perform a register write of a store: one register, or all the words that it stores in one weight header. A write that the
register refuses is a fatal access (R337, R363). -/
def State.storeReg (s : State) (q : RegStore) : State :=
  match devOf q.addr, s.devStore q.addr q.bytes with
  | some (r, i), some (_, v) =>
    match s.devWrite r v with
    | some s' => s'.advanceStore q.tile q.req (8 - i)
    | none => (s.noteFault q.tile q.req q.addr).advanceStore q.tile q.req (8 - i)
  | _, _ => s

/-- The first register write that a predicate on the register and its new value takes is performed. -/
def storeEvent (m : String) (s : State) (want : RegStore → DevReg → Word → Bool) : Out :=
  match s.regStores.find? fun q => match s.devStore q.addr q.bytes with
    | some (r, v) => want q r v
    | none => false with
  | some q => .next (s.storeReg q)
  | none => noEvent m

def execPdbase (v : Word) (s : State) : Out := storeEvent "PDBASE" s fun _ r w => r == .pdbase && w == v

/-- Whether INVAL must still wait for requests translated with what it drops (R234, R235). -/
def State.invalHeld (s : State) (v : Word) : Bool :=
  (s.translatedIn (stationPid v) fun level a => v.getLsbD 16 || sameLeaf level (a.toNat % 2 ^ 52) ((stationPage v).toNat * 2 ^ 16)) ||
    s.trans.any fun x => x.pid = stationPid v && (v.getLsbD 16 || x.walk.covers x.page (stationPage v)) && s.transAwaited x
/-- What INVAL drops, but for what requests that are not yet performed go by: cached translations, and those that a request has been given and
no longer needs, such as a fetch that a trap has ended (R234, R235). -/
def State.shoot (s : State) (v : Word) : State :=
  let s' := s.invalidate v
  { s' with trans := s'.trans.filter fun x => !(x.pid = stationPid v && (v.getLsbD 16 || x.walk.covers x.page (stationPage v))) || s.transAwaited x }
/-- A store to INVAL: the stations drop the translations, and the store is acknowledged once what was translated with them is performed
(R235). -/
def execInval (v : Word) (s : State) : Out :=
  let want (_ : RegStore) (r : DevReg) (w : Word) : Bool := r == .inval && w == v
  if !s.invalHeld v then storeEvent "INVAL" (s.shoot v) want
  else if s.shoot v = s then noEvent "INVAL"
  else match storeEvent "INVAL" s want with
    | .next _ => .next (s.shoot v)
    | o => o
def execResume (v : Word) (s : State) : Out :=
  if s.resumeCut v then noEvent "RESUME" else storeEvent "RESUME" s fun _ r w => r == .resume && w == v

def execBankFormatWrite (t : TileId) (n : Fin 16) (v : Word) (s : State) : Out :=
  storeEvent "BANK_FORMAT_WRITE" s fun _ r w => r == .fmt t n && w == v
def execWatchpointControlWrite (t : TileId) (j : Fin 2) (v : Word) (s : State) : Out :=
  storeEvent "WATCHPOINT_CONTROL_WRITE" s fun _ r w => r == .watchCtl t j && w == v
def execBindingRecordStore (t : TileId) (k : Slot) (r : StreamReg) (v : Word) (s : State) : Out :=
  storeEvent "BINDING_RECORD_STORE" s fun _ q w => q == .record t k r 3 && w == v

/-- The bytes of a store that fall in one weight header. -/
def RegStore.headerBytes (q : RegStore) : Option (TileId × Fin 16 × Nat × List Byte) :=
  match devOf q.addr with
  | some (.header t k w, i) => let off := 8 * w.val + i; some (t, k, off, q.bytes.take (64 - off))
  | _ => none

/-- A store into a weight header, its bytes in one step; a fatal access while work on the header is pending (R337). -/
def State.storeHeader (s : State) (q : RegStore) (t : TileId) (k : Fin 16) (off : Nat) (bs : List Byte) : State :=
  let x := s.tileAt t
  if x.hdrBusy k then (s.noteFault q.tile q.req q.addr).advanceStore q.tile q.req bs.length
  else (s.putTile t (x.putHdr k (hdPut (x.hdr k) (8 * off) (8 * bs.length) (leNat bs)))).advanceStore q.tile q.req bs.length

def execHeaderStore (t : TileId) (k : Fin 16) (off : Fin 64) (bytes : List Byte) (s : State) : Out :=
  match s.regStores.find? fun q => q.headerBytes == some (t, k, off.val, bytes) with
  | some q => .next (s.storeHeader q t k off.val bytes)
  | none => noEvent "HEADER_STORE"

-- Registers without a row of their own (R214, R399, R405, R408, R411, R414, R427)

/-- A register of device space that no other row of the table writes. -/
def DevReg.plain : DevReg → Bool
  | .brk _ _ | .watchAddr _ _ | .suspect _ _ => true
  | .record _ _ _ w => w ≠ 3
  | _ => false

/-- The place of word i of the record of a window's slot in `winMem` (R411). -/
def slotAddr (w : Fin 24) (k : Fin 8) (i : Nat) : Nat := (w.val * 8 + k.val) * 256 + 8 * i

/-- A board reference register's value: bit 63 names a board, [37:32] the package, [18:16] the die, [9:0] the index (R405, log 51). -/
def refOf (die : Fin 8) (index : Nat) (v : Word) : Option BoardRef :=
  if v.getLsbD 63 then some ⟨die, index, v.toNat / 2 ^ 32 % 64, Fin.ofNat 8 (v.toNat / 2 ^ 16), v.toNat % 1024⟩ else none

/-- A write of BAR4 (R423, R427; the layout from 0x4000 on is log 51). Registers that the host may not write keep their value. -/
def State.bar4Write (s : State) (off : Nat) (v : Word) : State :=
  if 0x1000 ≤ off ∧ off < 0x1020 then
    let n := s.root.nonce ++ List.replicate (32 - s.root.nonce.length) 0
    let i := off - 0x1000
    { s with root := { s.root with nonce := n.take i ++ leBytes v.toNat 8 ++ n.drop (i + 8) } }
  else if off = 0x4000 then s.setLog v s.logSize
  else if off = 0x4008 then s.setLog s.logBase v.toNat
  else if 0xC000 ≤ off ∧ off < 0xE000 then
    let d : Fin 8 := if off < 0xD000 then 6 else 7
    let i := 512 + off % 0x1000 / 8
    let rest := s.refs.filter fun r => !(r.die = d && r.index = i)
    { s with refs := match refOf d i v with
        | some r => rest ++ [r]
        | none => rest }
  else if 0x4000 ≤ off ∧ off < 0x10000 then
    { s with bar4 := s.bar4.writeBytes off (leBytes v.toNat 8), unreach := [], unreachPkgs := [] }
  else s

/-- What the registers of BAR4 below 0x1000 read as (R423). -/
def State.mgmtWord (s : State) (off : Nat) : Word :=
  if off = 0x0000 then BitVec.ofNat 64 (s.dmode.toNat + if s.dmodeErr then 256 else 0)
  else if off = 0x0008 then s.plim.setWidth 64
  else if off = 0x0010 then s.degraded.setWidth 64
  else if 0x0100 ≤ off ∧ off < 0x0130 then
    let d : Die := s.dies[(Fin.ofNat 6 ((off - 0x0100) / 8) : Fin 6)]
    BitVec.ofNat 64 (d.gaps.toNat * 2 ^ 32 + d.grant.toNat)
  else 0

/-- What a board reference register reads as (R405, log 51). -/
def State.refWord (s : State) (die : Fin 8) (index : Nat) : Word :=
  match s.refs.find? fun r => r.die = die && r.index = index with
  | some r => BitVec.ofNat 64 (2 ^ 63 + r.pkg * 2 ^ 32 + r.tdie.val * 2 ^ 16 + r.tidx)
  | none => 0

/-- What an aligned word of BAR4 reads as (R423, R424, R427; the layout from 0x4000 on is log 51). -/
def State.bar4Word (s : State) (off : Nat) : Word :=
  let word (b : Nat → Byte) : Word := BitVec.ofNat 64 (leNat ((List.range 8).map b))
  if off < 0x1000 then s.mgmtWord off
  else if off < 0x1020 then word fun i => s.root.nonce.getD (off - 0x1000 + i) 0
  else if off = 0x1020 then (if s.root.ready then 2 else 0)
  else if 0x2000 ≤ off ∧ off < 0x3000 then word fun i => if s.root.ready then s.root.report.getD (off - 0x2000 + i) 0 else 0
  else if 0x3000 ≤ off ∧ off < 0x3000 + 1952 then word fun i => Config.publicKey (off - 0x3000 + i)
  else if off = 0x4000 then s.logBase
  else if off = 0x4008 then BitVec.ofNat 64 s.logSize
  else if 0xC000 ≤ off ∧ off < 0xE000 then s.refWord (if off < 0xD000 then 6 else 7) (512 + off % 0x1000 / 8)
  else if 0x4000 ≤ off ∧ off < 0x10000 then BitVec.ofNat 64 (s.bar4.readNat off 8)
  else if 0x10000 ≤ off ∧ off < 0x20000 then BitVec.ofNat 64 (s.wear.readNat (off - 0x10000) 8)
  else 0

/-- What an aligned word of a window reads as (R411). -/
def State.bar0Word (s : State) (off : Nat) : Word :=
  let n := off / 0x1000
  let w : Fin 24 := Fin.ofNat 24 n
  let o := off % 0x1000
  if 24 ≤ n then 0
  else if o = 0x008 then ((s.windows[w]).done).setWidth 64
  else if o = 0x010 then BitVec.ofNat 64 (n + n / 4 * 2 ^ 8 + n % 4 * 2 ^ 12)
  else if 0x100 ≤ o ∧ o < 0x900 then BitVec.ofNat 64 (s.winMem.readNat (slotAddr w (Fin.ofNat 8 ((o - 0x100) / 0x100)) (o % 0x100 / 8)) 8)
  else 0

/-- The BAR4 offsets whose writes have rows of their own. -/
def bar4Own (off : Nat) : Bool := off = 0x0000 || off = 0x0008 || off = 0x1020
/-- The package serves the host: it has been brought up and is not in recovery (R426, R428). -/
def State.serves (s : State) : Bool := s.root.booted && !s.root.recovery

def execRegisterWrite (p : RegPlace) (v : Word) (s : State) : Out :=
  match p with
  | .device a =>
    storeEvent "REGISTER_WRITE" s fun q r w => r.plain && w == v && (match devOf a, devOf q.addr with
      | some (r', 0), some (r'', _) => r' == r && r'' == r
      | _, _ => false)
  | .bar0 off =>
    let o := off % 0x1000
    if off % 8 ≠ 0 ∨ 24 * 0x1000 ≤ off ∨ o = 0 ∨ o = 8 then noEvent "REGISTER_WRITE"
    else if !s.serves then .next { s with hostRead := .unsupported }
    else if 0x100 ≤ o ∧ o < 0x900 then
      let at8 := slotAddr (Fin.ofNat 24 (off / 0x1000)) (Fin.ofNat 8 ((o - 0x100) / 0x100)) (o % 0x100 / 8)
      .next { s with winMem := s.winMem.writeBytes at8 (leBytes v.toNat 8) }
    else .next s
  | .readBar0 off =>
    if off % 8 ≠ 0 ∨ 0x20000 ≤ off then noEvent "REGISTER_WRITE"
    else .next { s with hostRead := if s.serves then .data (leBytes (s.bar0Word off).toNat 8) else .unsupported }
  | .readBar4 off =>
    if off % 8 ≠ 0 ∨ 0x20000 ≤ off then noEvent "REGISTER_WRITE" else .next { s with hostRead := .data (leBytes (s.bar4Word off).toNat 8) }
  | .bar4 off => if off % 8 ≠ 0 ∨ 0x20000 ≤ off ∨ bar4Own off = true then noEvent "REGISTER_WRITE" else .next (s.bar4Write off v)

end Sys2Proof.Machine
end

