-- ==== Sys2Proof/Machine/Gangs.lean ====
section
/-! DEFINITION. What the gang events share: launch records (R22, R54, R184, R386, R395, R418, R420), starting tiles (R55, R397), saving
and restoring a gang (R360, R361, R402), its end (R398), and the end of a window request (R411). -/

namespace Sys2Proof.Machine

-- Window requests (R411)

/-- STATUS of a record: byte 2 of word 0. -/
def State.setStatus (s : State) (w : Fin 24) (k : Fin 8) (status : Nat) : State :=
  { s with winMem := s.winMem.write (slotAddr w k 0 + 2) (BitVec.ofNat 8 status) }
def State.slotWord (s : State) (w : Fin 24) (k : Fin 8) (i : Nat) : Word := BitVec.ofNat 64 (s.winMem.readNat (slotAddr w k i) 8)

/-- A request ends: STATUS, DONE, and MSI-X vector 1 where IRQ asks for it (R411). -/
def State.endRequest (s : State) (w : Fin 24) (k : Fin 8) (status : Nat) : State :=
  let s := s.setStatus w k status
  let win : Window := s.windows[w]
  { s with
    windows := s.windows.set w { done := win.done ||| (1#8 <<< k.val), queue := win.queue.filter fun j => j ≠ k }
    msix := if (s.slotWord w k 0).getLsbD 8 then s.msix ++ [1] else s.msix }

/-- The request that waits for a gang ends. -/
def State.endGangReq (s : State) (g : Gang) (status : Nat) : State :=
  match g.req with
  | some (w, k) => s.endRequest w k status
  | none => s

-- Launch records (R395)

/-- Bytes of HBM of the compute dies. -/
def paOk (pa n : Nat) : Bool := decide (pa + n ≤ Config.dies * 2 ^ 37)

/-- The tiles of a tile-list entry; none where it breaks R395. -/
def tileEntry (e : Nat) : Option (List (BitVec 16 × TileId)) :=
  let die := e % 8
  let r0 := e / 2 ^ 4 % 16
  let c0 := e / 2 ^ 8 % 16
  let nr := e / 2 ^ 12 % 32
  let nc := e / 2 ^ 17 % 32
  if e / 8 % 2 ≠ 0 ∨ e / 2 ^ 22 % 2 ^ 26 ≠ 0 ∨ Config.dies ≤ die ∨ nc = 0 ∨ 16 < r0 + nr ∨ 16 < c0 + nc then none
  else some ((List.range nr).flatMap fun r => (List.range nc).map fun c => (BitVec.ofNat 16 (e / 2 ^ 48), tileNo die (r0 + r) (c0 + c)))

/-- The tile list from an address; an entry with no rows ends it, whose other bits are zero as well (R395). The fuel bounds its entries. -/
def State.tileList (s : State) : Nat → Nat → Option (List (BitVec 16 × TileId))
  | 0, _ => none
  | n + 1, pa =>
    if !paOk pa 8 then none
    else
      let e := s.hbmNat pa 8
      if e / 2 ^ 12 % 32 = 0 then (if e / 8 % 2 = 0 ∧ e / 2 ^ 22 % 2 ^ 26 = 0 then some [] else none)
      else match tileEntry e, s.tileList n (pa + 8) with
        | some ts, some rest => some (ts ++ rest)
        | _, _ => none

/-- The runs of a data image from an address, as (offset, bytes); the fuel bounds their number. -/
def State.dataRuns (s : State) : Nat → Nat → Option (List (Nat × List Byte))
  | 0, _ => none
  | n + 1, pa =>
    if !paOk pa 8 then none
    else
      let h := s.hbmNat pa 8
      let off := h % 2 ^ 21
      let len := h / 2 ^ 32 % 2 ^ 21
      if h = 0 then some []
      else if h / 2 ^ 21 % 2 ^ 11 ≠ 0 ∨ h / 2 ^ 53 ≠ 0 ∨ Config.scratchBytes < off + len ∨ paOk pa (8 + len) = false then none
      else match s.dataRuns n (pa + 8 + (len + 7) / 8 * 8) with
        | some rest => some ((off, s.mem.readBytes (hbmLoc s.domPkg (pa + 8)) len) :: rest)
        | none => none

/-- The longest list and image that the launch path reads (log 52). -/
def listFuel : Nat := 65536

/-- The bank formats at the head of a data image (R395, R216). -/
def State.imageFmts (s : State) (pa : Nat) : Option (Vector (BitVec 4) 16) :=
  let bs := s.mem.readBytes (hbmLoc s.domPkg pa) 16
  if bs.all fun b => decide (b.toNat ≤ 8) then some (Vector.ofFn fun (i : Fin 16) => (bs.getD i.val 0).setWidth 4) else none

/-- The Lace nodes of the package table (R395). -/
def State.pkgTable (s : State) (pa : Nat) : Nat → Option (List (BitVec 16))
  | 0 => some []
  | n + 1 =>
    let e := s.hbmNat pa 8
    if paOk pa 8 = false ∨ e / 2 ^ 16 ≠ 0 then none
    else (s.pkgTable (pa + 8) n).map fun rest => BitVec.ofNat 16 e :: rest

/-- Insert a tile in rising order, once. -/
def insertTile (x : Nat) : List Nat → List Nat
  | [] => [x]
  | y :: ys => if x < y then x :: y :: ys else if x = y then y :: ys else y :: insertTile x ys

/-- Whether every byte of n from an address lies in a page that can be fetched (R54). -/
def State.canFetch (s : State) (pid : BitVec 16) (va n : Nat) : Bool :=
  n = 0 || decide (va + n ≤ 2 ^ 52) && (List.range ((va + n + 65535) / 65536 - va / 65536)).all fun i =>
    match s.walk pid ((va / 65536 + i) * 65536) with
    | .found (.leaf pte _ _) => pte.getLsbD 63
    | _ => false

/-- Words of a record with no field there are zero (R395). -/
def recordZeros (w : Nat → Nat) : Bool :=
  decide (w 0 / 2 ^ 48 = 0) && decide (w 0 / 2 ^ 12 % 16 = 0) && decide (w 0 / 4 % 4 = 0) && decide (w 8 / 2 ^ 39 = 0) &&
    decide (w 9 / 2 ^ 40 = 0) && decide (w 10 / 2 ^ 40 = 0) && decide (w 11 / 2 ^ 40 = 0) && decide (w 13 / 2 ^ 32 = 0) &&
    decide (w 14 = 0) && decide (w 15 = 0)

/-- The compute dies of some tiles. -/
def diesOf (ts : List TileId) : List Nat := (List.range Config.dies).filter fun d => ts.any fun t => dieOf t = d

/-- A launch record in HBM as a gang; none where the launch path refuses it (R22, R54, R184, R386, R395, R418, R420). -/
def State.readLaunch (s : State) (pa : Nat) (req : Fin 24 × Fin 8) : Option Gang :=
  let w (i : Nat) : Nat := s.hbmNat (pa + 8 * i) 8
  let md := w 0 % 4
  let npk := w 0 / 2 ^ 32 % 2 ^ 16 + 1
  let pid := BitVec.ofNat 16 (w 0 / 2 ^ 16)
  let lgw := if md = 0 then 0 else w 0 / 2 ^ 4 % 16
  let text := w 13
  let va := w 4 % 2 ^ 52
  if paOk pa 128 = false ∨ recordZeros w = false ∨ md = 3 ∨ md ≠ s.dmode.toNat ∨ w 8 / 2 ^ 32 = 0 ∨ 12 < lgw then none
  else match s.tileList listFuel (w 9), s.pkgTable (w 11) npk, s.imageFmts (w 10), s.dataRuns listFuel (w 10 + 16) with
  | some ts, some nodes, some _, some _ =>
    let all := ts.foldl (fun acc q => insertTile (q.1.toNat * 2048 + q.2) acc) []
    match (if npk = 1 then some 0 else nodes.findIdx? fun n => n = s.node) with
    | none => none
    | some own =>
      let mine := (all.filter fun q => q / 2048 = own).map fun q => q % 2048
      let ranks := all.length
      let badMode := decide (md ≠ 0) && (decide (2 ^ log2Up ranks 20 ≠ ranks) || decide (2 ^ lgw < ranks))
      let badText := decide (w 4 / 2 ^ 52 ≠ 0x800) || decide (md ≠ 0) && (decide (65536 < text) ||
        decide (w 3 ≠ 0 ∧ (w 3 < w 4 ∨ w 4 + text < w 3 + 4)) || !s.canFetch pid va text)
      let badPower := decide (md = 2) && decide (s.plim.toNat < 560 * (diesOf mine).length + 200)
      let badDie := mine.any fun t => s.degraded.getLsbD (dieOf t)
      if all = [] ∨ all.any (fun q => npk ≤ q / 2048) ∨ badMode ∨ badText ∨ badPower ∨ badDie ∨ (s.gangAt (w 12 % 2 ^ 32)).isSome then none
      else
        let retry := w 0 / 2 ^ 8 % 16
        some {
          id := w 12 % 2 ^ 32, pkg := BitVec.ofNat 16 own, npk := npk, pid := pid, mode := BitVec.ofNat 64 (lgw * 16 + md)
          retry := if retry = 0 then 3 else retry, age := BitVec.ofNat 64 (w 1), tick := BitVec.ofNat 64 (w 2)
          tvec := BitVec.ofNat 64 (w 3), code := BitVec.ofNat 64 (w 4), text := text
          pcs := (List.range 7).map fun i => BitVec.ofNat 32 (w (5 + i / 2) / 2 ^ (32 * (i % 2)))
          slots := BitVec.ofNat 7 (w 8 / 2 ^ 32), tiles := mine, ranks := ranks
          rank0 := (all.filter fun q => q / 2048 < own).length, data := w 10, nodes := nodes
          state := .placing, req := some req, stopT := none, stopD := none, round := 0, rounds := [], combined := [], suspects := 0
          treeDone := 0, treeFails := [], tree := [], barDone := 0, barPast := []
          saved := [], savedMem := [], savedFe := [], savedSnap := [], savedStaged := [] }
  | _, _, _, _ => none

-- Starting (R22, R54, R55, R220, R337, R397)

/-- The first address and the words of each line that `.text` fills, cut at line boundaries (R54); the fuel bounds the lines. -/
def textParts : Nat → Nat → Nat → List (Nat × Nat)
  | 0, _, _ => []
  | n + 1, va, words =>
    if words = 0 then []
    else
      let k := min words (Config.icacheLineBytes / 4 - va % Config.icacheLineBytes / 4)
      (va, k) :: textParts n (va + 4 * k) (words - k)

/-- The words of `.text` as locked lines (R54). A page that could be fetched at LAUNCH and can no longer be at the tick leaves its lines out, so
that a fetch of them traps: the spec does not say what is locked then (DESIGN CHOICE, log 52). -/
def State.textLines (s : State) (t : TileId) (pid : BitVec 16) (parts : List (Nat × Nat)) : List ICLine :=
  parts.filterMap fun p => (s.readLine t pid p.1).map fun ws => ⟨p.1, ws.take p.2, true⟩

/-- The thread that a launch places in a slot; it issues first in the first clock that the slot owns (R55, R397). The low bits of PC and `tvec` are zero, whatever the record holds (R32, R45). -/
def Thread.launch (th : Thread) (pc tvec : Word) : Thread :=
  { Thread.reset with run := .ready, rouse := .starts, pc := pc &&& ~~~3#64, tvec := tvec &&& ~~~3#64, seq := th.seq }

/-- The slots of a tile after the launch: the listed ones are reset, the others empty (R397). -/
def Gang.launchSlot (g : Gang) (k : Slot) (th : Thread) : Thread :=
  if k.val ≠ 0 ∧ g.slots.getLsbD (k.val - 1) = true then
    th.launch (g.code + ((g.pcs.getD (k.val - 1) 0).setWidth 64)) g.tvec
  else th

/-- The first words of a tile's scratchpad, and its full/empty bits. -/
def tileWords (t : TileId) (w : Nat) : Bool := locTile (4 * w) = some t

/-- Load a data image into a tile: each run is written and its words set full, every other word is empty (R22). -/
def State.loadImage (s : State) (t : TileId) (runs : List (Nat × List Byte)) : State :=
  let s : State := { s with fe := s.fe.filter fun w => !tileWords t w }
  let s := runs.foldl (fun s r =>
    let cells := ((List.range r.2.length).zip r.2).map fun p => (tileLoc t (r.1 + p.1), p.2)
    (wordsOf (cells.map (·.1))).foldl State.setFull (s.perform cells)) s
  s.serveAt (tileLoc t 0)

/-- The lines that a gang locks: `.text` as whole words. The word that holds the last bytes of a TEXT that is no multiple of 4 is locked with
them (DESIGN CHOICE, log 7), and a CODE that is none counts from the word that holds it, as the PC does (R32, R45). -/
def Gang.textParts (g : Gang) : List (Nat × Nat) :=
  let va := g.code.toNat % 2 ^ 52
  if g.mode.toNat % 4 = 0 then [] else Sys2Proof.Machine.textParts 1025 (va / 4 * 4) ((va % 4 + g.text + 3) / 4)

/-- The dies that hold the bytes of a data image from its first byte to its last. -/
def imageDies (pa : Nat) (runs : List (Nat × List Byte)) : List Nat :=
  let last := pa + 23 + (runs.map fun r => 8 + (r.2.length + 7) / 8 * 8).sum
  (List.range Config.dies).filter fun d => decide (pa / 2 ^ 37 ≤ d) && decide (d ≤ last / 2 ^ 37)
/-- Whether a tile is reached by its data image and the homes of its locked text (R2, R388). -/
def State.launchOpen (s : State) (g : Gang) (runs : List (Nat × List Byte)) (t : TileId) : Bool :=
  ((imageDies g.data runs).all fun d => s.lostDies.contains d || s.meshOpen d (dieOf t)) &&
    g.textParts.all fun p => s.lineOpen t g.pid p.1

/-- Start a gang in one of its tiles (R397). -/
def State.startTile (s : State) (g : Gang) (fmts : Vector (BitVec 4) 16) (runs : List (Nat × List Byte)) (t : TileId) : State :=
  let lines := s.textLines t g.pid g.textParts
  let s := s.modTile t fun x =>
    let y := x.idle
    { y with
      slots := Vector.ofFn fun k => g.launchSlot k y.slots[k]
      cycle := 0, gang := some g.id, mode := g.mode, pid := g.pid, fmts := fmts, acc := [], headers := Vector.replicate 16 0#512
      icache := lines }
  s.loadImage t runs

-- The tiles of a gang

/-- The tiles that a gang holds: its own, and a partner that one of them hides (R371). -/
def State.heldTiles (s : State) (g : Gang) : List TileId :=
  g.tiles ++ (g.tiles.filterMap fun t => match (s.tileAt t).pairing with
    | some p => if p.even && !g.tiles.contains p.partner then some p.partner else none
    | none => none)

/-- Every slot of some tiles. -/
def State.eachSlot (s : State) (ts : List TileId) (f : State → TileId → Slot → State) : State :=
  ts.foldl (fun s t => userSlots.foldl (fun s k => f s t k) s) s

/-- Whether a store may move on, or a release may leave, so that a stop does not overtake it. -/
def State.movable (s : State) (t : TileId) (r : StoreReq) : Bool :=
  match r.waits, r.kind.scope with
  | true, some sc => s.releaseGoes t r.slot r.seq sc r.past && !s.releaseHeld t r
  | _, _ => s.storeFree t r && s.storeOut t r != .waits

/-- A stop comes after the stores that can still move (R272), and after an accumulator operation at the head of a sequencer
(R360, R364). -/
def State.stopReady (s : State) (ts : List TileId) : Bool :=
  ts.all fun t => !s.headBusy t && (s.tileAt t).stores.all fun r => !s.movable t r

/-- Whether a listed request keeps its place in the wait list of a bank that is saved with it (R360). -/
def keepsPlace (ts : List TileId) (r : Req) (waits : List Waiter) : Bool :=
  (match r.op with
    | .ldfe _ | .ldff _ | .stef _ _ | .wadr _ _ _ => true
    | _ => false) && waits.any fun w => match locTile w.loc with
    | some u => ts.contains u
    | none => false

/-- What a stop does to a request that has no answer yet: it is withdrawn, and the instruction issues again; a watch is sent again instead, so
that its timeout runs on (R191, R361). A grant is given back with its hold (R272). -/
def State.withdrawReq (s : State) (ts : List TileId) (t : TileId) (k : Slot) : State :=
  match (s.thrAt t k).req with
  | none => s
  | some r =>
    let again : State := (s.dropWaits t k).modThrAt t k fun th =>
      if r.deadline.isSome && r.stage != .withdrawn then { th with req := some { r with stage := .sent, homes := [] } }
      else { th with req := none, run := .ready }
    match r.stage with
    | .answered _ => s
    | .listed => if keepsPlace ts r ((s.waiters).filter fun w => w.tile = t && w.slot = k) then s else again
    | _ => again

/-- A held reservation ends without a write, and its grant passes on (R272, R361). -/
def State.giveUpHold (s : State) (t : TileId) (k : Slot) : State :=
  match (s.thrAt t k).heldWord with
  | none => s
  | some (hs, z) =>
    (s.modThrAt t k fun th => match th.hold with
      | some _ => { th with hold := none }
      | none => { th with req := none, run := .ready }).releaseResv t k (placeOf hs) z

/-- Notices on their way reach the monitors. -/
def State.landNotices (s : State) (ts : List TileId) : State :=
  let mine := s.notices.filter fun n => ts.contains n.1
  mine.foldl (fun (s : State) n => s.modThrAt n.1 n.2.1 fun th => if (th.monitors[n.2.2]).valid then th.setW n.2.2 else th)
    { s with notices := s.notices.filter fun n => !ts.contains n.1 }

/-- Stop the tiles of a gang: requests withdrawn, reservations ended, staged writes committed. -/
def State.quiesce (s : State) (ts : List TileId) : State :=
  let s := s.eachSlot ts fun s t k => s.withdrawReq ts t k
  let s := s.eachSlot ts State.giveUpHold
  (s.commitWhere fun e => ts.contains e.tile).landNotices ts

-- Saving and restoring (R360, R361, R402)

/-- A cell or a word that lies in the scratchpad of some tiles. -/
def inTiles (ts : List TileId) (l : Nat) : Bool := match locTile l with
  | some t => ts.contains t
  | none => false

/-- Stop a running gang and save it (R360). -/
def State.stopGang (s : State) (g : Gang) : State :=
  let ts := s.heldTiles g
  let s := s.quiesce ts
  let own (w : Waiter) : Bool := ts.contains w.tile
  let img (t : TileId) : TileId × Tile := let x := s.tileAt t; (t, { x with waitList := x.waitList.filter own })
  let g := { g with
    state := .stopped, stopT := none, stopD := none, saved := ts.map img
    savedMem := s.mem.filter fun c => inTiles ts c.1, savedFe := s.fe.filter fun w => inTiles ts (4 * w)
    savedSnap := s.snapshots.filter fun p => ts.contains p.1, savedStaged := s.snapStaged.filter fun e => ts.contains e.tile }
  let s := s.putGang g
  let s : State := { s with
    snapshots := s.snapshots.filter fun p => !ts.contains p.1, snapStaged := s.snapStaged.filter fun e => !ts.contains e.tile
    trans := s.trans.filter fun x => !ts.contains x.req.tile }
  ts.foldl (fun s t => s.modTile t fun x =>
    { x.idle with stores := [], sent := [], waitList := x.waitList.filter fun w => !own w }) s

/-- The gangs that run in the package, with a tile that a predicate takes. -/
def State.running (s : State) (p : TileId → Bool) : List Gang := s.gangs.filter fun g => g.state = .running && g.tiles.any p

/-- Stop some gangs as at a pre-emption deadline (R388, R401, R422); none while one of them cannot stop yet. -/
def State.stopAll (s : State) (gs : List Gang) : Option State :=
  if gs.all fun g => s.stopReady (s.heldTiles g) then some (gs.foldl State.stopGang s) else none

/-- Restore a saved tile (R361); what left the tile in the meantime goes on. -/
def State.restoreTile (s : State) (p : TileId × Tile) : State :=
  s.modTile p.1 fun x => { p.2 with
    stores := x.stores ++ p.2.stores, sent := x.sent ++ p.2.sent, waitList := p.2.waitList ++ x.waitList, nextId := max x.nextId p.2.nextId }

/-- Restore a stopped gang: memory, full/empty bits, tiles; entries and handles accepted meanwhile are delivered (R361, R402). -/
def State.restoreGang (s : State) (g : Gang) : State :=
  let ts := g.saved.map (·.1)
  let s : State := { s with
    mem := Memory.writeCells (s.mem.filter fun c => !inTiles ts c.1) g.savedMem
    fe := g.savedFe.foldl (fun l w => feInsert w l) (s.fe.filter fun w => !inTiles ts (4 * w))
    snapshots := g.savedSnap.foldl (fun l p => assocSet l p.1 p.2) s.snapshots, snapStaged := s.snapStaged ++ g.savedStaged }
  let s := g.saved.foldl State.restoreTile s
  let s := ts.foldl (fun s t => s.modTile t fun x => (x.queue.foldl (fun (x : Tile) _ => x.wakePopper) x.deliverAll)) s
  s.putGang { g with state := .running, saved := [], savedMem := [], savedFe := [], savedSnap := [], savedStaged := [] }

-- The end of a gang (R398)

/-- Free some tiles: pairs are ended, wait lists forget the threads, slots and units are emptied. -/
def State.freeTiles (s : State) (ts : List TileId) : State :=
  let s := ts.foldl (fun s t => match (s.tileAt t).pairing with
    | some p => if p.even then s.freePartner t else s
    | none => s) s
  let s := s.eachSlot ts State.dropWaits
  ts.foldl (fun s t => s.modTile t Tile.idle) s

/-- Give up a reservation (R396, R397). -/
def State.unreserve (s : State) (g : Gang) : State :=
  g.tiles.foldl (fun s t => s.modTile t fun x => if x.gang = some g.id then { x with gang := none } else x) s

/-- What a stopped gang had retired and could not send before its stop is still carried out when the gang ends: its stores on the way and its
messages go on, and an `arel` to its own scratchpad, which nothing saves, passes its grant on (R272, R398). -/
def State.sendSaved (s : State) (p : TileId × Tile) : State :=
  let s := s.modTile p.1 fun x => { x with
    stores := x.stores ++ (p.2.stores.filter fun r => r.stage != .bank).map fun (r : StoreReq) => { r with counted := false }
    sent := x.sent ++ p.2.sent.map fun (r : SentItem) => { r with counted := false } }
  (p.2.stores.filter fun r => r.stage == .bank).foldl (fun s r => s.passGrant p.1 r) s

/-- A gang ends in this package: its tiles are free, its request ends where one still waits, and system event 7 is raised. -/
def State.endGang (s : State) (g : Gang) : State :=
  let ts := s.heldTiles g
  let s := if g.state = .running then (s.quiesce ts).freeTiles ts
    else g.saved.foldl State.sendSaved (s.unreserve g)
  let s : State := { s with gangs := s.gangs.filter fun h => h.id ≠ g.id }
  (s.endGangReq g 3).sysEvent 7 (BitVec.ofNat 64 g.id) 0

/-- Every slot of a tile is empty or killed, and its engines have nothing left to do. -/
def Tile.finished (x : Tile) : Bool :=
  (userSlots.all fun k => (x.slots[k]).run == .empty || (x.slots[k]).run == .killed) && x.ops.isEmpty && x.flagging.isEmpty && x.eyelets.isEmpty && x.accepted.isEmpty

/-- A running gang that has ended in this package by itself (R398). -/
def State.overGang (s : State) : Option Gang := s.gangs.find? fun g => g.state = .running && g.tiles.all fun t => (s.tileAt t).finished

/-- A gang that has ended is taken down. -/
def State.settle (s : State) : State :=
  match s.overGang with
  | some g => s.endGang g
  | none => s

/-- No gang occupies a tile of the package (R418). -/
def State.vacant (s : State) : Bool := s.tiles.all fun p => p.2.gang.isNone

end Sys2Proof.Machine
end

