-- ==== Sys2Proof/Machine/GangEvents.lean ====
section
/-! DEFINITION. The events of gangs: placement, confirmation and the launch tick (R396, R397), pre-emption (R360), and delivery to a
stopped gang (R402). -/

namespace Sys2Proof.Machine

/-- The clocks of 100 µs: 4.0 GHz, or 3.6 GHz in isochronous mode (R4, R397). -/
def State.launchLead (s : State) : Nat := if s.dmode = 2 then 360000 else 400000

/-- The launch path refuses a gang (R397, R398). -/
def State.refuseGang (s : State) (g : Gang) : State := ({ s with gangs := s.gangs.filter fun h => h.id ≠ g.id } : State).endGangReq g 3

-- Quarantine (R385, R386, R409)

/-- Whether a row still has its spare: no quarantine has used it (R409; log 8). -/
def State.hasSpare (s : State) (row : Nat) : Bool := !(rowByte s.wear row).getLsbD 7 && Config.fuseSpare row

/-- A failing tile moves onto its row's spare, or its die is degraded and system event 3 raised with the gang that cannot resume there
(R386, R409, R415). -/
def State.quarantine (s : State) (who : Word) (f : TileId × Nat) : State :=
  let die := dieOf f.1
  let row := die * 16 + rowOf f.1
  if s.hasSpare row then s.wearQuarantine die (rowOf f.1) f.2 (BitVec.ofNat 5 (s.physCol f.1))
  else if s.degraded.getLsbD die then s
  else ({ s with degraded := s.degraded ||| (1#6 <<< die) } : State).sysEvent 3 (BitVec.ofNat 64 die) who

/-- The failing tiles on some dies are moved. -/
def State.moveOn (s : State) (who : Word) (dies : List Nat) : State :=
  let now := s.failing.filter fun f => dies.contains (dieOf f.1)
  now.foldl (fun s f => s.quarantine who f) { s with failing := s.failing.filter fun f => !dies.contains (dieOf f.1) }
/-- A gang comes to its tiles: the failing tiles of its dies are moved (R409). -/
def State.moveFailing (s : State) (g : Gang) : State := s.moveOn (BitVec.ofNat 64 g.id) (diesOf g.tiles)
/-- Whether they may be: the table of a die changes only while no gang occupies it (R385). -/
def State.canMove (s : State) (g : Gang) : Bool :=
  s.failing.all fun f => !(diesOf g.tiles).contains (dieOf f.1) || s.tiles.all fun p => decide (dieOf p.1 ≠ dieOf f.1) || p.2.gang.isNone

-- Placement (R396)

/-- A gang that holds its tiles here and may lack those of another package (R396). -/
def Gang.halfPlaced (g : Gang) : Bool := g.state = .reserved && decide (1 < g.npk)
/-- The gangs that hold a tile of another. -/
def State.holders (s : State) (g : Gang) : List Gang := s.gangs.filter fun h => h.id ≠ g.id && g.tiles.any fun t => (s.tileAt t).gang = some h.id
/-- A gang releases its tiles and places again from the start (R396). -/
def State.unplace (s : State) (g : Gang) : State := (s.unreserve g).putGang { g with state := .placing }

/-- A placement agent reserves every tile of a gang: all are free, or their holders are half-placed and younger, and release (R396). A
half-placed gang releases as well where an older one has met it in another package, and one that another package refuses, whose pages or record
fail there, is refused here (R54, R395). A gang that comes to be placed after DMODE has changed is
refused, for the part runs in one mode (R5, R418; DESIGN CHOICE, log 52). -/
def execPlacement (gid : Nat) (act : PlaceAct) (s : State) : Out :=
  match s.gangAt gid with
  | none => noEvent "PLACEMENT"
  | some g =>
    match act, g.state with
    | .reserve, .placing =>
      if g.mode.toNat % 4 ≠ s.dmode.toNat then .next (s.refuseGang g)
      else
      let hs := s.holders g
      let s' := hs.foldl State.unplace s
      if (hs.all fun h => h.halfPlaced && decide (g.age.toNat < h.age.toNat)) && s'.canMove g && g.tiles.all fun t => (s'.tileAt t).gang.isNone && !(s'.tileAt t).hidden then
        let s' := s'.moveFailing g
        if g.tiles.any fun t => s'.degraded.getLsbD (dieOf t) then .next (s'.refuseGang g)
        else .next ((g.tiles.foldl (fun s t => s.modTile t fun x => { x with gang := some gid }) s').putGang { g with state := .reserved })
      else noEvent "PLACEMENT"
    | .release older, .reserved =>
      if g.halfPlaced && decide (older.toNat < g.age.toNat) then .next (s.unplace g) else noEvent "PLACEMENT"
    | .refuse, .placing | .refuse, .reserved =>
      if 1 < g.npk then .next ((s.unreserve g).refuseGang g) else noEvent "PLACEMENT"
    | _, _ => noEvent "PLACEMENT"

/-- Whether every tile of a gang is reached by its data image and its text (R2, R388). -/
def State.gangOpen (s : State) (g : Gang) : Bool := g.tiles.all (s.launchOpen g ((s.dataRuns listFuel (g.data + 16)).getD []))

/-- The last package holds its reservation: the tick is confirmed, or it is too early and the launch is refused (R397, R398). While a bridge
keeps the image or the text from a tile it is not confirmed (R388; DESIGN CHOICE, log 52). -/
def execPlacementConfirm (gid : Nat) (s : State) : Out :=
  match s.gangAt gid with
  | none => noEvent "PLACEMENT_CONFIRM"
  | some g =>
    if g.state ≠ .reserved then noEvent "PLACEMENT_CONFIRM"
    else if g.tick.toNat < s.timebase.toNat + s.launchLead then
      .next ((s.unreserve g).refuseGang g)
    else if !s.gangOpen g then noEvent "PLACEMENT_CONFIRM"
    else .next ((s.putGang { g with state := .confirmed, req := none }).endGangReq g 1)

/-- At the tick every listed slot is reset and the image loaded (R22, R55, R397). A gang whose image is by then
none, or cut off from a tile, ends (DESIGN CHOICE, log 52). -/
def execLaunchTick (gid : Nat) (s : State) : Out :=
  match s.gangAt gid with
  | none => noEvent "LAUNCH_TICK"
  | some g =>
    if g.state ≠ .confirmed ∨ s.timebase ≠ g.tick then noEvent "LAUNCH_TICK"
    else match s.imageFmts g.data, s.dataRuns listFuel (g.data + 16) with
    | some fmts, some runs =>
      if !s.gangOpen g then .next (s.endGang g)
      else .next (g.tiles.foldl (fun s t => s.startTile g fmts runs t) (s.putGang { g with state := .running }))
    | _, _ => .next (s.endGang g)

/-- An asynchronous trap from outside becomes pending in a slot that holds a thread; a pair notes it (R355, R376). -/
def Tile.pend (x : Tile) (k : Slot) (i : InItem) (f : Pending → Pending) : Tile :=
  if (x.slots[k]).resident then (x.noteIn i).modThr k fun th => { th with pending := f th.pending } else x

/-- At tick T PREEMPT becomes pending for every user thread of the gang, with the deadline as its value (R360). -/
def execPreempt (gid : Nat) (s : State) : Out :=
  match s.gangAt gid with
  | none => noEvent "PREEMPT"
  | some g =>
    match g.state, g.stopT, g.stopD with
    | .running, some t, some d =>
      if t.toNat ≤ s.timebase.toNat then
        let s := s.eachSlot g.tiles fun s u k => s.modTile u fun x => x.pend k (.preempt k d) fun p => { p with preempt := some d }
        .next (s.putGang { g with stopT := none })
      else noEvent "PREEMPT"
    | _, _, _ => noEvent "PREEMPT"

/-- At tick D the firmware stops and saves the gang (R360). -/
def execDeadlineStop (gid : Nat) (s : State) : Out :=
  match s.gangAt gid with
  | none => noEvent "DEADLINE_STOP"
  | some g =>
    match g.state, g.stopT, g.stopD with
    | .running, none, some d =>
      if decide (d.toNat ≤ s.timebase.toNat) && s.stopReady (s.heldTiles g) then .next (s.stopGang g) else noEvent "DEADLINE_STOP"
    | _, _, _ => noEvent "DEADLINE_STOP"

-- Delivery to a stopped gang (R402)

/-- The image of a tile of a stopped gang: found by gang and logical tile (R402). -/
def State.savedTile (s : State) (gid : Nat) (t : TileId) : Option (Gang × Tile) :=
  match s.gangAt gid with
  | some g => if g.state = .stopped then (g.saved.find? fun p => p.1 = t).map fun p => (g, p.2) else none
  | none => none

/-- Change the image of a tile. -/
def State.modSaved (s : State) (g : Gang) (t : TileId) (f : Tile → Tile) : State :=
  match s.gangAt g.id with
  | some h => s.putGang { h with saved := h.saved.map fun p => if p.1 = t then (t, f p.2) else p }
  | none => s

/-- Whether an item of a saved tile may arrive, by the rules of a running tile (R205, R247, R375). -/
def Tile.savedFree (x : Tile) (self : BitVec 16) (i : Nat) (it : SentItem) : Bool :=
  x.pairing.isNone && it.refused.isNone &&
    (if it.isWake then (x.sent.take i).all fun o => !(o.isWake && o.pkg == it.pkg && o.dest = it.dest) else !x.entryBefore self it) &&
    (it.rel.isNone || ((x.slots[it.slot]).loadsBack it.seq && x.stores.all fun r => r.slot ≠ it.slot || decide (it.seq ≤ r.seq)))

/-- An entry joins a channel that nothing is delivered from yet. -/
def Tile.putEntry (x : Tile) (c : Fin 8) (e : ChEntry) : Tile :=
  { x with channels := x.channels.set c { x.channels[c] with entries := x.channels[c].entries ++ [e] } }

/-- Whether a tile has room for an item, and the tile with it. -/
def Tile.takesItem (x : Tile) (it : SentItem) : Bool := if it.isWake then x.queue.length < queueRoom else x.hasRoom it.chan
def Tile.saveItem (x : Tile) (t : TileId) (it : SentItem) : Tile :=
  if it.isWake then { x with queue := x.queue ++ [it.lo] } else x.putEntry it.chan (it.entry t)
def Tile.takeItem (x : Tile) (t : TileId) (it : SentItem) : Tile := if it.isWake then x.acceptWake it.lo else x.accept it.chan (it.entry t)

/-- The item leaves the image of its sender, and ST falls where it counts. -/
def Tile.dropItem (x : Tile) (i : Nat) (it : SentItem) : Tile :=
  let x : Tile := { x with sent := dropAt x.sent i }
  if it.counted then x.modThr it.slot Thread.dropSt else x
def Tile.refuseItem (x : Tile) (i : Nat) (it : SentItem) : Tile :=
  { x with sent := x.sent.set i { it with refused := some (x.cycle.toNat + Config.resendClocks) } }

/-- The memory-side agent accepts what is addressed to a stopped gang's tile into the saved image, under the capacity, refusal and
order rules of a running tile (R402). What a stopped gang had sent elsewhere is accepted there. -/
def execStoppedGangDelivery (src : AgentSrc) (s : State) : Out :=
  match src with
  | .sent gid t i =>
    (match s.savedTile gid t with
    | none => noEvent "STOPPED_GANG_DELIVERY"
    | some (g, x) =>
      match x.sent[i]? with
      | none => noEvent "STOPPED_GANG_DELIVERY"
      | some it =>
        if x.savedFree g.pkg i it = false ∨ s.pastAcked (it.rel.getD .tile) it.past = false ∨ s.itemOpen g t it = false then noEvent "STOPPED_GANG_DELIVERY"
        else
          let out := s.modSaved g t fun x => x.dropItem i it
          let back := s.modSaved g t fun x => x.refuseItem i it
          if it.pkg.isSome then .next out
          else match g.saved.find? fun p => p.1 = it.dest with
          | some (_, y) =>
            if y.hidden then .next out
            else if y.takesItem it then .next (out.modSaved g it.dest fun y => y.saveItem t it) else .next back
          | none =>
            let y := s.tileAt it.dest
            if y.hidden then .next out
            else if y.takesItem it then .next (out.modTile it.dest fun y => y.takeItem t it) else .next back)
  | .entry gid e =>
    match s.savedTile gid e.dest with
    | none => noEvent "STOPPED_GANG_DELIVERY"
    | some (g, y) =>
      if e.chan = 0 ∨ s.laceOk g y e = false then noEvent "STOPPED_GANG_DELIVERY"
      else if y.hidden then .next (s.modSaved g e.dest fun y => y.laceNext e)
      else if y.hasRoom e.chan = false then .next s
      else .next (s.modSaved g e.dest fun y => (y.laceNext e).putEntry e.chan ⟨e.lo, e.hi, e.md, e.ts, e.rel, []⟩)
  | .wake gid dest h =>
    match s.savedTile gid dest with
    | none => noEvent "STOPPED_GANG_DELIVERY"
    | some (g, y) =>
      if y.hidden ∨ queueRoom ≤ y.queue.length then .next s
      else .next (s.modSaved g dest fun y => { y with queue := y.queue ++ [h] })

end Sys2Proof.Machine
end

