-- ==== Sys2Proof/Machine/LinkEvents.lean ====
section
/-! DEFINITION. The events of bridges, Lace ports, lost homes and the in-field test (R387, R388, R399, R401, R404, R406,
R408-R410). -/

namespace Sys2Proof.Machine

-- Bridges (R387, R388)

def State.setBridge (s : State) (b : Fin 11) (x : Bridge) : State := { s with bridges := s.bridges.set b x }

/-- The failures of one flit after which a bridge retrains (R388). -/
def bridgeFails : Nat := 32

/-- A flit is sent again from the replay buffer: only the wear log sees it (R387). Where it is not the flit that failed last, that one has
got through, and the count starts anew (R388). -/
def execBridgeReplay (f : FlitReplay) (s : State) : Out :=
  let b := f.bridge
  let x : Bridge := s.bridges[b]
  if x.carries then
    .next ((s.setBridge b { x with fails := if f.again then min bridgeFails (x.fails + 1) else 1 }).wearAdd (replayOff b.val))
  else noEvent "BRIDGE_REPLAY"

/-- After 32 failures the bridge retrains; its traffic is held (R388). -/
def execBridgeRetrain (b : Fin 11) (s : State) : Out :=
  let x : Bridge := s.bridges[b]
  if x.carries && decide (bridgeFails ≤ x.fails) then .next (s.setBridge b { x with train := true }) else noEvent "BRIDGE_RETRAIN"

/-- Retraining ends: the bridge works again, or it is down, every gang of the package is stopped and system event 1 raised
(R388, R415). -/
def execRetrainingEnd (b : Fin 11) (ok : Bool) (s : State) : Out :=
  let x : Bridge := s.bridges[b]
  if !x.train then noEvent "RETRAINING_END"
  else if ok then .next (s.setBridge b ⟨true, false, 0⟩)
  else
    let gs := s.running fun _ => true
    match s.stopAll gs with
    | some s' => .next ((s'.setBridge b ⟨false, false, 0⟩).sysEvent 1 (BitVec.ofNat 64 b.val) (BitVec.ofNat 64 gs.length))
    | none => noEvent "RETRAINING_END"

-- Lace (R399, R401)

/-- A frame is sent again: only the wear log sees it (R399). -/
def execLaceRetransmit (p : Fin 24) (s : State) : Out :=
  if s.ports[p] then .next (s.wearAdd (laceOff p.val)) else noEvent "LACE_RETRANSMIT"

/-- The running gangs that span a Lace node. -/
def State.gangsOver (s : State) (n : Nat) : List Gang := (s.running fun _ => true).filter fun g => g.nodes.contains (BitVec.ofNat 16 n)
/-- A package is cut off, with the number of gangs that spanned it: system event 2 (R401, R415). -/
def State.cutOff (s : State) (x : (Nat × Option Nat) × Nat) : State :=
  ({ s with unreach := s.unreach ++ [x.1.1], unreachPkgs := s.unreachPkgs ++ x.1.2.toList } : State).sysEvent 2 (BitVec.ofNat 64 x.1.1)
    (BitVec.ofNat 64 x.2)

/-- A port fails. Its traffic takes another route; where no route reaches some packages any more, the gangs that span them are stopped
and system event 2 raised for each; what goes there waits (R401, R404, R415). -/
def execPortFailure (p : Fin 24) (lost : List (Nat × Option Nat)) (s : State) : Out :=
  if s.ports[p] = false then noEvent "PORT_FAILURE"
  else
    let s : State := { s with ports := s.ports.set p false }
    let gs := (s.running fun _ => true).filter fun g => lost.any fun x => g.nodes.contains (BitVec.ofNat 16 x.1)
    match s.stopAll gs with
    | some s' => .next ((lost.map fun x => (x, (s.gangsOver x.1).length)).foldl State.cutOff s')
    | none => noEvent "PORT_FAILURE"

-- Lost homes (R404, R406)

/-- A listed request whose home is lost is answered as a fatal one (R404). -/
def State.failLost (s : State) (w : Waiter) : State :=
  match (s.thrAt w.tile w.slot).req with
  | some r =>
    match s.reqReach w.tile r with
    | .fatal => (s.dropWaits w.tile w.slot).answerAt w.tile w.slot (fatalAnswer r.op)
    | _ => s
  | none => s

/-- System software declares a home lost: what is pending there completes as fatal, and its boards are dead (R404, R406). -/
def execHomeLost (h : LostHome) (s : State) : Out :=
  let s : State := match h with
    | .die d => { s with
        lostDies := if s.lostDies.contains d.val then s.lostDies else s.lostDies ++ [d.val]
        boards := s.boards.map fun b => if b.pkg = s.domPkg ∧ b.die = d then { b with dead := true } else b }
    | .package p => { s with
        lostPkgs := if s.lostPkgs.contains p then s.lostPkgs else s.lostPkgs ++ [p]
        boards := s.boards.map fun b => if b.pkg = p then { b with dead := true } else b }
  .next (s.waiters.foldl State.failLost s)

-- In-field test (R408-R410)

/-- The tiles of a logical cluster (R180). -/
def clusterTiles (die cluster : Nat) : List TileId :=
  (List.range 4).flatMap fun r => (List.range 4).map fun c => tileNo die (cluster / 4 * 4 + r) (cluster % 4 * 4 + c)

/-- A tile, or its image where a gang of it is stopped. -/
def State.imageOf (s : State) (t : TileId) : Tile := ((s.gangs.findSome? fun g => s.savedTile g.id t).map (·.2)).getD (s.tileAt t)
/-- `vtime` of a tile; that of the hidden tile of a pair is the pair's (R371, R372). -/
def State.vtimeOf (s : State) (t : TileId) : Word :=
  let x := s.imageOf t
  match x.pairing with
  | some p => if p.even then x.vtime else (s.imageOf p.partner).vtime
  | none => x.vtime

/-- The greatest of some words. -/
def greatestWord (ws : List Word) : Word := ws.foldl (fun m w => if m.toNat < w.toNat then w else m) 0

/-- SUSPECT becomes pending for every user thread of a gang, with its record in each tile (R410), and system event 4 is raised. -/
def State.suspect (s : State) (lpv detv : Word) (die cluster : Nat) (g : Gang) : State :=
  let n := g.suspects + 1
  let w2 := BitVec.ofNat 64 (n.toNat * 2 ^ 32 + g.pkg.toNat * 2 ^ 16 + cluster * 2 ^ 4 + die)
  let mark (x : Tile) : Tile :=
    userSlots.foldl (fun (x : Tile) k => x.pend k (.suspect k lpv) fun p => { p with suspect := some lpv }) { x with suspect := ⟨lpv, detv, w2⟩ }
  (s.putGang { g with suspects := n, saved := g.saved.map fun p => (p.1, mark p.2) }).sysEvent 4 (BitVec.ofNat 64 g.id) lpv

/-- Firmware tests a cluster that no running gang uses. A pass records LPV (R408). Tiles that fail are to be moved when a gang next comes to
them, and the stopped gangs that use the cluster take SUSPECT (R409, R410); where there is none, they are moved once no gang occupies the
die (log 53). -/
def execInFieldTest (die cluster : Nat) (fails : List TileId) (s : State) : Out :=
  let ts := clusterTiles die cluster
  let free := ts.all fun t => (s.tileAt t).gang.isNone
  let steps := ts.map s.vtimeOf
  if die ≥ Config.dies ∨ cluster ≥ 16 ∨ free = false ∨ fails.any (fun t => !ts.contains t) then noEvent "IN_FIELD_TEST"
  else if fails.isEmpty then
    .next (s.setDie die fun d => { d with lpv := d.lpv.set (Fin.ofNat 16 cluster) (leastWord (steps.headD 0) steps) })
  else
    let lpv := (s.dieAt die).lpv[(Fin.ofNat 16 cluster : Fin 16)]
    let gs := s.gangs.filter fun g => g.state = .stopped && g.tiles.any fun t => ts.contains t
    let s : State := { s with failing := s.failing ++ (fails.eraseDups.map fun t => (t, cluster)).filter fun f => !s.failing.contains f }
    let s := if gs.isEmpty && s.tiles.all (fun p => decide (dieOf p.1 ≠ die) || p.2.gang.isNone) then s.moveOn allOnes64 [die] else s
    .next (gs.foldl (fun s g => s.suspect lpv (greatestWord steps) die cluster g) s)

end Sys2Proof.Machine
end

