-- ==== Sys2Proof/Machine/HostEvents.lean ====
section
/-! DEFINITION. The host: window requests (R411, R412), BAR2 (R413), CXL.mem (R416) and the management registers DMODE and PLIM (R418,
R423). -/

namespace Sys2Proof.Machine

-- Replies (R413, R426)

/-- The access completes as an Unsupported Request: nothing but the reply (R413, R426). -/
def unsupported (s : State) : Out := .next { s with hostRead := .unsupported }

-- Doorbells (R411)

/-- Put a window. -/
def State.setWin (s : State) (w : Fin 24) (x : Window) : State := { s with windows := s.windows.set w x }

/-- A doorbell submits a slot, or is refused with STATUS 2: the slot is still pending, or its KIND is none of R411's. -/
def execDoorbell (w : Fin 24) (v : Word) (s : State) : Out :=
  if !s.serves then unsupported s
  else
    let k : Fin 8 := Fin.ofNat 8 (v.toNat % 8)
    let kind := (s.slotWord w k 0).toNat % 256
    let win : Window := s.windows[w]
    if win.queue.contains k ∨ kind = 0 ∨ 8 < kind then .next (s.setStatus w k 2)
    else .next ((s.setStatus w k 0).setWin w { win with queue := win.queue ++ [k] })

/-- The host clears completion bits (R411). -/
def execDoneClear (w : Fin 24) (m : Byte) (s : State) : Out :=
  if !s.serves then unsupported s
  else
    let win : Window := s.windows[w]
    .next { s with windows := s.windows.set w { win with done := win.done &&& ~~~m } }

-- Requests, one at a time in doorbell order (R412)

/-- The request at the head of a window's queue, when it is of a kind and not already under way. -/
def State.headRequest (s : State) (w : Fin 24) (kind : Nat) : Option (Fin 8) :=
  let win : Window := s.windows[w]
  match win.queue with
  | [] => none
  | k :: _ =>
    if s.serves && s.ioOpen (w.val / 4) && decide ((s.slotWord w k 0).toNat % 256 = kind) && !(s.gangs.any fun g => g.req = some (w, k)) then some k else none

/-- A request of a kind is performed: the continuation gives the state and its STATUS, or none where it cannot be performed yet. -/
def request (m : String) (w : Fin 24) (kind : Nat) (s : State) (f : Fin 8 → Option (State × Nat)) : Out :=
  match s.headRequest w kind with
  | none => noEvent m
  | some k => match f k with
    | some (s', status) => .next (s'.endRequest w k status)
    | none => noEvent m

/-- Whether the service core of a window, on compute die w / 4, goes on to a die: the bulk mesh reaches it, or system software has declared it
lost (R2, R388, R404). -/
def State.coreOpen (s : State) (w : Fin 24) (die : Nat) : Bool := s.lostDies.contains die || s.meshOpen (w.val / 4) die
/-- Whether it goes on to every die that holds some of n bytes of HBM. -/
def State.coreHbm (s : State) (w : Fin 24) (pa n : Nat) : Bool :=
  (List.range Config.dies).all fun d => decide (pa + n ≤ d * 2 ^ 37) || decide ((d + 1) * 2 ^ 37 ≤ pa) || s.coreOpen w d
/-- Whether it goes on to the register of a device-space address, and that, where it is one of the station control, every station (R235). -/
def State.coreReg (s : State) (w : Fin 24) (a : Word) : Bool :=
  s.coreOpen w (a.toNat / 2 ^ 40 % 8) && match devOf a with
    | some (.pdbase, _) | some (.inval, _) | some (.resume, _) => (List.range Config.dies).all (s.coreOpen w)
    | _ => true

/-- Whether a service core reaches the launch record at an address and what it names: the lists are read on from where they begin (R395). -/
def State.coreRecord (s : State) (w : Fin 24) (pa : Nat) : Bool :=
  let at8 (i : Nat) : Nat := s.hbmNat (pa + 8 * i) 8
  s.coreHbm w pa 128 && s.coreHbm w (at8 9) 8 && s.coreHbm w (at8 10) 24 && s.coreHbm w (at8 11) (8 * (at8 0 / 2 ^ 32 % 2 ^ 16 + 1))

/-- LAUNCH: the record is read and checked; before PDBASE is written the launch is refused, for bring-up is not complete (R428). A gang that is accepted waits for its placement, and the request with it (R395, R398). -/
def execLaunch (w : Fin 24) (s : State) : Out :=
  match s.headRequest w 1 with
  | none => noEvent "LAUNCH"
  | some k => if !s.coreRecord w (s.slotWord w k 1).toNat then noEvent "LAUNCH" else match s.root.xlatSet, s.readLaunch (s.slotWord w k 1).toNat (w, k) with
    | true, some g => .next { s with gangs := s.gangs ++ [g] }
    | _, _ => .next (s.endRequest w k 3)

/-- Where the bytes of a COPY lie: host memory for an address with bit 63 set, else HBM; none where they do not exist (R411). -/
def State.hostPlace (s : State) (a : Word) (n : Nat) : Option Nat :=
  if a.getLsbD 63 then some (hostLoc (a.toNat % 2 ^ 63))
  else if paOk a.toNat n && !s.lostDies.contains (a.toNat / 2 ^ 37) then some (hbmLoc s.domPkg a.toNat) else none

/-- Bytes from a place, in order. -/
def cellsFrom (l : Nat) (bs : List Byte) : List Host.Cell := ((List.range bs.length).zip bs).map fun p => (l + p.1, p.2)

/-- Whether a service core goes on to the bytes of a COPY: to host memory over an I/O die, as its requests come (R2, R411). -/
def State.coreBytes (s : State) (w : Fin 24) (a : Word) (n : Nat) : Bool := a.getLsbD 63 || s.coreHbm w a.toNat n

/-- COPY: its writes have been performed at their homes when it ends (R411, R412). -/
def execCopy (w : Fin 24) (s : State) : Out :=
  request "COPY" w 2 s fun k =>
    let n := (s.slotWord w k 3).toNat
    if !(s.coreBytes w (s.slotWord w k 1) n && s.coreBytes w (s.slotWord w k 2) n) then none
    else match s.hostPlace (s.slotWord w k 1) n, s.hostPlace (s.slotWord w k 2) n with
    | some src, some dst => some (s.perform (cellsFrom dst (s.mem.readBytes src n)), 1)
    | _, _ => some (s, 2)

/-- READ: an aligned word of HBM or of device space (R411). -/
def execRead (w : Fin 24) (s : State) : Out :=
  request "READ" w 3 s fun k =>
    let a := s.slotWord w k 1
    let v : Option (List Byte) :=
      if a.toNat % 8 ≠ 0 then none
      else if regionOf a = 3 then s.devBytes a 8
      else if paOk a.toNat 8 && !s.lostDies.contains (a.toNat / 2 ^ 37) then some (s.mem.readBytes (hbmLoc s.domPkg a.toNat) 8) else none
    let open8 := if regionOf a = 3 then s.coreReg w a else s.coreHbm w a.toNat 8
    if !open8 then none
    else match v with
    | some bs => some ({ s with winMem := s.winMem.writeBytes (slotAddr w k 2) bs }, 1)
    | none => some (s, 2)

/-- WRITE: a thread-domain write at the home (R411, R413), or a write of a device register; INVAL ends as a store to it does (R235). -/
def State.hostWrite (s : State) (w : Fin 24) : Out :=
  request "WRITE" w 4 s fun k =>
    let a := s.slotWord w k 1
    let v := s.slotWord w k 2
    let open8 := if regionOf a = 3 then s.coreReg w a else s.coreHbm w a.toNat 8
    if a.toNat % 8 ≠ 0 then some (s, 2)
    else if !open8 then none
    else if regionOf a = 3 then
      match s.devStore a (leBytes v.toNat 8) with
      | some (.inval, v) => if s.invalHeld v then none else some (s.shoot v, 1)
      | some (.resume, v) => if s.resumeCut v then none else (s.devWrite .resume v).map fun s' => (s', 1)
      | some (r, v) => (match s.devWrite r v with
        | some s' => some (s', 1)
        | none => some (s, 2))
      | none => some (s, 2)
    else if paOk a.toNat 8 && !s.lostDies.contains (a.toNat / 2 ^ 37) then
      some (s.perform (cellsFrom (hbmLoc s.domPkg a.toNat) (leBytes v.toNat 8)), 1)
    else some (s, 2)

/-- The value of the INVAL that a WRITE at the head of a window makes, where the core reaches every station. -/
def State.hostInval (s : State) (w : Fin 24) : Option Word :=
  (s.headRequest w 4).bind fun k =>
    let a := s.slotWord w k 1
    if a.toNat % 8 = 0 ∧ regionOf a = 3 ∧ s.coreReg w a = true then
      match s.devStore a (leBytes (s.slotWord w k 2).toNat 8) with
      | some (.inval, v) => some v
      | _ => none
    else none
/-- An INVAL drops the translations at once, and the WRITE ends once what was translated with them is performed (R235). -/
def execWrite (w : Fin 24) (s : State) : Out :=
  match s.hostInval w with
  | some v => if s.invalHeld v && decide (s.shoot v ≠ s) then .next (s.shoot v) else s.hostWrite w
  | none => s.hostWrite w

/-- FENCE: every earlier request of the window has ended when it is at the head (R412). -/
def execHostFence (w : Fin 24) (s : State) : Out := request "HOST_FENCE" w 5 s fun _ => some (s, 1)

/-- STOP: the ticks T and D of a running gang's pre-emption (R360). -/
def execStop (w : Fin 24) (s : State) : Out :=
  request "STOP" w 6 s fun k =>
    let t := s.slotWord w k 2
    let d := s.slotWord w k 3
    match s.gangAt (s.slotWord w k 1).toNat with
    | some g =>
      if g.state = .running ∧ t.toNat < d.toNat then some (s.putGang { g with stopT := some t, stopD := some d }, 1) else some (s, 2)
    | none => some (s, 2)

/-- RESUME: a stopped gang is restored to its tiles once they are free (R361), the failing tiles of its dies having been moved (R409); not
on a degraded die (R409), nor in another mode than its own (R418). -/
def execResumeGang (w : Fin 24) (s : State) : Out :=
  request "RESUME_GANG" w 7 s fun k =>
    match s.gangAt (s.slotWord w k 1).toNat with
    | some g =>
      if g.state ≠ .stopped ∨ g.tiles.any (fun t => s.degraded.getLsbD (dieOf t)) ∨ g.mode.toNat % 4 ≠ s.dmode.toNat then some (s, 2)
      else if s.canMove g && g.saved.all fun p => (s.tileAt p.1).gang.isNone && !(s.tileAt p.1).hidden then
        let s := s.moveFailing g
        if g.tiles.any fun t => s.degraded.getLsbD (dieOf t) then some (s, 2) else some (s.restoreGang g, 1)
      else none
    | none => some (s, 2)

/-- END: the gang is stopped without saving and ends (R398). -/
def execGangEnd (w : Fin 24) (s : State) : Out :=
  request "END" w 8 s fun k =>
    match s.gangAt (s.slotWord w k 1).toNat with
    | some g => if g.state = .running && !s.stopReady (s.heldTiles g) then none else some (s.endGang g, 1)
    | none => some (s, 2)

-- BAR2 and CXL.mem (R413, R416)

/-- The place of bytes of the aperture; none for dies 6 and 7 (R413). -/
def State.aperture (s : State) (pa : BitVec 40) (n : Nat) : Option Nat :=
  if s.serves && paOk pa.toNat n then some (hbmLoc s.domPkg pa.toNat) else none

/-- Whether every die of n bytes of HBM is reached from an I/O die; an access waits while one is not (R2, R388). -/
def State.hbmOpen (s : State) (pa : BitVec 40) (n : Nat) : Bool :=
  (List.range Config.dies).all fun d => decide (pa.toNat + n ≤ d * 2 ^ 37) || decide ((d + 1) * 2 ^ 37 ≤ pa.toNat) || s.ioOpen d

def execBar2Write (pa : BitVec 40) (bytes : List Byte) (s : State) : Out :=
  match s.aperture pa bytes.length with
  | some l => if s.hbmOpen pa bytes.length then .next (s.perform (cellsFrom l bytes)) else noEvent "BAR2_WRITE"
  | none => unsupported s
def execBar2Read (pa : BitVec 40) (n : Nat) (s : State) : Out :=
  match s.aperture pa n with
  | some l => if s.hbmOpen pa n then .next { s with hostRead := .data (s.mem.readBytes l n) } else noEvent "BAR2_READ"
  | none => unsupported s

/-- CXL.mem exposes the package's HBM to the host (R416); in recovery it does not answer (R426). -/
def execCxlMemAccess (op : CxlOp) (s : State) : Out :=
  if !s.serves then unsupported s
  else match op with
  | .read pa n =>
    if !paOk pa.toNat n then .fault .beyondMemory
    else if s.hbmOpen pa n then .next { s with hostRead := .data (s.mem.readBytes (hbmLoc s.domPkg pa.toNat) n) } else noEvent "CXL_MEM_ACCESS"
  | .write pa bytes =>
    if !paOk pa.toNat bytes.length then .fault .beyondMemory
    else if s.hbmOpen pa bytes.length then .next (s.perform (cellsFrom (hbmLoc s.domPkg pa.toNat) bytes)) else noEvent "CXL_MEM_ACCESS"

-- Management registers (R418, R421, R423)

/-- A write of DMODE: ERR is cleared by a one; the mode changes only while no gang occupies a tile, else ERR is set; a write of 3 is
ignored. -/
def execDmodeWrite (v : Word) (s : State) : Out :=
  let s : State := if v.getLsbD 8 then { s with dmodeErr := false } else s
  if !s.vacant then .next { s with dmodeErr := true }
  else if v.toNat % 4 = 3 then .next s
  else .next { s with dmode := v.setWidth 2 }

/-- A write of PLIM; one out of range is ignored, and the grants follow at the next period (R421, R423). -/
def execPlimWrite (v : Word) (s : State) : Out :=
  let n := v.toNat % 4096
  if 1100 ≤ n ∧ n ≤ 3600 then .next { s with plim := v.setWidth 12 } else .next s

end Sys2Proof.Machine
end

