-- ==== Sys2Proof/Machine/PowerEvents.lean ====
section
/-! DEFINITION. Power, temperature, the wear log and security (R420-R422, R424-R428). -/

namespace Sys2Proof.Machine

-- The power arbiter (R421, R422)

/-- The floor of a die's grant in watts (R421). -/
def floorWatts : Nat := 120

/-- The matrix work of a die: the operations in the orders of its tiles' sequencers. Their number is the measure (DESIGN CHOICE, log 57: R421
names none). -/
def State.matrixWork (s : State) (d : Nat) : Nat := ((s.tiles.filter fun p => dieOf p.1 = d).map fun p => p.2.mxq.length).sum

/-- The grants of a period: each die has its floor, and what PLIM leaves above the floors and 200 W goes to the dies in proportion to their
queued matrix work, but for one that is too hot (R421, R422). -/
def State.grants (s : State) : List Nat :=
  let work := (List.range Config.dies).map fun d => if (s.dieAt d).throttled then 0 else s.matrixWork d
  let rest := s.plim.toNat - 200 - Config.dies * floorWatts
  work.map fun w => floorWatts + rest * w / max 1 work.sum

def execArbiterPeriod (gs : List Nat) (s : State) : Out :=
  if gs = s.grants then
    .next ((List.range Config.dies).foldl (fun s d => s.setDie d fun x => { x with grant := BitVec.ofNat 12 (gs.getD d 0) }) s)
  else noEvent "ARBITER_PERIOD"

/-- A die reaches 105 °C and is granted its floor, until it falls below 100 °C (R422). -/
def execThermalThrottle (d : Nat) (hot : Bool) (s : State) : Out :=
  if d < Config.dies ∧ (s.dieAt d).throttled ≠ hot then
    .next (s.setDie d fun x => { x with throttled := hot, grant := if hot then BitVec.ofNat 12 floorWatts else x.grant })
  else noEvent "THERMAL_THROTTLE"

/-- A die of an isochronous gang reaches 110 °C: its gangs are stopped and system event 5 is raised (R422). -/
def execThermalStop (d : Nat) (s : State) : Out :=
  let gs := s.running fun t => dieOf t = d
  if s.dmode ≠ 2 ∨ gs.isEmpty then noEvent "THERMAL_STOP"
  else match s.stopAll gs with
  | some s' => .next (s'.sysEvent 5 (BitVec.ofNat 64 d) (BitVec.ofNat 64 gs.length))
  | none => noEvent "THERMAL_STOP"

/-- A supply droop stretches a die's clock; only the wear log sees it (R420, R424). -/
def execSupplyDroop (d : Nat) (s : State) : Out := if d < 8 then .next (s.wearAdd (droopOff d)) else noEvent "SUPPLY_DROOP"

-- The wear log (R425)

/-- Whether an offset of the log is that of a counter which the part's sensors keep: temperature residency, corrected HBM errors, and the
corrected errors of a tile (R424). -/
def sensorOff (off : Nat) : Bool :=
  (decide (0x0500 ≤ off) && decide (off < 0x0900) && off % 8 = 0) || (decide (0x0A80 ≤ off) && decide (off < 0x0AE0) && off % 8 = 0) ||
    (decide (0x0B00 ≤ off) && decide (off < 0x2480) && off % 4 = 0)
/-- What the sensors have counted since the last flush, a free value (log 58). -/
def State.sensed (s : State) : List (Nat × Nat) := (Config.sensorCounts s.free).filter fun c => sensorOff c.1
/-- A flush, with what the sensors have counted since the last one. -/
def execWearLogFlush (s : State) : Out :=
  if s.root.booted then .next ({ s with wearNew := s.wearNew ++ s.sensed, free := s.free + 1 } : State).flushWear
  else noEvent "WEAR_LOG_FLUSH"

-- Bring-up (R426, R428)

/-- The image's signature verifies and its security version is not below the fused minimum (R426). -/
def imageOk (image : List Byte) : Bool := Config.verifies image && decide (Config.fusedVersion ≤ Config.imageVersion image)

/-- The remap table as bytes, one for each physical row (R385, log 10). -/
def State.remapBytes (s : State) : List Byte := (List.range 96).map fun r => (s.skipOf r).setWidth 8

/-- The remap table is loaded from the fuses and the wear log; a log whose digest fails is cleared, and system event 6 raised (R385,
R425). -/
def State.loadRemap (s : State) : State :=
  let s := if wearGood s.wear then s else ({ s with wear := [], wearNext := 0 } : State).sysEvent 6 0 0
  { s with skips := (List.range 96).map fun r => (r, loadedSkip s.wear r) }

/-- A place in the HBM of the package. -/
def State.ownHbm (s : State) (l : Nat) : Bool := decide (hbmLoc s.domPkg 0 ≤ l) && decide (l < hbmLoc (s.domPkg + 1) 0)

/-- The steps of bring-up with an image that is accepted or not; the tiles that fail their first test are moved onto spares (R409, R426,
R428). The last step, PDBASE, is the host's. -/
def State.bringUp (s : State) (b : BootRun) : State :=
  if imageOk b.image then
    let s := s.loadRemap
    let root : Root := { s.root with
      booted := true, recovery := false, version := Config.imageVersion b.image
      measures := digest (Config.rootPart b.image) ++ digest (Config.mudexPart b.image) ++ s.wear.readBytes 0x20 32 ++ digest s.remapBytes }
    let s := (b.fails.filter fun t => decide (dieOf t < Config.dies)).eraseDups.foldl (fun s t =>
      s.quarantine allOnes64 (t, rowOf t / 4 * 4 + colOf t / 4)) s
    { s with
      root := root, mem := s.mem.filter fun c => !s.ownHbm c.1, dmode := 0, dmodeErr := false, plim := 3000
      dies := s.dies.map fun d => { d with lpv := Vector.replicate 16 0, grant := 120 } }
  else { s with root := { s.root with booted := false, recovery := true } }

/-- Power-on, from the state after reset (R428). -/
def execPowerOn (b : BootRun) (s : State) : Out :=
  if s.root.booted || s.root.recovery then noEvent "POWER_ON" else .next (s.bringUp b)

/-- In recovery an image is supplied through the reload path and verified again (R426). -/
def execReload (b : BootRun) (s : State) : Out :=
  if s.root.recovery then .next (s.bringUp b) else noEvent "RELOAD"

/-- Supply is lost: everything is as after reset but the non-volatile log, without the counts not flushed (R425), host memory, and
the other packages. -/
def execPowerLoss (s : State) : Out :=
  .next { State.reset with
    wear := s.wear, wearNext := s.wearNext
    mem := s.mem.filter fun c => !s.ownHbm c.1 && (locTile c.1).isNone
    boards := s.boards.filter fun b => b.pkg ≠ s.domPkg
    node := s.node, domPkg := s.domPkg, domPkgs := s.domPkgs, lostPkgs := s.lostPkgs }

-- Attestation (R427)

/-- The bytes that the report signs (R427). -/
def State.attestBody (s : State) : List Byte :=
  leBytes 1 4 ++ leBytes s.dmode.toNat 4 ++ leBytes s.root.version 8 ++ (List.range 32).map (fun i => s.root.nonce.getD i 0) ++
    digest Config.partIdentity ++ (List.range 128).map fun i => s.root.measures.getD i 0

/-- The host writes 1 to 0x1020; a second request while one is pending is ignored (R427). -/
def execAttestRequest (s : State) : Out :=
  if s.root.asked then .next s else .next { s with root := { s.root with asked := true, ready := false } }

/-- The signed report is ready (R427). -/
def execAttestReport (s : State) : Out :=
  if s.root.asked then
    let body := s.attestBody
    .next { s with root := { s.root with asked := false, ready := true, report := body ++ (List.range 3309).map (Config.sign body) } }
  else noEvent "ATTEST_REPORT"

end Sys2Proof.Machine
end

