-- ==== Sys2Proof/Machine/Dispatch.lean ====
section
/-! DEFINITION. What each instruction and event does: one arm for each constructor of `Instr`. -/

namespace Sys2Proof.Machine

/-- One instruction of the thread that executes, or one event. -/
def exec (i : Instr) (s : State) : Host.Outcome State Fault Refusal :=
  match i with
  | .add d a b => Sys2Proof.Machine.execAdd d a b s
  | .sub d a b => Sys2Proof.Machine.execSub d a b s
  | .and d a b => Sys2Proof.Machine.execAnd d a b s
  | .or d a b => Sys2Proof.Machine.execOr d a b s
  | .xor d a b => Sys2Proof.Machine.execXor d a b s
  | .sll d a b => Sys2Proof.Machine.execSll d a b s
  | .srl d a b => Sys2Proof.Machine.execSrl d a b s
  | .sra d a b => Sys2Proof.Machine.execSra d a b s
  | .slt d a b => Sys2Proof.Machine.execSlt d a b s
  | .sltn d a b => Sys2Proof.Machine.execSltn d a b s
  | .min d a b => Sys2Proof.Machine.execMin d a b s
  | .max d a b => Sys2Proof.Machine.execMax d a b s
  | .minn d a b => Sys2Proof.Machine.execMinn d a b s
  | .maxn d a b => Sys2Proof.Machine.execMaxn d a b s
  | .mul d a b => Sys2Proof.Machine.execMul d a b s
  | .mulh d a b => Sys2Proof.Machine.execMulh d a b s
  | .mulhn d a b => Sys2Proof.Machine.execMulhn d a b s
  | .div d a b => Sys2Proof.Machine.execDiv d a b s
  | .divn d a b => Sys2Proof.Machine.execDivn d a b s
  | .rem d a b => Sys2Proof.Machine.execRem d a b s
  | .remn d a b => Sys2Proof.Machine.execRemn d a b s
  | .rot d a b => Sys2Proof.Machine.execRot d a b s
  | .clz d a => Sys2Proof.Machine.execClz d a s
  | .ctz d a => Sys2Proof.Machine.execCtz d a s
  | .popc d a => Sys2Proof.Machine.execPopc d a s
  | .sel d a b c => Sys2Proof.Machine.execSel d a b c s
  | .addi d a imm => Sys2Proof.Machine.execAddi d a imm s
  | .andi d a imm => Sys2Proof.Machine.execAndi d a imm s
  | .ori d a imm => Sys2Proof.Machine.execOri d a imm s
  | .xori d a imm => Sys2Proof.Machine.execXori d a imm s
  | .slti d a imm => Sys2Proof.Machine.execSlti d a imm s
  | .sltni d a imm => Sys2Proof.Machine.execSltni d a imm s
  | .slli d a h => Sys2Proof.Machine.execSlli d a h s
  | .srli d a h => Sys2Proof.Machine.execSrli d a h s
  | .srai d a h => Sys2Proof.Machine.execSrai d a h s
  | .lui d imm => Sys2Proof.Machine.execLui d imm s
  | .adpc d imm => Sys2Proof.Machine.execAdpc d imm s
  | .ext d a p l => Sys2Proof.Machine.execExt d a p l s
  | .extn d a p l => Sys2Proof.Machine.execExtn d a p l s
  | .ins d a p l => Sys2Proof.Machine.execIns d a p l s
  | .sk c n a b => Sys2Proof.Machine.execSk c n a b s
  | .ski c n a imm => Sys2Proof.Machine.execSki c n a imm s
  | .fsk c n a b => Sys2Proof.Machine.execFsk c n a b s
  | .fskd c n a b => Sys2Proof.Machine.execFskd c n a b s
  | .ld t d a imm => Sys2Proof.Machine.execLd t d a imm s
  | .st z b a imm => Sys2Proof.Machine.execSt z b a imm s
  | .ldAcq z sc d a => Sys2Proof.Machine.execLdAcq z sc d a s
  | .ldfe64 d a => Sys2Proof.Machine.execLdfe64 d a s
  | .ldff64 d a => Sys2Proof.Machine.execLdff64 d a s
  | .ldfe32 d a => Sys2Proof.Machine.execLdfe32 d a s
  | .ldff32 d a => Sys2Proof.Machine.execLdff32 d a s
  | .stRel z sc b a => Sys2Proof.Machine.execStRel z sc b a s
  | .stef z b a => Sys2Proof.Machine.execStef z b a s
  | .stff z b a => Sys2Proof.Machine.execStff z b a s
  | .ste a => Sys2Proof.Machine.execSte a s
  | .arsv z d a => Sys2Proof.Machine.execArsv z d a s
  | .arel z b a => Sys2Proof.Machine.execArel z b a s
  | .aadd z d a b => Sys2Proof.Machine.execAadd z d a b s
  | .amin z d a b => Sys2Proof.Machine.execAmin z d a b s
  | .amax z d a b => Sys2Proof.Machine.execAmax z d a b s
  | .aminn z d a b => Sys2Proof.Machine.execAminn z d a b s
  | .amaxn z d a b => Sys2Proof.Machine.execAmaxn z d a b s
  | .aand z d a b => Sys2Proof.Machine.execAand z d a b s
  | .aor z d a b => Sys2Proof.Machine.execAor z d a b s
  | .axor z d a b => Sys2Proof.Machine.execAxor z d a b s
  | .axchg z d a b => Sys2Proof.Machine.execAxchg z d a b s
  | .acas z d a b c => Sys2Proof.Machine.execAcas z d a b c s
  | .aaddf z d a b => Sys2Proof.Machine.execAaddf z d a b s
  | .fence sc => Sys2Proof.Machine.execFence sc s
  | .fenceLd sc => Sys2Proof.Machine.execFenceLd sc s
  | .fenceSt sc => Sys2Proof.Machine.execFenceSt sc s
  | .xfence sc => Sys2Proof.Machine.execXfence sc s
  | .fenceI => Sys2Proof.Machine.execFenceI s
  | .wait tl cp st ld => Sys2Proof.Machine.execWait tl cp st ld s
  | .br c a b imm => Sys2Proof.Machine.execBr c a b imm s
  | .jl d imm => Sys2Proof.Machine.execJl d imm s
  | .jlr d a imm => Sys2Proof.Machine.execJlr d a imm s
  | .csrr d n => Sys2Proof.Machine.execCsrr d n s
  | .csrw d n a => Sys2Proof.Machine.execCsrw d n a s
  | .csrs d n a => Sys2Proof.Machine.execCsrs d n a s
  | .csrc d n a => Sys2Proof.Machine.execCsrc d n a s
  | .sys n => Sys2Proof.Machine.execSys n s
  | .eret => Sys2Proof.Machine.execEret s
  | .brk n => Sys2Proof.Machine.execBrk n s
  | .tkill a => Sys2Proof.Machine.execTkill a s
  | .pair d a => Sys2Proof.Machine.execPair d a s
  | .unpair => Sys2Proof.Machine.execUnpair s
  | .fprt => Sys2Proof.Machine.execFprt s
  | .mxfrz => Sys2Proof.Machine.execMxfrz s
  | .mxthaw => Sys2Proof.Machine.execMxthaw s
  | .scrub a => Sys2Proof.Machine.execScrub a s
  | .fadd p r d a b => Sys2Proof.Machine.execFadd p r d a b s
  | .fsub p r d a b => Sys2Proof.Machine.execFsub p r d a b s
  | .fmul p r d a b => Sys2Proof.Machine.execFmul p r d a b s
  | .fdiv p r d a b => Sys2Proof.Machine.execFdiv p r d a b s
  | .fsqrt p r d a => Sys2Proof.Machine.execFsqrt p r d a s
  | .fmin p d a b => Sys2Proof.Machine.execFmin p d a b s
  | .fmax p d a b => Sys2Proof.Machine.execFmax p d a b s
  | .fsgnj p d a b => Sys2Proof.Machine.execFsgnj p d a b s
  | .fsgnjn p d a b => Sys2Proof.Machine.execFsgnjn p d a b s
  | .fsgnjx p d a b => Sys2Proof.Machine.execFsgnjx p d a b s
  | .fma p d a b c => Sys2Proof.Machine.execFma p d a b c s
  | .fms p d a b c => Sys2Proof.Machine.execFms p d a b c s
  | .fnma p d a b c => Sys2Proof.Machine.execFnma p d a b c s
  | .fclass p d a => Sys2Proof.Machine.execFclass p d a s
  | .feq p d a b => Sys2Proof.Machine.execFeq p d a b s
  | .flt p d a b => Sys2Proof.Machine.execFlt p d a b s
  | .fle p d a b => Sys2Proof.Machine.execFle p d a b s
  | .fcvt w r c b d a => Sys2Proof.Machine.execFcvt w r c b d a s
  | .vaddF t g d a b => Sys2Proof.Machine.execVaddF t g d a b s
  | .vsubF t g d a b => Sys2Proof.Machine.execVsubF t g d a b s
  | .vmulF t g d a b => Sys2Proof.Machine.execVmulF t g d a b s
  | .vfma t g d a b => Sys2Proof.Machine.execVfma t g d a b s
  | .vfms t g d a b => Sys2Proof.Machine.execVfms t g d a b s
  | .vminF t g d a b => Sys2Proof.Machine.execVminF t g d a b s
  | .vmaxF t g d a b => Sys2Proof.Machine.execVmaxF t g d a b s
  | .vabsF t g d a => Sys2Proof.Machine.execVabsF t g d a s
  | .vneg t g d a => Sys2Proof.Machine.execVneg t g d a s
  | .vrcp t g d a => Sys2Proof.Machine.execVrcp t g d a s
  | .vrsq t g d a => Sys2Proof.Machine.execVrsq t g d a s
  | .vexp2 t g d a => Sys2Proof.Machine.execVexp2 t g d a s
  | .vlog2 t g d a => Sys2Proof.Machine.execVlog2 t g d a s
  | .vaddI t g d a b => Sys2Proof.Machine.execVaddI t g d a b s
  | .vsubI t g d a b => Sys2Proof.Machine.execVsubI t g d a b s
  | .vmulI t g d a b => Sys2Proof.Machine.execVmulI t g d a b s
  | .vmulh t g d a b => Sys2Proof.Machine.execVmulh t g d a b s
  | .vminI t g d a b => Sys2Proof.Machine.execVminI t g d a b s
  | .vmaxI t g d a b => Sys2Proof.Machine.execVmaxI t g d a b s
  | .vminn t g d a b => Sys2Proof.Machine.execVminn t g d a b s
  | .vmaxn t g d a b => Sys2Proof.Machine.execVmaxn t g d a b s
  | .vand t g d a b => Sys2Proof.Machine.execVand t g d a b s
  | .vor t g d a b => Sys2Proof.Machine.execVor t g d a b s
  | .vxor t g d a b => Sys2Proof.Machine.execVxor t g d a b s
  | .vsll t g d a b => Sys2Proof.Machine.execVsll t g d a b s
  | .vsrl t g d a b => Sys2Proof.Machine.execVsrl t g d a b s
  | .vsra t g d a b => Sys2Proof.Machine.execVsra t g d a b s
  | .vabsI t g d a => Sys2Proof.Machine.execVabsI t g d a s
  | .vadds t g d a b => Sys2Proof.Machine.execVadds t g d a b s
  | .vcmp f t g d a b => Sys2Proof.Machine.execVcmp f t g d a b s
  | .vmov t g d a => Sys2Proof.Machine.execVmov t g d a s
  | .vsel t g d a b => Sys2Proof.Machine.execVsel t g d a b s
  | .vbcast t g d a => Sys2Proof.Machine.execVbcast t g d a s
  | .vextr t d a b => Sys2Proof.Machine.execVextr t d a b s
  | .vins t d a b => Sys2Proof.Machine.execVins t d a b s
  | .vperm t g d a b => Sys2Proof.Machine.execVperm t g d a b s
  | .vrot t g d a b => Sys2Proof.Machine.execVrot t g d a b s
  | .vredAdd t g d a => Sys2Proof.Machine.execVredAdd t g d a s
  | .vredMax t g d a => Sys2Proof.Machine.execVredMax t g d a s
  | .vredMin t g d a => Sys2Proof.Machine.execVredMin t g d a s
  | .vscanAdd t g d a => Sys2Proof.Machine.execVscanAdd t g d a s
  | .vscanAff g d a => Sys2Proof.Machine.execVscanAff g d a s
  | .vamax t g d a => Sys2Proof.Machine.execVamax t g d a s
  | .vwid t g d a => Sys2Proof.Machine.execVwid t g d a s
  | .vnar t g d a b => Sys2Proof.Machine.execVnar t g d a b s
  | .vscl t g d a b => Sys2Proof.Machine.execVscl t g d a b s
  | .vq t g d a b => Sys2Proof.Machine.execVq t g d a b s
  | .vdq t g d a b => Sys2Proof.Machine.execVdq t g d a b s
  | .vld t g d a => Sys2Proof.Machine.execVld t g d a s
  | .vst t g d a => Sys2Proof.Machine.execVst t g d a s
  | .vgat t g d a b => Sys2Proof.Machine.execVgat t g d a b s
  | .vsct t g d a b => Sys2Proof.Machine.execVsct t g d a b s
  | .vldb t g d a => Sys2Proof.Machine.execVldb t g d a s
  | .gand d a b => Sys2Proof.Machine.execGand d a b s
  | .gor d a b => Sys2Proof.Machine.execGor d a b s
  | .gxor d a b => Sys2Proof.Machine.execGxor d a b s
  | .gnot d a => Sys2Proof.Machine.execGnot d a s
  | .gpop d a => Sys2Proof.Machine.execGpop d a s
  | .gfirst d a => Sys2Proof.Machine.execGfirst d a s
  | .gmov d a h => Sys2Proof.Machine.execGmov d a h s
  | .gset d a b => Sys2Proof.Machine.execGset d a b s
  | .sbindMem d a b c => Sys2Proof.Machine.execSbindMem d a b c s
  | .sbindCh d a => Sys2Proof.Machine.execSbindCh d a s
  | .sbindOut d a b => Sys2Proof.Machine.execSbindOut d a b s
  | .sunbind d => Sys2Proof.Machine.execSunbind d s
  | .sstat d a => Sys2Proof.Machine.execSstat d a s
  | .fef c d => Sys2Proof.Machine.execFef c d s
  | .fee c d => Sys2Proof.Machine.execFee c d s
  | .feqReg c d a => Sys2Proof.Machine.execFeqReg c d a s
  | .marm a e => Sys2Proof.Machine.execMarm a e s
  | .mdis m => Sys2Proof.Machine.execMdis m s
  | .mslp d a => Sys2Proof.Machine.execMslp d a s
  | .wadr d a b c => Sys2Proof.Machine.execWadr d a b c s
  | .barReg a => Sys2Proof.Machine.execBarReg a s
  | .barArr d => Sys2Proof.Machine.execBarArr d s
  | .barWait => Sys2Proof.Machine.execBarWait s
  | .barArw d => Sys2Proof.Machine.execBarArw d s
  | .tqpush a => Sys2Proof.Machine.execTqpush a s
  | .tqpop d => Sys2Proof.Machine.execTqpop d s
  | .tqpopNb d => Sys2Proof.Machine.execTqpopNb d s
  | .tqpeek d => Sys2Proof.Machine.execTqpeek d s
  | .texit => Sys2Proof.Machine.execTexit s
  | .tyield => Sys2Proof.Machine.execTyield s
  | .tmset d a => Sys2Proof.Machine.execTmset d a s
  | .tlaunch a b => Sys2Proof.Machine.execTlaunch a b s
  | .msend o a b => Sys2Proof.Machine.execMsend o a b s
  | .mrecv d a c => Sys2Proof.Machine.execMrecv d a c s
  | .mwait d a b => Sys2Proof.Machine.execMwait d a b s
  | .mpeek d a n => Sys2Proof.Machine.execMpeek d a n s
  | .msendt o a b => Sys2Proof.Machine.execMsendt o a b s
  | .mcfg a b => Sys2Proof.Machine.execMcfg a b s
  | .cpy d a b c => Sys2Proof.Machine.execCpy d a b c s
  | .cpyt d a b c => Sys2Proof.Machine.execCpyt d a b c s
  | .cpym d a b c => Sys2Proof.Machine.execCpym d a b c s
  | .cpyf z a b => Sys2Proof.Machine.execCpyf z a b s
  | .cpyq d a => Sys2Proof.Machine.execCpyq d a s
  | .mma f a b c => Sys2Proof.Machine.execMma f a b c s
  | .mmaSp f a b c d => Sys2Proof.Machine.execMmaSp f a b c d s
  | .acz a => Sys2Proof.Machine.execAcz a s
  | .acld a b => Sys2Proof.Machine.execAcld a b s
  | .acst a b => Sys2Proof.Machine.execAcst a b s
  | .adrn d a b c => Sys2Proof.Machine.execAdrn d a b c s
  | .acrd d a => Sys2Proof.Machine.execAcrd d a s
  | .acwr b a => Sys2Proof.Machine.execAcwr b a s
  | .tredAdd a b c => Sys2Proof.Machine.execTredAdd a b c s
  | .tredMax a b c => Sys2Proof.Machine.execTredMax a b c s
  | .tredMin a b c => Sys2Proof.Machine.execTredMin a b c s
  | .tscanAdd a b c => Sys2Proof.Machine.execTscanAdd a b c s
  | .tscanAff a b c => Sys2Proof.Machine.execTscanAff a b c s
  | .tbar => Sys2Proof.Machine.execTbar s
  | .ccv a b c => Sys2Proof.Machine.execCcv a b c s
  | .ccvq a b c d => Sys2Proof.Machine.execCcvq a b c d s
  | .prmi d a b => Sys2Proof.Machine.execPrmi d a b s
  | .prmr o a b => Sys2Proof.Machine.execPrmr o a b s
  | .prmx o p a => Sys2Proof.Machine.execPrmx o p a s
  | .prmq h d a => Sys2Proof.Machine.execPrmq h d a s
  | .wupd a b => Sys2Proof.Machine.execWupd a b s
  | .nbpost d a b c => Sys2Proof.Machine.execNbpost d a b c s
  | .nbview d a c => Sys2Proof.Machine.execNbview d a c s
  | .nbadv d a b => Sys2Proof.Machine.execNbadv d a b s
  | .nbinit d a b c => Sys2Proof.Machine.execNbinit d a b c s
  | .annulledWord t k => Sys2Proof.Machine.execAnnulledWord t k s
  | .resultLand t k ix => Sys2Proof.Machine.execResultLand t k ix s
  | .loadFill t k r => Sys2Proof.Machine.execLoadFill t k r s
  | .storeAck t id nxt => Sys2Proof.Machine.execStoreAck t id nxt s
  | .releaseLeaves t id => Sys2Proof.Machine.execReleaseLeaves t id s
  | .homeAccess t k => Sys2Proof.Machine.execHomeAccess t k s
  | .answer t k => Sys2Proof.Machine.execAnswer t k s
  | .refusedResend r => Sys2Proof.Machine.execRefusedResend r s
  | .withdrawal t k => Sys2Proof.Machine.execWithdrawal t k s
  | .withdrawalConfirm t k => Sys2Proof.Machine.execWithdrawalConfirm t k s
  | .monitorNotice t k e => Sys2Proof.Machine.execMonitorNotice t k e s
  | .mslpTimeout t k => Sys2Proof.Machine.execMslpTimeout t k s
  | .wadrTimeout t k => Sys2Proof.Machine.execWadrTimeout t k s
  | .barrierComplete t => Sys2Proof.Machine.execBarrierComplete t s
  | .gangBarrierComplete g => Sys2Proof.Machine.execGangBarrierComplete g s
  | .wake src => Sys2Proof.Machine.execWake src s
  | .channelAccept src => Sys2Proof.Machine.execChannelAccept src s
  | .horizonRound g rest => Sys2Proof.Machine.execHorizonRound g rest s
  | .horizonPublish t j => Sys2Proof.Machine.execHorizonPublish t j s
  | .streamFetch t k r => Sys2Proof.Machine.execStreamFetch t k r s
  | .streamWrite t k r => Sys2Proof.Machine.execStreamWrite t k r s
  | .streamElementAck t k r => Sys2Proof.Machine.execStreamElementAck t k r s
  | .carrierAccept t => Sys2Proof.Machine.execCarrierAccept t s
  | .fretboardEnter t => Sys2Proof.Machine.execFretboardEnter t s
  | .dispatch t id => Sys2Proof.Machine.execDispatch t id s
  | .addressGeneration t id g => Sys2Proof.Machine.execAddressGeneration t id g s
  | .readDone t id => Sys2Proof.Machine.execReadDone t id s
  | .operationComplete t id => Sys2Proof.Machine.execOperationComplete t id s
  | .errorCompletion t id e => Sys2Proof.Machine.execErrorCompletion t id e s
  | .stagingCommit ix => Sys2Proof.Machine.execStagingCommit ix s
  | .groupBroadcast t id m => Sys2Proof.Machine.execGroupBroadcast t id m s
  | .treeResult g => Sys2Proof.Machine.execTreeResult g s
  | .treeStep g l parts => Sys2Proof.Machine.execTreeStep g l parts s
  | .weltApply t => Sys2Proof.Machine.execWeltApply t s
  | .kChunkBoundary c => Sys2Proof.Machine.execKChunkBoundary c s
  | .translationWalk die station pid page => Sys2Proof.Machine.execTranslationWalk die station pid page s
  | .pdbase v => Sys2Proof.Machine.execPdbase v s
  | .inval v => Sys2Proof.Machine.execInval v s
  | .resume v => Sys2Proof.Machine.execResume v s
  | .bankFormatWrite t n v => Sys2Proof.Machine.execBankFormatWrite t n v s
  | .headerStore t k off bytes => Sys2Proof.Machine.execHeaderStore t k off bytes s
  | .bindingRecordStore t k r v => Sys2Proof.Machine.execBindingRecordStore t k r v s
  | .watchpointControlWrite t j v => Sys2Proof.Machine.execWatchpointControlWrite t j v s
  | .registerWrite p v => Sys2Proof.Machine.execRegisterWrite p v s
  | .timer t k => Sys2Proof.Machine.execTimer t k s
  | .rsvTimeout t k => Sys2Proof.Machine.execRsvTimeout t k s
  | .trapEntry t k => Sys2Proof.Machine.execTrapEntry t k s
  | .uncorrectableError u => Sys2Proof.Machine.execUncorrectableError u s
  | .pairCopyDone t => Sys2Proof.Machine.execPairCopyDone t s
  | .intervalEnd t odd => Sys2Proof.Machine.execIntervalEnd t odd s
  | .debugHalt die => Sys2Proof.Machine.execDebugHalt die s
  | .debugResume die => Sys2Proof.Machine.execDebugResume die s
  | .preempt g => Sys2Proof.Machine.execPreempt g s
  | .deadlineStop g => Sys2Proof.Machine.execDeadlineStop g s
  | .stoppedGangDelivery src => Sys2Proof.Machine.execStoppedGangDelivery src s
  | .placement g act => Sys2Proof.Machine.execPlacement g act s
  | .placementConfirm g => Sys2Proof.Machine.execPlacementConfirm g s
  | .launchTick g => Sys2Proof.Machine.execLaunchTick g s
  | .bridgeReplay f => Sys2Proof.Machine.execBridgeReplay f s
  | .bridgeRetrain b => Sys2Proof.Machine.execBridgeRetrain b s
  | .retrainingEnd b ok => Sys2Proof.Machine.execRetrainingEnd b ok s
  | .portFailure p lost => Sys2Proof.Machine.execPortFailure p lost s
  | .laceRetransmit p => Sys2Proof.Machine.execLaceRetransmit p s
  | .homeLost h => Sys2Proof.Machine.execHomeLost h s
  | .inFieldTest die cluster fails => Sys2Proof.Machine.execInFieldTest die cluster fails s
  | .doorbell w v => Sys2Proof.Machine.execDoorbell w v s
  | .launch w => Sys2Proof.Machine.execLaunch w s
  | .copy w => Sys2Proof.Machine.execCopy w s
  | .read w => Sys2Proof.Machine.execRead w s
  | .write w => Sys2Proof.Machine.execWrite w s
  | .hostFence w => Sys2Proof.Machine.execHostFence w s
  | .stop w => Sys2Proof.Machine.execStop w s
  | .resumeGang w => Sys2Proof.Machine.execResumeGang w s
  | .gangEnd w => Sys2Proof.Machine.execGangEnd w s
  | .doneClear w m => Sys2Proof.Machine.execDoneClear w m s
  | .bar2Write pa bytes => Sys2Proof.Machine.execBar2Write pa bytes s
  | .bar2Read pa n => Sys2Proof.Machine.execBar2Read pa n s
  | .cxlMemAccess op => Sys2Proof.Machine.execCxlMemAccess op s
  | .dmodeWrite v => Sys2Proof.Machine.execDmodeWrite v s
  | .plimWrite v => Sys2Proof.Machine.execPlimWrite v s
  | .arbiterPeriod grants => Sys2Proof.Machine.execArbiterPeriod grants s
  | .thermalThrottle die hot => Sys2Proof.Machine.execThermalThrottle die hot s
  | .thermalStop die => Sys2Proof.Machine.execThermalStop die s
  | .supplyDroop die => Sys2Proof.Machine.execSupplyDroop die s
  | .wearLogFlush => Sys2Proof.Machine.execWearLogFlush s
  | .powerOn b => Sys2Proof.Machine.execPowerOn b s
  | .powerLoss => Sys2Proof.Machine.execPowerLoss s
  | .reload b => Sys2Proof.Machine.execReload b s
  | .attestRequest => Sys2Proof.Machine.execAttestRequest s
  | .attestReport => Sys2Proof.Machine.execAttestReport s

end Sys2Proof.Machine
end

