-- ==== Sys2Proof/Machine/Clock.lean ====
section
/-! DEFINITION. One clock of a tile (R52, R69, R76, R162-R164, R355, R380), what is due before it, and the order of the part's own
events when the agenda names none (log 1, log 2). -/

namespace Sys2Proof.Machine

-- Signals (R165-R168)

/-- Whether what a thread waits for under WAIT has come about (R125, R198, R274, R364). A wait of a pair ends with an event of the pair
(R371, R378). -/
def State.waitOver (s : State) (t : TileId) (k : Slot) : Bool :=
  let th := s.thrAt t k
  match th.waitsFor with
  | some (.wait tl cp st ld) => within th.cntTl tl && within th.cntCp cp && within th.cntSt st && within th.cntLd ld
  | some (.fence sc) => s.fenceClear t k sc
  | some (.fenceLd _) => th.loadsBack th.seq
  | some (.fenceSt sc) => s.storesClear t k sc
  | some .fenceI => s.fenceIClear t k
  | some .texit => s.texitClear t k
  | some (.xfence sc) => s.xfenceClear t sc
  | some .mxfrz => (s.tileAt t).frozen
  | _ => false

/-- Whether a thread that waits for an eyelet issues a data operation of the tree (R302). -/
def Thread.eyeletTree (th : Thread) : Bool :=
  match th.fetched.map decodeWord with
  | some (.ok (.tredAdd _ _ _)) | some (.ok (.tredMax _ _ _)) | some (.ok (.tredMin _ _ _)) | some (.ok (.tscanAdd _ _ _))
  | some (.ok (.tscanAff _ _ _)) => true
  | _ => false

/-- Whether a reason that a unit of the tile signals has cleared (R165). The other reasons are cleared where they end: by the fill, the
answer, the barrier, the queue or the welt unit. -/
def State.parkOver (s : State) (t : TileId) (k : Slot) : Park → Bool
  | .cntFull c => decide ((s.thrAt t k).count c < 255)
  | .wait => s.waitOver t k
  | .fretboard rs w => !s.fretHolds t rs w
  | .streamFull r => decide ((((s.thrAt t k).binds[r]).buf).length < bufRoom)
  | .streamDrain r => ((s.thrAt t k).binds[r]).drained
  | .eyelet => decide ((s.tileAt t).eyelets.length < eyeletRoom) && (!(s.thrAt t k).eyeletTree || decide ((s.tileAt t).treeOps < 4))
  | _ => false

/-- A slot whose reason has cleared is signalled (R166). -/
def State.signalSlot (s : State) (t : TileId) (k : Slot) : State :=
  match (s.thrAt t k).run with
  | .parked p => if s.parkOver t k p then s.wakeAt t k fun _ => true else s
  | _ => s

/-- The slots of a tile whose reasons have cleared are signalled by its units (R166). -/
def State.signal (s : State) (t : TileId) : State := userSlots.foldl (fun s k => s.signalSlot t k) s
/-- The units of every tile. -/
def State.signalAll (s : State) : State := (s.tiles.map (·.1)).foldl State.signal s
def signalOut : Out → Out
  | .next s => .next s.signalAll
  | o => o

-- Time

/-- While a die is halted for debug, the counts of the tiles that run do not come nearer (R381). -/
def Tile.holdTimes (x : Tile) : Tile :=
  let one (th : Thread) : Thread := { th with
    tmcmp := if th.tmcmp = 0 then 0 else th.tmcmp + 1
    hold := th.hold.map fun h => { h with deadline := h.deadline + 1 }
    sleep := th.sleep.map fun z => { z with deadline := z.deadline.map (· + 1) }
    req := th.req.map fun r => match r.op with
      | .wadr z c d => { r with op := .wadr z c (d.map (· + 1)) }
      | _ => r }
  { x with slots := x.slots.map one }

/-- The first listed tile whose die runs counts the timebase (log 2). -/
def State.countsTime (s : State) (t : TileId) : Bool :=
  (s.tiles.find? fun p => !s.dieHalted p.1).map (·.1) == some t

/-- What a slot lets pass has passed with the clock, but for the issue cycle of a retirement and the first clock of its own after a launch
(R167, R169, R397). -/
def Rouse.next : Rouse → Rouse
  | .none | .clears => .none
  | .starts => .starts
  | .answers | .retires => .retires

/-- A clock of a tile has passed (R41); a reason that has cleared in it leaves its thread ready from the next (R167). -/
def State.endClock (s : State) (t : TileId) : State :=
  let held := s.anyHalted
  let s := s.signal t
  let s := s.modTile t fun x =>
    let x := if held then x.holdTimes else x
    { x with cycle := x.cycle + 1, gift := none, woke := false, slots := x.slots.map fun th => { th with rouse := th.rouse.next } }
  { s with timebase := if s.countsTime t then s.timebase + 1 else s.timebase }

-- Issue (R52, R69, R76, R380)

/-- The word that a slot holds is decoded and executed; an illegal one traps (R69, R71). -/
def runWord (s : State) (w : Insn) : Out :=
  match decodeWord w with
  | .ok i => exec i s
  | .error _ => trap s .illegal (w.setWidth 64)

/-- The thread holds a word, and has passed its breakpoint. -/
def Thread.took (th : Thread) (w : Insn) : Thread := { th with fetched := some w, pastBrk := false }

/-- A ready slot issues: an answered instruction uses the cycle in which it retires (R169), and so does an `mslp` whose sleep a trap ends
(R172); else a pending trap is taken (R382), a word in a shadow consumed, else the word that a parked thread kept, or a word fetched at the
PC, which a breakpoint may stop first (R76, R355, R380). Where the word at a breakpoint cannot be fetched the model raises BREAK, not FETCH:
R69 and R380 put neither before the other (DESIGN CHOICE, log 68). -/
def State.issue (s0 : State) (t : TileId) (k : Slot) : Out :=
  let s : State := { s0 with curTile := t, curSlot := k }
  let th := s.thrAt t k
  if th.rouse = .retires then .next (s.modThrAt t k fun th => { th with rouse := .none })
  else if th.run = .sleeping then .next (s.endSleep t k)
  else if s.mayTrap t k then .next (s.asyncTrap t k)
  else if th.shadow ≠ 0 then .next (s.annul t k)
  else match th.fetched with
  | some w => runWord s w
  | none =>
    if !th.pastBrk && (s.tileAt t).breaks th.pc false then .next (s.takeTrap t k false .break th.pc th.pc 0)
    else match s.fetch t k th.pc with
    | (.word w, s') => runWord (s'.modThrAt t k fun th => th.took w) w
    | (.trap, s') => .next (s'.fetchTrap t k)
    | (_, s') => .next s'

/-- Whether a slot has something to issue: it is ready, or an asynchronous trap takes it out of its park or sleep (R29, R355). One whose
reason cleared in this clock is ready from the next (R167). -/
def State.canIssue (s : State) (t : TileId) (k : Slot) : Bool :=
  let th := s.thrAt t k
  match th.rouse with
  | .none => th.run == .ready || s.mayTrap t k || (th.run == .sleeping && th.trapReady)
  | .clears => s.mayTrap t k
  | .starts | .answers => false
  | .retires => th.resident

/-- Whether a slot that issues now consumes an annulled word (R75, R132). -/
def State.annuls (s : State) (t : TileId) (k : Slot) : Bool :=
  let th := s.thrAt t k
  k ≠ 0 && th.rouse ≠ .retires && th.run ≠ .sleeping && !s.mayTrap t k && th.shadow ≠ 0 && !s.annulBreaks t k

-- The carrier (R162, R163, R283)

/-- One possible event, by its meaning. -/
abbrev Work := State → Out

/-- The first event of a list that the state allows, and the state after it. -/
def firstNext (s : State) : List Work → Option State
  | [] => none
  | f :: fs => match f s with
    | .next s' => some s'
    | _ => firstNext s fs

/-- The next step of an operation in flight: its dispatch, or the next page or piece of a copy or drain (R283 steps 3 and 4). -/
def State.nextStep (s : State) (t : TileId) (e : EngEntry) : List Work :=
  match e.state with
  | .held => [execDispatch t e.req.id]
  | .active | .readDone => (s.genSteps t e).map fun g => execAddressGeneration t e.req.id g

/-- The steps of carrier work that a tile may take, those of older requests first (R283, log 2). -/
def State.carrierWork (s : State) (t : TileId) : List Work :=
  (s.tileAt t).ops.flatMap (s.nextStep t) ++ [execFretboardEnter t, execCarrierAccept t]

-- Donation (R163)

/-- The slots after an owner, in the order of donation. -/
def slotsAfter (o : Slot) : List Slot := (List.range 7).map fun j => Fin.ofNat 8 (o.val + 1 + j)

/-- A slot uses a clock: the carrier takes a step of its work, a thread issues; none where it has nothing to do. -/
def State.useClock (s : State) (t : TileId) (k : Slot) : Option Out :=
  if k = 0 then (firstNext s (s.carrierWork t)).map .next
  else if s.canIssue t k then some (s.issue t k) else none

/-- The first of some slots that can use the clock, and its use. -/
def State.firstUser (s : State) (t : TileId) : List Slot → Option (Slot × Out)
  | [] => none
  | k :: ks => match s.useClock t k with
    | some o => some (k, o)
    | none => s.firstUser t ks

/-- The slot that owns the current clock of a tile (R162). -/
def Tile.owner (x : Tile) : Slot := Fin.ofNat 8 x.cycle.toNat

/-- The slots that may use the present clock of a tile, the first that can using it: its owner, unless it has yielded or has consumed an
annulled word in it, then, in throughput mode, those that it is donated to (R132, R163, R199). -/
def State.candidates (s : State) (t : TileId) : List Slot :=
  let x := s.tileAt t
  let o := x.owner
  (if x.gift.isSome || (x.slots[o]).yielded then [] else [o]) ++ if x.donates then slotsAfter o else []

/-- Finish a clock. -/
def finishClock (t : TileId) : Out → Out
  | .next s => .next (s.endClock t)
  | o => o

/-- A clock that a slot has used ends, but one in which its owner consumed an annulled word is donated first (R132, R163). -/
def State.passClock (s : State) (t : TileId) (k : Slot) : Out → Out
  | .next s' =>
    let x := s.tileAt t
    if k = x.owner && x.gift.isNone && x.donates && s.annuls t k then .next (s'.modTile t fun x => { x with gift := some k })
    else .next (s'.endClock t)
  | o => o

/-- The present clock of a tile goes to the first slot that can use it, whose use `pick` may replace by another of that slot; `idle` is
what happens where no slot can. The owner's yield is used up (R199), and its first clock after a launch has come (R397). -/
def State.clockBy (s : State) (t : TileId) (pick : State → Slot → Out → Out) (idle : State → Out) : Out :=
  let ks := s.candidates t
  let s := s.modThrAt t (s.tileAt t).owner fun th => { th with yielded := false, rouse := if th.rouse = .starts then .none else th.rouse }
  match s.firstUser t ks with
  | some (k, o) => s.passClock t k (pick s k o)
  | none => idle s

-- Pairs (R372, R374)

/-- Whether a tile issues at all: a hidden tile follows its partner, and a pair stops at the end of its interval (R372, R374). -/
def State.issues (s : State) (t : TileId) : Bool :=
  let x := s.tileAt t
  !x.hidden && (match x.pairing with
    | some p => !s.intervalOver t p
    | none => true)

-- The clock (R162-R164, R199)

/-- One clock of a tile, or the second half of a clock whose owner consumed an annulled word. A tile whose die is halted for debug does
not move (R381). -/
def State.clock (s : State) (t : TileId) : Out :=
  if s.dieHalted t then .next s
  else
    let s := s.replayDue t
    if !s.issues t then .next (s.endClock t)
    else s.clockBy t (fun _ _ o => o) fun s => .next (s.endClock t)

-- What a clock finds due (R99, R170, R175, R190, R191, R201, R272, R391, R397)

/-- The positions of a list whose element a predicate takes. -/
def positions {α : Type} (p : α → Bool) (xs : List α) : List Nat :=
  ((List.range xs.length).zip xs).filterMap fun q => if p q.2 then some q.1 else none

/-- The timed events of a slot that are due. -/
def State.dueOf (s : State) (t : TileId) (k : Slot) : List Work :=
  let th := s.thrAt t k
  let past (n : Nat) : Bool := s.dueAt t n
  ((positions (fun (r : ResultReq) => past r.due) th.results).take 1).map (fun i => execResultLand t k i) ++
    ((th.loads.filter fun l => match l.due with
      | some d => past d
      | none => false).flatMap fun l => l.partsLeft.map fun g => execLoadFill t k ⟨l.id, g⟩) ++
    (if th.tmcmp ≠ 0 then [execTimer t k] else []) ++ (if th.hold.isSome then [execRsvTimeout t k] else []) ++
    (if th.sleep.isSome then [execMslpTimeout t k] else []) ++
    (match th.req with
      | some _ => [execWadrTimeout t k, execRefusedResend (.request t k)]
      | none => [])

/-- The timed events of a tile that may be due before its clock. -/
def State.due (s : State) (t : TileId) : List Work :=
  (userSlots.flatMap fun k => s.dueOf t k) ++
    (positions (fun (r : SentItem) => r.refused.isSome) (s.tileAt t).sent).map (fun i => execRefusedResend (.item t i)) ++
    ((positions (fun (q : Refused) => q.req.tile = t) s.refused).map fun i => execRefusedResend (.walk i)) ++
    (if (s.tileAt t).barrier.out then [] else [execBarrierComplete t]) ++
    if s.countsTime t then s.gangs.flatMap fun g => [execLaunchTick g.id, execHorizonRound g.id allOnes64] else []

-- The part's own events, when the agenda names none (log 2)

/-- The pages that a tile's outstanding accesses may need, each with the pid of the access. -/
def State.pagesWanted (s : State) (t : TileId) : List (BitVec 16 × BitVec 36) :=
  let x := s.tileAt t
  let ofSlot (k : Slot) : List (BitVec 16 × Word × Nat) :=
    let th := x.slots[k]
    th.loads.flatMap (fun l => l.dest.addrs.map fun a => (l.pid, a, 1)) ++ [(x.pid, th.pc, 4)] ++
      (match th.req with
        | some r => [(r.pid, r.first, r.op.bytes)]
        | none => []) ++
      th.binds.toList.map fun (b : Bind) => (b.pid, b.elemAddr b.next, 128)
  let ranges := userSlots.flatMap ofSlot ++ x.stores.flatMap (fun r => r.pieces.map fun p => (r.pid, p.1, p.2.length)) ++
    x.ops.flatMap (fun e => let r := s.opRanges t e; (r.1 ++ r.2).map fun q => (e.req.pid, q)) ++
    x.flagging.flatMap fun f => (f.req.flag.toList.map fun a => (f.req.pid, a.addr, sizeBytes a.size))
  (ranges.flatMap fun r => (pagesOf r.2).map fun p => (r.1, p)).eraseDups

/-- The walks that are missing for a tile. -/
def State.walksWanted (s : State) (t : TileId) : List Work :=
  let die := dieOf t
  ((s.pagesWanted t).filter fun p => (s.cached die p.1 (p.2.toNat * 2 ^ 16)).isNone).map fun p =>
    execTranslationWalk die (p.2.toNat % 8) p.1 p.2

/-- The event of a register write that a store makes (R214). -/
def State.regEvent (s : State) (q : RegStore) : List Work :=
  match s.devStore q.addr q.bytes with
  | some (.fmt t n, v) => [execBankFormatWrite t n v]
  | some (.watchCtl t j, v) => [execWatchpointControlWrite t j v]
  | some (.record t k r 3, v) => [execBindingRecordStore t k r v]
  | some (.header _ _ _, _) => match q.headerBytes with
    | some (t, k, off, bs) => [execHeaderStore t k (Fin.ofNat 64 off) bs]
    | none => []
  | some (.pdbase, v) => [execPdbase v]
  | some (.inval, v) => [execInval v]
  | some (.resume, v) => [execResume v]
  | some (_, v) => match devOf q.addr with
    | some (_, i) => [execRegisterWrite (.device (q.addr - BitVec.ofNat 64 i)) v]
    | none => []
  | none => []

/-- The events of a slot's requests and accesses. -/
def State.slotEvents (s : State) (t : TileId) (k : Slot) : List Work :=
  let th := s.thrAt t k
  th.loads.flatMap (fun l => l.partsLeft.map fun g => execLoadFill t k ⟨l.id, g⟩) ++
    (if th.req.isSome then [execAnswer t k, execWithdrawalConfirm t k, execHomeAccess t k, execWithdrawal t k] else []) ++
    (positions (fun (b : Bind) => b.kind ≠ .unbound) th.binds.toList).flatMap fun i =>
      let r : StreamReg := Fin.ofNat 8 i
      [execStreamFetch t k r, execStreamWrite t k r, execStreamElementAck t k r]

/-- The events of an operation in flight. -/
def State.opEvents (s : State) (t : TileId) (e : EngEntry) : List Work :=
  (match s.opError t e with
    | some (c, _) => [execErrorCompletion t e.req.id c]
    | none => []) ++ [execOperationComplete t e.req.id, execReadDone t e.req.id] ++
    if e.req.op.isGroup then (groupTiles t).map fun m => execGroupBroadcast t e.req.id m else []

/-- The events of a tile. -/
def State.tileEvents (s : State) (t : TileId) : List Work :=
  let x := s.tileAt t
  (userSlots.flatMap fun k => s.slotEvents t k) ++
    x.stores.flatMap (fun r => [execReleaseLeaves t r.id, execStoreAck t r.id (s.nextStage t r), execStoreAck t r.id .performed]) ++
    ((List.range x.sent.length).flatMap fun i => [execChannelAccept (.sent t i), execWake (.sent t i)]) ++
    (if x.heldEnts.isEmpty then [] else [execChannelAccept (.held t)]) ++
    (if x.barrier.reg = 0 then [] else [execBarrierComplete t]) ++
    x.ops.flatMap (s.opEvents t) ++
    x.flagging.flatMap (fun f => [execErrorCompletion t f.req.id .fault, execOperationComplete t f.req.id]) ++ (if x.weltQ.isEmpty then [] else [execWeltApply t]) ++
    (if x.mxq.isEmpty then [] else [execKChunkBoundary ⟨t, false⟩]) ++
    (match x.pairing with
      | some p => if p.even then [execIntervalEnd t p.print] else []
      | none => if x.slots.toList.any fun th => th.run == .parked .wait then [execPairCopyDone t] else []) ++
    s.walksWanted t

/-- The events of the package: gangs, staged writes, notices and window requests. -/
def State.packageEvents (s : State) : List Work :=
  s.gangs.flatMap (fun g => [execPlacement g.id .reserve, execPlacementConfirm g.id, execPreempt g.id, execDeadlineStop g.id,
      execGangBarrierComplete g.id, execTreeResult g.id] ++
      g.rounds.flatMap fun r => g.tiles.filterMap fun t =>
        if (s.tileAt t).horizon.toNat < r.2.toNat then some (execHorizonPublish t r.1) else none) ++
    (s.notices.map fun n => execMonitorNotice n.1 n.2.1 n.2.2) ++ (if s.staged.isEmpty then [] else [execStagingCommit 0]) ++
    s.regStores.flatMap s.regEvent ++
    (List.range 24).flatMap fun i =>
      let w : Fin 24 := Fin.ofNat 24 i
      let win : Window := s.windows[w]
      if win.queue.isEmpty then []
      else [execLaunch w, execCopy w, execRead w, execWrite w, execHostFence w, execStop w, execResumeGang w, execGangEnd w]

/-- The tile whose clock comes after that of a tile: the next listed one. -/
def State.nextTile (s : State) (t : TileId) : TileId :=
  match s.tiles.find? fun p => t < p.1 with
  | some p => p.1
  | none => match s.tiles with
    | p :: _ => p.1
    | [] => t

/-- With an empty agenda the part moves by itself: an event of the package or of the tile in focus that is possible happens, else the
tile's clock passes and the focus moves on. -/
def State.freeRun (s : State) : Out :=
  let t := s.focus
  match firstNext s (s.due t ++ s.packageEvents ++ s.tileEvents t) with
  | some s' => .next s'.signalAll
  | none => match s.clock t with
    | .next s' => .next (if (s'.tileAt t).gift.isSome then s' else { s' with focus := s'.nextTile t })
    | o => o

/-- What a clock of a tile finds due comes before what the agenda names for that clock. -/
def State.afterDue (s : State) (t : TileId) (use : Out) : Out :=
  match firstNext s (s.due t) with
  | some s' => .next s'.signalAll
  | none => use

/-- The tile and the slot whose issue cycle an event is, and the event's name: the carrier's steps, an annulled word, and a trap's entry
(R132, R284, R382). -/
def cycleOf : Instr → Option (TileId × Slot × String)
  | .annulledWord t k => some (t, k, "ANNULLED_WORD")
  | .trapEntry t k => some (t, k, "TRAP_ENTRY")
  | .carrierAccept t => some (t, 0, "CARRIER_ACCEPT")
  | .fretboardEnter t => some (t, 0, "FRETBOARD_ENTER")
  | .dispatch t _ => some (t, 0, "DISPATCH")
  | .addressGeneration t _ _ => some (t, 0, "ADDRESS_GENERATION")
  | _ => none

/-- An event that is an issue cycle of a slot takes place where that slot uses the present clock of its tile (R163, R284). -/
def State.eventClock (s : State) (t : TileId) (k : Slot) (name : String) (i : Instr) : Out :=
  let no := noEvent name
  if s.dieHalted t || !s.issues t then no
  else s.clockBy t (fun s j _ => if j = k then exec i s else no) fun _ => no

/-- What an agenda names as an event takes place; an instruction word is none, for only a clock of a tile issues it (R163). -/
def eventOut (i : Instr) (s : State) : Out := if (encodeFields i).isSome then noEvent "CLOCK" else exec i s

/-- One step of the machine before gangs that have ended are taken down: the part's own move, or the clock or the event that the agenda
names. -/
def State.turn (s : State) : Out :=
  match s.agenda with
  | [] => s.freeRun
  | .clock t :: rest => s.afterDue t (({ s with agenda := rest } : State).clock t)
  | .event i :: rest =>
    let s' : State := { s with agenda := rest }
    match cycleOf i with
    | some (t, k, name) => s.afterDue t (s'.eventClock t k name i)
    | none => signalOut (eventOut i s')

/-- A gang that has ended is taken down within the step that ends it (R398). -/
def settleOut : Out → Out
  | .next s => .next s.settle
  | o => o

-- Placing an instruction at the fetch

/-- The slot that the current clock of a tile serves, or the first user slot where that is the carrier's. -/
def Tile.fetchSlot (x : Tile) : Slot := if x.owner = 0 then 1 else x.owner

/-- The virtual address at which a placed instruction stands. -/
def placedPc : Word := 0x8000000000010000

/-- A thread about to fetch a placed instruction: ready, nothing pending, its PC at the placed word. -/
def Thread.placed (th : Thread) : Thread :=
  { th with run := .ready, pc := placedPc, shadow := 0, fetched := none, pending := Pending.none, yielded := false, rouse := .none, pastBrk := true, req := none }

/-- A tile whose current clock fetches a placed word, which stands as a locked line. -/
def Tile.placeWord (x : Tile) (w : Insn) : Tile :=
  let va := placedPc.toNat % 2 ^ 52
  { x.modThr x.fetchSlot Thread.placed with
    cycle := if x.owner = 0 then x.cycle + 1 else x.cycle
    gift := none
    icache := ⟨va, [w], true⟩ :: x.icache.filter fun l => l.addr + 4 * l.words.length ≤ va || va + 4 ≤ l.addr }

end Sys2Proof.Machine
end

