-- ==== Sys2Proof/Machine/Step.lean ====
section
/-! DEFINITION. One step of the machine, and the placing of one instruction where the step fetches. -/

namespace Sys2Proof.Machine

/-- One step: the head of the agenda, a clock of a tile or an event, or, where the agenda is empty, what the part does by itself. -/
def step (s : State) : Host.Outcome State Fault Refusal := settleOut s.turn

/-- The instruction of a word stands where the next step fetches: in the slot that the current clock of the tile in focus serves. -/
def State.withFetchWord (s : State) (nbits w : Nat) : State :=
  { s.modTile s.focus fun x => x.placeWord (BitVec.ofNat 32 (w % 2 ^ nbits)) with agenda := [.clock s.focus] }

end Sys2Proof.Machine
end

