-- ==== Sys2Proof/Safety.lean ====
section
/-! DEFINITION. The terms that claims use: what every state must meet, runs that stop without a fault, operands that an instruction can
read and destinations that it can write, and what a state looks like once an instruction has retired, parked or trapped. -/

namespace Sys2Proof.Machine

-- Outcomes and runs

/-- Whatever next state an outcome gives, the predicate holds of it. -/
def Leads (o : Out) (P : State → Prop) : Prop := ∀ t, o = .next t → P t

/-- An outcome is a next state, and the predicate holds of it. -/
def Completes (o : Out) (P : State → Prop) : Prop := ∃ t, o = .next t ∧ P t

/-- n steps from s lead to t. -/
def Runs : Nat → State → State → Prop
  | 0, s, t => s = t
  | n + 1, s, t => ∃ u, step s = .next u ∧ Runs n u t

/-- A safe run: no state that steps lead to from s stops with a fault. -/
def SafeRun (s : State) : Prop := ∀ n t, Runs n s t → ∀ r, step t ≠ .fault r

-- The invariant

/-- The four memories and the list of full words are in canonical form, the deterministic mode is a legal one (R418), and PLIM is in
its range (R423). -/
abbrev State.Inv (s : State) : Prop :=
  s.mem.wf = true ∧ s.winMem.wf = true ∧ s.bar4.wf = true ∧ s.wear.wf = true ∧ s.fe.Pairwise (· < ·) ∧ s.dmode ≠ 3 ∧
    1100 ≤ s.plim.toNat ∧ s.plim.toNat ≤ 3600

/-- s0 and g0 of a thread stand as R33 says: zero and full, and all ones. -/
abbrev Thread.wired (th : Thread) : Prop := th.getS 0 = SReg.zero ∧ th.getG 0 = BitVec.allOnes 128

-- What a word is

/-- An instruction of the barrel core, against an event of the part. -/
def isWord (i : Instr) : Bool := (encodeFields i).isSome

/-- The destination of a scalar register instruction: the functions of OPI, IMMI, LUI, ADPC, BITF, FOP32, FOP64 and FCVT. -/
def scalarDest : Instr → Option Reg
  | .add d _ _ | .sub d _ _ | .and d _ _ | .or d _ _ | .xor d _ _ | .sll d _ _ | .srl d _ _ | .sra d _ _ | .slt d _ _ | .sltn d _ _ => some d
  | .min d _ _ | .max d _ _ | .minn d _ _ | .maxn d _ _ | .mul d _ _ | .mulh d _ _ | .mulhn d _ _ => some d
  | .div d _ _ | .divn d _ _ | .rem d _ _ | .remn d _ _ | .rot d _ _ | .clz d _ | .ctz d _ | .popc d _ | .sel d _ _ _ => some d
  | .addi d _ _ | .andi d _ _ | .ori d _ _ | .xori d _ _ | .slti d _ _ | .sltni d _ _ | .slli d _ _ | .srli d _ _ | .srai d _ _ => some d
  | .lui d _ | .adpc d _ | .ext d _ _ _ | .extn d _ _ _ | .ins d _ _ _ => some d
  | .fadd _ _ d _ _ | .fsub _ _ d _ _ | .fmul _ _ d _ _ | .fdiv _ _ d _ _ | .fsqrt _ _ d _ | .fmin _ d _ _ | .fmax _ d _ _ => some d
  | .fsgnj _ d _ _ | .fsgnjn _ d _ _ | .fsgnjx _ d _ _ | .fma _ d _ _ _ | .fms _ d _ _ _ | .fnma _ d _ _ _ | .fclass _ d _ => some d
  | .feq _ d _ _ | .flt _ d _ _ | .fle _ d _ _ | .fcvt _ _ _ _ d _ => some d
  | _ => none

/-- A scalar instruction that may set floating flags (R101, R129, R131). -/
def setsFlags : Instr → Bool
  | .fadd _ _ _ _ _ | .fsub _ _ _ _ _ | .fmul _ _ _ _ _ | .fdiv _ _ _ _ _ | .fsqrt _ _ _ _ => true
  | .fma _ _ _ _ _ | .fms _ _ _ _ _ | .fnma _ _ _ _ _ | .fcvt _ _ _ _ _ _ => true
  | _ => false

-- Changes of one part

/-- A thread with other bindings. -/
def Thread.withBinds (th : Thread) (bs : Vector Bind 8) : Thread := { th with binds := bs }

/-- A change of the executing tile alone, of whose threads only the executing one changes, and that one in its bindings alone. -/
def OnlyBinds (s t : State) : Prop :=
  ∃ x : Tile, t = s.putTile s.curTile x ∧ (∃ bs, x.slots[s.curSlot] = s.thr.withBinds bs) ∧
    ∀ k, k ≠ s.curSlot → x.slots[k] = s.tile.slots[k]

-- Operands that can be read and written (R98, R35, R134, R154, R161)

/-- A scalar register that an instruction reads as x: s0 as zero (R33), any other full, unpoisoned and with no pending fill. -/
abbrev Thread.holds (th : Thread) (r : Reg) (x : Word) : Prop :=
  if r = 0 then x = 0 else th.getS r = ⟨x, true, false, false⟩

/-- A scalar destination: s0, or a register with no pending fill (R35). -/
abbrev Thread.free (th : Thread) (d : Reg) : Prop := d = 0 ∨ (th.getS d).pend = false

/-- A vector register that an instruction reads as x: an unbound one that is full and unpoisoned; a read stream not past its end
whose head is x (R154, R156); an inbound stream whose channel holds x (R158). -/
def State.reads (s : State) (r : Reg) (x : Vec) : Prop :=
  let b := s.thr.bindOf r
  match b.kind with
  | .unbound => s.thr.getV r = ⟨x, true, false, false⟩
  | .memRead => b.pos < b.count ∧ ∃ e rest, b.buf = e :: rest ∧ e.poison = false ∧ e.val = x
  | .chan => s.tile.chanHead (Fin.ofNat 8 (b.base.toNat % 8)) = some x
  | _ => False

/-- A vector destination: an unbound register with no pending fill, or a write-bound one that is not past its end and whose buffer
has room (R154, R156, R161). -/
def State.takes (s : State) (d : Reg) : Prop :=
  let b := s.thr.bindOf d
  match b.kind with
  | .unbound => (s.thr.getV d).pend = false
  | .memWrite => b.pos < b.count ∧ b.buf.length < bufRoom
  | .out => b.buf.length < bufRoom
  | _ => False

/-- The old lanes of a destination under a guard (R133, R154): zero where it is write-bound; where the guard can leave a lane out the
register is read; else whatever it holds. -/
def State.olds (s : State) (d : Reg) (g : Bool) (x : Vec) : Prop :=
  if (s.thr.bindOf d).kind ≠ .unbound then x = 0
  else if g then s.reads d x
  else x = (s.thr.getV d).val

-- States after an instruction

/-- The executing instruction has retired and nothing else (R52). -/
def State.done (s : State) (notes : List Word) : State := s.retireAt s.curTile s.curSlot (s.thr.pc + 4) notes

/-- The executing thread has retired one instruction and goes on with the next word (R42, R52). -/
def State.onward (s u : State) : Prop :=
  u.curTile = s.curTile ∧ u.curSlot = s.curSlot ∧ u.thr.pc = s.thr.pc + 4 ∧ u.thr.instret = s.thr.instret + 1 ∧ u.thr.run = .ready

/-- An access of n bytes passes the checks of an address: it may use the region (R49), is aligned (R50), meets no watchpoint (R380),
and the fretboard lets it go (R254, R288). -/
def State.lets (s : State) (a : Word) (n : Nat) (load store write : Bool) : Prop :=
  (regionOf a = 3 → s.thr.sv = true) ∧ a.toNat % n = 0 ∧ s.tile.watched a n load store = false ∧
    s.fretHolds s.curTile (s.ownBytes a n) write = false

/-- It has retired with a scalar result of one clock (R99). -/
def State.wrote (s : State) (d : Reg) (v : Word) : State := (s.putS d v).retireAt s.curTile s.curSlot (s.thr.pc + 4) [v]

/-- It has retired with a scalar result that lands some clocks later (R99). -/
def State.awaits (s : State) (d : Reg) (v : Word) (clocks : Nat) : State :=
  (if d = 0 then s else s.putLater [.s d v] clocks).retireAt s.curTile s.curSlot (s.thr.pc + 4) [v]

/-- It has retired with a vector result, its bound sources popped and its flags set (R134, R135, R136, R154). -/
def State.wroteV (s : State) (srcs : List Reg) (d : Reg) (r : Vec × VFlags) (clocks : Nat) : State :=
  (((s.popV srcs).modThr fun th => th.flagV r.2).putV d r.1 clocks).retireAt s.curTile s.curSlot (s.thr.pc + 4) (wideWords r.1)

/-- It has retired with a floating result and its flags in `fpcsr`, the result landing some clocks later (R99, R101). -/
def State.awaitsF (s : State) (d : Reg) (r : Nat × FFlags) (clocks : Nat) : State :=
  (s.modThr fun th => th.flagF r.2).awaits d (BitVec.ofNat 64 r.1) clocks

/-- It has retired with a guard result, its bound sources popped (R136, R141, R153, R154). -/
def State.wroteG (s : State) (srcs : List Reg) (d : GReg) (x : Guard) : State :=
  ((s.popV srcs).modThr fun th => th.setG d x).retireAt s.curTile s.curSlot (s.thr.pc + 4) (wideWords x)

/-- It has retired with a scalar taken from a vector, its bound sources popped and its flags set (R143, R144). -/
def State.awaitsV (s : State) (srcs : List Reg) (d : Reg) (v : Word) (fl : VFlags) (clocks : Nat) : State :=
  ((s.popV srcs).modThr fun th => th.flagV fl).awaits d v clocks

/-- Every lane of a vector that a guard makes active is given by one function, every other by another (R133). -/
def Lanes (w : Nat) (g : Guard) (v : Vec) (on off : Nat → Nat) : Prop :=
  ∀ i, i < laneCount w → laneAt w v i = if active g i then on i else off i

/-- A compare with skip has retired; where its condition holds, the next n words are annulled (R110). -/
def State.skipped (s : State) (holds : Prop) [Decidable holds] (n : BitVec 2) : State :=
  (if holds then s.modThr fun th => { th with shadow := n.toNat } else s).retireAt s.curTile s.curSlot (s.thr.pc + 4) []

/-- It has retired and control passes to a target (R112). -/
def State.jumped (s : State) (target : Word) : State := s.retireAt s.curTile s.curSlot target []

/-- It has retired with its link written, and control passes to a target (R113, R114). -/
def State.linked (s : State) (d : Reg) (target : Word) : State :=
  (s.putS d (s.thr.pc + 4)).retireAt s.curTile s.curSlot target [s.thr.pc + 4]

/-- It has sent the request of an answered form to its home, behind what the request must not pass (R242), and is parked until the answer
(R260). -/
def State.asked (s : State) (op : ReqOp) (d : Reg) (addr : Word) (p : Park) : State :=
  (s.modCur fun x => { x with nextId := x.nextId + 1 }).modThr fun th =>
    { th with
      run := .parked p, seq := th.seq + 1
      req := some { id := s.tile.nextId, pid := s.tile.pid, op := op, d := d, addr := addr, seq := s.thr.seq, stage := .sent
                    held := s.bypassed s.curTile s.curSlot op addr, past := s.reqPast op, homes := [] } }

/-- It has retired with an engine request in an eyelet and TL raised (R282, R305). -/
def State.issuedTl (s u : State) (op : EngOp) : Prop :=
  s.onward u ∧ u.mem = s.mem ∧ u.fe = s.fe ∧ u.staged = s.staged ∧ u.thr.cntTl = s.thr.cntTl + 1 ∧
    ∃ r, u.tile.eyelets = s.tile.eyelets ++ [r] ∧ r.op = op ∧ r.slot = s.curSlot ∧ r.id = s.tile.nextId

/-- It has retired with a copy or a drain in an eyelet, CP raised, and the tile's tag in its destination (R305, R306). -/
def State.issuedCp (s u : State) (op : EngOp) (d : Reg) : Prop :=
  s.onward u ∧ u.mem = s.mem ∧ u.fe = s.fe ∧ u.staged = s.staged ∧ u.thr.cntCp = s.thr.cntCp + 1 ∧ u.tile.tag = s.tile.tag + 1 ∧
    (d ≠ 0 → u.thr.getS d = ⟨s.tile.tag.setWidth 64, true, false, false⟩) ∧
    ∃ r, u.tile.eyelets = s.tile.eyelets ++ [r] ∧ r.op = op ∧ r.slot = s.curSlot ∧ r.tag = s.tile.tag ∧ r.id = s.tile.nextId

/-- The register write that an event takes: the first that may be performed now of a register and a value (R117, R214). -/
def State.regNext (s : State) (r : DevReg) (v : Word) (q : RegStore) : Prop :=
  s.regStores.find? (fun q => decide (s.devStore q.addr q.bytes = some (r, v))) = some q

/-- Bytes have been written from a place on; a byte that is not among them and has no staged write is as it was (R250). -/
def State.storedAt (s u : State) (l : Nat) (bs : List Byte) : Prop :=
  u.mem.readBytes l bs.length = bs ∧ ∀ a, ¬(l ≤ a ∧ a < l + bs.length) → (∀ e ∈ s.staged, e.loc ≠ a) → u.mem.read a = s.mem.read a

/-- The values that a tile contributes to a horizon round (R372, R391): its `vtime` and the timestamps that no channel has yet accepted. -/
def State.timesOf (s : State) (t : TileId) : List Word := if (s.tileAt t).hidden then [] else (s.tileAt t).vtime :: (s.tileAt t).unaccepted

/-- R331's node[l][j], absent operands included. -/
def treeNode (op : Nat → Nat → Nat × FFlags) (x : Nat → Option Nat) : Nat → Nat → Option Nat
  | 0, j => x j
  | l + 1, j => (combineOpt op (treeNode op x l (2 * j)) (treeNode op x l (2 * j + 1))).1

/-- R331's pre[L - i][j]: what stands before the values of that node. -/
def treePre (op : Nat → Nat → Nat × FFlags) (x : Nat → Option Nat) (L : Nat) : Nat → Nat → Option Nat
  | 0, _ => none
  | i + 1, j =>
    if j % 2 = 0 then treePre op x L i (j / 2)
    else (combineOpt op (treePre op x L i (j / 2)) (treeNode op x (L - (i + 1)) (j - 1))).1

/-- Bytes written from places of the machine have arrived, and no other byte has changed. -/
def State.put (s u : State) (cs : List Host.Cell) : Prop :=
  ∀ l, u.mem.read l = match cs.find? (fun c => c.1 = l) with
    | some c => c.2
    | none => s.mem.read l

/-- It is parked for a reason and has done nothing else (R29). -/
def State.parked (s : State) (p : Park) : State := s.modThr fun th => { th with run := .parked p }

/-- It has taken a synchronous trap (R354, R356). -/
def State.trapped (s : State) (c : Cause) (tval : Word) : State := s.takeTrap s.curTile s.curSlot false c tval s.thr.pc 0

end Sys2Proof.Machine
end

