-- ==== Sys2Proof/Certificates/Slice0/Obligations.lean ====
section
/-! DEFINITION. The statements for the provers: what spec/ says that the instructions, the events and the whole machine do. In each, `holds`
is a readable operand, `free` a writable destination, and the state after an instruction is one of Sys2Proof/Safety.lean. -/

open Sys2Proof Sys2Proof.Machine

-- Scalar instructions (spec/05_scalar_instructions.md)

/-- R103: the one-clock functions of OPI that are arithmetic, bitwise, shifts, comparisons and the lesser and greater of two. -/
def Obligations.ScalarResults : Prop :=
  ∀ (s : State) (d a b : Reg) (x y : Word), s.thr.holds a x → s.thr.holds b y → s.thr.free d →
    exec (.add d a b) s = .next (s.wrote d (x + y)) ∧
    exec (.sub d a b) s = .next (s.wrote d (x - y)) ∧
    exec (.and d a b) s = .next (s.wrote d (x &&& y)) ∧
    exec (.or d a b) s = .next (s.wrote d (x ||| y)) ∧
    exec (.xor d a b) s = .next (s.wrote d (x ^^^ y)) ∧
    exec (.sll d a b) s = .next (s.wrote d (BitVec.ofNat 64 (x.toNat * 2 ^ (y.toNat % 64)))) ∧
    exec (.srl d a b) s = .next (s.wrote d (BitVec.ofNat 64 (x.toNat / 2 ^ (y.toNat % 64)))) ∧
    exec (.sra d a b) s = .next (s.wrote d (BitVec.ofInt 64 (x.toInt / 2 ^ (y.toNat % 64)))) ∧
    exec (.slt d a b) s = .next (s.wrote d (if x.toInt < y.toInt then 1 else 0)) ∧
    exec (.sltn d a b) s = .next (s.wrote d (if x.toNat < y.toNat then 1 else 0)) ∧
    exec (.min d a b) s = .next (s.wrote d (BitVec.ofInt 64 (min x.toInt y.toInt))) ∧
    exec (.max d a b) s = .next (s.wrote d (BitVec.ofInt 64 (max x.toInt y.toInt))) ∧
    exec (.minn d a b) s = .next (s.wrote d (BitVec.ofNat 64 (min x.toNat y.toNat))) ∧
    exec (.maxn d a b) s = .next (s.wrote d (BitVec.ofNat 64 (max x.toNat y.toNat)))

/-- R103: `rot`, `clz`, `ctz`, `popc` and `sel`. Bit i of a rotation left is bit i - sh of A, the index taken modulo 64; the count of
leading or trailing zeros is where the first one stands, or 64; `sel` chooses by s[c]. -/
def Obligations.BitCountResults : Prop :=
  ∀ (s : State) (d a b c : Reg) (x y z : Word), s.thr.holds a x → s.thr.holds b y → s.thr.holds c z → s.thr.free d →
    (∃ v : Word, (∀ i, i < 64 → v.getLsbD i = x.getLsbD ((i + 64 - y.toNat % 64) % 64)) ∧ exec (.rot d a b) s = .next (s.wrote d v)) ∧
    (∃ n, n ≤ 64 ∧ (∀ i, i < n → x.getLsbD (63 - i) = false) ∧ (n < 64 → x.getLsbD (63 - n) = true) ∧
      exec (.clz d a) s = .next (s.wrote d (BitVec.ofNat 64 n))) ∧
    (∃ n, n ≤ 64 ∧ (∀ i, i < n → x.getLsbD i = false) ∧ (n < 64 → x.getLsbD n = true) ∧
      exec (.ctz d a) s = .next (s.wrote d (BitVec.ofNat 64 n))) ∧
    exec (.popc d a) s = .next (s.wrote d (BitVec.ofNat 64 (((List.range 64).filter fun i => x.getLsbD i).length))) ∧
    exec (.sel d a b c) s = .next (s.wrote d (if z ≠ 0 then x else y))

/-- R103, R104 and R99: products land after 4 clocks, quotients and remainders after 36. The division by 0 and that of the least number by
-1 have the results of R104's table. -/
def Obligations.ProductResults : Prop :=
  ∀ (s : State) (d a b : Reg) (x y : Word), s.thr.holds a x → s.thr.holds b y → s.thr.free d →
    exec (.mul d a b) s = .next (s.awaits d (BitVec.ofNat 64 (x.toNat * y.toNat)) 4) ∧
    exec (.mulh d a b) s = .next (s.awaits d (BitVec.ofInt 64 (x.toInt * y.toInt / 2 ^ 64)) 4) ∧
    exec (.mulhn d a b) s = .next (s.awaits d (BitVec.ofNat 64 (x.toNat * y.toNat / 2 ^ 64)) 4) ∧
    exec (.div d a b) s = .next (s.awaits d (if y = 0 then BitVec.allOnes 64 else BitVec.ofInt 64 (x.toInt.tdiv y.toInt)) 36) ∧
    exec (.divn d a b) s = .next (s.awaits d (if y = 0 then BitVec.allOnes 64 else BitVec.ofNat 64 (x.toNat / y.toNat)) 36) ∧
    exec (.rem d a b) s = .next (s.awaits d (if y = 0 then x else BitVec.ofInt 64 (x.toInt - y.toInt * x.toInt.tdiv y.toInt)) 36) ∧
    exec (.remn d a b) s = .next (s.awaits d (if y = 0 then x else BitVec.ofNat 64 (x.toNat - y.toNat * (x.toNat / y.toNat))) 36)

/-- R105 and R106: the immediate forms; I is imm12 sign-extended, and an upper immediate is imm20 · 4,096 sign-extended from 32 bits. Their words are of
formats I and U with majors 2, 3 and 4; a `shi` word of kind 3 or with a nonzero imm[11:8] traps ILLEGAL. -/
def Obligations.ImmediateResults : Prop :=
  ∀ (s : State) (d a : Reg) (x : Word) (i : BitVec 12) (h : BitVec 6) (u : BitVec 20), s.thr.holds a x → s.thr.free d →
    exec (.addi d a i) s = .next (s.wrote d (x + i.signExtend 64)) ∧
    exec (.andi d a i) s = .next (s.wrote d (x &&& i.signExtend 64)) ∧
    exec (.ori d a i) s = .next (s.wrote d (x ||| i.signExtend 64)) ∧
    exec (.xori d a i) s = .next (s.wrote d (x ^^^ i.signExtend 64)) ∧
    exec (.slti d a i) s = .next (s.wrote d (if x.toInt < i.toInt then 1 else 0)) ∧
    exec (.sltni d a i) s = .next (s.wrote d (if x.toNat < (i.signExtend 64).toNat then 1 else 0)) ∧
    exec (.slli d a h) s = .next (s.wrote d (BitVec.ofNat 64 (x.toNat * 2 ^ h.toNat))) ∧
    exec (.srli d a h) s = .next (s.wrote d (BitVec.ofNat 64 (x.toNat / 2 ^ h.toNat))) ∧
    exec (.srai d a h) s = .next (s.wrote d (BitVec.ofInt 64 (x.toInt / 2 ^ h.toNat))) ∧
    exec (.lui d u) s = .next (s.wrote d (BitVec.ofInt 64 (u.toInt * 4096))) ∧
    exec (.adpc d u) s = .next (s.wrote d (s.thr.pc + BitVec.ofInt 64 (u.toInt * 4096))) ∧
    let word (f3 imm : Nat) : Option Insn := some (BitVec.ofNat 32 (0x02 + d.val * 2 ^ 7 + a.val * 2 ^ 12 + f3 * 2 ^ 17 + imm * 2 ^ 20))
    encode (.addi d a i) = word 0 i.toNat ∧ encode (.andi d a i) = word 1 i.toNat ∧ encode (.ori d a i) = word 2 i.toNat ∧ encode (.xori d a i) = word 3 i.toNat ∧
    encode (.slti d a i) = word 4 i.toNat ∧ encode (.sltni d a i) = word 5 i.toNat ∧ encode (.slli d a h) = word 6 h.toNat ∧
    encode (.srli d a h) = word 6 (h.toNat + 64) ∧ encode (.srai d a h) = word 6 (h.toNat + 128) ∧
    encode (.lui d u) = some (BitVec.ofNat 32 (0x03 + d.val * 2 ^ 7 + u.toNat * 2 ^ 12)) ∧
    encode (.adpc d u) = some (BitVec.ofNat 32 (0x04 + d.val * 2 ^ 7 + u.toNat * 2 ^ 12)) ∧
    ∀ w : Insn, w.extractLsb' 0 7 = 0x02 → w.extractLsb' 17 3 = 6 → w.extractLsb' 26 2 = 3 ∨ w.extractLsb' 28 4 ≠ 0 →
      runWord s w = .next (s.trapped .illegal (w.setWidth 64))

/-- R107: the bit fields of position p and length l + 1. `ins` reads its destination (R98), so an empty one parks it. A word whose field would leave the register
traps ILLEGAL. -/
def Obligations.BitFieldResults : Prop :=
  ∀ (s : State) (d a : Reg) (x old : Word) (p l : BitVec 6), p.toNat + l.toNat + 1 ≤ 64 → s.thr.holds a x → s.thr.free d →
    (∃ v : Word, (∀ i, i < 64 → v.getLsbD i = x.getLsbD (p.toNat + min i l.toNat)) ∧ exec (.ext d a p l) s = .next (s.wrote d v)) ∧
    (∃ v : Word, (∀ i, i < 64 → v.getLsbD i = (decide (i ≤ l.toNat) && x.getLsbD (p.toNat + i))) ∧
      exec (.extn d a p l) s = .next (s.wrote d v)) ∧
    (s.thr.holds d old →
      ∃ v : Word, (∀ i, i < 64 → v.getLsbD i =
          if p.toNat ≤ i ∧ i ≤ p.toNat + l.toNat then x.getLsbD (i - p.toNat) else old.getLsbD i) ∧
        exec (.ins d a p l) s = .next (s.wrote d v)) ∧
    (d ≠ 0 → (s.thr.getS d).full = false → exec (.ins d a p l) s = .next (s.parked (.regEmpty (.s d)))) ∧
    let word (f3 : Nat) : Option Insn := some (BitVec.ofNat 32 (0x05 + d.val * 2 ^ 7 + a.val * 2 ^ 12 + f3 * 2 ^ 17 + p.toNat * 2 ^ 20 + l.toNat * 2 ^ 26))
    encode (.ext d a p l) = word 0 ∧ encode (.extn d a p l) = word 1 ∧ encode (.ins d a p l) = word 2 ∧
    ∀ w : Insn, w.extractLsb' 0 7 = 0x05 → (w.extractLsb' 17 3).toNat < 3 → 64 < (w.extractLsb' 20 6).toNat + (w.extractLsb' 26 6).toNat + 1 →
      runWord s w = .next (s.trapped .illegal (w.setWidth 64))

/-- R108 to R110: a compare with skip retires whether or not its condition holds, and annuls the next n words where it does; the conditions are those of R109. In
a floating one a NaN is unordered, and other values are ordered by their keys, in which +0 and -0 are equal. No flag is set. -/
def Obligations.SkipResults : Prop :=
  ∀ (s : State) (p : Prec) (a b : Reg) (x y : Word) (n : BitVec 2) (i : BitVec 15), s.thr.holds a x → s.thr.holds b y →
    exec (.sk .eq n a b) s = .next (s.skipped (x = y) n) ∧ exec (.sk .ne n a b) s = .next (s.skipped (x ≠ y) n) ∧
    exec (.sk .lt n a b) s = .next (s.skipped (x.toInt < y.toInt) n) ∧ exec (.sk .ge n a b) s = .next (s.skipped (y.toInt ≤ x.toInt) n) ∧
    exec (.sk .ltn n a b) s = .next (s.skipped (x.toNat < y.toNat) n) ∧ exec (.sk .gen n a b) s = .next (s.skipped (y.toNat ≤ x.toNat) n) ∧
    exec (.sk .tst n a b) s = .next (s.skipped (x &&& y ≠ 0) n) ∧ exec (.sk .ntst n a b) s = .next (s.skipped (x &&& y = 0) n) ∧
    exec (.ski .eq n a i) s = .next (s.skipped (x = i.signExtend 64) n) ∧ exec (.ski .ne n a i) s = .next (s.skipped (x ≠ i.signExtend 64) n) ∧
    exec (.ski .lt n a i) s = .next (s.skipped (x.toInt < i.toInt) n) ∧ exec (.ski .ge n a i) s = .next (s.skipped (i.toInt ≤ x.toInt) n) ∧
    exec (.ski .ltn n a i) s = .next (s.skipped (x.toNat < (i.signExtend 64).toNat) n) ∧
    exec (.ski .gen n a i) s = .next (s.skipped ((i.signExtend 64).toNat ≤ x.toNat) n) ∧
    exec (.ski .tst n a i) s = .next (s.skipped (x &&& i.signExtend 64 ≠ 0) n) ∧
    exec (.ski .ntst n a i) s = .next (s.skipped (x &&& i.signExtend 64 = 0) n) ∧
    let sk (c : FskCond) : Instr := match p with
      | .single => .fsk c n a b
      | .double => .fskd c n a b
    let f := precFmt p
    let nan := f.isNan (precBits p x) = true ∨ f.isNan (precBits p y) = true
    let i := f.key (precBits p x)
    let j := f.key (precBits p y)
    exec (sk .feq) s = .next (s.skipped (¬nan ∧ i = j) n) ∧ exec (sk .fne) s = .next (s.skipped (nan ∨ i ≠ j) n) ∧
    exec (sk .flt) s = .next (s.skipped (¬nan ∧ i < j) n) ∧ exec (sk .fge) s = .next (s.skipped (¬nan ∧ j ≤ i) n) ∧
    exec (sk .fle) s = .next (s.skipped (¬nan ∧ i ≤ j) n) ∧ exec (sk .fgt) s = .next (s.skipped (¬nan ∧ j < i) n) ∧
    exec (sk .fun) s = .next (s.skipped nan n) ∧ exec (sk .ford) s = .next (s.skipped (¬nan) n)

/-- R112 to R114: a branch goes to PC + 4 times its offset where its condition holds, else to PC + 4; `jl` and `jlr` write the link and go to
their target; a `jlr` whose target is no multiple of 4 traps MISALIGN with the target. The words of BR and JL are of formats B and J with majors 0x27
and 0x28; a BR word with a nonzero [11:10] traps ILLEGAL, and a branch with an empty source parks. -/
def Obligations.JumpResults : Prop :=
  ∀ (s : State) (d a b : Reg) (x y : Word) (i : BitVec 10) (u : BitVec 20) (o : BitVec 12), s.thr.holds a x → s.thr.holds b y → s.thr.free d →
    let pc := s.thr.pc
    let br (c : Prop) [Decidable c] : Out := .next (s.jumped (if c then pc + BitVec.ofInt 64 (4 * i.toInt) else pc + 4))
    let target := x + o.signExtend 64
    exec (.br .eq a b i) s = br (x = y) ∧ exec (.br .ne a b i) s = br (x ≠ y) ∧
    exec (.br .lt a b i) s = br (x.toInt < y.toInt) ∧ exec (.br .ge a b i) s = br (y.toInt ≤ x.toInt) ∧
    exec (.br .ltn a b i) s = br (x.toNat < y.toNat) ∧ exec (.br .gen a b i) s = br (y.toNat ≤ x.toNat) ∧
    exec (.jl d u) s = .next (s.linked d (pc + BitVec.ofInt 64 (4 * u.toInt))) ∧
    (target.toNat % 4 = 0 → exec (.jlr d a o) s = .next (s.linked d target)) ∧
    (target.toNat % 4 ≠ 0 → exec (.jlr d a o) s = .next (s.trapped .misalign target)) ∧
    (∀ c, encode (.br c a b i) = some (BitVec.ofNat 32 (0x27 + c.code * 2 ^ 7 + a.val * 2 ^ 12 + b.val * 2 ^ 17 + i.toNat * 2 ^ 22))) ∧
    encode (.jl d u) = some (BitVec.ofNat 32 (0x28 + d.val * 2 ^ 7 + u.toNat * 2 ^ 12)) ∧
    (∀ w : Insn, w.extractLsb' 0 7 = 0x27 → w.extractLsb' 10 2 ≠ 0 → runWord s w = .next (s.trapped .illegal (w.setWidth 64))) ∧
    ∀ c e, e ≠ 0 → (s.thr.getS e).pend = false → (s.thr.getS e).full = false → exec (.br c e b i) s = .next (s.parked (.regEmpty (.s e))) ∧
      exec (.br c a e i) s = .next (s.parked (.regEmpty (.s e)))

/-- R128 to R131 and R99: scalar floating point. A rounded result has the flags of its rounding in `fpcsr` and lands after the clocks of R99's
table; minima, sign operations, classes and comparisons take one clock and set no flag. -/
def Obligations.FloatResults : Prop :=
  ∀ (s : State) (p : Prec) (r : Rnd) (d a b c : Reg) (x y z : Word), s.thr.holds a x → s.thr.holds b y → s.thr.holds c z → s.thr.free d →
    let f := precFmt p
    let rm := s.thr.mode r
    let u := precBits p x
    let v := precBits p y
    let w := precBits p z
    let n := if p = .single then 4 else 5
    let m := if p = .single then 14 else 28
    exec (.fadd p r d a b) s = .next (s.awaitsF d (f.add rm u v) n) ∧
    exec (.fsub p r d a b) s = .next (s.awaitsF d (f.sub rm u v) n) ∧
    exec (.fmul p r d a b) s = .next (s.awaitsF d (f.mul rm u v) n) ∧
    exec (.fdiv p r d a b) s = .next (s.awaitsF d (f.div rm u v) m) ∧
    exec (.fsqrt p r d a) s = .next (s.awaitsF d (f.sqrt rm u) m) ∧
    exec (.fma p d a b c) s = .next (s.awaitsF d (f.fma u v w) n) ∧
    exec (.fms p d a b c) s = .next (s.awaitsF d (f.fms u v w) n) ∧
    exec (.fnma p d a b c) s = .next (s.awaitsF d (f.fnma u v w) n) ∧
    exec (.fmin p d a b) s = .next (s.wrote d (BitVec.ofNat 64 (f.minB u v))) ∧
    exec (.fmax p d a b) s = .next (s.wrote d (BitVec.ofNat 64 (f.maxB u v))) ∧
    exec (.fsgnj p d a b) s = .next (s.wrote d (BitVec.ofNat 64 (f.withSign u (f.negField v)))) ∧
    exec (.fsgnjn p d a b) s = .next (s.wrote d (BitVec.ofNat 64 (f.withSign u (!f.negField v)))) ∧
    exec (.fsgnjx p d a b) s = .next (s.wrote d (BitVec.ofNat 64 (f.withSign u (xor (f.negField u) (f.negField v))))) ∧
    exec (.fclass p d a) s = .next (s.wrote d (BitVec.ofNat 64 (2 ^ f.classOf u))) ∧
    exec (.feq p d a b) s = .next (s.wrote d (if f.eqB u v then 1 else 0)) ∧
    exec (.flt p d a b) s = .next (s.wrote d (if f.ltB u v then 1 else 0)) ∧
    exec (.fle p d a b) s = .next (s.wrote d (if f.leB u v then 1 else 0)) ∧
    (∀ sat t q, exec (.fcvt sat r t q d a) s =
      let o := cvtWord rm sat t q x
      .next ((s.modThr fun th => th.flagF o.2).awaits d o.1 3))

/-- R25, R78 and R129: in every format and mode, a NaN operand gives the canonical NaN; a finite number other than zero divided by zero gives the
infinity of both signs and sets DZ alone; the square root of -0 is -0; and a value that the format holds rounds to itself with no flag. -/
def Obligations.FloatCorners : Prop :=
  ∀ (f : Fmt) (rm : RMode) (x y : Nat), f ∈ [f64, f32, bf16, f16] → x < 2 ^ f.width → y < 2 ^ f.width →
    (f.isNan x = true ∨ f.isNan y = true →
      (f.add rm x y).1 = f.nanBits ∧ (f.sub rm x y).1 = f.nanBits ∧ (f.mul rm x y).1 = f.nanBits ∧ (f.div rm x y).1 = f.nanBits) ∧
    (f.isNan x = false ∧ f.isInf x = false ∧ f.isZero x = false ∧ f.isZero y = true →
      f.div rm x y = (f.infBits (xor (f.negField x) (f.negField y)), ⟨false, true, false, false, false⟩)) ∧
    f.sqrt rm (f.zeroBits true) = (f.zeroBits true, FFlags.none) ∧
    (f.isNan x = false → f.finish rm (f.unpack x).exact = (x, FFlags.none))

-- Vector instructions (spec/07_vector_instructions.md)

/-- R133 and R135: a lane-wise result holds the function's value in the active lanes and the old lane in the others; its flags are those of the
active lanes. -/
def Obligations.LaneWise : Prop :=
  ∀ (w : Nat) (g : Guard) (old : Vec) (f : Nat → Nat × VFlags), w = 8 ∨ w = 16 ∨ w = 32 →
    Lanes w g (mapLanes w g old f).1 (fun i => (f i).1 % 2 ^ w) (laneAt w old) ∧
    ∀ b, (mapLanes w g old f).2.bits.getLsbD b = decide (∃ i, i < laneCount w ∧ active g i = true ∧ (f i).2.bits.getLsbD b = true)

/-- R137 to R139: VOPF, lane by lane, rounded rne in the element type. -/
def Obligations.VectorFloatResults : Prop :=
  ∀ (s : State) (t : FTy) (g : GReg) (d a b : Reg) (x y old : Vec), s.reads a x → s.reads b y → s.takes d → s.olds d (g != 0) old →
    let f := ftyFmt t
    let w := f.width
    let one (op : Nat → Nat × VFlags) : Vec × VFlags := mapLanes w (s.guard g) old fun i => op (laneAt w x i)
    let two (op : Nat → Nat → Nat × VFlags) : Vec × VFlags := mapLanes w (s.guard g) old fun i => op (laneAt w x i) (laneAt w y i)
    exec (.vaddF t g d a b) s = .next (s.wroteV [a, b] d (two fun p q => flagged (f.add .rne p q)) 4) ∧
    exec (.vsubF t g d a b) s = .next (s.wroteV [a, b] d (two fun p q => flagged (f.sub .rne p q)) 4) ∧
    exec (.vmulF t g d a b) s = .next (s.wroteV [a, b] d (two fun p q => flagged (f.mul .rne p q)) 4) ∧
    exec (.vminF t g d a b) s = .next (s.wroteV [a, b] d (two fun p q => bare (f.minB p q)) 4) ∧
    exec (.vmaxF t g d a b) s = .next (s.wroteV [a, b] d (two fun p q => bare (f.maxB p q)) 4) ∧
    exec (.vabsF t g d a) s = .next (s.wroteV [a] d (one fun p => bare (f.withSign p false)) 4) ∧
    exec (.vneg t g d a) s = .next (s.wroteV [a] d (one fun p => bare (f.withSign p (!f.negField p))) 4) ∧
    exec (.vrcp t g d a) s = .next (s.wroteV [a] d (one fun p => flagged (f.finish .rne (rcpV (f.unpack p)))) 12) ∧
    exec (.vrsq t g d a) s = .next (s.wroteV [a] d (one fun p => flagged (f.finish .rne (rsqV (f.unpack p)))) 12) ∧
    exec (.vexp2 t g d a) s = .next (s.wroteV [a] d (one fun p => flagged (f.finish .rne (exp2V (f.unpack p)))) 12) ∧
    exec (.vlog2 t g d a) s = .next (s.wroteV [a] d (one fun p => flagged (f.finish .rne (log2V (f.unpack p)))) 12) ∧
    (∀ z, s.reads d z →
      exec (.vfma t g d a b) s = .next (s.wroteV [a, b] d
        (mapLanes w (s.guard g) z fun i => flagged (f.fma (laneAt w x i) (laneAt w y i) (laneAt w z i))) 4) ∧
      exec (.vfms t g d a b) s = .next (s.wroteV [a, b] d
        (mapLanes w (s.guard g) z fun i => flagged (f.fms (laneAt w x i) (laneAt w y i) (laneAt w z i))) 4))

/-- R140: VOPI, lane by lane on w-bit integers. A shift amount is taken modulo the width; `vadds` clamps and sets SAT. -/
def Obligations.VectorIntResults : Prop :=
  ∀ (s : State) (t : ITy) (g : GReg) (d a b : Reg) (x y old : Vec), s.reads a x → s.reads b y → s.takes d → s.olds d (g != 0) old →
    let w := etyWidth (ityEty t)
    let m := 2 ^ w
    let two (op : Nat → Nat → Nat) : Vec × VFlags := mapLanes w (s.guard g) old fun i => (op (laneAt w x i) (laneAt w y i), VFlags.none)
    let S (p : Nat) : Int := (BitVec.ofNat w p).toInt
    let U (i : Int) : Nat := (BitVec.ofInt w i).toNat
    exec (.vaddI t g d a b) s = .next (s.wroteV [a, b] d (two fun p q => (p + q) % m) 4) ∧
    exec (.vsubI t g d a b) s = .next (s.wroteV [a, b] d (two fun p q => (p + m - q) % m) 4) ∧
    exec (.vmulI t g d a b) s = .next (s.wroteV [a, b] d (two fun p q => p * q % m) 4) ∧
    exec (.vmulh t g d a b) s = .next (s.wroteV [a, b] d (two fun p q => U (S p * S q / 2 ^ w)) 4) ∧
    exec (.vminI t g d a b) s = .next (s.wroteV [a, b] d (two fun p q => if S q < S p then q else p) 4) ∧
    exec (.vmaxI t g d a b) s = .next (s.wroteV [a, b] d (two fun p q => if S p < S q then q else p) 4) ∧
    exec (.vminn t g d a b) s = .next (s.wroteV [a, b] d (two fun p q => min p q) 4) ∧
    exec (.vmaxn t g d a b) s = .next (s.wroteV [a, b] d (two fun p q => max p q) 4) ∧
    exec (.vand t g d a b) s = .next (s.wroteV [a, b] d (two fun p q => p &&& q) 4) ∧
    exec (.vor t g d a b) s = .next (s.wroteV [a, b] d (two fun p q => p ||| q) 4) ∧
    exec (.vxor t g d a b) s = .next (s.wroteV [a, b] d (two fun p q => p ^^^ q) 4) ∧
    exec (.vsll t g d a b) s = .next (s.wroteV [a, b] d (two fun p q => p * 2 ^ (q % w) % m) 4) ∧
    exec (.vsrl t g d a b) s = .next (s.wroteV [a, b] d (two fun p q => p / 2 ^ (q % w)) 4) ∧
    exec (.vsra t g d a b) s = .next (s.wroteV [a, b] d (two fun p q => U (S p / 2 ^ (q % w))) 4) ∧
    exec (.vabsI t g d a) s = .next (s.wroteV [a] d (mapLanes w (s.guard g) old fun i => (U (S (laneAt w x i)).natAbs, VFlags.none)) 4) ∧
    exec (.vadds t g d a b) s = .next (s.wroteV [a, b] d (mapLanes w (s.guard g) old fun i =>
      let i' := S (laneAt w x i) + S (laneAt w y i)
      let c := max (-(2 ^ (w - 1))) (min (2 ^ (w - 1) - 1) i')
      (U c, { VFlags.none with sat := decide (c ≠ i') })) 4)

/-- R141 and R142: comparisons write a guard whose bit i is the condition in the active lanes and 0 elsewhere; moves, selections and permutations
take lanes by number. -/
def Obligations.LaneMoveResults : Prop :=
  ∀ (s : State) (t : ETy) (g : GReg) (d a b : Reg) (x y old : Vec), s.reads a x → s.reads b y → s.takes d → s.olds d (g != 0) old →
    let w := etyWidth t
    let n := laneCount w
    let gd := s.guard g
    exec (.vmov t g d a) s = .next (s.wroteV [a] d (mapLanes w gd old fun i => bare (laneAt w x i)) 2) ∧
    (∃ v, Lanes w gd v (laneAt w x) (laneAt w y) ∧ exec (.vsel t g d a b) s = .next (s.wroteV [a, b] d (v, VFlags.none) 2)) ∧
    exec (.vperm t g d a b) s = .next (s.wroteV [a, b] d (mapLanes w gd old fun i => bare (laneAt w x (laneAt w y i % n))) 4) ∧
    (∀ (e : GReg) (f : VCond), ∃ m : Guard,
      (∀ i, i < 128 → m.getLsbD i = (decide (i < n) && active gd i && vcondHolds f t (laneAt w x i) (laneAt w y i))) ∧
      exec (.vcmp f t g e a b) s = .next (s.wroteG [a, b] e m)) ∧
    (∀ (q : Reg) (z : Word), s.thr.holds q z →
      exec (.vbcast t g d q) s = .next (s.wroteV [] d (mapLanes w gd old fun _ => bare (z.toNat % 2 ^ w)) 2) ∧
      exec (.vrot t g d a q) s = .next (s.wroteV [a] d (mapLanes w gd old fun i => bare (laneAt w x ((i + z.toNat) % n))) 4) ∧
      (∀ e : Reg, s.thr.free e → exec (.vextr t e a q) s = .next (s.awaitsV [a] e (laneWord t (laneAt w x (z.toNat % n))) VFlags.none 2))) ∧
    (∀ (p q : Reg) (u z : Word) (o : Vec), s.thr.holds p u → s.thr.holds q z → s.olds d true o →
      ∃ v, (∀ i, i < n → laneAt w v i = if i = z.toNat % n then u.toNat % 2 ^ w else laneAt w o i) ∧
        exec (.vins t d p q) s = .next (s.wroteV [] d (v, VFlags.none) 2))

/-- R144, R145, R78 and R95 to R97: reductions and scans over the lanes that the guard leaves present, a NaN lane counting as the canonical NaN. A
reduction is the pairwise tree of R95 over them, with the additions of R95, the maxima and minima of R80, or the maxima of magnitudes; an integer
sum is the sum modulo 2^w, an integer maximum or minimum is the greatest or least signed lane; with no lane present the result is
R95's. A scan's first present lane or element stands; each later one is the sum, or the composition of R97, of the one before it with its own value; other
lanes keep what the destination held. -/
def Obligations.VectorReductions : Prop :=
  ∀ (s : State) (t : ETy) (g : GReg) (d a : Reg) (x : Vec), s.reads a x →
    let w := etyWidth t
    let n := laneCount w
    let gd := s.guard g
    let on := (List.range n).filter fun i => gd.getLsbD i
    let nan (f : Fmt) (p : Nat) : Nat := if f.isNan p then f.nanBits else p
    let xs (f : Fmt) (pre : Nat → Nat) : List (Option Nat) := (List.range n).map fun i => if gd.getLsbD i then some (pre (nan f (laneAt w x i))) else none
    let S (i : Nat) : Int := (BitVec.ofNat w (laneAt w x i)).toInt
    let red (o : Out) (v : Nat) (fl : VFlags) : Prop := o = .next (s.awaitsV [a] d (laneWord t v) fl 8)
    (s.thr.free d →
      (∀ f, etyFloats t = some f →
        let sum := treeFold (fun p q => flagged (f.add .rne p q)) 7 (xs f id)
        red (exec (.vredAdd t g d a) s) (sum.1.getD 0) sum.2 ∧
        red (exec (.vredMax t g d a) s) ((treeFold (fun p q => bare (f.maxB p q)) 7 (xs f id)).1.getD (f.infBits true)) VFlags.none ∧
        red (exec (.vredMin t g d a) s) ((treeFold (fun p q => bare (f.minB p q)) 7 (xs f id)).1.getD (f.infBits false)) VFlags.none) ∧
      (∀ u : FTy, ftyEty u = t → let f := ftyFmt u
        red (exec (.vamax u g d a) s) ((treeFold (fun p q => bare (f.maxB p q)) 7 (xs f fun p => f.withSign p false)).1.getD 0) VFlags.none) ∧
      (etyFloats t = none →
        red (exec (.vredAdd t g d a) s) ((on.map (laneAt w x)).sum % 2 ^ w) VFlags.none ∧
        (∃ v, red (exec (.vredMax t g d a) s) v VFlags.none ∧ (on = [] → v = 2 ^ (w - 1)) ∧
          (on ≠ [] → ∃ i ∈ on, v = laneAt w x i ∧ ∀ j ∈ on, S j ≤ S i)) ∧
        (∃ v, red (exec (.vredMin t g d a) s) v VFlags.none ∧ (on = [] → v = 2 ^ (w - 1) - 1) ∧
          (on ≠ [] → ∃ i ∈ on, v = laneAt w x i ∧ ∀ j ∈ on, S i ≤ S j)))) ∧
    (∀ old, s.takes d → s.olds d (g != 0) old →
      (∃ v fl, exec (.vscanAdd t g d a) s = .next (s.wroteV [a] d (v, fl) 12) ∧
        (∀ i, i < n → gd.getLsbD i = false → laneAt w v i = laneAt w old i) ∧
        (∀ f, etyFloats t = some f → (∀ i, on.head? = some i → laneAt w v i = nan f (laneAt w x i)) ∧
          let sum (p : Nat × Nat) : Nat × FFlags := f.add .rne (laneAt w v p.1) (laneAt w x p.2)
          (∀ p ∈ on.zip (on.drop 1), laneAt w v p.2 = (sum p).1) ∧ fl = gather ((on.zip (on.drop 1)).map fun p => flagged (sum p))) ∧
        (etyFloats t = none → fl = VFlags.none ∧ ∀ i ∈ on, laneAt w v i = ((on.filter (· ≤ i)).map (laneAt w x)).sum % 2 ^ w)) ∧
      (∃ v fl, exec (.vscanAff g d a) s = .next (s.wroteV [a] d (v, fl) 12) ∧
        let es := (List.range 16).filter fun e => gd.getLsbD e
        let lo (y : Vec) (e : Nat) : Nat := laneAt 32 y (2 * e)
        let hi (y : Vec) (e : Nat) : Nat := laneAt 32 y (2 * e + 1)
        (∀ e, e < 16 → gd.getLsbD e = false → lo v e = lo old e ∧ hi v e = hi old e) ∧
        (∀ e, es.head? = some e → lo v e = nan f32 (lo x e) ∧ hi v e = nan f32 (hi x e)) ∧
        let A (p : Nat × Nat) : Nat × FFlags := f32.mul .rne (lo x p.2) (lo v p.1)
        let B (p : Nat × Nat) : Nat × FFlags := f32.fma (lo x p.2) (hi v p.1) (hi x p.2)
        (∀ p ∈ es.zip (es.drop 1), lo v p.2 = (A p).1 ∧ hi v p.2 = (B p).1) ∧
        fl = gather ((es.zip (es.drop 1)).flatMap fun p => [flagged (A p), flagged (B p)])))

/-- R146 to R148, with R86 to R88: widening, narrowing and scaling lane by lane; `vq` encodes 128 values as eight blocks of a register, their scales in
s[b] and their shifts in s[b + 1], and appends them where its destination is write-bound (R154); `vdq` decodes them into four registers. Their flags
reach `vstat`. -/
def Obligations.VectorConversions : Prop :=
  ∀ (s : State) (g : GReg) (d a b : Reg) (x old : Vec), s.reads a x → s.takes d → s.olds d (g != 0) old →
    let gd := s.guard g
    (∀ t : NTy, exec (.vwid t g d a) s =
      .next (s.wroteV [a] d (mapLanes (2 * ntyWidth t) gd old fun i => bare (widenLane t (laneAt (ntyWidth t) x i))) 4)) ∧
    (∀ (t : NTy) (y : Vec), s.reads b y → exec (.vnar t g d a b) s =
      let w := ntyWidth t
      let h := laneCount w / 2
      .next (s.wroteV [a, b] d (mapLanes w gd old fun i => narrowLane t (if i < h then laneAt (2 * w) x i else laneAt (2 * w) y (i - h))) 4)) ∧
    (∀ (t : STy) (z : Word), s.thr.holds b z → exec (.vscl t g d a b) s =
      .next (s.wroteV [a] d (mapLanes (styWidth t) gd old fun i => sclLane t (BitVec.ofNat 8 z.toNat).toInt (laneAt (styWidth t) x i)) 4)) ∧
    (∀ (t : BlkSel) (x1 x2 x3 o : Vec), s.reads (regPlus a 1) x1 → s.reads (regPlus a 2) x2 → s.reads (regPlus a 3) x3 →
      s.olds d (selHalf t) o → s.thr.free b → s.thr.free (regPlus b 1) → b.val % 2 = 0 →
      let src (e : Nat) : FVal := if gd.getLsbD e then f32.unpack (laneAt 32 ([x, x1, x2, x3].getD (e / 32) 0) (e % 32)) else .fin false 0 0
      let blk (k : Nat) : Blk × VFlags := blockEncode (selBits t) ((List.range 16).map fun j => src (16 * k + j))
      Completes (exec (.vq t g d a b) s) fun u => s.onward u ∧ u.mem = s.mem ∧
        u.thr.vstat = s.thr.vstat ||| (gather ((List.range 8).map blk)).bits ∧
        ∃ (scales shifts : Word) (v : Vec),
          (∀ k, k < 8 → scales.toNat / 2 ^ (8 * k) % 256 = (blk k).1.e % 256 ∧ shifts.toNat / 2 ^ (8 * k) % 256 = shiftByte (blk k).1.sigma % 256) ∧
          (∀ k j, k < 8 → j < 16 → let c := selContainer t
            v.toNat / 2 ^ (selBase t + c * (16 * k + j)) % 2 ^ c = containerOf c ((blk k).1.elems.getD j (false, 0)) % 2 ^ c) ∧
          (∀ i, i < 1024 → selHalf t = true → (i < selBase t ∨ selBase t + 512 ≤ i) → v.getLsbD i = o.getLsbD i) ∧
          let codes : ResultReq := ⟨(if b = 0 then [] else [.s b scales]) ++ [.s (regPlus b 1) shifts], s.tile.cycle.toNat + 16⟩
          ((s.thr.bindOf d).kind = .unbound → u.thr.results = s.thr.results ++ [codes, ⟨[.v d v], s.tile.cycle.toNat + 16⟩]) ∧
          (∀ q, d = streamReg q → (s.thr.bindOf d).kind ≠ .unbound → u.thr.results = s.thr.results ++ [codes] ∧
            (u.thr.binds[q]).pos = (s.thr.binds[q]).pos + 1 ∧
            ∃ e, (u.thr.binds[q]).buf = (s.thr.binds[q]).buf ++ [e] ∧ e.val = v ∧ e.poison = false ∧ e.wait = none)) ∧
    (∀ (t : BlkSel) (sc sh : Word) (os : Fin 4 → Vec), s.thr.holds b sc → s.thr.holds (regPlus b 1) sh →
      (∀ k : Fin 4, s.olds (regPlus d k) (g != 0) (os k) ∧ s.takes (regPlus d k) ∧ (s.thr.bindOf (regPlus d k)).kind = .unbound) →
      Completes (exec (.vdq t g d a b) s) fun u => s.onward u ∧ u.mem = s.mem ∧
        u.thr.vstat = s.thr.vstat |||
          (if (List.range 128).any (fun e => gd.getLsbD e && sc.toNat / 2 ^ (8 * (e / 16)) % 256 == 255) then 64 else 0) ∧
        ∃ vs : Fin 4 → Vec,
          (∀ (k : Fin 4) (i : Nat), i < 32 → gd.getLsbD (32 * k + i) = false → laneAt 32 (vs k) i = laneAt 32 (os k) i) ∧
          (∀ (k : Fin 4) (i : Nat), i < 32 → gd.getLsbD (32 * k + i) = true →
            let c := selContainer t
            let e := 32 * k.val + i
            let y := x.toNat / 2 ^ (selBase t + c * e) % 2 ^ c
            let E := sc.toNat / 2 ^ (8 * (e / 16)) % 256
            let q := sh.toNat / 2 ^ (8 * (e / 16) + 2 * (e % 16 / 4)) % 4
            laneAt 32 (vs k) i = if E = 255 then f32.nanBits
              else f32Bits (.fin (decide (2 ^ (c - 1) ≤ y)) (y % 2 ^ selBits t) ((E : Int) - 127 - q - (selBits t - 1)))) ∧
          u.thr.results = s.thr.results ++ [⟨(List.finRange 4).map fun (k : Fin 4) => RegWrite.v (regPlus d k.val) (vs k), s.tile.cycle.toNat + 16⟩])

/-- R149, R150, R136 and R154: a vector load of its active lanes is outstanding once it retires, its destination a pending fill, or an element that it completes
where the destination is write-bound; a vector store leaves with the active lanes' bytes, each at its lane's address; with no active lane each
retires and does nothing else (nothing is appended then: the model's choice, log 70). Lane i of `vld` and `vst` is at s[a] + i·w/8, of `vgat` and `vsct` at
s[a] + v[b][i], of `vldb` at s[a]. A local `vld` lands after 8 clocks, a local `vldb` after 6. Bound sources pop once. -/
def Obligations.VectorMemory : Prop :=
  ∀ (s : State) (t : ETy) (u : WTy) (g : GReg) (d a b : Reg) (x : Word) (y v : Vec), s.thr.holds a x → s.reads b y →
    let w := etyWidth t
    let lanes (w : Nat) : List Nat := (List.range (laneCount w)).filter fun i => (s.guard g).getLsbD i
    let at' (w : Nat) (f : Nat → Word) : List (Nat × Word) := (lanes w).map fun i => (i, f i)
    let fits (w : Nat) (f : Nat → Word) (load : Bool) : Prop :=
      (∀ i ∈ lanes w, s.lets (f i) (w / 8) load (!load) (!load)) ∧ (if load then s.thr.cntLd else s.thr.cntSt) < 255
    let pops (srcs : List Reg) (z : State) (q : StreamReg) : Prop := z.thr.binds[q] =
      let o : Bind := s.thr.binds[q]
      if streamReg q ∈ srcs ∧ o.kind.reads = true then { o with buf := o.buf.drop 1, pos := o.pos + 1, order := (z.thr.binds[q]).order } else o
    let load (w : Nat) (srcs : List Reg) (clocks : Option Nat) (f : Nat → Word) (o : Out) : Prop := fits w f true →
      let bound : Bool := (s.thr.bindOf d).kind != .unbound
      (lanes w = [] → Completes o fun z => s.onward z ∧ z.mem = s.mem ∧ z.thr.loads = s.thr.loads ∧ ∀ q, pops srcs z q) ∧
      (lanes w ≠ [] → Completes o fun z => s.onward z ∧ z.mem = s.mem ∧ z.thr.cntLd = s.thr.cntLd + 1 ∧ ∃ id, s.tile.nextId ≤ id ∧ id < z.tile.nextId ∧
        z.thr.loads = s.thr.loads ++ [⟨id, s.thr.seq, s.tile.pid, .vector d w (at' w f) bound,
          clocks.bind fun n => if ∀ i ∈ lanes w, (s.ownOff s.curTile (f i)).isSome = true then some (s.tile.cycle.toNat + n) else none, []⟩] ∧
        (bound = false → (z.thr.getV d).pend = true ∧ ∀ q, pops srcs z q) ∧
        (bound = true → ∀ q, (streamReg q ≠ d → pops srcs z q) ∧ (streamReg q = d → let o : Bind := s.thr.binds[q]
          (z.thr.binds[q]).pos = o.pos + 1 ∧ ∃ e, (z.thr.binds[q]).buf = o.buf ++ [e] ∧ e.wait = some id ∧ e.ts = s.tile.vtime)))
    let store (w : Nat) (srcs : List Reg) (f : Nat → Word) (o : Out) : Prop := s.reads d v → fits w f false →
      (lanes w = [] → Completes o fun z => s.onward z ∧ z.mem = s.mem ∧ z.tile.stores = s.tile.stores ∧ ∀ q, pops srcs z q) ∧
      (lanes w ≠ [] → Completes o fun z => s.onward z ∧ z.mem = s.mem ∧ z.thr.cntSt = s.thr.cntSt + 1 ∧ (∀ q, pops srcs z q) ∧
        ∃ new, z.tile.stores = s.tile.stores ++ new ∧ (∀ r ∈ new, r.slot = s.curSlot ∧ r.seq = s.thr.seq ∧ r.kind = .plain ∧ r.waits = false) ∧
          (new.flatMap fun r => r.addrs.zip r.bytes) = (lanes w).flatMap fun i => (addrsFrom (f i) (w / 8)).zip (leBytes (laneAt w v i) (w / 8)))
    let step (w : Nat) (i : Nat) : Word := x + BitVec.ofNat 64 (i * (w / 8))
    let gather (i : Nat) : Word := x + BitVec.ofNat 64 (laneAt 32 y i)
    (s.takes d → (∃ old, s.olds d (g != 0) old) → load w [] (some 8) (step w) (exec (.vld t g d a) s) ∧
      load 32 [b] none gather (exec (.vgat u g d a b) s) ∧ load w [] (some 6) (fun _ => x) (exec (.vldb t g d a) s)) ∧
    store w [d] (step w) (exec (.vst t g d a) s) ∧ store 32 [b, d] gather (exec (.vsct u g d a b) s)

/-- R153: the guard instructions work on all 128 bits. -/
def Obligations.GuardResults : Prop :=
  ∀ (s : State) (d a b : GReg) (r p q : Reg) (x y : Word), s.thr.holds p x → s.thr.holds q y → s.thr.free r →
    let ga := s.guard a
    let gb := s.guard b
    exec (.gand d a b) s = .next (s.wroteG [] d (ga &&& gb)) ∧ exec (.gor d a b) s = .next (s.wroteG [] d (ga ||| gb)) ∧
    exec (.gxor d a b) s = .next (s.wroteG [] d (ga ^^^ gb)) ∧ exec (.gnot d a) s = .next (s.wroteG [] d (~~~ga)) ∧
    exec (.gpop r a) s = .next (s.wrote r (BitVec.ofNat 64 ((List.range 128).filter fun i => ga.getLsbD i).length)) ∧
    (∃ n, n ≤ 128 ∧ (∀ i, i < n → ga.getLsbD i = false) ∧ (n < 128 → ga.getLsbD n = true) ∧
      exec (.gfirst r a) s = .next (s.wrote r (BitVec.ofNat 64 n))) ∧
    (∀ h : Bool, exec (.gmov r a h) s = .next (s.wrote r (ga.extractLsb' (if h then 64 else 0) 64))) ∧
    (∃ m : Guard, m.extractLsb' 0 64 = x ∧ m.extractLsb' 64 64 = y ∧ exec (.gset d p q) s = .next (s.wroteG [] d m))

-- Loads, stores, requests (spec/05_scalar_instructions.md, spec/12_memory_instructions.md)

/-- R110, R111, R75, R382 and R99: a word in a shadow is fetched, which in throughput mode may cache its line, and consumed with no effect but that the PC advances and the
shadow falls, unless a breakpoint catches it or a trap that is pending takes the cycle; a scalar or vector result that is due lands and releases its readers, which are ready from the next clock on (R136, R167). -/
def Obligations.ShadowsAndResults : Prop :=
  ∀ (s : State) (t : TileId) (k : Slot),
    let th := s.thrAt t k
    (th.run = .ready → th.shadow ≠ 0 → s.mayTrap t k = false → (s.tileAt t).breaks th.pc true = false →
      exec (.annulledWord t k) s =
        .next ((s.fetch t k th.pc).2.modThrAt t k fun th => { th with pc := th.pc + 4, shadow := th.shadow - 1, fetched := none, pastBrk := false })) ∧
    ((s.tileAt t).throughput = false → (s.fetch t k th.pc).2 = s ∨ (s.fetch t k th.pc).2 = { s with free := s.free + 1 }) ∧
    (∀ (i : Nat) (d : Reg) (v : Word) (due : Nat), th.results[i]? = some ⟨[.s d v], due⟩ → due ≤ (s.tileAt t).cycle.toNat →
      Completes (exec (.resultLand t k i) s) fun u => u.mem = s.mem ∧
        let z := u.thrAt t k
        z.results = dropAt th.results i ∧ z.v = th.v ∧ z.pc = th.pc ∧
        (∀ r, r ≠ d → z.getS r = th.getS r) ∧ (d ≠ 0 → z.getS d = ⟨v, true, false, false⟩) ∧
        (th.run = .parked (.fillPending (.s d)) ∨ th.run = .parked (.regEmpty (.s d)) → z.run = .ready ∧ z.rouse = .clears) ∧
        ∀ j, j ≠ k → u.thrAt t j = s.thrAt t j) ∧
    (∀ (i : Nat) (d : Reg) (v : Vec) (due : Nat), th.results[i]? = some ⟨[.v d v], due⟩ → due ≤ (s.tileAt t).cycle.toNat →
      Completes (exec (.resultLand t k i) s) fun u => u.mem = s.mem ∧
        let z := u.thrAt t k
        z.results = dropAt th.results i ∧ z.s = th.s ∧ z.g = th.g ∧ z.pc = th.pc ∧
        (∀ r, r ≠ d → z.getV r = th.getV r) ∧ z.getV d = ⟨v, true, false, false⟩ ∧
        (th.run = .parked (.fillPending (.v d)) ∨ th.run = .parked (.regEmpty (.v d)) → z.run = .ready ∧ z.rouse = .clears) ∧
        ∀ j, j ≠ k → u.thrAt t j = s.thrAt t j)

/-- R116, R117, R245, R264 and R271: a load retires with LD raised and its destination a pending fill; a store, a release and an `arel` retire with ST raised
(unless the egress queue acknowledges a release at tile scope at once) and their bytes on the way; an `arel` of a word that the thread does not hold by that address and size traps ENGINE_ERROR. Each traps PRIV at a device-space address in user mode, else
MISALIGN at an address that is no multiple of its size (R49, R50), else WATCH where a watchpoint catches it (R380); that WATCH comes after the other
two is the model's reading (log 13). Memory, full/empty bits, the other scalar registers, vector and guard registers, the CSRs of the thread and every other thread and
tile stay as they are. -/
def Obligations.LoadsAndStoresIssue : Prop :=
  ∀ (s : State) (d a b : Reg) (x y : Word) (i : BitVec 12), s.thr.holds a x → s.thr.holds b y →
    let addr := x + i.signExtend 64
    let stops (o : Out) (addr : Word) (n : Nat) (load : Bool) : Prop :=
      (regionOf addr = 3 → s.thr.sv = false → o = .next (s.trapped .priv addr)) ∧
      ((regionOf addr = 3 → s.thr.sv = true) →
        (addr.toNat % n ≠ 0 → o = .next (s.trapped .misalign addr)) ∧
        (addr.toNat % n = 0 → s.tile.watched addr n load (!load) = true → o = .next (s.trapped .watch addr)))
    let rest (u : State) : Prop := u.mem = s.mem ∧ u.fe = s.fe ∧ u.thr.v = s.thr.v ∧ u.thr.g = s.thr.g ∧ u.thr.fpcsr = s.thr.fpcsr ∧ u.thr.vstat = s.thr.vstat ∧
      u.thr.status = s.thr.status ∧ u.thr.epc = s.thr.epc ∧ u.thr.cause = s.thr.cause ∧ u.thr.tval = s.thr.tval ∧ u.thr.tvec = s.thr.tvec ∧
      u.thr.tmcmp = s.thr.tmcmp ∧ u.thr.scratch0 = s.thr.scratch0 ∧ u.thr.scratch1 = s.thr.scratch1 ∧
      (∀ k, k ≠ s.curSlot → u.thrAt s.curTile k = s.thrAt s.curTile k) ∧ ∀ t, t ≠ s.curTile → u.tileAt t = s.tileAt t
    let stored (o : Out) (kind : StoreKind) (waits : Bool) (addr : Word) (n : Nat) (hold : Option Hold) : Prop :=
      s.lets addr n false true true → s.thr.cntSt < 255 → Completes o fun u => s.onward u ∧ rest u ∧ u.thr.s = s.thr.s ∧
        u.thr.cntSt = s.thr.cntSt + (if kind = .release .tile ∧ s.ownOff s.curTile addr = none then 0 else 1) ∧ u.thr.hold = hold ∧
        ∃ r : StoreReq, u.tile.stores = s.tile.stores ++ [r] ∧ r.slot = s.curSlot ∧ r.seq = s.thr.seq ∧
          r.kind = kind ∧ r.waits = waits ∧ r.pieces = [(addr, leBytes (y.toNat % 2 ^ (8 * n)) n)]
    (∀ t : LdType, s.thr.free d → s.lets addr (ldBytes t) true false false → s.thr.cntLd < 255 →
      Completes (exec (.ld t d a i) s) fun u => s.onward u ∧ rest u ∧ u.tile.stores = s.tile.stores ∧
        u.thr.cntLd = s.thr.cntLd + 1 ∧ (d ≠ 0 → (u.thr.getS d).pend = true) ∧ (∀ r, r ≠ d → u.thr.getS r = s.thr.getS r) ∧
        ∃ due, u.thr.loads = s.thr.loads ++ [⟨s.tile.nextId, s.thr.seq, s.tile.pid, .scalar d t addr, due, []⟩] ∧
          due = if (s.ownOff s.curTile addr).isSome then some (s.tile.cycle.toNat + 6) else none) ∧
    (∀ t : LdType, s.thr.free d → stops (exec (.ld t d a i) s) addr (ldBytes t) true) ∧
    (∀ z : StSize, stops (exec (.st z b a i) s) addr (stBytes z) false ∧ stored (exec (.st z b a i) s) .plain false addr (stBytes z) s.thr.hold) ∧
    (∀ (z : Size) (sc : Scope), stops (exec (.stRel z sc b a) s) x (sizeBytes z) false ∧ stops (exec (.arel z b a) s) x (sizeBytes z) false) ∧
    (∀ (z : Size) (sc : Scope), stored (exec (.stRel z sc b a) s) (.release sc) true x (sizeBytes z) s.thr.hold) ∧
    (∀ (z : Size) (h : Hold), s.thr.hold = some h →
      (h.addr = x ∧ h.size = z → stored (exec (.arel z b a) s) (.arel (placeOf h.homes) z) true x (sizeBytes z) none) ∧
      (s.lets x (sizeBytes z) false true true → h.addr ≠ x ∨ h.size ≠ z → exec (.arel z b a) s = .next (s.trapped .engineError x))) ∧
    (∀ z : Size, s.thr.hold = none → s.lets x (sizeBytes z) false true true → exec (.arel z b a) s = .next (s.trapped .engineError x))

/-- R116, R27, R31, R151, R152, R154 and R242: a scalar load that has its bytes lands, extended as its type says, and LD falls; a fatal one leaves the register
poisoned and full. A vector load returns part by part; that the lanes of one 64-byte granule are one part, whose bytes are read at one moment, is the
model's choice (log 19). With the last part its lanes land, or the register is poisoned where a part was fatal; into a write-bound stream register they complete
the element that waits for the load, which a fatal part leaves poisoned with a value of no rule (the model's choice, log 44). Of the tile's own scratchpad,
with nothing on the way before it, the bytes of a scalar load are those of memory. -/
def Obligations.LoadsLand : Prop :=
  ∀ (s : State) (t : TileId) (k : Slot) (l : LoadReq),
    (s.thrAt t k).loads.find? (fun x => x.id = l.id) = some l → (∀ n, l.due = some n → n ≤ (s.tileAt t).cycle.toNat) → (s.tileAt t).pairing = none →
    let th := s.thrAt t k
    let gone (u : State) : Prop := u.mem = s.mem ∧ u.fe = s.fe ∧ (u.thrAt t k).cntLd = th.cntLd - 1 ∧ (u.thrAt t k).loads = th.loads.filter (fun y => y.id ≠ l.id) ∧
      ∀ j, j ≠ k → u.thrAt t j = s.thrAt t j
    (∀ (d : Reg) (ty : LdType) (a : Word), l.dest = .scalar d ty a → l.got = [] →
      let landed (x : SReg) (u : State) : Prop := gone u ∧ (∀ r, r ≠ d → (u.thrAt t k).getS r = th.getS r) ∧ (d ≠ 0 → (u.thrAt t k).getS d = x)
      (∀ bs, s.loadOut t k l 0 = .bytes bs → Completes (exec (.loadFill t k ⟨l.id, 0⟩) s) (landed ⟨ldExtend ty (leNat bs), true, false, false⟩)) ∧
      (s.loadOut t k l 0 = .fatal → Completes (exec (.loadFill t k ⟨l.id, 0⟩) s) (landed ⟨(th.getS d).val, true, true, false⟩)) ∧
      (a.toNat + ldBytes ty ≤ 0x180000 → (s.tileAt t).stores = [] → th.past = [] → s.staged = [] → dieOf t < 6 → s.lostDies = [] →
        s.loadOut t k l 0 = .bytes (s.mem.readBytes (tileLoc t a.toNat) (ldBytes ty)))) ∧
    (∀ (d : Reg) (w : Nat) (lanes : List (Nat × Word)) (bound : Bool) (g : Nat) (x : Option (List Byte)), l.dest = .vector d w lanes bound → g ∈ l.partsLeft →
      s.loadOut t k l g = (match x with
        | some bs => .bytes bs
        | none => .fatal) →
      let l' : LoadReq := { l with got := l.got ++ [(g, x)] }
      (l.partsLeft ≠ [g] → Completes (exec (.loadFill t k ⟨l.id, g⟩) s) fun u => u.mem = s.mem ∧
        u.thrAt t k = { th with loads := th.loads.map fun y => if y.id = l.id then l' else y }) ∧
      (l.partsLeft = [g] → Completes (exec (.loadFill t k ⟨l.id, g⟩) s) fun u => gone u ∧ (u.thrAt t k).s = th.s ∧
        (∀ r, r ≠ d → (u.thrAt t k).getV r = th.getV r) ∧
        (bound = false → (u.thrAt t k).getV d = match l'.whole with
          | some bs => ⟨setLanes w (th.getV d).val lanes bs, true, false, false⟩
          | none => ⟨(th.getV d).val, true, true, false⟩) ∧
        (∀ q, bound = true → d = streamReg q → (u.thrAt t k).getV d = th.getV d ∧ ∃ v : Vec,
          ((u.thrAt t k).binds[q]).buf = (th.binds[q]).buf.map fun e => if e.wait ≠ some l.id then e else match l'.whole with
            | some bs => { e with val := setLanes w e.val lanes bs, wait := none }
            | none => { e with val := v, poison := true, wait := none }))) ∧
    (∀ v : Nat, v < 2 ^ 64 →
      ldExtend .i8 v = (BitVec.ofNat 8 v).signExtend 64 ∧ ldExtend .i16 v = (BitVec.ofNat 16 v).signExtend 64 ∧
      ldExtend .i32 v = (BitVec.ofNat 32 v).signExtend 64 ∧ (ldExtend .n8 v).toNat = v ∧ (ldExtend .n16 v).toNat = v ∧
      (ldExtend .n32 v).toNat = v ∧ (ldExtend .i64 v).toNat = v)

/-- R117, R245 to R247 and R264: a store of the tile's own scratchpad that nothing holds back is performed: memory holds its bytes and is otherwise
unchanged, and ST falls. A release leaves once the earlier loads of its thread have returned and its earlier stores are acknowledged at
its scope, and with them the loads and stores that its acquires have put before it (R241). A store to another die is accepted by the die's bridge buffer and changes no
memory; ST falls then for a release at cluster or die scope. -/
def Obligations.StoresPerform : Prop :=
  ∀ (s : State) (t : TileId) (r : StoreReq), s.Inv → (s.tileAt t).stores.find? (fun x => x.id = r.id) = some r →
    (∀ a bs, r.pieces = [(a, bs)] → bs ≠ [] → a.toNat + bs.length ≤ 0x180000 → r.stage = .bank → r.counted = true → r.acked = false → r.homes = [] →
      (r.kind = .plain ∨ ∃ sc, r.kind = .release sc) → s.storeFree t r = true → s.staged = [] → dieOf t < 6 → s.lostDies = [] →
      (s.tileAt t).morePieces r = false →
      Completes (exec (.storeAck t r.id .performed) s) fun u =>
        (∀ l, u.mem.read l =
          if tileLoc t a.toNat ≤ l ∧ l < tileLoc t a.toNat + bs.length then bs.getD (l - tileLoc t a.toNat) 0 else s.mem.read l) ∧
        u.fe = s.fe ∧ (u.thrAt t r.slot).cntSt = (s.thrAt t r.slot).cntSt - 1 ∧
        (u.tileAt t).stores = (s.tileAt t).stores.filter fun q => q.id ≠ r.id) ∧
    (∀ hs, r.toDevice = false → s.storeFree t r = true → (s.tileAt t).laneBehind r .bridge = false → s.storeOut t r = .homes hs → s.nextStage t r = .bridge →
      Completes (exec (.storeAck t r.id .bridge) s) fun u => u.mem = s.mem ∧ u.fe = s.fe ∧
        (∃ q, (u.tileAt t).stores.find? (fun x => x.id = r.id) = some q ∧ q.stage = .bridge ∧ q.homes = hs ∧ q.pieces = r.pieces) ∧
        (r.kind = .plain → (u.thrAt t r.slot).cntSt = (s.thrAt t r.slot).cntSt) ∧
        (r.kind = .release .cluster ∨ r.kind = .release .die → r.counted = true → r.acked = false →
          (u.thrAt t r.slot).cntSt = (s.thrAt t r.slot).cntSt - 1)) ∧
    (∀ sc, r.kind = .release sc → r.waits = true → (s.tileAt t).pairing = none →
      (∀ l ∈ (s.thrAt t r.slot).loads, r.seq ≤ l.seq) →
      (∀ q ∈ (s.tileAt t).stores, q.slot = r.slot → q.seq < r.seq → s.ackedAt t sc q = true) →
      (∀ q ∈ r.past, match s.storeOf q with
        | some z => s.ackedAt q.1 sc z = true
        | none => s.loadOf q = none) →
      exec (.releaseLeaves t r.id) s =
        .next (s.modTile t fun x => { x with stores := x.stores.map fun q => if q.id = r.id then { q with waits := false } else q }))

/-- R260, R261, R266, R269, R276, R278, R189 and R191: an answered form that passes its checks sends its request and parks; nothing else changes, and its
answer retires it. A full/empty form of an aligned global address, an `arsv` while one is held (before any check of its address, which is the model's
choice, log 13), a `marm` of an address where nothing is, whose entry is left
invalid (in device space by the model's choice, log 70), and an NB form with a bad board, must-be-zero bit or buffer trap ENGINE_ERROR; a `marm` of device space and an `nbinit` in user mode trap PRIV. That `marm`
and `wadr` never meet a watchpoint is the model's choice (log 15). -/
def Obligations.RequestsSent : Prop :=
  ∀ (s : State) (d a b c : Reg) (x y w : Word), s.thr.holds a x → s.thr.holds b y → s.thr.holds c w → s.thr.free d →
    let sent (op : ReqOp) (d : Reg) (p : Park) : Out := .next (s.asked op d x p)
    let ok (z : Size) (load store write : Bool) : Prop := s.lets x (sizeBytes z) load store write
    let near : Prop := regionOf x ≠ 2
    (∀ z sc, ok z true false false → exec (.ldAcq z sc d a) s = sent (.acq z sc) d .wordFe) ∧
    (ok .w64 true true true → near → exec (.ldfe64 d a) s = sent (.ldfe .w64) d .wordFe) ∧
    (ok .w64 true false false → near → exec (.ldff64 d a) s = sent (.ldff .w64) d .wordFe) ∧
    (ok .w32 true true true → near → exec (.ldfe32 d a) s = sent (.ldfe .w32) d .wordFe) ∧
    (ok .w32 true false false → near → exec (.ldff32 d a) s = sent (.ldff .w32) d .wordFe) ∧
    (∀ z, ok z true true true → near → exec (.stef z b a) s = sent (.stef z y) 0 .wordFe ∧ exec (.stff z b a) s = sent (.stff z y) 0 .wordFe) ∧
    (ok .w32 true true true → near → exec (.ste a) s = sent .ste 0 .wordFe) ∧
    (¬near → let stops (o : Out) : Prop := o = .next (s.trapped .engineError x)
      (x.toNat % 8 = 0 → stops (exec (.ldfe64 d a) s) ∧ stops (exec (.ldff64 d a) s)) ∧
      (x.toNat % 4 = 0 → stops (exec (.ldfe32 d a) s) ∧ stops (exec (.ldff32 d a) s) ∧ stops (exec (.ste a) s)) ∧
      ∀ z : Size, x.toNat % sizeBytes z = 0 → stops (exec (.stef z b a) s) ∧ stops (exec (.stff z b a) s)) ∧
    (∀ z, s.thr.hold = none → ok z true false true → exec (.arsv z d a) s = sent (.arsv z) d .wordFe) ∧
    (∀ z h, s.thr.hold = some h → exec (.arsv z d a) s = .next (s.trapped .engineError h.addr)) ∧
    (∀ z, ok z true true true →
      exec (.aadd z d a b) s = sent (.rmw .add z y 0) d .wordFe ∧ exec (.amin z d a b) s = sent (.rmw .min z y 0) d .wordFe ∧
      exec (.amax z d a b) s = sent (.rmw .max z y 0) d .wordFe ∧ exec (.aminn z d a b) s = sent (.rmw .minn z y 0) d .wordFe ∧
      exec (.amaxn z d a b) s = sent (.rmw .maxn z y 0) d .wordFe ∧ exec (.aand z d a b) s = sent (.rmw .and z y 0) d .wordFe ∧
      exec (.aor z d a b) s = sent (.rmw .or z y 0) d .wordFe ∧ exec (.axor z d a b) s = sent (.rmw .xor z y 0) d .wordFe ∧
      exec (.axchg z d a b) s = sent (.rmw .xchg z y 0) d .wordFe ∧ exec (.aaddf z d a b) s = sent (.rmw .addf z y 0) d .wordFe ∧
      exec (.acas z d a b c) s = sent (.rmw .cas z y w) d .wordFe) ∧
    ((regionOf x = 3 → s.thr.sv = true) → s.noPlace x = false → ∀ e, exec (.marm a e) s = sent (.marm e) 0 .wordFe) ∧
    ((regionOf x = 3 → s.thr.sv = true) → s.noPlace x = true → s.thr.tvec ≠ 0 → ∀ e : Fin 4, Completes (exec (.marm a e) s) fun u =>
      (u.thr.monitors[e]).valid = false ∧ u.thr.pc = s.thr.tvec ∧ u.thr.epc = s.thr.pc ∧ u.thr.tval = x ∧
        u.thr.cause = BitVec.ofNat 64 Cause.engineError.code) ∧
    (regionOf x = 3 → s.thr.sv = false → ∀ e, exec (.marm a e) s = .next (s.trapped .priv x)) ∧
    ((regionOf x = 3 → s.thr.sv = true) →
      let z : Size := if w.getLsbD 63 then .w32 else .w64
      let n := w.toNat % 2 ^ 63
      x.toNat % sizeBytes z = 0 → exec (.wadr d a b c) s =
        sent (.wadr z (BitVec.ofNat 64 (y.toNat % 2 ^ (8 * sizeBytes z))) (if n = 0 then none else some (s.tile.cycle.toNat + n))) d .wadr) ∧
    (s.thr.sv = false → exec (.nbinit d a b c) s = .next (s.trapped .priv (Instr.tvalWord (.nbinit d a b c)))) ∧
    let bad (o : Out) (v : Word) : Prop := o = .next (s.trapped .engineError v)
    (boardOf x = none → bad (exec (.nbpost d a b c) s) x ∧ bad (exec (.nbview d a c) s) x ∧ bad (exec (.nbadv d a b) s) x ∧
      (s.thr.sv = true → bad (exec (.nbinit d a b c) s) x)) ∧
    ((boardOf x).isSome →
      let buf := w.toNat / 2 ^ 32 % 2 ^ 21
      let room : Prop := buf % 64 = 0 ∧ buf < 0x17FFC0 ∧ s.tile.watched (BitVec.ofNat 64 buf) 128 false true = false ∧
        s.fretHolds s.curTile (s.ownBytes (BitVec.ofNat 64 buf) 128) true = false
      (w &&& ~~~0x1FFFFF000003FF#64 ≠ 0 ∨ buf % 64 ≠ 0 ∨ 0x17FFC0 ≤ buf → bad (exec (.nbpost d a b c) s) w) ∧
      (w &&& ~~~0x1FFFFF0000801F#64 ≠ 0 ∨ buf % 64 ≠ 0 ∨ 0x17FFC0 ≤ buf → bad (exec (.nbview d a c) s) w) ∧
      (2 ^ 32 ≤ y.toNat → bad (exec (.nbadv d a b) s) y) ∧
      (s.thr.sv = true → (y &&& ~~~0x7FF07FF#64 ≠ 0 → bad (exec (.nbinit d a b c) s) y) ∧
        (y &&& ~~~0x7FF07FF#64 = 0 → 2 ^ 32 ≤ w.toNat → bad (exec (.nbinit d a b c) s) w)) ∧
      (w &&& ~~~0x1FFFFF000003FF#64 = 0 → room → exec (.nbpost d a b c) s =
        sent (.nb (.post (w.toNat % 1024) (y.extractLsb' 32 32) (y.extractLsb' 0 32) buf)) d .wordFe) ∧
      (w &&& ~~~0x1FFFFF0000801F#64 = 0 → room → exec (.nbview d a c) s = sent (.nb (.view (w.getLsbD 15) (w.toNat % 32) buf)) d .wordFe) ∧
      (y.toNat < 2 ^ 32 → exec (.nbadv d a b) s = sent (.nb (.adv (y.extractLsb' 0 32))) d .wordFe) ∧
      (s.thr.sv = true → y &&& ~~~0x7FF07FF#64 = 0 → w.toNat < 2 ^ 32 → exec (.nbinit d a b c) s =
        sent (.nb (.init (y.toNat % 2048) (y.toNat / 65536 % 2048) (w.extractLsb' 0 32))) d .wordFe))

/-- R234, R242, R265, R266, R268, R269 and R270: requests of a word of 4 or 8 bytes in the tile's own scratchpad reach it, and keep the homes of its bytes. A free
word grants an atomic at once: it is written with the new value and the old one is the answer; it grants an `arsv` the hold. An `ldfe` of full words empties them
and an `ldff` leaves them full; an `stef` of empty words writes and fills them, an `stff` writes and fills whatever their state, and an `ste` empties its word and
writes nothing; a form whose condition does not hold changes nothing and is placed on the bank's list. -/
def Obligations.RequestsReachHome : Prop :=
  ∀ (s : State) (t : TileId) (k : Slot) (r : Req) (z : Size), s.Inv → (s.thrAt t k).req = some r → r.stage = .sent → (s.tileAt t).pairing = none →
    r.held = [] → r.homes = [] → (s.thrAt t k).loads = [] → (s.thrAt t k).past = [] →
    let n := sizeBytes z
    r.addr.toNat + n ≤ 0x180000 → r.addr.toNat % n = 0 → dieOf t < 6 → s.lostDies = [] → s.staged = [] → (s.tileAt t).stores = [] → s.waiters = [] →
    let l := tileLoc t r.addr.toNat
    let old := s.mem.readNat l n
    let mine (w : Nat) : Prop := l ≤ 4 * w ∧ 4 * w < l + n
    let full : Prop := ∀ w, mine w → feFull w s.fe = true
    let empty : Prop := ∀ w, mine w → feFull w s.fe = false
    let arrived (st : List Home → ReqStage) (u : State) : Prop := ∃ hs : List Home, hs.map (·.loc) = (List.range n).map (fun i => l + i) ∧
      (u.thrAt t k).req = some { r with stage := st hs, homes := hs }
    let answered (v : Nat) (u : State) : Prop := arrived (fun _ => .answered (.value (BitVec.ofNat 64 v) 0)) u
    let listed (u : State) : Prop := u.mem = s.mem ∧ u.fe = s.fe ∧ arrived (fun _ => .listed) u ∧
      ∃ w, (u.tileAt t).waitList = [w] ∧ w.tile = t ∧ w.slot = k ∧ w.loc = l
    let written (v : Nat) (u : State) : Prop := ∀ j, u.mem.read j = if l ≤ j ∧ j < l + n then BitVec.ofNat 8 (v / 256 ^ (j - l)) else s.mem.read j
    let filled (b : Bool) (u : State) : Prop := ∀ w, (mine w → feFull w u.fe = b) ∧ (¬mine w → feFull w u.fe = feFull w s.fe)
    let free : Prop := ∀ q ∈ s.resvs, ¬(q.loc = l ∧ q.size = z)
    let here (P : State → Prop) : Prop := Completes (exec (.homeAccess t k) s) P
    (∀ op b c, r.op = .rmw op z b c → free →
      let x := rmwValue op n old (b.toNat % 2 ^ (8 * n)) (c.toNat % 2 ^ (8 * n))
      here fun u => written x.1 u ∧ u.fe = s.fe ∧ arrived (fun _ => .answered (.value (BitVec.ofNat 64 old) x.2.bits)) u) ∧
    (r.op = .arsv z → free → here fun u => u.mem = s.mem ∧ u.fe = s.fe ∧ arrived (fun hs => .answered (.granted (BitVec.ofNat 64 old) hs)) u ∧
      (u.resvAt l z).holder = some (t, k)) ∧
    (∀ sc, r.op = .acq z sc → here fun u => u.mem = s.mem ∧ u.fe = s.fe ∧ answered old u) ∧
    (r.op = .ldfe z → (full → here fun u => u.mem = s.mem ∧ filled false u ∧ answered old u) ∧ (¬full → here listed)) ∧
    (r.op = .ldff z → (full → here fun u => u.mem = s.mem ∧ u.fe = s.fe ∧ answered old u) ∧ (¬full → here listed)) ∧
    (∀ v, r.op = .stef z v → (empty → here fun u => written v.toNat u ∧ filled true u ∧ answered 0 u) ∧ (¬empty → here listed)) ∧
    (∀ v, r.op = .stff z v → here fun u => written v.toNat u ∧ filled true u ∧ answered 0 u) ∧
    (r.op = .ste → z = .w32 → here fun u => u.mem = s.mem ∧ filled false u ∧ answered 0 u)

/-- R270: the new value of each atomic, on words of n bytes. -/
def Obligations.AtomicValues : Prop :=
  ∀ (n old b c : Nat), n = 4 ∨ n = 8 → old < 2 ^ (8 * n) → b < 2 ^ (8 * n) → c < 2 ^ (8 * n) →
    let v (op : Rmw) : Nat := (rmwValue op n old b c).1
    let S (x : Nat) : Int := (BitVec.ofNat (8 * n) x).toInt
    v .add = (old + b) % 2 ^ (8 * n) ∧ S (v .min) = min (S old) (S b) ∧ S (v .max) = max (S old) (S b) ∧ v .minn = min old b ∧ v .maxn = max old b ∧
    v .and = old &&& b ∧ v .or = old ||| b ∧ v .xor = old ^^^ b ∧ v .xchg = b ∧ v .cas = (if old = b then c else old) ∧
    rmwValue .addf n old b c = (if n = 4 then f32 else f64).add .rne old b ∧ ∀ op, v op < 2 ^ (8 * n)

/-- R260, R263, R266, R269, R278, R189, R381 and R388: on a die that is not halted, with no bridge between, the answer of a form retires it with its value, with poison, or with the
reservation held, or traps: ENGINE_ERROR where a board rejects an operation and where a `marm` meets a fatal address, which leaves its entry invalid, STORE_FAULT
where a store does (R127). -/
def Obligations.AnswersRetire : Prop :=
  ∀ (s : State) (t : TileId) (k : Slot) (r : Req) (a : Answer), (s.thrAt t k).req = some r → r.stage = .answered a → (s.tileAt t).pairing = none →
    s.dieHalted t = false → s.answerOpen t r = true →
    let th := s.thrAt t k
    let through (u : State) (x : SReg) : Prop := u.mem = s.mem ∧ u.fe = s.fe ∧
      let z := u.thrAt t k
      z.pc = th.pc + 4 ∧ z.instret = th.instret + 1 ∧ z.req = none ∧ z.run = .ready ∧ (∀ q, q ≠ r.d → z.getS q = th.getS q) ∧
        (r.d ≠ 0 → z.getS r.d = x) ∧ ∀ j, j ≠ k → u.thrAt t j = s.thrAt t j
    (∀ v fl, a = .value v fl → r.op.writesReg = true → Completes (exec (.answer t k) s) fun u =>
      through u ⟨v, true, false, false⟩ ∧ (u.thrAt t k).fpcsr = th.fpcsr ||| fl) ∧
    (∀ v fl, a = .value v fl → r.op.writesReg = false → Completes (exec (.answer t k) s) fun u => through u (th.getS r.d)) ∧
    (a = .poison → Completes (exec (.answer t k) s) fun u => through u ⟨(th.getS r.d).val, true, true, false⟩) ∧
    (∀ v hs z, a = .granted v hs → r.op = .arsv z → Completes (exec (.answer t k) s) fun u =>
      through u ⟨v, true, false, false⟩ ∧ (u.thrAt t k).hold = some ⟨r.addr, z, hs, (s.tileAt t).cycle.toNat + Config.grantClocks⟩) ∧
    (∀ ls, a = .armed ls → Completes (exec (.answer t k) s) fun u => through u (th.getS r.d)) ∧
    (∀ st, a = .board st none → Completes (exec (.answer t k) s) fun u => through u ⟨st, true, false, false⟩) ∧
    (∀ st bs op b, a = .board st (some bs) → r.op = .nb op → op.buf = some b → s.imageHeld t k r a = false → s.Inv → s.staged = [] →
      Completes (exec (.answer t k) s) fun u => (u.thrAt t k).pc = th.pc + 4 ∧ (r.d ≠ 0 → (u.thrAt t k).getS r.d = ⟨st, true, false, false⟩) ∧
        ∀ l, u.mem.read l = if tileLoc t b ≤ l ∧ l < tileLoc t b + bs.length then bs.getD (l - tileLoc t b) 0 else s.mem.read l) ∧
    let trapped (c : Word) (u : State) : Prop := u.mem = s.mem ∧ u.fe = s.fe ∧
      let z := u.thrAt t k
      z.pc = th.tvec ∧ z.epc = th.pc ∧ z.cause = c ∧ z.tval = r.addr ∧ z.req = none ∧ z.instret = th.instret ∧ ∀ q, z.getS q = th.getS q
    (a = .missing → th.tvec ≠ 0 → Completes (exec (.answer t k) s) (trapped 0x13)) ∧
    (a = .fault → th.tvec ≠ 0 → (∀ e, r.op ≠ .marm e) → Completes (exec (.answer t k) s) (trapped 0x06)) ∧
    (∀ e : Fin 4, a = .fault → th.tvec ≠ 0 → r.op = .marm e → Completes (exec (.answer t k) s) fun u =>
      trapped 0x13 u ∧ ((u.thrAt t k).monitors[e]).valid = false)

-- Fences, waits, CSRs, traps (spec/05_scalar_instructions.md, spec/12_memory_instructions.md, spec/18_faults_preemption.md)

/-- R124, R127, R243, R247, R248, R250, R273 and R274: a `wait` within its limits, and a fence whose accesses have returned or are acknowledged, retires
when no store fault is to be reported; else it parks under WAIT. A `wait` that covers stores, a `fence` and a `fence.st` trap STORE_FAULT instead where a
fault is to be reported: the oldest of those none of whose instruction's stores is still listed, which then counts as reported. An `xfence` retires
with the staged bytes of its tile's complete operations in
its scope committed, and with each the tile's older staged writes of that byte; other staged writes stay; it parks only while a bridge keeps such a byte from being
committed (R388; log 22). `fence.i` parks until its thread's stores are acknowledged and the homes of the locked lines are reached, and then leaves no unlocked line in
the cache. That `fence.st` parks is R274; R248 lets later loads go on (log 67). -/
def Obligations.FencesRetire : Prop :=
  ∀ (s : State) (sc : Scope) (tl cp st ld : BitVec 4),
    let th := s.thr
    let back : Prop := ∀ l ∈ th.loads, th.seq ≤ l.seq
    let acked (sc : Scope) : Prop := ∀ r ∈ s.tile.stores, r.slot = s.curSlot → r.seq < th.seq → s.ackedAt s.curTile sc r = true
    let low (n : Nat) (x : BitVec 4) : Prop := x = 15 ∨ n ≤ x.toNat
    let met : Prop := low th.cntLd ld ∧ low th.cntSt st ∧ low th.cntCp cp ∧ low th.cntTl tl
    let fenced (e : Staged) : Bool := e.tile = s.curTile && e.done && s.inScope s.curTile sc e.loc
    let out (f : StoreFault) : Prop := f ∈ th.faults ∧ ∀ r ∈ s.tile.stores, r.slot = s.curSlot → r.seq ≠ f.seq
    let report (f : StoreFault) (o : Out) : Prop :=
      o = .next ((s.modThr fun z => { z with faults := z.faults.filter fun g => g.seq ≠ f.seq }).trapped .storeFault f.addr)
    (∀ f, out f → (∀ g, out g → f.seq < g.seq ∨ (f.seq = g.seq ∧ f.id < g.id) ∨ f = g) →
      (met → st ≠ 15 → report f (exec (.wait tl cp st ld) s)) ∧
      (back ∧ acked sc → report f (exec (.fence sc) s)) ∧
      (acked sc → report f (exec (.fenceSt sc) s))) ∧
    (met → st = 15 → exec (.wait tl cp st ld) s = .next (s.done [])) ∧
    ((∀ f, ¬out f) →
      (met → exec (.wait tl cp st ld) s = .next (s.done [])) ∧
      (back ∧ acked sc → exec (.fence sc) s = .next (s.done [])) ∧
      (acked sc → exec (.fenceSt sc) s = .next (s.done []))) ∧
    (¬met → exec (.wait tl cp st ld) s = .next (s.parked .wait)) ∧
    (¬(back ∧ acked sc) → exec (.fence sc) s = .next (s.parked .wait)) ∧
    (¬acked sc → exec (.fenceSt sc) s = .next (s.parked .wait)) ∧
    (back → exec (.fenceLd sc) s = .next (s.done [])) ∧
    (¬back → exec (.fenceLd sc) s = .next (s.parked .wait)) ∧
    (acked .domain → s.refetchOpen s.curTile = true →
      Completes (exec .fenceI s) fun u => s.onward u ∧ u.mem = s.mem ∧ u.fe = s.fe ∧ ∀ l ∈ u.tile.icache, l.locked = true) ∧
    (¬acked .domain ∨ s.refetchOpen s.curTile = false → exec .fenceI s = .next (s.parked .wait)) ∧
    ((∃ e ∈ s.staged, fenced e = true ∧ s.commitOpen s.curTile e.loc = false) → Completes (exec (.xfence sc) s) fun u =>
      u.thr.run = .parked .wait ∧ u.thr.pc = s.thr.pc ∧ (∀ e ∈ s.staged, e.tile ≠ s.curTile ∨ s.commitOpen s.curTile e.loc = false → e ∈ u.staged) ∧
        ∀ e ∈ u.staged, e ∈ s.staged ∧ (fenced e = true → s.commitOpen s.curTile e.loc = false)) ∧
    (s.Inv → (∀ e ∈ s.staged, fenced e = true → s.commitOpen s.curTile e.loc = true) → Completes (exec (.xfence sc) s) fun u => s.onward u ∧ u.fe = s.fe ∧
      (∀ e ∈ u.staged, e ∈ s.staged ∧ fenced e = false) ∧
      (∀ e ∈ s.staged, e ∈ u.staged ∨ (e.tile = s.curTile ∧ ∃ f ∈ s.staged, fenced f = true ∧ f.loc = e.loc)) ∧
      ∀ l, u.mem.read l = match lastWhere (fun e => fenced e && e.loc = l) s.staged with
        | some e => e.val
        | none => s.mem.read l)

/-- R37 to R39, R43 to R45, R121, R122 and R366: a CSR instruction reads the old value into s[d] and writes the new one, of which each register keeps its
legal bits; an FRM of 4 to 7 keeps the field, `vtime` never falls and stops at the least step of an open promise, `pid` is that of every tile of the gang,
and a CHUNK or PAIR of `mxstate` out of its range keeps the field. Nothing else changes. An unallocated number and a write of a read-only one trap
ILLEGAL, a supervisor number in user mode traps PRIV, each with the word. -/
def Obligations.CsrAccess : Prop :=
  ∀ (s : State) (d a : Reg) (x : Word) (n : BitVec 12), s.thr.holds a x → s.thr.free d →
    let ok (w : Bool) : Prop := csrAllocated n.toNat = true ∧ (csrSupervisor n.toNat = true → s.thr.sv = true) ∧ (w = true → csrReadOnly n.toNat = false)
    let old := s.csrRead n.toNat
    let at_ (m : BitVec 12) (v o : Word) : Word := if n = m then v else o
    let wrote (v : Word) (u : State) : Prop :=
      u.mem = s.mem ∧ u.fe = s.fe ∧ u.staged = s.staged ∧ u.thr.pc = s.thr.pc + 4 ∧ u.thr.instret = s.thr.instret + 1 ∧
      (d ≠ 0 → u.thr.getS d = ⟨old, true, false, false⟩) ∧ (∀ r, r ≠ d → u.thr.getS r = s.thr.getS r) ∧ u.thr.v = s.thr.v ∧ u.thr.g = s.thr.g ∧
      u.thr.fpcsr = at_ 0x400 ((v &&& 0x1F) ||| (if v.getLsbD 7 then s.thr.fpcsr &&& 0xE0 else v &&& 0xE0)) s.thr.fpcsr ∧
      u.thr.vstat = at_ 0x401 (v &&& 0xFF) s.thr.vstat ∧ u.thr.status = at_ 0x800 (v &&& 0x3F) s.thr.status ∧
      u.thr.epc = at_ 0x801 (v &&& ~~~3#64) s.thr.epc ∧ u.thr.cause = at_ 0x802 (v &&& 0x80000000000000FF#64) s.thr.cause ∧
      u.thr.tval = at_ 0x803 v s.thr.tval ∧ u.thr.tvec = at_ 0x804 (v &&& ~~~3#64) s.thr.tvec ∧ u.thr.tmcmp = at_ 0x805 v s.thr.tmcmp ∧
      u.thr.scratch0 = at_ 0x809 v s.thr.scratch0 ∧ u.thr.scratch1 = at_ 0x80A v s.thr.scratch1 ∧
      (u.tile.vtime.toNat = if n = 0x402 then max s.tile.vtime.toNat ((s.tile.promises.map fun p => p.step.toNat).foldl min v.toNat) else s.tile.vtime.toNat) ∧
      (∀ t, (u.tileAt t).pid = if n = 0x807 ∧ t ∈ s.gangTiles s.curTile then v.setWidth 16 else (s.tileAt t).pid) ∧
      (n ≠ 0x806 ∨ s.tile.frozen = false → u.tile.ops = s.tile.ops) ∧
      ∀ e f sp p q ctl md cmd, n = 0x806 → s.tile.frozen = true → s.headOp s.curTile = some e → e.req.op = .mma f sp p q ctl md cmd →
        ∃ o, u.headOp s.curTile = some o ∧ o.req = e.req ∧ o.state = e.state ∧
          let chunk := v.toNat / 2 ^ 32 % 64
          let pair := v.toNat / 2 ^ 40 % 8
          (o.quadOf s.curTile).chunk = (if chunk < mmaChunks f (ctlK ctl) then chunk else (e.quadOf s.curTile).chunk) ∧
          (o.quadOf s.curTile).pair = if pair < mmaPairs f then pair else (e.quadOf s.curTile).pair
    (ok false → exec (.csrr d n) s = .next (s.wrote d old)) ∧
    (ok true → Completes (exec (.csrw d n a) s) (wrote x)) ∧
    (a ≠ 0 → ok true → Completes (exec (.csrs d n a) s) (wrote (old ||| x)) ∧ Completes (exec (.csrc d n a) s) (wrote (old &&& ~~~x))) ∧
    (a = 0 → ok false → exec (.csrs d n a) s = .next (s.wrote d old) ∧ exec (.csrc d n a) s = .next (s.wrote d old)) ∧
    (∀ p ∈ [(Instr.csrr d n, false), (Instr.csrw d n a, true), (Instr.csrs d n a, a != 0), (Instr.csrc d n a, a != 0)],
      (csrAllocated n.toNat = false → exec p.1 s = .next (s.trapped .illegal p.1.tvalWord)) ∧
      (csrAllocated n.toNat = true → csrSupervisor n.toNat = true → s.thr.sv = false → exec p.1 s = .next (s.trapped .priv p.1.tvalWord)) ∧
      (csrAllocated n.toNat = true → (csrSupervisor n.toNat = true → s.thr.sv = true) → p.2 = true → csrReadOnly n.toNat = true →
        exec p.1 s = .next (s.trapped .illegal p.1.tvalWord)))

/-- R28, R42, R354, R356, R357 and R359: in a thread with a handler `sys n` and `brk n` complete by entering it, with their causes, the address of their word in
`epc` and n in `tval`, and count in no `instret`; an `eret` in the handler goes back to that word, in the mode and with the enable that the thread had, and counts.
Taking any trap saves the PC, the cause, SKIP and the two mode bits, enters supervisor mode with traps off, and goes to `tvec`; with `tvec` zero the thread is
killed instead. `eret` goes to `epc` and restores what was saved; in user mode it traps PRIV. Memory and the registers stay as they are. -/
def Obligations.TrapsAndReturns : Prop :=
  ∀ (s : State) (n : BitVec 5) (c : Cause) (v : Word),
    let stands (u : State) : Prop := u.mem = s.mem ∧ u.fe = s.fe ∧ u.thr.s = s.thr.s ∧ u.thr.v = s.thr.v ∧ u.thr.g = s.thr.g
    let entered (c : Word) (u : State) : Prop := stands u ∧ u.thr.pc = s.thr.tvec ∧ u.thr.epc = s.thr.pc ∧ u.thr.cause = c ∧ u.thr.tval = n.setWidth 64 ∧
      u.thr.sv = true ∧ u.thr.aie = false ∧ u.thr.instret = s.thr.instret ∧ u.thr.run = .ready
    let back (u : State) : Prop := Completes (exec .eret u) fun z => stands z ∧ z.thr.pc = s.thr.pc ∧ z.thr.sv = s.thr.sv ∧ z.thr.aie = s.thr.aie ∧
      z.thr.shadow = 0 ∧ z.thr.instret = s.thr.instret + 1 ∧ z.thr.run = .ready
    (s.thr.tvec ≠ 0 → Completes (exec (.sys n) s) (fun u => entered 0x0B u ∧ back u) ∧ Completes (exec (.brk n) s) fun u => entered 0x0A u ∧ back u) ∧
    exec (.sys n) s = .next (s.trapped .syscall (n.setWidth 64)) ∧ exec (.brk n) s = .next (s.trapped .break (n.setWidth 64)) ∧
    (s.thr.tvec ≠ 0 →
      let u := s.trapped c v
      u.thr = { s.thr with
        epc := s.thr.pc, cause := BitVec.ofNat 64 c.code, tval := v, pc := s.thr.tvec, run := .ready, shadow := 0, fetched := none, sleep := none, met := none
        status := (if s.thr.status.getLsbD 2 then 8 else 0) ||| (if s.thr.status.getLsbD 0 then 2 else 0) ||| 1 } ∧
      u.mem = s.mem ∧ u.fe = s.fe ∧ (∀ k, k ≠ s.curSlot → u.thrAt s.curTile k = s.thrAt s.curTile k) ∧
      ∀ t, t ≠ s.curTile → u.tileAt t = s.tileAt t) ∧
    (s.thr.tvec = 0 → s.trapped c v = s.kill s.curTile s.curSlot 3 (BitVec.ofNat 64 c.code)) ∧
    (s.thr.sv = false → exec .eret s = .next (s.trapped .priv Instr.eret.tvalWord)) ∧
    (s.thr.sv = true → Completes (exec .eret s) fun u => stands u ∧
      u.thr.pc = s.thr.epc ∧ u.thr.shadow = s.thr.status.toNat / 16 % 4 ∧ u.thr.instret = s.thr.instret + 1 ∧ u.thr.run = .ready ∧
      u.thr.status = (s.thr.status &&& 10) ||| (if s.thr.status.getLsbD 1 then 1 else 0) ||| (if s.thr.status.getLsbD 3 then 4 else 0))

/-- R364, R368, R370, R371, R374 and R378: the privileged slot and sequencer instructions. `tkill` kills another slot and its system entry says by whom; `scrub` empties
a killed slot and traps ENGINE_ERROR on any other; `mxfrz` freezes a sequencer whose head is no running accumulator operation, `mxthaw` lets a frozen one go on and leaves a freeze that is still to come; `pair` of a tile that can pair
parks; `fprt` and `unpair` end the interval of a pair and park, and retire when it has agreed; on a tile that is not paired they retire and do nothing else. -/
def Obligations.SlotsAndSequencer : Prop :=
  ∀ (s : State) (a d : Reg) (x : Word), s.thr.holds a x →
    let k : Slot := Fin.ofNat 8 x.toNat
    let named : Prop := x.toNat < 8 ∧ k ≠ 0 ∧ k ≠ s.curSlot
    let old := s.thrAt s.curTile k
    let ends (o : Out) (by_ : Option Slot) : Prop :=
      (s.tile.pairing = none ∨ s.isMet = true → o = .next (s.goesOn.done [])) ∧
      (∀ p, s.tile.pairing = some p → s.isMet = false → Completes o fun u => u.thr = { s.thr with run := .parked .wait } ∧ u.mem = s.mem ∧ u.fe = s.fe ∧
        u.tile.pairing = some { p with ending := true, unpair := by_.or p.unpair } ∧ ∀ j, j ≠ s.curSlot → u.thrAt s.curTile j = s.thrAt s.curTile j)
    ends (exec .fprt s) none ∧
    (s.thr.sv = true →
      ends (exec .unpair s) (some s.curSlot) ∧
      (named → old.run ≠ .empty → old.run ≠ .killed → Completes (exec (.tkill a) s) fun u => s.onward u ∧ u.mem = s.mem ∧ u.fe = s.fe ∧
        let z := u.thrAt s.curTile k
        z.run = .killed ∧ (∀ r, z.getS r = Thread.reset.getS r) ∧ z.hold = none ∧ z.req = none ∧ z.tvec = 0 ∧
        ∃ e, u.tile.heldEnts.getLast? = some e ∧ e.lo = BitVec.ofNat 64 (2 * 256 + k.val) ∧ e.hi = BitVec.ofNat 64 s.curSlot.val) ∧
      (named → old.run = .empty ∨ old.run = .killed → exec (.tkill a) s = .next (s.done [x])) ∧
      (named → old.run = .killed → Completes (exec (.scrub a) s) fun u => s.onward u ∧ u.mem = s.mem ∧ u.thrAt s.curTile k = { Thread.reset with seq := old.seq }) ∧
      (named → old.run ≠ .killed → exec (.scrub a) s = .next (s.trapped .engineError x)) ∧
      (¬named → exec (.tkill a) s = .next (s.trapped .engineError x) ∧ exec (.scrub a) s = .next (s.trapped .engineError x)) ∧
      (s.headBusy s.curTile = false → Completes (exec .mxfrz s) fun u => s.onward u ∧ u.tile.frozen = true ∧ u.mem = s.mem) ∧
      (s.headBusy s.curTile = true → s.tile.frozen = false → Completes (exec .mxfrz s) fun u => u.thr.run = .parked .wait ∧ u.tile.freezing = true ∧ u.mem = s.mem) ∧
      Completes (exec .mxthaw s) (fun u => s.onward u ∧ u.tile.frozen = false ∧ u.tile.freezing = s.tile.freezing ∧ u.mem = s.mem) ∧
      (s.thr.free d → x = 0 ∨ (10 ≤ x.toNat ∧ x.toNat ≤ 16) → s.curTile % 2 = 0 → s.tile.pairing = none → (s.tileAt (s.curTile + 1)).canPair = true →
        s.isMet = false → exec (.pair d a) s = .next (s.parked .wait))) ∧
    (s.thr.sv = false → exec (.tkill a) s = .next (s.trapped .priv (Instr.tkill a).tvalWord) ∧ exec .mxfrz s = .next (s.trapped .priv Instr.mxfrz.tvalWord) ∧
      exec .unpair s = .next (s.trapped .priv Instr.unpair.tvalWord))

-- Streams, synchronisation, messages (spec/07_vector_instructions.md, spec/08_parallel_execution.md, spec/09_sync_instructions.md)

/-- R155 to R160: binding a stream register that is free to be bound, releasing one that has drained, and its status word, of every kind. A bound one is misuse, and
bad operand words of a free one trap, those of `sbind.mem` in R156's order. That a channel may be bound on which receives are pending is the model's choice (log 66). -/
def Obligations.StreamsBind : Prop :=
  ∀ (s : State) (q : StreamReg) (d a b c : Reg) (x y w : Word), s.thr.holds a x → s.thr.holds b y → s.thr.holds c w →
    let old := s.thr.binds[q]
    let free : Prop := old.kind = .unbound ∧ (s.thr.getV (streamReg q)).pend = false
    (free → w.toNat < 2 ^ 33 → regionOf x ≠ 3 → x.toNat % 4 = 0 → y.toNat % 4 = 0 → s.tile.eyelets.length < 4 →
      Completes (exec (.sbindMem q a b c) s) fun u => s.onward u ∧ u.mem = s.mem ∧ u.thr.v = s.thr.v ∧
        let z := u.thr.binds[q]
        z.kind = (if w.getLsbD 32 then .memWrite else .memRead) ∧ z.base = x ∧ z.stride = y ∧ z.count = w.toNat % 2 ^ 32 ∧ z.pos = 0 ∧ z.buf = [] ∧
        ∃ r, u.tile.eyelets = s.tile.eyelets ++ [r] ∧ r.op = .bind q ∧ r.slot = s.curSlot) ∧
    (free → x.toNat < 8 → x ≠ 0 → (s.tile.channels[(Fin.ofNat 8 x.toNat : Fin 8)]).bound = none →
      Completes (exec (.sbindCh q a) s) fun u => s.onward u ∧ u.mem = s.mem ∧ (u.thr.binds[q]).kind = .chan ∧
        (u.tile.channels[(Fin.ofNat 8 x.toNat : Fin 8)]).bound = some (s.curSlot, q) ∧
        (u.tile.channels[(Fin.ofNat 8 x.toNat : Fin 8)]).entries = (s.tile.channels[(Fin.ofNat 8 x.toNat : Fin 8)]).entries) ∧
    (free → s.outBindOk s.curTile x y = true → Completes (exec (.sbindOut q a b) s) fun u => s.onward u ∧ u.mem = s.mem ∧
        (u.thr.binds[q]).kind = .out ∧ (u.thr.binds[q]).outTile = x.toNat / 2 ^ 32 % 2 ^ 11 ∧ (u.thr.binds[q]).pos = 0) ∧
    (free →
      (2 ^ 33 ≤ w.toNat → exec (.sbindMem q a b c) s = .next (s.trapped .engineError w)) ∧
      (w.toNat < 2 ^ 33 → regionOf x = 3 → exec (.sbindMem q a b c) s = .next (s.trapped .engineError x)) ∧
      (w.toNat < 2 ^ 33 → regionOf x ≠ 3 → x.toNat % 4 ≠ 0 ∨ y.toNat % 4 ≠ 0 → exec (.sbindMem q a b c) s = .next (s.trapped .misalign x)) ∧
      (w.toNat < 2 ^ 33 → regionOf x ≠ 3 → x.toNat % 4 = 0 → y.toNat % 4 = 0 → 4 ≤ s.tile.eyelets.length → exec (.sbindMem q a b c) s = .next (s.parked .eyelet)) ∧
      (8 ≤ x.toNat ∨ x = 0 ∨ (s.tile.channels[(Fin.ofNat 8 x.toNat : Fin 8)]).bound.isSome = true → exec (.sbindCh q a) s = .next (s.trapped .engineError x)) ∧
      (s.outBindOk s.curTile x y = false → exec (.sbindOut q a b) s = .next (s.trapped .engineError x))) ∧
    (old.kind ≠ .unbound → exec (.sbindMem q a b c) s = .next (s.trapped .engineError (24 + BitVec.ofNat 64 q.val)) ∧
      exec (.sbindCh q a) s = .next (s.trapped .engineError (24 + BitVec.ofNat 64 q.val)) ∧
      exec (.sbindOut q a b) s = .next (s.trapped .engineError (24 + BitVec.ofNat 64 q.val))) ∧
    (old.kind = .unbound → exec (.sunbind q) s = .next (s.done [])) ∧
    (old.kind ≠ .unbound → old.drained = true → Completes (exec (.sunbind q) s) fun u => s.onward u ∧ u.mem = s.mem ∧
      (u.thr.binds[q]).kind = .unbound ∧ (u.thr.getV (streamReg q)).full = false) ∧
    (old.drained = false → exec (.sunbind q) s = .next (s.parked (.streamDrain q))) ∧
    let ch : Fin 8 := Fin.ofNat 8 old.base.toNat
    let held : Nat := if old.kind = .chan then s.tile.gathered ch else old.buf.length
    (s.thr.free d → held ≤ 4 → ∃ v : Word, exec (.sstat d q) s = .next (s.wrote d v) ∧ v.toNat % 8 = kindCode old.kind ∧ v.toNat / 16 % 2 ^ 28 = held ∧
      v.toNat / 2 ^ 32 = (if old.kind = .memRead ∨ old.kind = .memWrite then old.count - old.pos else 0) ∧
      (v.getLsbD 3 = true ↔ (old.kind = .memRead ∧ old.buf ≠ []) ∨ (old.kind = .chan ∧ s.tile.chanHead ch ≠ none)))

/-- R186 to R190 and R172: register full/empty forms and `mdis`; an `mslp` with an entry written answers at once, with no entry armed and no timeout answers
0x200, and else sleeps, its answer due when it wakes. -/
def Obligations.FullEmptyAndMonitors : Prop :=
  ∀ (s : State) (d a : Reg) (x : Word) (m : BitVec 4),
    let th := s.thr
    let unbound (r : Reg) : Prop := (th.bindOf r).kind = .unbound
    (exec (.fef .scalar 0) s = .next (s.done []) ∧ exec (.fee .scalar 0) s = .next (s.done [])) ∧
    (d ≠ 0 → (th.getS d).pend = false →
      Completes (exec (.fef .scalar d) s) (fun u => s.onward u ∧ u.mem = s.mem ∧ u.thr.getS d = { th.getS d with full := true } ∧ ∀ r, r ≠ d → u.thr.getS r = th.getS r) ∧
      Completes (exec (.fee .scalar d) s) (fun u => s.onward u ∧ u.mem = s.mem ∧ u.thr.getS d = { th.getS d with full := false, poison := false } ∧
        ∀ r, r ≠ d → u.thr.getS r = th.getS r)) ∧
    (unbound d → (th.getV d).pend = false →
      Completes (exec (.fef .vector d) s) (fun u => s.onward u ∧ u.mem = s.mem ∧ u.thr.getV d = { th.getV d with full := true }) ∧
      Completes (exec (.fee .vector d) s) (fun u => s.onward u ∧ u.mem = s.mem ∧ u.thr.getV d = { th.getV d with full := false, poison := false })) ∧
    (s.thr.free d →
      let bits (f p q : Bool) : Word := BitVec.ofNat 64 (f.toNat + 2 * p.toNat + 4 * q.toNat)
      exec (.feqReg .scalar d a) s = .next (s.wrote d (bits (th.getS a).full (th.getS a).pend (th.getS a).poison)) ∧
      (unbound a → exec (.feqReg .vector d a) s = .next (s.wrote d (bits (th.getV a).full (th.getV a).pend (th.getV a).poison)))) ∧
    Completes (exec (.mdis m) s) (fun u => s.onward u ∧ u.mem = s.mem ∧ u.thr.s = th.s ∧
      ∀ e : Fin 4, (u.thr.monitors[e]).valid = ((th.monitors[e]).valid && !m.getLsbD e.val)) ∧
    (th.holds a x → th.free d → th.sleep = none →
      let w : Nat := ((List.finRange 4).map fun e => if (th.monitors[e]).valid && (th.monitors[e]).w then 2 ^ e.val else 0).sum
      (w ≠ 0 → exec (.mslp d a) s = .next (s.wrote d (BitVec.ofNat 64 w))) ∧
      (w = 0 → x = 0 → (∀ e : Fin 4, (th.monitors[e]).valid = false) → exec (.mslp d a) s = .next (s.wrote d 0x200)) ∧
      (w = 0 → x ≠ 0 ∨ (∃ e : Fin 4, (th.monitors[e]).valid = true) → Completes (exec (.mslp d a) s) fun u => u.mem = s.mem ∧ u.thr.run = .sleeping ∧ u.thr.pc = th.pc ∧
        u.thr.sleep = some ⟨d, if x = 0 then none else some (s.tile.cycle.toNat + x.toNat)⟩))

/-- R174 to R176, R192 and R193: registration, arrival and waiting at the tile barrier. A slot that is not registered cannot arrive; a wait parks for the
generation it began in and retires in a later one. -/
def Obligations.TileBarrier : Prop :=
  ∀ (s : State) (d a : Reg) (x : Word), s.thr.holds a x →
    let b := s.tile.barrier
    let me : BitVec 8 := 1#8 <<< s.curSlot.val
    (x.toNat < 2 → Completes (exec (.barReg a) s) fun u => s.onward u ∧ u.mem = s.mem ∧ u.tile.barrier.reg = b.reg ||| me ∧ u.tile.barrier.out = x.getLsbD 0 ∧
      u.tile.barrier.gen = b.gen ∧ u.tile.barrier.arr = b.arr) ∧
    (2 ≤ x.toNat → x.toNat < 4 → Completes (exec (.barReg a) s) fun u => s.onward u ∧ u.mem = s.mem ∧ u.tile.barrier.reg = b.reg &&& ~~~me ∧ u.tile.barrier.gen = b.gen) ∧
    (4 ≤ x.toNat → exec (.barReg a) s = .next (s.trapped .engineError x)) ∧
    (s.thr.free d → b.reg &&& me ≠ 0 → b.arr &&& me = 0 →
      Completes (exec (.barArr d) s) fun u => s.onward u ∧ u.mem = s.mem ∧ u.tile.barrier.arr = b.arr ||| me ∧ (d ≠ 0 → u.thr.getS d = ⟨b.gen.setWidth 64, true, false, false⟩)) ∧
    (s.thr.free d → b.reg &&& me = 0 → exec (.barArr d) s = .next (s.trapped .engineError (BitVec.ofNat 64 s.curSlot.val))) ∧
    (s.thr.barWait = none → b.reg = 0 → exec .barWait s = .next (s.done [])) ∧
    (s.thr.barWait = none → b.reg ≠ 0 → Completes (exec .barWait s) fun u => u.mem = s.mem ∧ u.thr.run = .parked (.barrier b.gen) ∧ u.thr.pc = s.thr.pc ∧
      u.thr.barWait = some ⟨s.thr.pc, b.gen, none⟩) ∧
    (∀ g, s.thr.barWait = some ⟨s.thr.pc, g, none⟩ → g ≠ b.gen → Completes (exec .barWait s) fun u => s.onward u ∧ u.mem = s.mem ∧ u.thr.barWait = none) ∧
    (s.thr.free d → s.thr.barWait = none → b.reg &&& me ≠ 0 → b.arr &&& me = 0 → Completes (exec (.barArw d) s) fun u => u.mem = s.mem ∧ u.tile.barrier.arr = b.arr ||| me ∧
      u.thr.run = .parked (.barrier b.gen) ∧ u.thr.pc = s.thr.pc) ∧
    (∀ g, s.thr.free d → s.thr.barWait = some ⟨s.thr.pc, g, some d⟩ → g ≠ b.gen → Completes (exec (.barArw d) s) fun u => s.onward u ∧ u.mem = s.mem ∧
      u.thr.barWait = none ∧ (d ≠ 0 → u.thr.getS d = ⟨g.setWidth 64, true, false, false⟩))

/-- R177, R178 and R194 to R201: pushing and popping the ready queue, by priority and age; an empty or full one parks or answers all ones; `texit` of a thread with nothing
outstanding empties its slot; `tyield` gives up the next clock; `tmset` sets the slot timer; `tlaunch` sends a WAKE. -/
def Obligations.TaskQueue : Prop :=
  ∀ (s : State) (d a b : Reg) (x h : Word), s.thr.holds a x → s.thr.holds b h → s.thr.free d →
    let q := s.tile.queue
    let pri (g : Word) : Nat := g.toNat / 2 ^ 21 % 4
    (x ≠ BitVec.allOnes 64 → q.length < 64 → Completes (exec (.tqpush a) s) fun u => s.onward u ∧ u.mem = s.mem ∧ u.tile.queue = q ++ [x]) ∧
    (x ≠ BitVec.allOnes 64 → 64 ≤ q.length → exec (.tqpush a) s = .next (s.parked .queueFull)) ∧
    (∀ pre g post, q = pre ++ g :: post → (∀ p ∈ pre, pri g < pri p) → (∀ p ∈ post, pri g ≤ pri p) →
      let popped (u : State) : Prop := s.onward u ∧ u.mem = s.mem ∧ u.tile.queue = pre ++ post ∧ (d ≠ 0 → u.thr.getS d = ⟨g, true, false, false⟩)
      Completes (exec (.tqpop d) s) popped ∧ Completes (exec (.tqpopNb d) s) popped ∧ exec (.tqpeek d) s = .next (s.wrote d g)) ∧
    (q = [] → exec (.tqpop d) s = .next (s.parked .queueEmpty) ∧ exec (.tqpopNb d) s = .next (s.wrote d (BitVec.allOnes 64)) ∧
      exec (.tqpeek d) s = .next (s.wrote d (BitVec.allOnes 64))) ∧
    (s.thr.hold = none → s.tile.recvsOf s.curSlot = 0 → s.thr.cntLd = 0 → s.thr.cntSt = 0 → s.thr.cntCp = 0 → s.thr.cntTl = 0 → s.thr.faults = [] →
      (∀ r : StreamReg, (s.thr.binds[r]).kind = .unbound) → Completes (exec .texit s) fun u => u.mem = s.mem ∧ u.fe = s.fe ∧
        u.thr = { Thread.reset with seq := s.thr.seq } ∧ u.tile.barrier.reg = s.tile.barrier.reg &&& ~~~(1#8 <<< s.curSlot.val) ∧
        ∀ k, k ≠ s.curSlot → u.thrAt s.curTile k = s.thrAt s.curTile k) ∧
    Completes (exec .tyield s) (fun u => s.onward u ∧ u.mem = s.mem ∧ u.thr.yielded = true ∧ u.thr.s = s.thr.s) ∧
    Completes (exec (.tmset d a) s) (fun u => s.onward u ∧ u.mem = s.mem ∧ (d ≠ 0 → u.thr.getS d = ⟨s.thr.tmcmp, true, false, false⟩) ∧
      let t := min (s.tile.cycle.toNat + x.toNat) (2 ^ 64 - 1)
      u.thr.tmcmp.toNat = if s.thr.sv then (if x = 0 then 0 else t)
        else if x ≠ 0 ∧ (s.thr.tmcmp = 0 ∨ t < s.thr.tmcmp.toNat) then t else s.thr.tmcmp.toNat) ∧
    (∀ dest, destOf (s.gangPkgs s.curTile) x = some dest → dest.chan = 0 → h ≠ BitVec.allOnes 64 → s.thr.cntSt < 255 →
      Completes (exec (.tlaunch a b) s) fun u => s.onward u ∧ u.mem = s.mem ∧ u.thr.cntSt = s.thr.cntSt + 1 ∧
        ∃ it, u.tile.sent = s.tile.sent ++ [it] ∧ it.kind = .wake ∧ it.dest = dest.tile ∧ it.lo = h ∧ it.slot = s.curSlot)

/-- R202 to R210: a message leaves with its payload, its metadata and, for `msendt`, the tile's `vtime`; a receive with no entry waiting is pending, LD raised
and its registers pending fills, and one whose entry waits takes it at once; a ninth receive parks, and a channel word above 7 or a bound channel traps
ENGINE_ERROR; `mpeek` reads without taking; `mcfg` sets the mode of an empty channel. -/
def Obligations.Messages : Prop :=
  ∀ (s : State) (d a b c : Reg) (x lo hi : Word), s.thr.holds a x → s.thr.holds b lo → s.thr.holds (Reg.next b) hi →
    let ch : Fin 8 := Fin.ofNat 8 x.toNat
    let chan := s.tile.channels[ch]
    let sent (o : Out) (rel : Option Scope) (kind : Nat) (ts : Option Word) : Prop :=
      ∀ dest, destOf (s.gangPkgs s.curTile) x = some dest → dest.chan ≠ 0 → s.thr.cntSt < 255 → Completes o fun u => s.onward u ∧ u.mem = s.mem ∧
        u.thr.s = s.thr.s ∧ u.thr.cntSt = s.thr.cntSt + 1 ∧ ∃ it, u.tile.sent = s.tile.sent ++ [it] ∧ it.kind = .msg ∧ it.dest = dest.tile ∧ it.chan = dest.chan ∧
          it.lo = lo ∧ it.hi = hi ∧ it.rel = rel ∧ it.ts = ts ∧ it.md.toNat / 2 ^ 45 % 8 = kind ∧ it.md.toNat / 2 ^ 32 % 2 ^ 11 = s.curTile % 2 ^ 11
    let fits : Prop := s.thr.free d ∧ s.thr.free (Reg.next d) ∧ s.thr.cntLd < 255 ∧ chan.bound = none ∧ chan.recvs.length < 8
    let waits (u : State) (rs : List Reg) : Prop := ∀ r, (r ∈ rs → r ≠ 0 → (u.thr.getS r).pend = true) ∧ (r ∉ rs → u.thr.getS r = s.thr.getS r)
    (s.curTile < 2 ^ 11 → sent (exec (.msend .plain a b) s) none 0 none ∧ (∀ sc, sent (exec (.msend (.rel sc) a b) s) (some sc) 0 none) ∧
      sent (exec (.msendt .plain a b) s) none 1 (some s.tile.vtime) ∧ ∀ sc, sent (exec (.msendt (.rel sc) a b) s) (some sc) 1 (some s.tile.vtime)) ∧
    (x.toNat < 8 → fits → chan.entries = [] → s.thr.free c → Completes (exec (.mrecv d a c) s) fun u => s.onward u ∧ u.mem = s.mem ∧
      u.thr.cntLd = s.thr.cntLd + 1 ∧ waits u [d, Reg.next d, c] ∧
      (u.tile.channels[ch]).recvs = chan.recvs ++ [⟨s.curSlot, d, if c = 0 then none else some c, none⟩]) ∧
    (x.toNat < 8 → fits → d ≠ 0 → d ≠ 31 → s.thr.free c → chan.recvs = [] → chan.horizon = false → c ≠ d → c ≠ Reg.next d →
      ∀ e rest, chan.entries = e :: rest → Completes (exec (.mrecv d a c) s) fun u => s.onward u ∧ u.mem = s.mem ∧ u.thr.cntLd = s.thr.cntLd ∧
        u.thr.getS d = ⟨e.lo, true, false, false⟩ ∧ u.thr.getS (Reg.next d) = ⟨e.hi, true, false, false⟩ ∧ (c ≠ 0 → u.thr.getS c = ⟨e.md, true, false, false⟩) ∧
        (u.tile.channels[ch]).entries = rest) ∧
    (8 ≤ x.toNat ∨ chan.bound.isSome = true → exec (.mrecv d a c) s = .next (s.trapped .engineError x)) ∧
    (x.toNat < 8 → chan.bound = none → 8 ≤ chan.recvs.length → exec (.mrecv d a c) s = .next (s.parked (.recvFull ch))) ∧
    (∀ dest, destOf (s.gangPkgs s.curTile) x = some dest → lo.toNat < 2 ^ 32 → s.thr.free d → s.thr.free (Reg.next d) → s.thr.cntLd < 255 →
      (s.tile.channels[dest.chan]).bound = none → (s.tile.channels[dest.chan]).recvs.length < 8 → (s.tile.channels[dest.chan]).entries = [] →
      Completes (exec (.mwait d a b) s) fun u => s.onward u ∧ u.mem = s.mem ∧ u.thr.cntLd = s.thr.cntLd + 1 ∧ waits u [d, Reg.next d] ∧
        ∃ r who, (u.tile.channels[dest.chan]).recvs = (s.tile.channels[dest.chan]).recvs ++ [r] ∧ r.slot = s.curSlot ∧ r.d = d ∧ r.mdReg = none ∧
          r.named = some (who, lo.setWidth 32) ∧ who.toNat % 2 ^ 32 = 0 ∧ who.toNat / 2 ^ 32 % 2 ^ 11 = dest.tile % 2 ^ 11) ∧
    (x.toNat < 8 → s.thr.free d → chan.horizon = false → chan.formed = 0 →
      exec (.mpeek d a 2) s = .next (s.wrote d (BitVec.ofNat 64 chan.entries.length)) ∧
      (chan.entries = [] → ∀ n : Fin 3, n ≠ 2 → exec (.mpeek d a n) s = .next (s.wrote d (BitVec.allOnes 64))) ∧
      ∀ e rest, chan.entries = e :: rest → exec (.mpeek d a 0) s = .next (s.wrote d e.md) ∧
        exec (.mpeek d a 1) s = .next (s.wrote d (e.ts.getD (BitVec.allOnes 64)))) ∧
    (x.toNat < 8 → x ≠ 0 → lo.toNat < 2 → chan.entries = [] → chan.recvs = [] → chan.bound = none → Completes (exec (.mcfg a b) s) fun u => s.onward u ∧
      u.mem = s.mem ∧ (u.tile.channels[ch]).horizon = lo.getLsbD 0)

-- Engines and promises (spec/15_async_instructions.md, spec/17_promises.md)

/-- R282, R305, R306 and R310 to R315: a copy whose operands are good issues with the next tag and takes the armed flag; the first bad operand word traps
ENGINE_ERROR; full eyelets park; `cpyf` arms a flag; `cpyq` answers the state of the youngest copy of a tag, or the entries and eyelets in use; that it answers 1 for a
request that is accepted and not yet entered is the model's choice (log 17). -/
def Obligations.CopiesIssue : Prop :=
  ∀ (s : State) (d a b c : Reg) (x y w n o : Word), s.thr.holds a x → s.thr.holds b y → s.thr.holds c w → s.thr.holds (Reg.next c) n →
    s.thr.holds (Reg.next (Reg.next c)) o →
    let far (z : Word) : Prop := regionOf z ≠ 3
    let lasts : Prop := far w ∧ far (w + 64)
    let counted (z : Word) : Prop := 1 ≤ z.toNat ∧ z.toNat < 2 ^ 32
    let homed : Prop := ownTile s.curTile x = true ∧ x.toNat % 64 = 0
    let operand : Prop := regionOf o ≤ 1 ∧ o.toNat % 64 = 0
    let flagged (u : State) : Prop := u.thr.armed = none ∧ ∃ r, u.tile.eyelets.getLast? = some r ∧ r.flag = s.thr.armed
    let traps (i : Instr) (z : Word) : Prop := exec i s = .next (s.trapped .engineError z)
    let goodM : Prop := ctlOkM w = true ∧ counted n ∧ homed ∧ far y ∧ operand
    (s.thr.free d → s.thr.cntCp < 255 →
      (s.tile.eyelets.length < 4 →
        (far x → far y → counted w → Completes (exec (.cpy d a b c) s) fun u => s.issuedCp u (.cpy x y w.toNat) d ∧ flagged u) ∧
        (far x → far y → lasts → Completes (exec (.cpyt d a b c) s) fun u => s.issuedCp u (.cpyt x y w) d ∧ flagged u) ∧
        (goodM → s.thr.cntTl < 255 →
          Completes (exec (.cpym d a b c) s) fun u => s.issuedCp u (.cpym x y w n.toNat o) d ∧ flagged u ∧ u.thr.cntTl = s.thr.cntTl + 1)) ∧
      (4 ≤ s.tile.eyelets.length →
        (far x → far y → counted w → exec (.cpy d a b c) s = .next (s.parked .eyelet)) ∧
        (far x → far y → lasts → exec (.cpyt d a b c) s = .next (s.parked .eyelet)) ∧
        (goodM → s.thr.cntTl < 255 → exec (.cpym d a b c) s = .next (s.parked .eyelet)))) ∧
    (¬far x → traps (.cpy d a b c) x ∧ traps (.cpyt d a b c) x) ∧
    (far x → ¬far y → traps (.cpy d a b c) y ∧ traps (.cpyt d a b c) y) ∧
    (far x → far y → (¬counted w → traps (.cpy d a b c) w) ∧ (¬lasts → traps (.cpyt d a b c) w)) ∧
    (ctlOkM w = false → traps (.cpym d a b c) w) ∧
    (ctlOkM w = true →
      (¬counted n → traps (.cpym d a b c) n) ∧ (counted n → ¬homed → traps (.cpym d a b c) x) ∧
      (counted n → homed → ¬far y → traps (.cpym d a b c) y) ∧ (counted n → homed → far y → ¬operand → traps (.cpym d a b c) o)) ∧
    (∀ z : Size, far x → x.toNat % sizeBytes z = 0 → Completes (exec (.cpyf z a b) s) fun u => s.onward u ∧ u.mem = s.mem ∧
      u.thr.armed = some ⟨x, y, z⟩) ∧
    (∀ z : Size, ¬far x ∨ x.toNat % sizeBytes z ≠ 0 → traps (.cpyf z a b) x) ∧
    (2 ^ 17 ≤ x.toNat ∨ (2 ^ 16 < x.toNat ∧ x.toNat < 2 ^ 17) → traps (.cpyq d a) x) ∧
    (s.thr.free d →
      let answers (m : Nat) : Prop := exec (.cpyq d a) s = .next (s.wrote d (BitVec.ofNat 64 m))
      let hit (r : EngReq) : Prop := r.op.tagged = true ∧ r.tag.toNat = x.toNat
      let early : Prop := ∃ r ∈ s.tile.eyelets ++ s.tile.accepted, hit r
      (x = 0x10000 → answers ((s.tile.ops.length + s.tile.flights.length) % 256 + 256 * s.tile.eyelets.length)) ∧
      (x.toNat < 2 ^ 16 →
        (early → answers 1) ∧
        (∀ pre e post, ¬early → s.tile.ops = pre ++ e :: post → hit e.req → (∀ q ∈ post, ¬hit q.req) →
          answers (match e.state with
            | .held => 2
            | .active => 3
            | .readDone => 4)) ∧
        (¬early → (∀ e ∈ s.tile.ops, ¬hit e.req) → answers 0)))

/-- R282, R305, R316 to R327: matrix and accumulator instructions whose operand words are good issue; `acrd` makes its destination a pending fill;
a bad control or region word traps ENGINE_ERROR. That `adrn` issues with a destination of any alignment is the model's reading (log 33). -/
def Obligations.MatrixIssue : Prop :=
  ∀ (s : State) (d a b c : Reg) (x y w m : Word) (v : Vec), s.thr.holds a x → s.thr.holds b y → s.thr.holds c w → s.thr.holds d m →
    let room : Prop := s.thr.cntTl < 255 ∧ s.tile.eyelets.length < 4
    (∀ f, room → ctlOk w = true → regionOf x ≤ 1 → x.toNat % 64 = 0 → regionOf y ≤ 1 → y.toNat % 64 = 0 →
      Completes (exec (.mma f a b c) s) (fun u => s.issuedTl u (.mma f false x y w 0 false)) ∧
      (regionOf m ≤ 1 → Completes (exec (.mmaSp f a b c d) s) fun u => s.issuedTl u (.mma f true x y w m false))) ∧
    (∀ f, ctlOk w = false → exec (.mma f a b c) s = .next (s.trapped .engineError w)) ∧
    (room → regionOk x true = true → Completes (exec (.acz a) s) fun u => s.issuedTl u (.acz x)) ∧
    (regionOk x true = false → exec (.acz a) s = .next (s.trapped .engineError x)) ∧
    (room → regionOk y false = true → accAddrOk s.curTile x y = true →
      Completes (exec (.acld a b) s) (fun u => s.issuedTl u (.acld x y)) ∧ Completes (exec (.acst a b) s) (fun u => s.issuedTl u (.acst x y))) ∧
    (∀ e, s.thr.free e → s.thr.cntCp < 255 → s.tile.eyelets.length < 4 → regionOk y false = true → regionOf x ≤ 1 → w ≠ BitVec.allOnes 64 →
      Completes (exec (.adrn e a b c) s) fun u => s.issuedCp u (.adrn x y w) e) ∧
    (room → x.toNat < 2 ^ 16 → x.toNat % 256 ≤ 127 → x.toNat / 256 ≤ 96 →
      (s.takes d → Completes (exec (.acrd d a) s) fun u => s.issuedTl u (.acrd d x) ∧ (u.thr.getV d).pend = true) ∧
      (s.reads b v → Completes (exec (.acwr b a) s) fun u => s.issuedTl u (.acwr x v) ∧ u.thr.v = s.thr.v))

/-- R282, R305, R328, R329 and R333 to R335: tree operations and conversions whose words are good issue; a tile with four tree operations outstanding parks. -/
def Obligations.TreesAndConversionsIssue : Prop :=
  ∀ (s : State) (a b c d : Reg) (x y w q : Word), s.thr.holds a x → s.thr.holds b y → s.thr.holds c w → s.thr.holds d q →
    let room : Prop := s.thr.cntTl < 255 ∧ s.tile.eyelets.length < 4
    let tree (f : TreeFn) (o : Out) : Prop := treeCtlOk f w = true → treeAddrOk w x = true → treeAddrOk w y = true →
      (room → s.tile.treeOps < 4 → Completes o fun u => s.issuedTl u (.tree f x y w)) ∧
      (s.thr.cntTl < 255 → 4 ≤ s.tile.treeOps → o = .next (s.parked .eyelet))
    tree .add (exec (.tredAdd a b c) s) ∧ tree .max (exec (.tredMax a b c) s) ∧ tree .min (exec (.tredMin a b c) s) ∧
    tree .scanAdd (exec (.tscanAdd a b c) s) ∧ tree .scanAff (exec (.tscanAff a b c) s) ∧
    (treeCtlOk .add w = false → exec (.tredAdd a b c) s = .next (s.trapped .engineError w)) ∧
    (room → Completes (exec .tbar s) fun u => s.issuedTl u .tbar) ∧
    (room → ccvAddrOk s.curTile (ccvDst w) x = true → ccvAddrOk s.curTile (ccvSrc w) y = true →
      (ccvCtlOk w false = true → Completes (exec (.ccv a b c) s) fun u => s.issuedTl u (.ccv x y w)) ∧
      (ccvCtlOk w true = true → ownTile s.curTile q = true → Completes (exec (.ccvq a b c d) s) fun u => s.issuedTl u (.ccvq x y w q)))

/-- R340 to R342, R345 to R349 and R351: a promise of a valid header takes the lowest free entry, raises N and gives its handle; an update raises N; a redemption
or retirement takes its place and closes its promise unless a strict one must wait for an older, when its promise is held; `prmq` answers for
a handle or a header. An update that would carry a promise past its horizon traps PROMISE_EXPIRED. -/
def Obligations.PromisesIssue : Prop :=
  ∀ (s : State) (d a b : Reg) (x y : Word), s.thr.holds a x → s.thr.holds b y →
    let h : Fin 16 := Fin.ofNat 16 x.toNat
    let hd := s.tile.hdr h
    let n0 := hdN hd
    let room : Prop := s.thr.cntTl < 255 ∧ s.tile.eyelets.length < 4
    let valid : Prop := x.toNat < 16 ∧ hdOk hd = true
    (room → valid → hdPred hd = false ∨ ptrOk y = true → s.thr.free d → s.tile.expiring h = none → ∀ ent, s.tile.freeEnt = some ent →
      Completes (exec (.prmi d a b) s) fun u => s.issuedTl u (.welt .prmi h n0 ent (if hdPred hd then y else 0)) ∧ hdN (u.tile.hdr h) = n0 + 1 ∧
        u.tile.promises = s.tile.promises ++ [⟨ent, h, n0, some s.curSlot, s.tile.vtime, false⟩] ∧ u.thr.lastN0 = n0 ∧
        (d ≠ 0 → ∃ v, u.thr.getS d = ⟨v, true, false, false⟩ ∧ v.toNat % 64 = ent ∧ v.toNat / 64 % 16 = h.val ∧ v.toNat / 2 ^ 10 % 2 ^ 32 = n0.toNat ∧ v.toNat / 2 ^ 42 % 64 = 0 ∧
          v.toNat / 2 ^ 48 = (s.tile.gens[(Fin.ofNat 64 ent : Fin 64)] + 1).toNat)) ∧
    (valid → hdPred hd = false → s.thr.free d → s.tile.expiring h = none → s.thr.cntTl < 255 → s.tile.freeEnt = none →
      exec (.prmi d a b) s = .next (s.parked .weltFull)) ∧
    (¬valid → exec (.prmi d a b) s = .next (s.trapped .engineError x) ∧ exec (.wupd a b) s = .next (s.trapped .engineError x)) ∧
    (valid → ptrOk y = true →
      (room → s.tile.expiring h = none → Completes (exec (.wupd a b) s) fun u => s.issuedTl u (.welt .wupd h n0 64 y) ∧ hdN (u.tile.hdr h) = n0 + 1 ∧
        u.tile.promises = s.tile.promises) ∧
      (∀ p, s.tile.expiring h = some p → exec (.wupd a b) s = .next (s.trapped .promiseExpired (s.tile.handleOf p)))) ∧
    (∀ p, s.tile.promiseOf x = some p → p.held = false → hdBrk (s.tile.hdr p.hdr) = false → room →
      let first : Prop := ∀ q, (s.tile.promises.filter fun r => r.hdr = p.hdr).head? = some q → q.ent = p.ent
      let strict (o : PrmOrd) : Prop := s.tile.mode.toNat % 4 ≠ 0 ∨ o = .strict ∨ (o = .hdr ∧ hdOrd (s.tile.hdr p.hdr) = false)
      let goes (o : PrmOrd) (u : State) : Prop :=
        (strict o ∧ ¬first → (∃ q ∈ u.tile.promises, q.ent = p.ent ∧ q.held = true) ∧ ∃ i ∈ u.tile.weltHeld, i = s.tile.nextId) ∧
        (¬strict o ∨ first → (∀ q ∈ u.tile.promises, q.ent ≠ p.ent) ∧ ∃ i ∈ u.tile.weltQ, i.1 = s.tile.nextId)
      (∀ o, ptrOk y = true → Completes (exec (.prmr o a b) s) fun u => goes o u ∧ s.onward u ∧ u.mem = s.mem ∧ u.thr.cntTl = s.thr.cntTl + 1) ∧
      (∀ o pol, Completes (exec (.prmx o pol a) s) fun u => goes o u ∧ s.onward u ∧ u.mem = s.mem ∧ u.thr.cntTl = s.thr.cntTl + 1)) ∧
    (s.thr.free d →
      (s.tile.promiseOf x = none → exec (.prmq .promise d a) s = .next (s.wrote d 0)) ∧
      (∀ p, s.tile.promiseOf x = some p → exec (.prmq .promise d a) s =
        .next (s.wrote d (BitVec.ofNat 64 (256 * min 255 (hdN (s.tile.hdr p.hdr) - p.n0 - 1).toNat + if p.held then 2 else 1)))) ∧
      (x.toNat < 16 → ∃ v : Word, exec (.prmq .header d a) s = .next (s.wrote d v) ∧ v.toNat % 2 ^ 32 = n0.toNat ∧
        (s.tile.promises.length ≤ 64 → v.toNat / 2 ^ 32 % 128 = (s.tile.promises.filter fun r => r.hdr = h).length ∧ v.getLsbD 39 = hdBrk hd ∧ v.getLsbD 40 = hdV hd)))

-- Events of delivery, streams and engines (spec/07_vector_instructions.md to spec/17_promises.md)

/-- R165, R174 to R176, R178, R179, R196, R205, R209, R211, R293, R301, R332, R391, R392, R399 and R407: what is sent is accepted or refused. A held entry goes
to channel 0 when it has room, and what it counts falls; a message or WAKE of a tile is taken when there is room, and ST falls, and is else refused
for 64 clocks, a queue taking one WAKE in a clock; an entry of another package is taken in the order of its sender and channel; a barrier in which all have arrived
completes, or sends the tile's arrival, and the gang's barrier completes those that have arrived at it and ends the `tbar` of its rank (that a tile barrier
whose step was given up completes as any other is the model's choice, log 42); a
horizon round is the least of the tiles' `vtime`, of the timestamps not yet accepted and of what other packages contribute, and its publication
raises `horizon`. -/
def Obligations.Delivery : Prop :=
  ∀ (s : State) (t : TileId) (i : Nat) (it : SentItem),
    let x := s.tileAt t
    let plain (u : State) : Prop := u.mem = s.mem ∧ u.fe = s.fe
    (∀ h rest, x.heldEnts = h :: rest → (x.channels[(0 : Fin 8)]).entries.length < 32 → (x.channels[(0 : Fin 8)]).recvs = [] →
      (x.channels[(0 : Fin 8)]).bound = none → Completes (exec (.channelAccept (.held t)) s) fun u => plain u ∧ (u.tileAt t).heldEnts = rest ∧
        ((u.tileAt t).channels[(0 : Fin 8)]).entries = (x.channels[(0 : Fin 8)]).entries ++ [⟨h.lo, h.hi, h.md, none, none, []⟩] ∧
        ∀ k, h.cp = some k → (u.thrAt t k).cntCp = (s.thrAt t k).cntCp - 1) ∧
    (x.sent[i]? = some it → it.isWake = false → s.sentFree t i it = true → s.wayOpen t it = true → it.pkg = none → (s.tileAt it.dest).hidden = false →
      let c := (s.tileAt it.dest).channels[it.chan]
      (c.entries.length < 32 → c.recvs = [] → c.bound = none → Completes (exec (.channelAccept (.sent t i)) s) fun u => plain u ∧
        ((u.tileAt it.dest).channels[it.chan]).entries = c.entries ++ [⟨it.lo, it.hi, it.md, it.ts, it.rel, (it.entry t).past⟩] ∧ (u.tileAt t).sent = dropAt x.sent i ∧
        (u.thrAt t it.slot).cntSt = (s.thrAt t it.slot).cntSt - (if it.counted then 1 else 0)) ∧
      (32 ≤ c.entries.length → Completes (exec (.channelAccept (.sent t i)) s) fun u => plain u ∧ (u.tileAt it.dest).channels = (s.tileAt it.dest).channels ∧
        (u.tileAt t).sent = x.sent.set i { it with refused := some (x.cycle.toNat + 64) } ∧ u.thrAt t it.slot = s.thrAt t it.slot)) ∧
    (∀ (e : LaceEntry) (g : Gang), s.gangOf e.dest = some g → s.laceOk g (s.tileAt e.dest) e = true → dieOf e.dest < 6 → e.chan ≠ 0 → s.ioOpen (dieOf e.dest) = true →
      (s.tileAt e.dest).hidden = false →
      let c := (s.tileAt e.dest).channels[e.chan]
      c.recvs = [] → c.bound = none →
      (c.entries.length < 32 → Completes (exec (.channelAccept (.lace e)) s) fun u => plain u ∧
        ((u.tileAt e.dest).channels[e.chan]).entries = c.entries ++ [⟨e.lo, e.hi, e.md, e.ts, e.rel, []⟩]) ∧
      (32 ≤ c.entries.length → exec (.channelAccept (.lace e)) s = .next s)) ∧
    (x.sent[i]? = some it → it.isWake = true → s.sentFree t i it = true → s.wayOpen t it = true → it.pkg = none → (s.tileAt it.dest).hidden = false →
      (s.tileAt it.dest).woke = false →
      ((s.tileAt it.dest).queue.length < 64 → Completes (exec (.wake (.sent t i)) s) fun u => plain u ∧
        (u.tileAt it.dest).queue = (s.tileAt it.dest).queue ++ [it.lo] ∧ (u.tileAt it.dest).woke = true ∧ (u.tileAt t).sent = dropAt x.sent i) ∧
      (64 ≤ (s.tileAt it.dest).queue.length → Completes (exec (.wake (.sent t i)) s) fun u => plain u ∧ (u.tileAt it.dest).queue = (s.tileAt it.dest).queue ∧
        (u.tileAt t).sent = x.sent.set i { it with refused := some (x.cycle.toNat + 64) })) ∧
    (x.barrier.reg ≠ 0 → x.barrier.arr = x.barrier.reg → x.barrier.sent = none →
      (x.barrier.out = false → Completes (exec (.barrierComplete t) s) fun u => plain u ∧ (u.tileAt t).barrier.gen = x.barrier.gen + 1 ∧
        (u.tileAt t).barrier.arr = 0 ∧ (u.tileAt t).barrier.reg = x.barrier.reg ∧
        ∀ k, (u.thrAt t k).run = if (s.thrAt t k).run = .parked (.barrier x.barrier.gen) then .ready else (s.thrAt t k).run) ∧
      (x.barrier.out = true → s.arrivalsClear t = true → x.pairing = none → Completes (exec (.barrierComplete t) s) fun u => plain u ∧
        (u.tileAt t).barrier = { x.barrier with sent := some x.barCount, past := [] } ∧ (u.tileAt t).barCount = x.barCount + 1)) ∧
    (∀ g, s.gangAt g.id = some g → g.tiles ≠ [] → g.tiles.Nodup →
      ((∀ v ∈ g.tiles, g.barDone < (s.tileAt v).barCount ∧ (s.tileAt v).agreed = true) → g.joined .barrier g.barDone = true → s.treeOpen g = true →
        Completes (exec (.gangBarrierComplete g.id) s) fun u => plain u ∧ (∃ h, u.gangAt g.id = some h ∧ h.barDone = g.barDone + 1) ∧
          ∀ v ∈ g.tiles, (u.tileAt v).barDone = g.barDone + 1 ∧
            match (s.tileAt v).ops.find? fun e => e.req.op == .tbar && e.state == .active && e.ord = g.barDone with
            | none =>
              let b := (s.tileAt v).barrier
              (b.sent = some g.barDone → (u.tileAt v).barrier = { b with arr := 0, gen := b.gen + 1, sent := none, past := [] }) ∧
                (b.sent ≠ some g.barDone → (u.tileAt v).barrier = b)
            | some e =>
              ((g.work .barrier g.barDone).lost = false → u.opAt (v, e.req.id) = none ∧
                ∀ k, e.req.owner = some k → (u.thrAt v k).cntTl = (s.thrAt v k).cntTl - 1) ∧
              ((g.work .barrier g.barDone).lost = true → ∃ o, u.opAt (v, e.req.id) = some o ∧ o.err = some (.fault, BitVec.allOnes 64))) ∧
      (∀ j rest, g.state = .running → s.anyHalted = false → s.timebase.toNat = g.tick.toNat + 4096 * j → g.round < j → 1 < g.npk ∨ rest = BitVec.allOnes 64 →
        Completes (exec (.horizonRound g.id rest) s) fun u => plain u ∧ u.tiles = s.tiles ∧
          ∃ h m, u.gangAt g.id = some h ∧ h.round = j ∧ h.rounds = g.rounds ++ [(j, m)] ∧
            m ∈ rest :: g.tiles.flatMap s.timesOf ∧ ∀ w ∈ rest :: g.tiles.flatMap s.timesOf, m.toNat ≤ w.toNat)) ∧
    (∀ g j m, s.gangOf t = some g → g.rounds.find? (fun p => p.1 = j) = some (j, m) → g.state = .running → s.anyHalted = false →
      s.meshOpen 6 (dieOf t) = true → g.combined.contains j = true ∨ s.roundOpen g = true → Completes (exec (.horizonPublish t j) s) fun u => plain u ∧ (u.tileAt t).horizon.toNat = max x.horizon.toNat m.toNat ∧ (u.tileAt t).vtime = x.vtime)

/-- R156, R157, R159, R160, R250 and R381: the element access that a memory stream has in flight is made once nothing older holds it: a read stream
fetches it, a write stream stages its oldest element, which memory does not show yet, and a fatal one leaves a poisoned head or is discarded; an
outbound element leaves the buffer once its entries are accepted. That the 128 bytes of an element are read, or staged, in one event is the model's choice, and
so is the event in which the generator begins an element that it can access, which takes a fretboard entry and moves no data (log 45). -/
def Obligations.StreamElements : Prop :=
  ∀ (s : State) (t : TileId) (k : Slot) (r : StreamReg), (s.tileAt t).pairing = none → s.dieHalted t = false →
    let b := (s.thrAt t k).binds[r]
    let a := b.base + BitVec.ofNat 64 b.next * b.stride
    let now (u : State) : Bind := (u.thrAt t k).binds[r]
    let went (u : State) : Prop := u.mem = s.mem ∧ u.fe = s.fe ∧ (now u).next = b.next + 1 ∧ (now u).pos = b.pos ∧ (now u).flight = none
    let woken (u : State) : Prop := (s.thrAt t k).run = .parked (.regEmpty (.v (streamReg r))) → (u.thrAt t k).run = .ready
    (b.kind = .memRead ∨ b.kind = .memWrite → b.flight = none → s.streamBegins t k r = true →
      Completes (exec (if b.kind = .memRead then .streamFetch t k r else .streamWrite t k r) s) fun u => u.mem = s.mem ∧ u.fe = s.fe ∧ u.staged = s.staged ∧
        now u = { b with flight := some (s.tileAt t).nextId } ∧ (u.tileAt t).nextId = (s.tileAt t).nextId + 1) ∧
    (∀ n, b.kind = .memRead → b.flight = some n → s.streamHeld t a false ((s.tileAt t).elemPlace b n) = false →
      (∀ bs, s.engRead t ⟨b.pid, n⟩ (addrsFrom a 128) = .bytes bs → Completes (exec (.streamFetch t k r) s) fun u => went u ∧ u.staged = s.staged ∧ woken u ∧
        ∃ e, (now u).buf = b.buf ++ [e] ∧ e.val = BitVec.ofNat 1024 (leNat bs) ∧ e.poison = false) ∧
      (∀ c, s.engRead t ⟨b.pid, n⟩ (addrsFrom a 128) = .fatal c → Completes (exec (.streamFetch t k r) s) fun u => went u ∧ u.staged = s.staged ∧ woken u ∧
        ∃ e, (now u).buf = b.buf ++ [e] ∧ e.poison = true)) ∧
    (∀ n e rest, b.kind = .memWrite → b.flight = some n → b.buf = e :: rest → s.streamHeld t a true ((s.tileAt t).elemPlace b n) = false →
      (∀ cs, s.engWrite t ⟨b.pid, n⟩ ((addrsFrom a 128).zip (leBytes e.val.toNat 128)) = .cells cs → Completes (exec (.streamWrite t k r) s) fun u => went u ∧
        (now u).buf = rest ∧ (u.staged.map fun w => (w.tile, w.loc, w.val)) = (s.staged.map fun w => (w.tile, w.loc, w.val)) ++ cs.map fun c => (t, c.1, c.2)) ∧
      (∀ c, s.engWrite t ⟨b.pid, n⟩ ((addrsFrom a 128).zip (leBytes e.val.toNat 128)) = .fatal c → Completes (exec (.streamWrite t k r) s) fun u => went u ∧
        (now u).buf = rest ∧ u.staged = s.staged)) ∧
    (b.kind = .out → b.pos < b.next + b.buf.length →
      ((s.tileAt t).sent.filter fun it => it.kind == .elem r && it.slot = k).length ≤ 8 * (b.next + b.buf.length - b.pos - 1) →
      Completes (exec (.streamElementAck t k r) s) fun u => u.mem = s.mem ∧ (now u).buf = b.buf.drop 1 ∧ (now u).next = b.next)

/-- R156, R283, R285, R287 to R290, R293, R294, R308, R309, R314 and R381: a request goes from its eyelet to acceptance, to a held entry, and is dispatched when
nothing older holds it back; a memory stream's generator takes its binding. The carrier asks for the pages of a copy, then moves it piece by piece, its
bytes staged; when those of its local source are moved one with an R interval is read-done, and when all are it completes with the entry that R308 gives; one with an armed flag
commits its payload and writes the flag first; one that meets an error completes with that error's status. Memory does not change until staged
bytes are committed; that a commit performs every staged byte of its tile in a granule at once is the model's choice (log 39). -/
def Obligations.CarrierSteps : Prop :=
  ∀ (s : State) (t : TileId) (id : Nat), (s.tileAt t).pairing = none → s.dieHalted t = false →
    let x := s.tileAt t
    let plain (u : State) : Prop := u.mem = s.mem ∧ u.fe = s.fe
    (∀ r rest, x.eyelets = r :: rest → x.fretTakes r.op.entries = true →
      ((∀ q, r.op ≠ .bind q) → Completes (exec (.carrierAccept t) s) fun u => plain u ∧ (u.tileAt t).eyelets = rest ∧
        ∃ q, (u.tileAt t).accepted = x.accepted ++ [q] ∧ q.op = r.op ∧ q.id = r.id ∧ q.slot = r.slot) ∧
      (∀ q, r.op = .bind q → Completes (exec (.carrierAccept t) s) fun u => plain u ∧ (u.tileAt t).eyelets = rest ∧ (u.tileAt t).accepted = x.accepted ∧
        (((s.thrAt t r.slot).binds[q]).kind.isMem = true → ((u.thrAt t r.slot).binds[q]).live = true))) ∧
    (∀ r rest, x.accepted = r :: rest → Completes (exec (.fretboardEnter t) s) fun u => plain u ∧ (u.tileAt t).accepted = rest ∧
      ∃ e more, (u.tileAt t).ops = x.ops ++ e :: more ∧ e.req = r ∧ e.state = .held ∧ e.ivs.length ≤ 4) ∧
    (∀ e, s.opAt (t, id) = some e →
      (e.state = .held → s.conflicts t e = false → x.storesBefore e.req.slot e.req.seq = false → s.seqTakes t e = true → e.req.op ≠ .tbar →
        e.req.op.lastAddrs t = [] → Completes (exec (.dispatch t id) s) fun u => plain u ∧ ∃ o, u.opAt (t, id) = some o ∧ o.state = .active ∧ o.req = e.req) ∧
      (∀ i, e.state = .active → (s.genSteps t e).contains (.page i) = true → Completes (exec (.addressGeneration t id (.page i)) s) fun u =>
        plain u ∧ u.staged = s.staged ∧ ∃ o, u.opAt (t, id) = some o ∧ o.asked = e.asked ++ [i] ∧ o.moved = e.moved) ∧
      (∀ p g cs fl, e.state = .active → e.req.op.isCopy = true → e.plan = .inr p → (s.genSteps t e).contains (.piece g) = true →
        s.piece t e p g = .moves cs fl → Completes (exec (.addressGeneration t id (.piece g)) s) fun u => plain u ∧
          (u.staged.map fun w => (w.tile, w.op, w.loc, w.val)) = (s.staged.map fun w => (w.tile, w.op, w.loc, w.val)) ++ cs.map (fun c => (t, id, c.1, c.2)) ∧
          ∃ o, u.opAt (t, id) = some o ∧ o.moved = e.moved ++ [g] ∧ o.flags = e.flags ||| fl.bits) ∧
      (e.state = .active → e.err = none → e.req.op.isCopy = true → s.localMoved t e = true → e.releases = true →
        Completes (exec (.readDone t id) s) fun u => plain u ∧ u.staged = s.staged ∧
          ∃ o, u.opAt (t, id) = some o ∧ o.state = .readDone ∧ o.req = e.req) ∧
      (e.mayEnd = true → e.err = none → e.req.op.isCopy = true → e.allMoved = true →
        Completes (exec (.operationComplete t id) s) fun u => plain u ∧ u.opAt (t, id) = none ∧
          (e.req.flag = none → (u.tileAt t).flagging = x.flagging ∧
            ∃ h, (u.tileAt t).heldEnts = x.heldEnts ++ [h] ∧ h.lo = completionWord e.req 0 e.flags ∧ h.hi = BitVec.ofNat 64 e.copied ∧ h.cp = e.req.owner) ∧
          (e.req.flag ≠ none → (u.tileAt t).heldEnts = x.heldEnts ∧ (u.tileAt t).flagging = x.flagging ++ [⟨e.req, e.access, e.flags, e.copied⟩])) ∧
      (∀ c info, e.err = some (c, info) → Completes (exec (.errorCompletion t id c) s) fun u => plain u ∧ u.opAt (t, id) = none ∧
        ∃ h, (u.tileAt t).heldEnts = x.heldEnts ++ [h] ∧ h.hi = info ∧ h.lo.toNat / 2 ^ 40 % 256 = errCode c)) ∧
    (∀ f cs, s.Inv → s.opAt (t, id) = none → x.flagOf id = some f → s.flagWrite t f = .cells cs → cs ≠ [] → (cs.map (·.1)).Nodup → s.payloadOpen t id = true →
      Completes (exec (.operationComplete t id) s) fun u => u.fe = s.fe ∧ (u.tileAt t).flagOf id = none ∧ (∀ c ∈ cs, u.mem.read c.1 = c.2) ∧
        (∀ w ∈ u.staged, ¬(w.tile = t ∧ w.op = id)) ∧
        ∃ h, (u.tileAt t).heldEnts = x.heldEnts ++ [h] ∧ h.lo = completionWord f.req 0 f.flags ∧ h.hi = BitVec.ofNat 64 f.count ∧ h.cp = f.req.owner) ∧
    (∀ i e, s.Inv → s.staged[i]? = some e → Completes (exec (.stagingCommit i) s) fun u => u.fe = s.fe ∧
      u.staged = s.staged.filter (fun w => !(w.tile = e.tile && w.loc / 64 = e.loc / 64)) ∧
      ∀ l, u.mem.read l = match lastWhere (fun w => w.tile = e.tile && w.loc / 64 = e.loc / 64 && w.loc = l) s.staged with
        | some w => w.val
        | none => s.mem.read l)

/-- R89 to R94, R221, R223, R289, R295 to R297, R299, R300, R307, R320, R324 to R327, R334, R335, R375, R417, R422 and R423: a matrix operation takes its next chunk over its cells, each
cell moving by the sum of the products of its row and column, or takes a gap, which its die counts; a group operation is placed in a member's order
behind those of the arbiter before it. `acz` zeroes its region and no other cell; `acst` and `adrn` write the cells of their region, row by row, in its format; `acld` writes the cells of
its region from those bytes; `acwr` and `acrd` move 32 cells of a row; `ccv` and `ccvq` write the units of their source in the other format; an operand of a
drain or conversion that names its own tile is the local address of its offset. Flags
reach `vstat`, and TL falls; a drain commits its bytes, sends its WAKE and its completion entry. -/
def Obligations.AccumulatorSteps : Prop :=
  ∀ (s : State) (t : TileId) (id : Nat) (e : EngEntry), s.opAt (t, id) = some e → e.err = none → (s.tileAt t).pairing = none → s.dieHalted t = false →
    let x := s.tileAt t
    let plain (u : State) : Prop := u.mem = s.mem ∧ u.fe = s.fe
    let ended (fl : BitVec 64) (u : State) : Prop := plain u ∧ u.opAt (t, id) = none ∧
      ∀ k, e.req.owner = some k → (u.thrAt t k).vstat = (s.thrAt t k).vstat ||| fl ∧ (u.thrAt t k).cntTl = (s.thrAt t k).cntTl - 1
    let cells (u : State) (ws : List ((Nat × Nat) × Nat)) : Prop := ∀ r c, r < 128 → c < 128 →
      (u.tileAt t).cell r c = match ws.find? (fun p => p.1 = (r, c)) with
        | some p => BitVec.ofNat 32 p.2
        | none => x.cell r c
    let computed (o : EngOut) : Prop := Completes (exec (.readDone t id) s) fun u => plain u ∧ u.staged = s.staged ∧ (u.tileAt t).acc = x.acc ∧
      ∃ q, u.opAt (t, id) = some q ∧ q.state = .readDone ∧ q.out = some o
    let rowsOf (w : Word) : List (List (Nat × Nat)) := (List.range (rgRows w)).map fun r => (List.range (rgCols w)).map fun c => (rgRow0 w + r, rgCol0 w + c)
    let drained (w : Word) : List (List Nat × VFlags) := (rowsOf w).map fun r => fromCells (rgFmt w) (r.map fun p => (x.cell p.1 p.2).toNat)
    let addrs (a w : Word) : List Word := (List.range (rgRows w)).flatMap fun r => addrsFrom (a + BitVec.ofNat 64 (r * rgPitch w)) (rgRowBytes w)
    (∀ w, e.req.op = .acz w → e.out = none → e.state = .active → e.ivs = [] → regionOk w true = true → Completes (exec (.operationComplete t id) s) fun u =>
      ended 0 u ∧ u.staged.length = s.staged.length ∧ cells u ((rowsOf w).flatten.map fun p => (p, 0))) ∧
    let own (a : Word) : Word := if regionOf a = 1 ∧ a.toNat / 2 ^ 21 % 2 ^ 41 = t * 2 ^ 11 then a &&& 0x1FFFFF else a
    (∀ a w cs, (e.req.op = .acst a w ∨ ∃ z h, e.req.op = .adrn z w h ∧ a = own z ∧ e.allMoved = true) → e.state = .active →
      let bs := (drained w).flatMap fun r => r.1.flatMap fun v => leBytes v (unitBytes (rgFmt w))
      s.engWrite t e.acc ((addrs a w).zip bs) = .cells cs →
        computed ⟨cs, ((drained w).foldl (fun fl r => fl.or r.2) VFlags.none).bits, bs.length⟩) ∧
    (∀ a w bs, e.req.op = .acld a w → e.state = .active → e.releases = true → s.engRead t e.acc (addrs a w) = .bytes bs →
      let units (r : Nat) : List Nat := bytesUnits (rgFmt w) (rgRowBytes w / unitBytes (rgFmt w)) (bs.drop (r * rgRowBytes w))
      let got := (List.range (rgRows w)).map fun r => toCells (rgFmt w) (units r)
      computed ⟨((rowsOf w).zip got).flatMap fun q => (q.1.zip q.2.1).flatMap fun p => cellBytes p.1 p.2,
        (got.foldl (fun fl r => fl.or r.2) VFlags.none).bits, 0⟩) ∧
    (∀ d a c n out cs, e.state = .active → e.releases = true → n = rowBytes (ccvSrc c) (ccvCount c) →
      (∀ q ∈ addrsFrom (own d) out.length, ∀ o b, s.ownOff t q = some o → s.ownOff t (own a) = some b → o < b ∨ b + n ≤ o) →
      s.engWrite t e.acc ((addrsFrom (own d) out.length).zip out) = .cells cs → ∀ bs, s.engRead t e.acc (addrsFrom (own a) n) = .bytes bs →
        let us := bytesUnits (ccvSrc c) (n / unitBytes (ccvSrc c)) bs
        (e.req.op = .ccv d a c → let r := convertUnits (ccvSat c) (ccvSrc c) (ccvDst c) us
          out = unitsBytes (ccvDst c) r.1 → computed ⟨cs, r.2.bits, out.length⟩) ∧
        (∀ sc ks, e.req.op = .ccvq d a c sc → s.engRead t e.acc (addrsFrom (own sc) (ccvCount c / 16)) = .bytes ks →
          let r := convertScaled (ccvSrc c) (ccvDst c) us (ks.map fun b => b.toNat)
          out = unitsBytes (ccvDst c) r.1 → computed ⟨cs, r.2.bits, out.length⟩)) ∧
    (∀ o, e.out = some o → e.mayEnd = true →
      (∀ ws : List ((Nat × Nat) × Nat), (∃ a w, e.req.op = .acld a w) → o.bytes = (ws.flatMap fun p => cellBytes p.1 p.2) → (ws.map (·.1)).Nodup →
        (∀ p ∈ ws, p.1.1 < 128 ∧ p.1.2 < 128 ∧ p.2 < 2 ^ 32) → Completes (exec (.operationComplete t id) s) fun u => ended o.flags u ∧ cells u ws) ∧
      ((∃ a w, e.req.op = .acst a w) ∨ (∃ d a c, e.req.op = .ccv d a c) ∨ (∃ d a c sc, e.req.op = .ccvq d a c sc) →
        Completes (exec (.operationComplete t id) s) fun u => ended o.flags u ∧ (u.tileAt t).acc = x.acc ∧
          (u.staged.map fun v => (v.tile, v.loc, v.val)) = (s.staged.map fun v => (v.tile, v.loc, v.val)) ++ o.bytes.map fun c => (t, c.1, c.2)) ∧
      (∀ a w h, e.req.op = .adrn a w h → e.allMoved = true → s.drainOpen t e.req.op o = true → s.Inv → s.staged = [] → (o.bytes.map (·.1)).Nodup → Completes (exec (.operationComplete t id) s) fun u =>
        s.put u o.bytes ∧ u.fe = s.fe ∧ u.staged = [] ∧ u.opAt (t, id) = none ∧ (∀ k, e.req.owner = some k → (u.thrAt t k).vstat = (s.thrAt t k).vstat ||| o.flags) ∧
          (∃ it, (u.tileAt t).sent = x.sent ++ [it] ∧ it.kind = .drainWake ∧ it.lo = h ∧ ∀ v off, s.place t a = .bank v off → it.dest = v) ∧
          ∃ q, (u.tileAt t).heldEnts = x.heldEnts ++ [q] ∧ q.lo = completionWord e.req 0 0 ∧ q.hi = BitVec.ofNat 64 o.count ∧ q.cp = e.req.owner)) ∧
    (e.out = none → e.state = .active → e.ivs = [] →
      (∀ sel v, e.req.op = .acwr sel v → selOk sel = true → Completes (exec (.operationComplete t id) s) fun u => ended 0 u ∧
        cells u ((List.range 32).map fun i => ((sel.toNat % 256, sel.toNat / 256 % 256 + i), laneAt 32 v i))) ∧
      (∀ d sel, e.req.op = .acrd d sel → selOk sel = true → Completes (exec (.operationComplete t id) s) fun u => ended 0 u ∧ (u.tileAt t).acc = x.acc ∧
        ∀ k, e.req.owner = some k → ∃ v : Vec, (u.thrAt t k).results = (s.thrAt t k).results ++ [⟨[.v d v], x.cycle.toNat⟩] ∧
          ∀ i, i < 32 → laneAt 32 v i = (x.cell (sel.toNat % 256) (sel.toNat / 256 % 256 + i)).toNat)) ∧
    (∀ f sp a b c md cmd, e.req.op = .mma f sp a b c md cmd → e.allFin t = true →
      (e.state = .active → e.releases = true → Completes (exec (.readDone t id) s) fun u => plain u ∧ ∃ o, u.opAt (t, id) = some o ∧ o.state = .readDone) ∧
      (e.mayEnd = true → Completes (exec (.operationComplete t id) s) (ended e.flags))) ∧
    (∀ (q : TileId × Nat) (m : EngEntry), s.runningMma t = some (q, m) → x.frozen = false → m.err = none → (m.quadOf t).fin = false →
      q.1 = t ∨ (s.tileAt q.1).agreed = true →
      (∀ p raw d, m.mmaPlan q.1 = .inr p → s.mmaRaw q.1 m p = .inr raw → p.data raw = .inr d →
        let now := m.quadOf t
        let rs := mmaRows p.c t
        let cs := mmaCols p.c t
        ctlRow0 p.c + rs.2 ≤ 128 → ctlCol0 p.c + cs.2 ≤ 128 →
        Completes (exec (.kChunkBoundary ⟨t, false⟩) s) fun u => plain u ∧ u.staged = s.staged ∧ (∃ o, u.opAt q = some o ∧ o.quadOf t = now.advance p.f (ctlK p.c)) ∧
          cells u ((List.range rs.2).flatMap fun i => (List.range cs.2).map fun j =>
            ((ctlRow0 p.c + i, ctlCol0 p.c + j), (accumulate p.f ((pairings p.f).getD now.pair (0, 0)) (chunkOf p.f now.chunk (d.as.getD (rs.1 + i) []))
              (chunkOf p.f now.chunk (d.bs.getD (cs.1 + j) [])) (x.cell (ctlRow0 p.c + i) (ctlCol0 p.c + j))).1.toNat))) ∧
      (s.dmode ≠ 2 → Completes (exec (.kChunkBoundary ⟨t, true⟩) s) fun u => plain u ∧ u.tiles = s.tiles ∧
        ∀ die : Fin 6, ((u.dies[die]).gaps).toNat = if die.val = dieOf t % 6 then min (2 ^ 32 - 1) ((s.dies[die]).gaps.toNat + 1) else (s.dies[die]).gaps.toNat)) ∧
    (∀ m, e.req.op.isGroup = true → e.state = .held → m ∈ groupTiles t → m ∉ e.members →
      (∀ q ∈ beforeIn (t, id) (s.tileAt (groupBase t)).grpq, ∀ o, s.opAt q = some o → m ∈ o.members) →
      Completes (exec (.groupBroadcast t id m) s) fun u => plain u ∧ (u.tileAt m).mxq = (s.tileAt m).mxq ++ [(t, id)] ∧
        (∃ o, u.opAt (t, id) = some o ∧ o.members = e.members ++ [m]) ∧ (t, id) ∈ (u.tileAt (groupBase t)).grpq)

/-- R78, R95, R97, R302 to R304, R330, R331, R341 to R344, R352 and R407: the next operation of a gang's data channel combines when every tile has contributed, by the complete
tree over its participants: a reduction gives every member the root, a scan what stands before each of its participants, and the
total, a NaN in it being the canonical one; a mismatch is SHAPE for all (even where a contribution has failed too: the model's choice, log 42), a failed contribution its own error and FAULT for the others, and a step across packages that is given up FAULT for
all. A step across packages arrives from packages that a route reaches, or is lost and sent again up to RETRY times, and one that has arrived before is discarded. The operation at the head of a
tile's welt order is applied, and one that meets a fatal access breaks its header; a `wupd` of one weight subtracts the gradient times η. -/
def Obligations.TreeAndWeltSteps : Prop :=
  ∀ (s : State) (t : TileId) (g : Gang), s.gangAt g.id = some g →
    let plain (u : State) : Prop := u.mem = s.mem ∧ u.fe = s.fe
    (g.tiles ≠ [] → g.tiles.Nodup → (∀ v ∈ g.tiles, s.treeReady g g.treeDone v = true) → g.joined .data g.treeDone = true → s.treeOpen g = true →
      let w := g.work .data g.treeDone
      let parts := g.tiles.filterMap (s.treePart g g.treeDone) ++ w.parts
      let opOf (v : TileId) : Option EngEntry := (s.tileAt v).treeOpAt g.treeDone
      let fails (err : TileId → EngEntry → EngErr × Word) : Prop := Completes (exec (.treeResult g.id) s) fun u => plain u ∧ u.staged = s.staged ∧
        (∃ h, u.gangAt g.id = some h ∧ h.treeDone = g.treeDone + 1) ∧
        ∀ v ∈ g.tiles, ∀ e, opOf v = some e → ∃ o, u.opAt (v, e.req.id) = some o ∧ o.err = some (err v e)
      let failed : Prop := g.treeFails.contains g.treeDone = true ∨ ∃ p ∈ parts, p.ok = false
      (w.lost = true → fails fun _ _ => (.fault, BitVec.allOnes 64)) ∧
      (w.lost = false → treeMismatch parts = true → fails fun _ _ => (.shape, 0)) ∧
      (w.lost = false → treeMismatch parts = false → failed → fails fun v e => (s.treeOwnErr v e).getD (.fault, BitVec.allOnes 64)) ∧
      (∀ (fn : TreeFn) (ent : TileId → EngEntry) (dst src ctl : TileId → Word) (cs : TileId → List Host.Cell),
        w.lost = false → treeMismatch parts = false → ¬failed → (∀ v ∈ g.tiles, opOf v = some (ent v) ∧ (ent v).req.op = .tree fn (dst v) (src v) (ctl v)) →
        let Q := g.perTile
        let L := g.lgw
        let x (c : Word) (i v : Nat) : Option Nat := (parts.find? fun p => p.rank = v / Q).map fun p => partElem fn.code c p.data (v % Q) i
        let root (c : Word) (i : Nat) : Option Nat := treeNode (treeCombine fn.code c) (x c i) L 0
        let put (c : Word) (y : Option Nat) : List Byte := leBytes ((y.map (treeCanon fn.code c)).getD (treeAbsent fn.code c)) (treeEs fn.code c)
        let elems (c : Word) (f : Nat → List Byte) : List Byte := (List.range (treeN c)).flatMap f
        let bytes (v : TileId) : List Byte := let c := ctl v
          if fn.isScan then
            ((List.range Q).flatMap fun j => elems c fun i => put c (treePre (treeCombine fn.code c) (x c i) L L (g.rankOf v * Q + j))) ++
              (if treeTot c then elems c fun i => put c (root c i) else [])
          else elems c fun i => put c (root c i)
        (∀ v ∈ g.tiles, (g.rankOf v + 1) * Q ≤ 2 ^ L ∧ s.engWrite v (ent v).acc ((addrsFrom (dst v) (bytes v).length).zip (bytes v)) = .cells (cs v)) →
        Completes (exec (.treeResult g.id) s) fun u => plain u ∧ u.staged = s.staged ∧ (∃ h, u.gangAt g.id = some h ∧ h.treeDone = g.treeDone + 1) ∧
          ∀ v ∈ g.tiles, ∃ q o, u.opAt (v, (ent v).req.id) = some q ∧ q.out = some o ∧ o.bytes = cs v)) ∧
    (∀ ch k level, 1 < g.npk → g.chanDone ch ≤ k → level < g.levels →
      let w := g.work ch k
      let becomes (P : TreeWork → Prop) (o : Out) : Prop := Completes o fun u => plain u ∧ u.tiles = s.tiles ∧ ∃ h, u.gangAt g.id = some h ∧ P (h.work ch k)
      w.lost = false →
      (∀ ps, s.stepOpen g level = true → w.level = level → g.partsOk w ps = true → (ch = .barrier → ps = []) →
        becomes (fun z => z.level = level + 1 ∧ z.parts = w.parts ++ ps ∧ z.lost = false) (exec (.treeStep g.id ⟨ch, k, level⟩ (some ps)) s)) ∧
      (∀ ps, s.stepOpen g level = true → level < w.level → exec (.treeStep g.id ⟨ch, k, level⟩ (some ps)) s = .next s) ∧
      (w.level = level → becomes (fun z => z.level = level ∧ z.parts = w.parts ∧
        if g.retry ≤ w.tries then z.lost = true else z.tries = w.tries + 1 ∧ z.lost = false) (exec (.treeStep g.id ⟨ch, k, level⟩ none) s))) ∧
    (∀ id n rest e fn k n0 ent operand, (s.tileAt t).pairing = none → s.dieHalted t = false → (s.tileAt t).weltQ = (id, n) :: rest → s.opAt (t, id) = some e →
      e.state = .active → e.err = none → e.req.op = .welt fn k n0 ent operand →
      let h := (s.tileAt t).hdr k
      let staged (cs : List Host.Cell) (u : State) : Prop := plain u ∧ (u.tileAt t).weltQ = rest ∧
        (u.staged.map fun v => (v.tile, v.loc, v.val)) = (s.staged.map fun v => (v.tile, v.loc, v.val)) ++ cs.map fun c => (t, c.1, c.2)
      (∀ r, s.weltWork t e.acc fn h n0 n operand = .done r → Completes (exec (.weltApply t) s) fun u => staged r.cells u ∧ (u.tileAt t).hdr k = h ∧
        ∃ q, u.opAt (t, id) = some q ∧ q.out = some ⟨[], r.flags.bits, 0⟩) ∧
      (∀ a r, s.weltWork t e.acc fn h n0 n operand = .fatal a r → Completes (exec (.weltApply t) s) fun u => staged r.cells u ∧
        hdBrk ((u.tileAt t).hdr k) = true ∧ ∃ q, u.opAt (t, id) = some q ∧ q.err = some (.fault, a)) ∧
      (fn = .wupd → hdPred h = false → hdOpt h = false → hdE h = 1 → operand.toNat + 4 ≤ 0x180000 → (hdWptr h).toNat + 4 ≤ 0x180000 → dieOf t < 6 → s.lostDies = [] →
        s.staged = [] →
        let at_ (a : Word) : Nat := s.mem.readNat (tileLoc t a.toNat) 4
        let v := (rne32 [[at_ (hdWptr h)], [negF (hdEta h), at_ operand]]).1
        Completes (exec (.weltApply t) s) (staged ((List.range 4).map fun i => (tileLoc t (hdWptr h).toNat + i, BitVec.ofNat 8 (v / 256 ^ i))))))

-- Events of requests, registers, traps and pairs (spec/08_parallel_execution.md, spec/10_memory_levels.md, spec/18_faults_preemption.md)

/-- R169 to R172, R190, R191, R205, R231, R260, R261 and R388: a refused request, item or walk is sent again at its clock; a withdrawal takes a request that has no answer yet, wherever
it waits, out of every list, and once confirmed the form issues again; a notice sets W and wakes a sleeper; a withdrawal of a listed request, its confirmation and a
notice cross to the home or back where no bridge holds them. The timeouts of `mslp` and `wadr` end their waits. -/
def Obligations.RequestTimers : Prop :=
  ∀ (s : State) (t : TileId) (k : Slot) (n : Nat),
    let th := s.thrAt t k
    let past : Prop := n ≤ (s.tileAt t).cycle.toNat
    let plain (u : State) : Prop := u.mem = s.mem ∧ u.fe = s.fe ∧ u.staged = s.staged ∧ (u.thrAt t k).s = th.s ∧ (u.thrAt t k).pc = th.pc
    (∀ r, th.req = some r →
      (r.stage = .refused n → past → Completes (exec (.refusedResend (.request t k)) s) fun u => plain u ∧
        (u.thrAt t k).req = some { r with stage := .sent } ∧ (u.thrAt t k).run = th.run) ∧
      (th.trapReady = true → r.stage = .sent ∨ r.stage = .listed ∨ r.stage = .refused n →
        (r.stage = .listed → ∀ h ∈ r.homes, s.isLost h = true ∨ s.homeOpen t h = true) → Completes (exec (.withdrawal t k) s) fun u => plain u ∧
        (u.thrAt t k).req = some { r with stage := .withdrawn } ∧ (∀ w ∈ u.waiters, ¬(w.tile = t ∧ w.slot = k)) ∧ ∀ q ∈ u.resvs, (t, k) ∉ q.waiting) ∧
      (r.stage = .withdrawn → (∀ h ∈ r.homes, s.backOpen t h = true) → Completes (exec (.withdrawalConfirm t k) s) fun u => plain u ∧
        (u.thrAt t k).req = none ∧ (u.thrAt t k).run = .ready ∧ (u.thrAt t k).instret = th.instret) ∧
      (∀ z cmp hs, r.op = .wadr z cmp (some n) → s.reqReach t r = .homes hs → past → s.anyHalted = false → r.stage = .sent ∨ r.stage = .listed →
        Completes (exec (.wadrTimeout t k) s) fun u => plain u ∧
          (u.thrAt t k).req = some { r with stage := .answered (.value (BitVec.ofNat 64 (s.viewNat t (hs.map (·.loc)))) 0) })) ∧
    (∀ e, (t, k, e) ∈ s.notices → (th.monitors[e]).valid = true → (∀ l, (th.monitors[e]).locs.head? = some l → s.backOpen t (s.homeOf l) = true) → Completes (exec (.monitorNotice t k e) s) fun u => plain u ∧
      (t, k, e) ∉ u.notices ∧ ((u.thrAt t k).monitors[e]).w = true ∧ (th.run = .sleeping → (u.thrAt t k).run = .ready)) ∧
    (∀ d, th.run = .sleeping → th.sleep = some ⟨d, some n⟩ → past → s.anyHalted = false → Completes (exec (.mslpTimeout t k) s) fun u => plain u ∧
      (u.thrAt t k).run = .ready ∧ (u.thrAt t k).sleep = th.sleep) ∧
    (∀ i it, (s.tileAt t).sent[i]? = some it → it.refused = some n → past → Completes (exec (.refusedResend (.item t i)) s) fun u => plain u ∧
      (u.tileAt t).sent = (s.tileAt t).sent.set i { it with refused := none }) ∧
    (∀ (i : Nat) (q : Refused), s.refused[i]? = some q → q.due ≤ (s.tileAt q.req.tile).cycle.toNat →
      exec (.refusedResend (.walk i)) s = .next { s with refused := dropAt s.refused i })

/-- R216, R226 to R231, R234, R235, R337, R363, R379, R411, R414, R423 and R427: a walk that finds a leaf, or that the page is fatal, is cached (that a station keeps a fatal
outcome too is the model's reading, log 30), and the requests that want the page go by what it found
from then on, as they go by a cached entry; one that does neither holds its page with the requests that want it, or
refuses them for 64 clocks where the station holds 64 pages; stores of PDBASE, INVAL, RESUME, a
bank format, a weight header, a binding record, a breakpoint or a watchpoint have the effects of their registers: an INVAL drops its entries at once, but for what a request still on its way goes by, and is
acknowledged when nothing translated with them is on its way; a resumed page is walked for again, for its requests, and an
aborted one's requests complete as fatal, or, of a fetch, trap. Word i of a window's record reads back; IDENT, the management registers and the public key read as given.
The places of the log's base and of registers in BAR4 from 0x4000 on are the model's (log 51). -/
def Obligations.TranslationAndRegisters : Prop :=
  ∀ (s : State), s.Inv →
    let reads (p : RegPlace) (x : Nat) : Prop := ∀ v, exec (.registerWrite p v) s = .next { s with hostRead := .data (leBytes x 8) }
    (∀ die (pid : BitVec 16) (page : BitVec 36) (va : Nat), va = page.toNat * 2 ^ 16 → s.wanted die pid page ≠ [] → s.isHeld die pid va = false →
      let go (w : Walk) (u : State) : Prop := u.mem = s.mem ∧ u.tiles = s.tiles ∧ u.heldPages = s.heldPages ∧
        u.cached die pid va = some w ∧ ∀ r ∈ s.wanted die pid page, (u.trans.find? fun x => x.isFor r.tile r.asker pid page).map (·.walk) = some w
      (∀ w, s.cached die pid va = some w → Completes (exec (.translationWalk die (stationOf va) pid page) s) fun u => go w u ∧ u.xlats = s.xlats) ∧
      (∀ w, s.cached die pid va = none → s.walkAt die pid va = .found w → Completes (exec (.translationWalk die (stationOf va) pid page) s) (go w)) ∧
      (s.cached die pid va = none → s.walkAt die pid va = .held → (s.heldPages.filter fun h => h.die = die && h.station = stationOf va).length < 64 →
        Completes (exec (.translationWalk die (stationOf va) pid page) s) fun u =>
          u.heldPages = s.heldPages ++ [⟨die, stationOf va, pid, page, s.wanted die pid page⟩] ∧ u.cached die pid va = none ∧
            ((∀ h ∈ s.heldPages, ¬(h.pid = pid ∧ h.page = page)) → s.logWait = [] → 32 * (s.logNext + 1) ≤ s.logSize →
              u.logSeq = s.logSeq + 1 ∧ u.msix = s.msix ++ [0])) ∧
      (s.cached die pid va = none → s.walkAt die pid va = .held → 64 ≤ (s.heldPages.filter fun h => h.die = die && h.station = stationOf va).length →
        Completes (exec (.translationWalk die (stationOf va) pid page) s) fun u => u.mem = s.mem ∧ u.tiles = s.tiles ∧ u.heldPages = s.heldPages ∧
          u.refused = s.refused ++ (s.wanted die pid page).map fun r => ⟨page, r, (s.tileAt r.tile).cycle.toNat + 64⟩)) ∧
    (∀ q v, s.regNext .pdbase v q → Completes (exec (.pdbase v) s) fun u => u.mem = s.mem ∧ u.pdbase = v &&& 0x000000FFFFFFF000) ∧
    (∀ q v, s.regNext .inval v q →
      let names (pid : BitVec 16) (page : BitVec 36) (w : Walk) : Prop := pid = v.setWidth 16 ∧ (v.getLsbD 16 = true ∨ w.covers page (stationPage v) = true)
      let dropped (u : State) : Prop := u.mem = s.mem ∧ (∀ x, x ∈ u.xlats ↔ x ∈ s.xlats ∧ ¬names x.pid x.page x.walk) ∧
        ∀ x, x ∈ u.trans ↔ x ∈ s.trans ∧ (¬names x.pid x.page x.walk ∨ s.transAwaited x = true)
      (s.invalHeld v = false → Completes (exec (.inval v) s) dropped) ∧
      (s.invalHeld v = true → s.shoot v ≠ s → Completes (exec (.inval v) s) fun u => dropped u ∧ u.tiles = s.tiles)) ∧
    (∀ q v, s.regNext .resume v q →
      let mine (h : HeldPage) : Prop := h.pid = stationPid v ∧ h.page = stationPage v
      let again (h : HeldPage) : WalkOut := s.walkAt h.die h.pid (h.page.toNat * 2 ^ 16)
      let answered (u : State) : Prop := u.mem = s.mem ∧ ∀ h, h ∈ u.heldPages ↔ h ∈ s.heldPages ∧ ¬mine h
      (v.getLsbD 16 = true → Completes (exec (.resume v) s) fun u => answered u ∧
        ∀ h ∈ s.heldPages, mine h → ∀ r ∈ h.reqs, r.isFetch = false → (⟨h.pid, h.page, r, .fatal⟩ : Translated) ∈ u.trans) ∧
      (v.getLsbD 16 = false → (∀ h ∈ s.heldPages, mine h → ∃ w, again h = .found w) → Completes (exec (.resume v) s) fun u => answered u ∧
        ∀ h ∈ s.heldPages, mine h → ∀ w, again h = .found w → ∀ r ∈ h.reqs, (⟨h.pid, h.page, r, w⟩ : Translated) ∈ u.trans) ∧
      (v.getLsbD 16 = false → (∀ h ∈ s.heldPages, mine h → again h = .held) → Completes (exec (.resume v) s) fun u =>
        u.heldPages = s.heldPages ∧ u.trans = s.trans)) ∧
    (∀ q v t n, s.regNext (.fmt t n) v q → Completes (exec (.bankFormatWrite t n v) s) fun u => u.mem = s.mem ∧
      ∀ m : Fin 16, (u.tileAt t).fmts[m] = if m = n ∧ v.toNat % 16 < 9 then v.setWidth 4 else (s.tileAt t).fmts[m]) ∧
    (∀ q v t j, s.regNext (.watchCtl t j) v q → Completes (exec (.watchpointControlWrite t j v) s) fun u => u.mem = s.mem ∧
      ((u.tileAt t).watches[j]).addr = ((s.tileAt t).watches[j]).addr ∧
      ((u.tileAt t).watches[j]).ctl = if v.toNat / 1024 = 0 ∧ v.getLsbD 3 = false ∧ v.toNat / 16 ≤ 6 then v else ((s.tileAt t).watches[j]).ctl) ∧
    (∀ q v t k r, s.regNext (.record t k r 3) v q →
      let b : Bind := (s.thrAt t k).binds[r]
      (b.kind = .unbound → v.toNat / 2 ^ 32 % 8 ≠ 0 → s.recordOk t b v = true → Completes (exec (.bindingRecordStore t k r v) s) fun u => u.mem = s.mem ∧
        kindCode ((u.thrAt t k).binds[r]).kind = v.toNat / 2 ^ 32 % 8 ∧ ((u.thrAt t k).binds[r]).pos = v.toNat % 2 ^ 32 ∧ ((u.thrAt t k).binds[r]).base = b.stage0) ∧
      (b.kind ≠ .unbound → q.req.counted = true → Completes (exec (.bindingRecordStore t k r v) s) fun u => u.mem = s.mem ∧ (u.thrAt t k).binds[r] = b ∧
        (⟨q.req.seq, q.req.id, q.addr⟩ : StoreFault) ∈ (u.thrAt q.tile q.req.slot).faults)) ∧
    (∀ q t k (off : Fin 64) bs, s.regStores.find? (fun q => q.headerBytes == some (t, k, off.val, bs)) = some q →
      ((s.tileAt t).hdrBusy k = false → Completes (exec (.headerStore t k off bs) s) fun u => u.mem = s.mem ∧
        ∀ i, i < 64 → hdField ((u.tileAt t).hdr k) (8 * i) 8 =
          if off.val ≤ i ∧ i < off.val + bs.length then (bs.getD (i - off.val) 0).toNat else hdField ((s.tileAt t).hdr k) (8 * i) 8) ∧
      ((s.tileAt t).hdrBusy k = true → Completes (exec (.headerStore t k off bs) s) fun u => u.mem = s.mem ∧ (u.tileAt t).hdr k = (s.tileAt t).hdr k)) ∧
    (∀ q a v t i, s.regNext (.brk t i) v q → devOf a = some (.brk t i, 0) → Completes (exec (.registerWrite (.device a) v) s) fun u => u.mem = s.mem ∧
      ∀ j : Fin 4, (u.tileAt t).brks[j] = if j = i then v else (s.tileAt t).brks[j]) ∧
    (∀ (w : Fin 24) (k : Fin 8) i v, i < 32 → s.serves = true → Completes (exec (.registerWrite (.bar0 (w.val * 4096 + 256 + k.val * 256 + 8 * i)) v) s) fun u =>
      u.mem = s.mem ∧ u.tiles = s.tiles ∧ u.slotWord w k i = v ∧ ∀ w' k' j, (w', k', j) ≠ (w, k, i) → j < 32 → u.slotWord w' k' j = s.slotWord w' k' j) ∧
    (∀ v, Completes (exec (.registerWrite (.bar4 0x4000) v) s) fun u => u.logBase = v ∧ u.logSize = s.logSize) ∧
    ((s.serves = true → ∀ w : Fin 24, reads (.readBar0 (w.val * 4096 + 0x010)) (w.val + w.val / 4 * 2 ^ 8 + w.val % 4 * 2 ^ 12) ∧
        reads (.readBar0 (w.val * 4096 + 0x008)) (s.windows[w]).done.toNat) ∧
      reads (.readBar4 0x0000) (s.dmode.toNat + if s.dmodeErr then 2 ^ 8 else 0) ∧ reads (.readBar4 0x0008) s.plim.toNat ∧ reads (.readBar4 0x0010) s.degraded.toNat ∧
      (∀ d : Fin 6, reads (.readBar4 (0x0100 + 8 * d.val)) ((s.dies[d]).gaps.toNat * 2 ^ 32 + (s.dies[d]).grant.toNat)) ∧
      ∀ i, i < 244 → reads (.readBar4 (0x3000 + 8 * i)) (leNat ((List.range 8).map fun j => Config.publicKey (8 * i + j))))

/-- R201, R272, R354, R355, R367, R368 and R31: a due timer and an unreleased reservation make their traps pending; a pending trap is taken in the order of R355 with
the registers of R354; an uncorrectable error poisons a load's register, kills the thread whose register is bad, drops an unlocked cache line and has a
locked one read again. -/
def Obligations.AsyncTraps : Prop :=
  ∀ (s : State) (t : TileId) (k : Slot),
    let th := s.thrAt t k
    let p := th.pending
    let chosen : Option (Cause × Word) := match p.pairMismatch with
      | some v => some (.pairMismatch, v)
      | none => match p.preempt with
        | some v => some (.preempt, v)
        | none => match p.suspect with
          | some v => some (.suspect, v)
          | none => match p.rsvTimeout with
            | some v => some (.rsvTimeout, v)
            | none => if p.timer then some (.timer, th.tmcmp) else none
    (∀ c v, k ≠ 0 → s.mayTrap t k = true → th.sleep = none → th.barWaiting = none → th.tvec ≠ 0 → chosen = some (c, v) → Completes (exec (.trapEntry t k) s) fun u =>
      let w := u.thrAt t k
      u.mem = s.mem ∧ u.fe = s.fe ∧ w.pc = th.tvec ∧ w.epc = th.pc ∧ w.cause = BitVec.ofNat 64 (2 ^ 63 + c.code) ∧ w.tval = v ∧
        w.status.toNat = 1 + (if th.sv then 2 else 0) + 8 + 16 * (th.shadow % 4) ∧ w.shadow = 0 ∧ w.run = .ready ∧ w.s = th.s ∧ w.v = th.v ∧ w.g = th.g ∧
        w.instret = th.instret ∧ w.tmcmp = if c = .timer then 0 else th.tmcmp) ∧
    (th.resident = true → th.tmcmp ≠ 0 → th.tmcmp.toNat ≤ (s.tileAt t).cycle.toNat → p.timer = false → s.anyHalted = false →
      Completes (exec (.timer t k) s) fun u => u.mem = s.mem ∧ u.thrAt t k = { th with pending := { p with timer := true } }) ∧
    (∀ h, th.hold = some h → h.deadline ≤ (s.tileAt t).cycle.toNat → s.anyHalted = false → Completes (exec (.rsvTimeout t k) s) fun u => u.mem = s.mem ∧
      (u.thrAt t k).hold = none ∧ (u.thrAt t k).pending = { p with rsvTimeout := some h.addr } ∧ (u.thrAt t k).s = th.s ∧
      ∃ r ∈ (u.tileAt t).stores, r.kind = .arel (placeOf h.homes) h.size ∧ r.pieces = []) ∧
    (∀ l bs d ty a, th.loads.find? (fun x => x.id = l.id) = some l → l.dest = .scalar d ty a → l.got = [] → d ≠ 0 → s.loadOut t k l 0 = .bytes bs →
      Completes (exec (.uncorrectableError (.load t k l.id)) s) fun u => u.mem = s.mem ∧ ((u.thrAt t k).getS d).full = true ∧ ((u.thrAt t k).getS d).poison = true ∧
        ((u.thrAt t k).getS d).pend = false ∧ (u.thrAt t k).cntLd = th.cntLd - 1 ∧ ∀ e, e ≠ d → (u.thrAt t k).getS e = th.getS e) ∧
    (k ≠ 0 → th.resident = true → Completes (exec (.uncorrectableError (.thread t k)) s) fun u => (u.thrAt t k).run = .killed ∧ (u.thrAt t k).s = Thread.reset.s ∧
      (u.thrAt t k).v = Thread.reset.v ∧ (∃ e ∈ (u.tileAt t).heldEnts, e.lo = BitVec.ofNat 64 (256 + k.val) ∧ e.hi = th.pc) ∧
      ∀ j, j ≠ k → (u.thrAt t j).s = (s.thrAt t j).s) ∧
    (∀ va l, (s.tileAt t).lineOf va = some l → Completes (exec (.uncorrectableError (.line t va)) s) fun u => u.mem = s.mem ∧ u.thrAt t k = th ∧
      (l.locked = false → ∀ m, m ∈ (u.tileAt t).icache ↔ m ∈ (s.tileAt t).icache ∧ m ≠ l) ∧
      (∀ ws, l.locked = true → s.rereadOpen t l = true → s.readLine t (s.tileAt t).pid l.addr = some ws → ∀ m,
        m ∈ (u.tileAt t).icache ↔ (m ∈ (s.tileAt t).icache ∧ m ≠ l) ∨ m = { l with words := ws.take l.words.length }))

/-- R167, R371, R372, R374 and R376 to R378: when the partner holds the copy, the slot that waits in `pair` is ready, from the next clock on; its `pair` then retires with the
new `pairstat` and begins the first interval, the partner hidden. Where the fingerprints agree the next interval begins, registers and memory stand, and slots that
wait in `fprt` or `unpair` are ready; for an `unpair` the pair ends, the odd tile empty and its scratchpad and accumulator store as the pair's stand; a first or second disagreement takes the pair back to its last agreement point (where no reservation of its own words is queued), the words that the
interval wrote restored and what came from outside to be delivered again; the third ends the pair and makes PAIR_MISMATCH pending. -/
def Obligations.PairIntervals : Prop :=
  ∀ (s : State) (t : TileId), s.Inv →
    let x := s.tileAt t
    let met (th : Thread) : Thread := { th with run := .ready, rouse := .clears, met := some th.pc }
    (∀ (k : Slot), k ≠ 0 → (s.thrAt t k).waitsPair = true → (∀ j, j ≠ 0 → j ≠ k → (s.thrAt t j).waitsPair = false) →
      x.pairing = none → (s.tileAt (t + 1)).canPair = true → s.dieHalted t = false →
      Completes (exec (.pairCopyDone t) s) fun u => u.mem = s.mem ∧ u.fe = s.fe ∧ (u.tileAt t).pairing = none ∧ u.thrAt t k = met (s.thrAt t k) ∧
        ∀ j, j ≠ k → u.thrAt t j = s.thrAt t j) ∧
    (∀ (d a : Reg) (y : Word) lgf, s.curTile = t → s.thr.sv = true → s.thr.holds a y → s.thr.free d → lgfOf y = some lgf → t % 2 = 0 → x.pairing = none →
      (s.tileAt (t + 1)).canPair = true → s.isMet = true → Completes (exec (.pair d a) s) fun u => s.onward u ∧ u.mem = s.mem ∧
        (d ≠ 0 → u.thr.getS d = ⟨BitVec.ofNat 64 (2 * lgf + 1), true, false, false⟩) ∧ (u.tileAt (t + 1)).hidden = true ∧
        u.tile.pairing = some ⟨t + 1, true, lgf, 0, 0, 0, 0, [], [], [], [], false, none, s.resvs.filter fun q => locTile q.loc = some t⟩) ∧
    (∀ p, x.pairing = some p → p.even = true → s.dieHalted t = false → s.intervalOver t p = true →
      let agreed (u : State) : Prop := ∀ k, (u.thrAt t k).s = (s.thrAt t k).s ∧ (u.thrAt t k).v = (s.thrAt t k).v ∧ (u.thrAt t k).pc = (s.thrAt t k).pc ∧
        (k ≠ 0 → (s.thrAt t k).waitsFor = some .fprt ∨ (s.thrAt t k).waitsFor = some .unpair → u.thrAt t k = { met (s.thrAt t k) with seq := (s.thrAt t k).seq + 1 })
      (p.unpair = none → p.replay = [] → Completes (exec (.intervalEnd t p.print) s) fun u => u.mem = s.mem ∧ u.fe = s.fe ∧ agreed u ∧
        ∃ q, (u.tileAt t).pairing = some q ∧ q.interval = p.interval + 1 ∧ q.miss = 0 ∧ q.retired = 0 ∧ q.undo = [] ∧ q.ending = false) ∧
      (∀ j, p.unpair = some j → p.replay = [] → Completes (exec (.intervalEnd t p.print) s) fun u => agreed u ∧ (u.tileAt t).pairing = none ∧
        (u.tileAt (t + 1)).pairing = none ∧ (u.tileAt (t + 1)).hidden = false ∧ (∀ k, (u.thrAt (t + 1) k).run = .empty) ∧ (u.tileAt (t + 1)).ops = [] ∧
        (u.tileAt (t + 1)).acc = x.acc ∧ ∀ a, a < 0x180000 → u.mem.read (tileLoc t a) = s.mem.read (tileLoc t a) ∧ u.mem.read (tileLoc (t + 1) a) = s.mem.read (tileLoc t a)) ∧
      (∀ odd x0, odd ≠ p.print → s.snapshots.find? (fun q => q.1 = t) = some (t, x0) → p.resvs = [] → (∀ q ∈ s.resvs, locTile q.loc ≠ some t) →
        (p.miss < 2 → Completes (exec (.intervalEnd t odd) s) fun u =>
          (∃ q, (u.tileAt t).pairing = some q ∧ q.interval = p.interval ∧ q.miss = p.miss + 1 ∧ q.retired = 0 ∧ q.unpair = none ∧ q.replay = p.inbound ++ p.replay) ∧
          (u.tileAt t).acc = x0.acc ∧ (u.tileAt t).cycle = x.cycle ∧
          (∀ k, (u.thrAt t k).s = x0.slots[k].s ∧ (u.thrAt t k).v = x0.slots[k].v ∧ (u.thrAt t k).pc = x0.slots[k].pc) ∧
          ((p.undo.map (·.1)).Nodup → ∀ e ∈ p.undo, u.mem.readNat (4 * e.1) 4 = e.2.1.toNat ∧ feFull e.1 u.fe = e.2.2)) ∧
        (2 ≤ p.miss → p.inbound = [] → p.replay = [] → Completes (exec (.intervalEnd t odd) s) fun u => (u.tileAt t).pairing = none ∧ (u.tileAt (t + 1)).pairing = none ∧
          (u.tileAt (t + 1)).hidden = false ∧ (∀ k, (u.thrAt (t + 1) k).run = .empty) ∧
          ∀ k, (u.thrAt t k).s = x0.slots[k].s ∧ ((u.thrAt t k).resident = true → (u.thrAt t k).pending.pairMismatch = some (p.interval.setWidth 64)))))

-- Events of gangs, links, the host and the package (spec/18_faults_preemption.md, spec/21_many_dies.md, spec/23_device.md)

/-- R5, R54, R360, R395 to R398, R402 and R418: a gang's tiles are reserved, those of a younger gang that spans packages and is reserved being released, and one releases
its own for an older gang; a gang of several packages that another refuses is refused here; its tick is confirmed or refused, and at the tick, not after it, its threads
start as R55 says; that a gang is refused which comes to
be placed in another mode than DMODE's, and ends when at the tick its image is none or a bridge cuts it off, is the model's choice (log 52); at tick T
PREEMPT becomes pending, at tick D the gang is stopped and saved, and what is sent to it joins its image. -/
def Obligations.GangLife : Prop :=
  ∀ (s : State) (g : Gang), s.Inv → s.gangAt g.id = some g →
    let becomes (u : State) (st : GangState) : Prop := ∃ h, u.gangAt g.id = some h ∧ h.state = st ∧ h.tiles = g.tiles
    let holds (h : Gang) : Prop := h.id ≠ g.id ∧ ∃ t ∈ g.tiles, (s.tileAt t).gang = some h.id
    let refused (u : State) : Prop := u.mem = s.mem ∧ u.gangAt g.id = none ∧ ∀ w k, g.req = some (w, k) → u.winMem.read (slotAddr w k 0 + 2) = 3
    (g.state = .placing → g.mode.toNat % 4 ≠ s.dmode.toNat → Completes (exec (.placement g.id .reserve) s) refused) ∧
    (g.state = .placing → g.mode.toNat % 4 = s.dmode.toNat → s.failing = [] → (∀ t ∈ g.tiles, s.degraded.getLsbD (dieOf t) = false ∧ (s.tileAt t).hidden = false) →
      (∀ t ∈ g.tiles, (s.tileAt t).gang = none ∨ ∃ h ∈ s.gangs, h.id ≠ g.id ∧ (s.tileAt t).gang = some h.id) →
      (∀ h ∈ s.gangs, holds h → h.state = .reserved ∧ 1 < h.npk ∧ g.age.toNat < h.age.toNat ∧ ∀ t ∈ g.tiles, (s.tileAt t).gang = some h.id → t ∈ h.tiles) →
      Completes (exec (.placement g.id .reserve) s) fun u => u.mem = s.mem ∧ becomes u .reserved ∧ (∀ t ∈ g.tiles, (u.tileAt t).gang = some g.id) ∧
        ∀ h ∈ s.gangs, holds h → ∃ q, u.gangAt h.id = some q ∧ q.state = .placing) ∧
    (∀ older, g.state = .reserved → 1 < g.npk → older.toNat < g.age.toNat → Completes (exec (.placement g.id (.release older)) s) fun u =>
      u.mem = s.mem ∧ becomes u .placing ∧ ∀ t ∈ g.tiles, (u.tileAt t).gang ≠ some g.id) ∧
    (g.state = .reserved → g.tick.toNat < s.timebase.toNat + s.launchLead → Completes (exec (.placementConfirm g.id) s) fun u => refused u ∧
      ∀ t ∈ g.tiles, (u.tileAt t).gang ≠ some g.id) ∧
    (g.state = .placing ∨ g.state = .reserved → 1 < g.npk → Completes (exec (.placement g.id .refuse) s) fun u => refused u ∧
      ∀ t ∈ g.tiles, (u.tileAt t).gang ≠ some g.id) ∧
    (g.state = .reserved → s.timebase.toNat + s.launchLead ≤ g.tick.toNat → s.gangOpen g = true → Completes (exec (.placementConfirm g.id) s) fun u => u.mem = s.mem ∧ u.tiles = s.tiles ∧
      becomes u .confirmed ∧ ∀ w k, g.req = some (w, k) → u.winMem.read (slotAddr w k 0 + 2) = 1) ∧
    (g.state = .confirmed → s.timebase = g.tick → s.imageFmts g.data = none ∨ s.dataRuns listFuel (g.data + 16) = none ∨ s.gangOpen g = false →
      Completes (exec (.launchTick g.id) s) fun u => u.gangAt g.id = none) ∧
    (∀ fmts runs, g.state = .confirmed → s.timebase = g.tick → s.imageFmts g.data = some fmts → s.dataRuns listFuel (g.data + 16) = some runs →
      s.gangOpen g = true → Completes (exec (.launchTick g.id) s) fun u => becomes u .running ∧ ∀ t ∈ g.tiles, (u.tileAt t).gang = some g.id ∧ (u.tileAt t).cycle = 0 ∧
        (u.tileAt t).mode = g.mode ∧ (u.tileAt t).pid = g.pid ∧ (u.tileAt t).fmts = fmts ∧ ∀ k : Slot, k ≠ 0 → g.slots.getLsbD (k.val - 1) = true →
          (u.thrAt t k).run = .ready ∧ (u.thrAt t k).pc = (g.code + (g.pcs.getD (k.val - 1) 0).setWidth 64) &&& ~~~3#64 ∧ (u.thrAt t k).tvec = g.tvec &&& ~~~3#64 ∧
          (u.thrAt t k).s = Thread.reset.s ∧ (u.thrAt t k).v = Thread.reset.v ∧ (u.thrAt t k).status = 4) ∧
    (∀ a d, g.state = .running → g.stopT = some a → g.stopD = some d → a.toNat ≤ s.timebase.toNat → Completes (exec (.preempt g.id) s) fun u => u.mem = s.mem ∧
      (∃ h, u.gangAt g.id = some h ∧ h.stopT = none ∧ h.stopD = some d) ∧ ∀ t ∈ g.tiles, ∀ k, k ≠ 0 → (s.thrAt t k).resident = true →
        (u.thrAt t k).pending.preempt = some d ∧ (u.thrAt t k).pc = (s.thrAt t k).pc) ∧
    (∀ d, g.state = .running → g.stopT = none → g.stopD = some d → d.toNat ≤ s.timebase.toNat → s.stopReady (s.heldTiles g) = true →
      Completes (exec (.deadlineStop g.id) s) fun u => (∃ h, u.gangAt g.id = some h ∧ h.state = .stopped ∧ h.saved.map (·.1) = s.heldTiles g ∧
        ∀ q ∈ h.saved, ∀ k, q.2.slots[k].s = (s.thrAt q.1 k).s ∧ q.2.slots[k].pc = (s.thrAt q.1 k).pc) ∧
        ∀ t ∈ g.tiles, (u.tileAt t).gang = none ∧ ∀ k, (u.thrAt t k).run = .empty) ∧
    (∀ (e : LaceEntry) y, s.savedTile g.id e.dest = some (g, y) → e.chan ≠ 0 → s.laceOk g y e = true → y.hidden = false → (y.channels[e.chan]).entries.length < 32 →
      Completes (exec (.stoppedGangDelivery (.entry g.id e)) s) fun u => u.mem = s.mem ∧ u.tiles = s.tiles ∧ ∃ h z, u.savedTile g.id e.dest = some (h, z) ∧
        (z.channels[e.chan]).entries = (y.channels[e.chan]).entries ++ [⟨e.lo, e.hi, e.md, e.ts, e.rel, []⟩]) ∧
    (∀ t a y, s.savedTile g.id t = some (g, y) → y.hidden = false → y.queue.length < 64 → Completes (exec (.stoppedGangDelivery (.wake g.id t a)) s) fun u =>
      u.mem = s.mem ∧ u.tiles = s.tiles ∧ ∃ h z, u.savedTile g.id t = some (h, z) ∧ z.queue = y.queue ++ [a])

/-- R386 to R388, R399, R401, R404, R406, R408 and R409: a replay and a retransmission only count; after 32 failures a bridge retrains, and works again or is down
with the running gangs stopped; a failed port stops the gangs that lose a package, and the packages that no route reaches are then unreachable; what is lost
takes its boards with it; a test that passes records the least `vtime`, and a failing tile takes its row's spare or degrades its die, at once where its die holds
no gang and no stopped gang is to be resumed on its cluster (the model's choice, log 53: R409 speaks of the gang's next resumption), and is else recorded. -/
def Obligations.LinksFail : Prop :=
  ∀ (s : State),
    let same (u : State) : Prop := u.mem = s.mem ∧ u.tiles = s.tiles
    let counts (u : State) (off : Nat) : Prop := assocGet 0 u.wearNew off = assocGet 0 s.wearNew off + 1
    (∀ b : Fin 11, let x : Bridge := s.bridges[b]
      (∀ again : Bool, x.up = true → x.train = false → Completes (exec (.bridgeReplay ⟨b, again⟩) s) fun u => same u ∧ counts u (0x0940 + 8 * b.val) ∧
        u.bridges[b] = { x with fails := if again then min 32 (x.fails + 1) else 1 }) ∧
      (x.up = true → x.train = false → 32 ≤ x.fails → Completes (exec (.bridgeRetrain b) s) fun u => same u ∧ u.bridges[b] = { x with train := true }) ∧
      (x.train = true → Completes (exec (.retrainingEnd b true) s) fun u => same u ∧ u.bridges[b] = ⟨true, false, 0⟩) ∧
      (x.train = true → (∀ g ∈ s.gangs, s.stopReady (s.heldTiles g) = true) → Completes (exec (.retrainingEnd b false) s) fun u => u.bridges[b] = ⟨false, false, 0⟩ ∧
        ∀ g ∈ s.gangs, g.state = .running → g.tiles ≠ [] → ∃ h, u.gangAt g.id = some h ∧ h.state = .stopped)) ∧
    (∀ p : Fin 24, s.ports[p] = true →
      (Completes (exec (.laceRetransmit p) s) fun u => same u ∧ counts u (0x09C0 + 8 * p.val) ∧ u.ports = s.ports) ∧
      (Completes (exec (.portFailure p []) s) fun u => same u ∧ u.gangs = s.gangs ∧ ∀ q : Fin 24, u.ports[q] = if q = p then false else s.ports[q]) ∧
      (∀ lost : List (Nat × Option Nat), (∀ g ∈ s.gangs, s.stopReady (s.heldTiles g) = true) → Completes (exec (.portFailure p lost) s) fun u => u.ports[p] = false ∧
        u.unreach = s.unreach ++ lost.map (·.1) ∧ u.unreachPkgs = s.unreachPkgs ++ lost.filterMap (·.2) ∧
        ∀ g ∈ s.gangs, g.state = .running → g.tiles ≠ [] → (∃ n ∈ lost, BitVec.ofNat 16 n.1 ∈ g.nodes) → ∃ h, u.gangAt g.id = some h ∧ h.state = .stopped)) ∧
    (∀ d, Completes (exec (.homeLost (.die d)) s) fun u => u.mem = s.mem ∧ d.val ∈ u.lostDies ∧ ∀ b ∈ u.boards, b.pkg = s.domPkg → b.die = d → b.dead = true) ∧
    (∀ n, Completes (exec (.homeLost (.package n)) s) fun u => u.mem = s.mem ∧ n ∈ u.lostPkgs ∧ ∀ b ∈ u.boards, b.pkg = n → b.dead = true) ∧
    (∀ die cluster, die < 6 → cluster < 16 → (∀ t ∈ clusterTiles die cluster, (s.tileAt t).gang = none) →
      (Completes (exec (.inFieldTest die cluster []) s) fun u => same u ∧ let m := (u.dieAt die).lpv[(Fin.ofNat 16 cluster : Fin 16)]
        (∃ t ∈ clusterTiles die cluster, m = s.vtimeOf t) ∧ ∀ t ∈ clusterTiles die cluster, m.toNat ≤ (s.vtimeOf t).toNat) ∧
      (∀ t ∈ clusterTiles die cluster, s.failing = [] → (∃ p ∈ s.tiles, dieOf p.1 = die ∧ p.2.gang ≠ none) → Completes (exec (.inFieldTest die cluster [t]) s) fun u =>
        u.failing = [(t, cluster)] ∧ u.skips = s.skips ∧ u.degraded = s.degraded) ∧
      (∀ t ∈ clusterTiles die cluster, s.failing = [] → (∀ p ∈ s.tiles, dieOf p.1 = die → p.2.gang = none) →
        (∀ g ∈ s.gangs, g.state = .stopped → ∀ v ∈ g.tiles, v ∉ clusterTiles die cluster) → Completes (exec (.inFieldTest die cluster [t]) s) fun u => u.failing = [] ∧
        (s.hasSpare (dieOf t * 16 + rowOf t) = true → u.degraded = s.degraded ∧ u.skipOf (dieOf t * 16 + rowOf t) = BitVec.ofNat 5 (s.physCol t)) ∧
        (s.hasSpare (dieOf t * 16 + rowOf t) = false → u.degraded.getLsbD die = true ∧ u.skips = s.skips)))

/-- R360, R361, R395, R398, R411 to R413 and R416: a doorbell submits its slot or refuses it; a request ends with its STATUS, its DONE bit and MSI-X vector 1 where IRQ asks;
what each request does once the service core of its window reaches what it names (R388); BAR2 and CXL.mem read and write HBM; an access of dies 6 and 7, or a request
that a package in recovery or not yet brought up (log 56) refuses, changes nothing and comes back as an Unsupported Request (R426). STATUS 2 for a COPY of an address
that there is not and for a misaligned READ or WRITE, and that bits 63:3 of a doorbell word are ignored, are the model's choice (log 56). -/
def Obligations.HostAccesses : Prop :=
  ∀ (s : State) (w : Fin 24) (k : Fin 8), s.Inv →
    let win : Window := s.windows[w]
    let op (i : Nat) : Word := s.slotWord w k i
    let kind : Nat := (op 0).toNat % 256
    let ends (o : Out) (st : Nat) (P : State → Prop) : Prop := Completes o fun u => u.winMem.read (slotAddr w k 0 + 2) = BitVec.ofNat 8 st ∧
      (u.windows[w]).done = win.done ||| (1#8 <<< k.val) ∧ (∀ j ∈ (u.windows[w]).queue, j ≠ k) ∧ ((op 0).getLsbD 8 = true → u.msix.getLast? = some 1) ∧ P u
    let same (u : State) : Prop := u.mem = s.mem ∧ u.tiles = s.tiles ∧ u.gangs = s.gangs
    let hbm (a : Word) (n : Nat) : Prop := a.toNat + n ≤ 6 * 2 ^ 37 ∧ a.toNat / 2 ^ 37 ∉ s.lostDies
    (∀ v, s.serves = true → v.toNat % 8 = k.val →
      (k ∉ win.queue → 1 ≤ kind → kind ≤ 8 → Completes (exec (.doorbell w v) s) fun u => same u ∧ (u.windows[w]).queue = win.queue ++ [k] ∧
        u.winMem.read (slotAddr w k 0 + 2) = 0) ∧
      (k ∈ win.queue ∨ kind = 0 ∨ 8 < kind → Completes (exec (.doorbell w v) s) fun u => same u ∧ u.windows = s.windows ∧ u.winMem.read (slotAddr w k 0 + 2) = 2)) ∧
    (∀ m, s.serves = true → Completes (exec (.doneClear w m) s) fun u => same u ∧ (u.windows[w]).done = win.done &&& ~~~m ∧ (u.windows[w]).queue = win.queue) ∧
    (∀ v m, s.serves = false → exec (.doorbell w v) s = .next { s with hostRead := .unsupported } ∧ exec (.doneClear w m) s = .next { s with hostRead := .unsupported }) ∧
    (s.headRequest w 1 = some k → s.coreRecord w (op 1).toNat = true →
      (s.root.xlatSet = false → ends (exec (.launch w) s) 3 same) ∧
      (∀ g, s.root.xlatSet = true → s.readLaunch (op 1).toNat (w, k) = some g → Completes (exec (.launch w) s) fun u => u.mem = s.mem ∧ u.tiles = s.tiles ∧ u.windows = s.windows ∧ u.gangs = s.gangs ++ [g]) ∧
      (s.readLaunch (op 1).toNat (w, k) = none → ends (exec (.launch w) s) 3 same)) ∧
    (s.headRequest w 2 = some k → s.coreBytes w (op 1) (op 3).toNat = true → s.coreBytes w (op 2) (op 3).toNat = true →
      (∀ src dst, s.hostPlace (op 1) (op 3).toNat = some src → s.hostPlace (op 2) (op 3).toNat = some dst →
        ends (exec (.copy w) s) 1 fun u => s.storedAt u dst (s.mem.readBytes src (op 3).toNat)) ∧
      (s.hostPlace (op 1) (op 3).toNat = none ∨ s.hostPlace (op 2) (op 3).toNat = none → ends (exec (.copy w) s) 2 same)) ∧
    let open8 : Prop := (if regionOf (op 1) = 3 then s.coreReg w (op 1) else s.coreHbm w (op 1).toNat 8) = true
    (s.headRequest w 3 = some k → open8 → (op 1).toNat % 8 = 0 →
      (regionOf (op 1) ≠ 3 → hbm (op 1) 8 → ends (exec (.read w) s) 1 fun u => same u ∧ (u.slotWord w k 2).toNat = s.mem.readNat (hbmLoc s.domPkg (op 1).toNat) 8) ∧
      (∀ bs, regionOf (op 1) = 3 → s.devBytes (op 1) 8 = some bs → ends (exec (.read w) s) 1 fun u => same u ∧ (u.slotWord w k 2).toNat = leNat bs)) ∧
    (s.headRequest w 4 = some k → open8 → (op 1).toNat % 8 = 0 →
      (regionOf (op 1) ≠ 3 → hbm (op 1) 8 → ends (exec (.write w) s) 1 fun u => s.storedAt u (hbmLoc s.domPkg (op 1).toNat) (leBytes (op 2).toNat 8)) ∧
      (∀ r v s', regionOf (op 1) = 3 → s.devStore (op 1) (leBytes (op 2).toNat 8) = some (r, v) → r ≠ .inval → (r = .resume → s.resumeCut v = false) → s.devWrite r v = some s' →
        ends (exec (.write w) s) 1 fun u => u.tiles = s'.tiles ∧ u.pdbase = s'.pdbase ∧ u.heldPages = s'.heldPages) ∧
      (∀ v, regionOf (op 1) = 3 → s.devStore (op 1) (leBytes (op 2).toNat 8) = some (.inval, v) →
        (s.invalHeld v = false → ends (exec (.write w) s) 1 fun u => same u ∧ u.xlats = (s.shoot v).xlats ∧ u.trans = (s.shoot v).trans) ∧
        (s.invalHeld v = true → s.shoot v ≠ s → exec (.write w) s = .next (s.shoot v)))) ∧
    ((s.headRequest w 3 = some k → open8 → (op 1).toNat % 8 ≠ 0 → ends (exec (.read w) s) 2 same) ∧ (s.headRequest w 4 = some k → (op 1).toNat % 8 ≠ 0 → ends (exec (.write w) s) 2 same)) ∧
    (s.headRequest w 5 = some k → ends (exec (.hostFence w) s) 1 same) ∧
    (∀ g, s.gangAt (op 1).toNat = some g →
      (s.headRequest w 6 = some k → g.state = .running → (op 2).toNat < (op 3).toNat → ends (exec (.stop w) s) 1 fun u => u.mem = s.mem ∧ u.tiles = s.tiles ∧
        ∃ h, u.gangAt g.id = some h ∧ h.stopT = some (op 2) ∧ h.stopD = some (op 3) ∧ h.state = .running) ∧
      (s.headRequest w 7 = some k → g.state = .stopped → s.failing = [] → (∀ t ∈ g.tiles, s.degraded.getLsbD (dieOf t) = false) → g.mode.toNat % 4 = s.dmode.toNat → (g.saved.map (·.1)).Nodup →
        (∀ p ∈ g.saved, (s.tileAt p.1).gang = none ∧ (s.tileAt p.1).hidden = false) → ends (exec (.resumeGang w) s) 1 fun u =>
          (∃ h, u.gangAt g.id = some h ∧ h.state = .running ∧ h.saved = []) ∧
          ∀ p ∈ g.saved, (u.tileAt p.1).gang = p.2.gang ∧ (u.tileAt p.1).acc = p.2.acc ∧ (u.tileAt p.1).mode = p.2.mode ∧ ∀ j, (u.thrAt p.1 j).pc = p.2.slots[j].pc) ∧
      (s.headRequest w 8 = some k → (∀ j, g.req ≠ some (w, j)) → (g.state = .running → s.stopReady (s.heldTiles g) = true) → ends (exec (.gangEnd w) s) 1 fun u => u.gangAt g.id = none ∧
        ∀ t ∈ g.tiles, (u.tileAt t).gang ≠ some g.id)) ∧
    (∀ (pa : BitVec 40) bs, pa.toNat + bs.length ≤ 6 * 2 ^ 37 → s.serves = true → s.hbmOpen pa bs.length = true →
      (Completes (exec (.bar2Write pa bs) s) (fun u => s.storedAt u (hbmLoc s.domPkg pa.toNat) bs) ∧
        Completes (exec (.bar2Read pa bs.length) s) fun u => same u ∧ u.hostRead = .data (s.mem.readBytes (hbmLoc s.domPkg pa.toNat) bs.length)) ∧
      Completes (exec (.cxlMemAccess (.write pa bs)) s) (fun u => s.storedAt u (hbmLoc s.domPkg pa.toNat) bs) ∧
      Completes (exec (.cxlMemAccess (.read pa bs.length)) s) fun u => same u ∧ u.hostRead = .data (s.mem.readBytes (hbmLoc s.domPkg pa.toNat) bs.length)) ∧
    (∀ (pa : BitVec 40) bs, s.serves = false ∨ 6 * 2 ^ 37 < pa.toNat + bs.length →
      exec (.bar2Write pa bs) s = .next { s with hostRead := .unsupported } ∧ exec (.bar2Read pa bs.length) s = .next { s with hostRead := .unsupported }) ∧
    (s.serves = false → ∀ c, exec (.cxlMemAccess c) s = .next { s with hostRead := .unsupported })

/-- R381, R418, R420 to R428: DMODE changes only while no gang occupies a tile, and PLIM within its range; the grants of a period; what a hot die and a droop do; a flush of the
wear log; bring-up, recovery, the loss of power, and attestation. A halted die runs again when it is told to. How the grants round, what a flush
counts, and that host memory and the memory of other packages outlive a loss of power are the model's (log 57, 58, 59). -/
def Obligations.PowerAndSupply : Prop :=
  ∀ (s : State), s.Inv →
    let same (u : State) : Prop := u.mem = s.mem ∧ u.tiles = s.tiles ∧ u.gangs = s.gangs
    let work (d : Nat) : Nat := if (s.dieAt d).throttled then 0 else s.matrixWork d
    (∀ v, (s.vacant = true → Completes (exec (.dmodeWrite v) s) fun u => same u ∧ u.dmode.toNat = (if v.toNat % 4 = 3 then s.dmode.toNat else v.toNat % 4) ∧
        u.dmodeErr = (if v.getLsbD 8 then false else s.dmodeErr)) ∧
      (s.vacant = false → Completes (exec (.dmodeWrite v) s) fun u => same u ∧ u.dmode = s.dmode ∧ u.dmodeErr = true) ∧
      Completes (exec (.plimWrite v) s) fun u => same u ∧ u.dmode = s.dmode ∧
        u.plim.toNat = if 1100 ≤ v.toNat % 4096 ∧ v.toNat % 4096 ≤ 3600 then v.toNat % 4096 else s.plim.toNat) ∧
    (Completes (exec (.arbiterPeriod s.grants) s) fun u => same u ∧
        (∀ d, d < 6 → (u.dieAt d).grant.toNat = 120 + (s.plim.toNat - 920) * work d / max 1 ((List.range 6).map work).sum) ∧
      ((List.range 6).map fun d => (u.dieAt d).grant.toNat).sum + 200 ≤ s.plim.toNat) ∧
    (∀ d, d < 6 →
      (∀ hot, (s.dieAt d).throttled ≠ hot → Completes (exec (.thermalThrottle d hot) s) fun u => same u ∧ (u.dieAt d).throttled = hot ∧ (hot = true → (u.dieAt d).grant = 120)) ∧
      ((s.dieAt d).halted = false → Completes (exec (.debugHalt d) s) fun u => same u ∧ (u.dieAt d).halted = true) ∧
      ((s.dieAt d).halted = true → Completes (exec (.debugResume d) s) fun u => same u ∧ (u.dieAt d).halted = false) ∧
      (∀ g ∈ s.gangs, s.dmode = 2 → g.state = .running → (∃ t ∈ g.tiles, dieOf t = d) → (∀ h ∈ s.gangs, s.stopReady (s.heldTiles h) = true) →
        Completes (exec (.thermalStop d) s) fun u => ∃ h, u.gangAt g.id = some h ∧ h.state = .stopped)) ∧
    (∀ d, d < 8 → Completes (exec (.supplyDroop d) s) fun u => same u ∧ u.wear = s.wear ∧ assocGet 0 u.wearNew (0x0900 + 8 * d) = assocGet 0 s.wearNew (0x0900 + 8 * d) + 1) ∧
    (s.root.booted = true → Completes (exec .wearLogFlush s) fun u =>
      same u ∧ u.wearNew = [] ∧ wearGood u.wear = true ∧ (u.wear.read 0).toNat % 16 = 1 ∧ (s.wearNew = [] → u.wear.readNat 2 4 = min (s.wear.readNat 2 4 + 1) (2 ^ 32 - 1))) ∧
    (∀ image fails, (s.root.booted = false → s.root.recovery = false → imageOk image = true → Completes (exec (.powerOn ⟨image, fails⟩) s) fun u =>
        u.root.booted = true ∧ u.root.recovery = false ∧ u.root.version = Config.imageVersion image ∧ u.dmode = 0 ∧ u.plim = 3000) ∧
      (s.root.booted = false → s.root.recovery = false → imageOk image = false → Completes (exec (.powerOn ⟨image, fails⟩) s) fun u =>
        u.root.booted = false ∧ u.root.recovery = true ∧ same u) ∧
      (s.root.recovery = true → Completes (exec (.reload ⟨image, fails⟩) s) fun u => u.root.booted = imageOk image ∧ u.root.recovery = !imageOk image)) ∧
    (Completes (exec .powerLoss s) fun u => u.tiles = [] ∧ u.gangs = [] ∧ u.wear = s.wear ∧ u.wearNew = [] ∧ u.root = Root.reset ∧ u.dmode = 0 ∧ u.plim = 3000 ∧
      (s.domPkg < 64 → ∀ a, 2 ^ 64 ≤ a → u.mem.read a = s.mem.read a)) ∧
    (s.root.asked = false → Completes (exec .attestRequest s) fun u => same u ∧ u.root.asked = true ∧ u.root.ready = false) ∧
    (s.root.asked = true → (exec .attestRequest s = .next s) ∧ Completes (exec .attestReport s) fun u => same u ∧ u.root.asked = false ∧ u.root.ready = true ∧
      u.root.report.length = 3517 ∧ u.root.report.take 208 = s.attestBody)

-- The whole machine

/-- R33: s0 reads zero and is full, g0 reads all ones, and no write of either changes a register; an instruction whose destination is s0 or g0 is otherwise
carried out in full: it examines its sources, sets its flags and retires. -/
def Obligations.ZeroRegisters : Prop :=
  (∀ th : Thread, th.wired → (∀ (x : Word), (th.setS 0 x).s = th.s ∧ (th.poisonS 0).s = th.s ∧ (th.pendS 0).s = th.s) ∧ (∀ x : Guard, (th.setG 0 x).g = th.g) ∧
    (∀ (r : Reg) (x : Word), (th.setS r x).wired ∧ (th.poisonS r).wired ∧ (th.pendS r).wired) ∧ ∀ (r : GReg) (x : Guard), (th.setG r x).wired) ∧
  (∀ (s : State) (k : Word → Out), exS s 0 k = k 0) ∧
  (∀ (s : State) (i : Instr) (t : State), scalarDest i = some 0 → s.thr.tvec ≠ 0 → exec i s = .next t → t.thr.s = s.thr.s) ∧
  (∀ (s : State) (p : Prec) (r : Rnd) (a b : Reg) (x y : Word), s.thr.holds a x → s.thr.holds b y →
    exec (.add 0 a b) s = .next (s.done [x + y]) ∧ exec (.mul 0 a b) s = .next (s.done [BitVec.ofNat 64 (x.toNat * y.toNat)]) ∧
    let v := (precFmt p).add (s.thr.mode r) (precBits p x) (precBits p y)
    exec (.fadd p r 0 a b) s = .next ((s.modThr fun th => th.flagF v.2).done [BitVec.ofNat 64 v.1])) ∧
  ∀ (s : State) (a b : GReg), Completes (exec (.gand 0 a b) s) fun u => s.onward u ∧ u.thr.g = s.thr.g

/-- R99, R101, R354: the frame of the scalar register instructions, whatever next state they give: other registers, the other threads and tiles and the package
stand; where the instruction retires, so do the registers of a trap; one that sets no floating flag leaves `fpcsr`. -/
def Obligations.ScalarFrame : Prop :=
  ∀ (s t : State) (i : Instr) (d : Reg), scalarDest i = some d → s.thr.tvec ≠ 0 → exec i s = .next t →
    t = { s with tiles := t.tiles, free := t.free } ∧ (∀ u, u ≠ s.curTile → t.tileAt u = s.tileAt u) ∧
    t.tile = { s.tile with slots := t.tile.slots, pairing := t.tile.pairing } ∧ (∀ k, k ≠ s.curSlot → t.tile.slots[k] = s.tile.slots[k]) ∧
    (∀ r, r ≠ d → t.thr.getS r = s.thr.getS r) ∧
    t.thr = { s.thr with
      run := t.thr.run, pc := t.thr.pc, s := t.thr.s, fpcsr := t.thr.fpcsr, status := t.thr.status, epc := t.thr.epc, cause := t.thr.cause, tval := t.thr.tval
      instret := t.thr.instret, shadow := t.thr.shadow, fetched := t.thr.fetched, results := t.thr.results, sleep := t.thr.sleep, barWait := t.thr.barWait, met := t.thr.met
      pastBrk := t.thr.pastBrk } ∧
    (setsFlags i = false → t.thr.fpcsr = s.thr.fpcsr) ∧
    (t.thr.run = .ready → t.thr.pc ≠ s.thr.tvec → t.thr.pc = s.thr.pc + 4 ∧ t.thr.status = s.thr.status ∧ t.thr.epc = s.thr.epc ∧ t.thr.cause = s.thr.cause ∧
      t.thr.tval = s.thr.tval ∧ t.thr.shadow = s.thr.shadow)

/-- Every instruction word has a next state, whatever state it stands in: no barrel-core instruction ends a run. All but `xfence` leave the package outside
the tiles as it was: memory, full/empty bits, staged writes, gangs, windows and dies (R246, R250); a `pair` whose partner holds the copy keeps its first agreement point beside
them (R371). -/
def Obligations.WordsGoOn : Prop :=
  ∀ (s : State) (i : Instr), isWord i = true → ∃ t, exec i s = .next t ∧
    ((∀ sc, i ≠ .xfence sc) → t = { s with
      tiles := t.tiles, watchers := t.watchers, resvs := t.resvs, notices := t.notices, stamp := t.stamp, free := t.free, snapshots := t.snapshots, snapStaged := t.snapStaged })

/-- R33, R41, R45, R55, R162, R176, R418, R423 and R428: what reset leaves; and the state right after reset meets the invariant. The values are those that the spec gives, but
for two that it does not and the model chooses: no register is poisoned (log 4), and memory outside HBM, which R428 does not speak of, lists nothing (log 5). -/
def Obligations.ResetValues : Prop :=
  (∀ (t : TileId) (k : Slot), let th := State.reset.thrAt t k
    th.run = .empty ∧ th.getS 0 = ⟨0, true, false, false⟩ ∧ th.getG 0 = BitVec.allOnes 128 ∧ (∀ r, r ≠ 0 → (th.getS r).full = false ∧ (th.getS r).poison = false) ∧
    (∀ r, (th.getV r).full = false ∧ (th.getV r).poison = false) ∧ th.sv = false ∧ th.aie = true ∧ th.cntLd = 0 ∧ th.cntSt = 0 ∧ th.cntCp = 0 ∧ th.cntTl = 0 ∧
    th.hold = none ∧ (∀ e : Fin 4, (th.monitors[e]).valid = false) ∧ ∀ r : StreamReg, (th.binds[r]).kind = .unbound) ∧
  State.reset.dmode = 0 ∧ State.reset.plim = 3000 ∧ State.reset.gangs = [] ∧ State.reset.mem = [] ∧ State.reset.Inv

/-- Every step keeps the invariant of the model, from every state that meets it: canonical memories, a legal deterministic mode (R418) and PLIM in its range
(R423). -/
def Obligations.InvKept : Prop := ∀ (s t : State), s.Inv → step s = .next t → t.Inv

/-- R56 to R66: a word that the encoder makes of a well-formed instruction decodes to it, every operand at every value that the encoding admits. -/
def Obligations.DecodeOfEncode : Prop :=
  ∀ (i : Instr), isWord i = true → i.wellFormed = true → ∃ w, encode i = some w ∧ decodeWord w = .ok i

/-- R56 to R66 and R69: a word decodes to a well-formed instruction only if it is that instruction's encoding, so no bit of a word is dropped. -/
def Obligations.EncodeOfDecode : Prop := ∀ (w : Insn) (i : Instr), decodeWord w = .ok i → i.wellFormed = true ∧ encode i = some w

/-- R52, R53, R76 and R162: a clock whose owner is a ready thread (not one whose wait ended in this clock, R167) with no trap pending, no shadow and no word kept fetches the word at its PC and executes what it
decodes to, or traps ILLEGAL (R69, R71); then the clock has passed. The word is one of a locked line, or the four bytes at the home of its address. -/
def Obligations.StepRunsTheWord : Prop :=
  ∀ (s : State) (t : TileId) (rest : List Turn) (w : Insn) (v : State), s.agenda = .clock t :: rest →
    let x := s.tileAt t
    let o := x.owner
    let th := x.slots[o]
    let u : State := { s.modTile t (fun x => x) with agenda := rest, curTile := t, curSlot := o }
    let va := th.pc.toNat % 2 ^ 52
    firstNext s (s.due t) = none → s.dieHalted t = false → x.hidden = false → x.pairing = none → x.gift = none → o ≠ 0 → th.yielded = false → th.run = .ready → th.rouse = .none →
    s.mayTrap t o = false → th.shadow = 0 →
      (th.fetched = none → th.pastBrk = true ∨ x.breaks th.pc false = false → u.fetch t o th.pc = (.word w, v) →
        let f := v.modThrAt t o fun th => th.took w
        (∀ i, decodeWord w = .ok i → step s = settleOut (finishClock t (exec i f))) ∧
        (∀ e, decodeWord w = .error e → step s = settleOut (finishClock t (.next (f.trapped .illegal (w.setWidth 64)))))) ∧
      (regionOf th.pc = 2 → th.pc.toNat / 2 ^ 52 % 2 ^ 10 = 0 →
        (∀ l, x.lineOf va = some l → l.locked = true → l.word va = some w → u.fetch t o th.pc = (.word w, u)) ∧
        (∀ pte level last, x.lineOf va = none → x.throughput = true → s.translation t (.fetch o) x.pid va = some (.leaf pte level last) → pte.getLsbD 63 = true → va % 4 = 0 →
          (∀ i, i < Config.icacheLineBytes / 4 → let h := leafHome pte level last (lineBase va + 4 * i)
            s.isLost h = false ∧ s.homeOpen t h = true) →
          (u.fetch t o th.pc).1 = .word (BitVec.ofNat 32 (leNat ((List.range 4).map fun j => s.mem.read (leafHome pte level last (va + j)).loc)))))

/-- R58 to R65: the worked encodings of spec/03_encoding.md, with some words of other formats built from its tables, decode to what they stand for; a word with no
major, a nonzero reserved field, or an unassigned function is none. -/
def Obligations.WordsDecoded : Prop :=
  decodeWord 0x00041181 = .ok (.add 3 1 2) ∧ decodeWord 0x010C42A0 = .ok (.ld .i64 5 4 0x010) ∧ decodeWord 0xFECC4C21 = .ok (.st .b64 6 4 0xFF8) ∧
  decodeWord 0x00041506 = .ok (.sk .lt 2 1 2) ∧ decodeWord 0xFF4410A7 = .ok (.br .ne 1 2 0x3FD) ∧ decodeWord 0x004620C0 = .ok (.fadd .single .rtz 1 2 3) ∧
  decodeWord 0x09005242 = .ok (.fcvt false .rtz .i32 .f32 4 5) ∧ decodeWord 0xF2F00026 = .ok (.wait 15 2 15 0) ∧ decodeWord 0x300620E0 = .ok (.vfma .f32 0 1 2 3) ∧
  decodeWord 0x00000000 = .error .major ∧ decodeWord 0x00441181 = .error .field ∧ decodeWord 0xD0041181 = .error .function
end

