-- ==== Sys2Proof/Laws/Clock.lean ====
section
/-! SUPPORT. What the clock's shared operations can answer: who uses a clock, which event comes first, which staged entries commit together,
and what a fetch changes. -/

namespace Sys2Proof.Machine

/-- The first possible event is one of the list, with its own next state. -/
theorem firstNext_some {s t : State} {fs : List Work} (h : firstNext s fs = some t) : ∃ f ∈ fs, f s = .next t := by
  induction fs with
  | nil => cases h
  | cons f fs ih =>
    unfold firstNext at h
    split at h
    next u hu => cases h; exact ⟨f, List.mem_cons_self .., hu⟩
    next => obtain ⟨g, hg, e⟩ := ih h; exact ⟨g, List.mem_cons_of_mem _ hg, e⟩

/-- Where no event is possible, each of the list stops. -/
theorem firstNext_none {s : State} {fs : List Work} (h : firstNext s fs = none) {f : Work} (hf : f ∈ fs) (t : State) : f s ≠ .next t := by
  induction fs with
  | nil => cases hf
  | cons g fs ih =>
    unfold firstNext at h
    split at h
    next => cases h
    next hn => cases hf with
      | head => exact hn t
      | tail _ hf => exact ih h hf

/-- A clock goes to one of the slots asked, with that slot's own use. -/
theorem firstUser_some {s : State} {t : TileId} {ks : List Slot} {k : Slot} {o : Out} (h : s.firstUser t ks = some (k, o)) :
    k ∈ ks ∧ s.useClock t k = some o := by
  induction ks with
  | nil => cases h
  | cons j ks ih =>
    unfold State.firstUser at h
    split at h
    next p hp => cases h; exact ⟨List.mem_cons_self .., hp⟩
    next => exact ⟨List.mem_cons_of_mem _ (ih h).1, (ih h).2⟩

/-- The slots that may use a clock outside throughput mode: its owner alone (R163, R372). -/
theorem candidates_own {s : State} {t : TileId} (h : (s.tileAt t).donates = false) {k : Slot} (hk : k ∈ s.candidates t) :
    k = (s.tileAt t).owner := by
  simp only [State.candidates, h] at hk
  split at hk <;> simp_all

/-- An entry that stays staged was staged, and no predicate took it. -/
theorem splitStaged_stays {p : Staged → Bool} {es : List Staged} {e : Staged} (h : e ∈ (splitStaged p es).2) : e ∈ es ∧ p e = false := by
  induction es with
  | nil => cases h
  | cons f es ih =>
    unfold splitStaged at h
    dsimp only at h
    split at h
    next => exact ⟨List.mem_cons_of_mem _ (ih h).1, (ih h).2⟩
    next hn =>
      cases h with
      | head =>
        refine ⟨List.mem_cons_self .., ?_⟩
        cases hp : p e with
        | false => rfl
        | true => exact absurd (by simp [hp]) hn
      | tail _ h => exact ⟨List.mem_cons_of_mem _ (ih h).1, (ih h).2⟩

/-- An entry that commits was staged, and the predicate took it or one of the same tile and byte. -/
theorem splitStaged_goes {p : Staged → Bool} {es : List Staged} {e : Staged} (h : e ∈ (splitStaged p es).1) :
    e ∈ es ∧ ∃ f ∈ es, p f = true ∧ f.tile = e.tile ∧ f.loc = e.loc := by
  induction es generalizing e with
  | nil => cases h
  | cons g es ih =>
    unfold splitStaged at h
    dsimp only at h
    have more {d : Staged} (hd : d ∈ (splitStaged p es).1) :
        d ∈ g :: es ∧ ∃ f ∈ g :: es, p f = true ∧ f.tile = d.tile ∧ f.loc = d.loc := by
      obtain ⟨hm, f, hf, hp⟩ := ih hd
      exact ⟨List.mem_cons_of_mem _ hm, f, List.mem_cons_of_mem _ hf, hp⟩
    split at h
    next hg =>
      cases h with
      | tail _ h => exact more h
      | head =>
        refine ⟨List.mem_cons_self .., ?_⟩
        cases hp : p g with
        | true => exact ⟨g, List.mem_cons_self .., hp, rfl, rfl⟩
        | false =>
          simp only [hp, Bool.false_or, List.any_eq_true, Bool.and_eq_true, decide_eq_true_eq] at hg
          obtain ⟨c, hc, ht, hl⟩ := hg
          obtain ⟨-, f, hf, hpf, hft, hfl⟩ := more hc
          exact ⟨f, hf, hpf, hft.trans ht, hfl.trans hl⟩
    next => exact more h

/-- Outside throughput mode a fetch has no translation to be done with. -/
theorem fetched_strict {s : State} {t : TileId} (h : (s.tileAt t).throughput = false) (k : Slot) : s.fetched t k = s := by
  simp [State.fetched, h]

/-- Outside throughput mode a fetch caches no line (R53, R54). -/
theorem fetch_strict {s : State} {t : TileId} (h : (s.tileAt t).throughput = false) (k : Slot) (pc : Word) :
    (s.fetch t k pc).2 = s ∨ (s.fetch t k pc).2 = { s with free := s.free + 1 } := by
  unfold State.fetch
  simp only [h, Bool.not_false, if_true]
  split
  · exact .inl rfl
  · cases (s.tileAt t).lineOf (pc.toNat % 2 ^ 52) with
    | none => simp
    | some l =>
      have hf : ({ s with free := s.free + 1 } : State).fetched t k = { s with free := s.free + 1 } :=
        fetched_strict (s := { s with free := s.free + 1 }) h k
      have hs : s.fetched t k = s := fetched_strict h k
      simp; split <;> (split <;> simp_all)

end Sys2Proof.Machine
end

