-- ==== Sys2Proof/Laws/Memory.lean ====
section
/-! SUPPORT. The memory: every operation keeps its canonical form, a read after a write gives what was written, and a write leaves every
other address alone. -/

namespace Sys2Proof.Machine

-- Canonical form

theorem Memory.wfFrom_mono {lo hi : Nat} (h : lo ≤ hi) : ∀ m : Memory, Memory.wfFrom hi m = true → Memory.wfFrom lo m = true
  | [], _ => rfl
  | (k, v) :: m, hw => by
    simp only [Memory.wfFrom, Bool.and_eq_true, decide_eq_true_eq] at hw ⊢
    exact ⟨⟨by omega, hw.1.2⟩, hw.2⟩

theorem Memory.wfFrom_write {lo a : Nat} (b : Byte) (h : lo ≤ a) :
    ∀ m : Memory, Memory.wfFrom lo m = true → Memory.wfFrom lo (m.write a b) = true := by
  intro m
  induction m generalizing lo with
  | nil => intro _; unfold Memory.write; split <;> simp_all [Memory.wfFrom]
  | cons p m ih =>
    obtain ⟨k, v⟩ := p
    intro hw
    simp only [Memory.wfFrom, Bool.and_eq_true, decide_eq_true_eq] at hw
    unfold Memory.write
    split
    · split
      · simp [Memory.wfFrom, hw]
      · simp only [Memory.wfFrom, Bool.and_eq_true, decide_eq_true_eq]
        exact ⟨⟨h, by assumption⟩, ⟨by omega, hw.1.2⟩, hw.2⟩
    · split
      · rename_i hk; subst hk
        split
        · exact Memory.wfFrom_mono (by omega) _ hw.2
        · simp only [Memory.wfFrom, Bool.and_eq_true, decide_eq_true_eq]
          exact ⟨⟨h, by assumption⟩, hw.2⟩
      · simp only [Memory.wfFrom, Bool.and_eq_true, decide_eq_true_eq]
        exact ⟨hw.1, ih (by omega) hw.2⟩

theorem Memory.wf_write {m : Memory} (a : Nat) (b : Byte) (h : m.wf = true) : (m.write a b).wf = true :=
  Memory.wfFrom_write b (Nat.zero_le _) m h

theorem Memory.wf_writeBytes (bs : List Byte) : ∀ {m : Memory} (a : Nat), m.wf = true → (m.writeBytes a bs).wf = true := by
  induction bs with
  | nil => intro m a h; exact h
  | cons b bs ih => intro m a h; exact ih _ (Memory.wf_write _ _ h)

theorem Memory.wf_writeCells (cs : List Host.Cell) : ∀ {m : Memory}, m.wf = true → (m.writeCells cs).wf = true := by
  induction cs with
  | nil => intro m h; exact h
  | cons c cs ih => intro m h; exact ih (Memory.wf_write _ _ h)

theorem Memory.wfFrom_filter (p : Host.Cell → Bool) : ∀ (lo : Nat) (m : Memory), Memory.wfFrom lo m = true →
    Memory.wfFrom lo (m.filter p) = true := by
  intro lo m
  induction m generalizing lo with
  | nil => intro _; rfl
  | cons c m ih =>
    obtain ⟨k, v⟩ := c
    intro hw
    simp only [Memory.wfFrom, Bool.and_eq_true, decide_eq_true_eq] at hw
    rw [List.filter_cons]
    split
    · simp only [Memory.wfFrom, Bool.and_eq_true, decide_eq_true_eq]
      exact ⟨hw.1, ih _ hw.2⟩
    · exact Memory.wfFrom_mono (by omega) _ (ih _ hw.2)

theorem Memory.wf_filter {m : Memory} (p : Host.Cell → Bool) (h : m.wf = true) : Memory.wf (m.filter p) = true :=
  Memory.wfFrom_filter p 0 m h

theorem Memory.wf_nil : Memory.wf [] = true := rfl

-- Reads after writes

theorem Memory.read_below {lo a : Nat} (h : a < lo) : ∀ m : Memory, Memory.wfFrom lo m = true → m.read a = unlisted
  | [], _ => rfl
  | (k, v) :: m, hw => by
    simp only [Memory.wfFrom, Bool.and_eq_true, decide_eq_true_eq] at hw
    simp only [Memory.read]
    rw [if_neg (by omega), if_pos (by omega)]

theorem Memory.read_write_same {lo a : Nat} (b : Byte) : ∀ m : Memory, Memory.wfFrom lo m = true → (m.write a b).read a = b := by
  intro m
  induction m generalizing lo with
  | nil => intro _; unfold Memory.write; split <;> simp_all [Memory.read]
  | cons c m ih =>
    obtain ⟨k, v⟩ := c
    intro hw
    simp only [Memory.wfFrom, Bool.and_eq_true, decide_eq_true_eq] at hw
    unfold Memory.write
    split
    · rename_i hlt
      split
      · rename_i hb; subst hb; simp only [Memory.read]; rw [if_neg (by omega), if_pos hlt]
      · simp [Memory.read]
    · split
      · rename_i hk; subst hk
        split
        · rename_i hb; subst hb; exact Memory.read_below (by omega) _ hw.2
        · simp [Memory.read]
      · simp only [Memory.read]; rw [if_neg (by omega), if_neg (by omega)]; exact ih hw.2

theorem Memory.read_write_ne {lo a c : Nat} (b : Byte) (h : c ≠ a) : ∀ m : Memory, Memory.wfFrom lo m = true →
    (m.write a b).read c = m.read c := by
  intro m
  induction m generalizing lo with
  | nil => intro _; unfold Memory.write; split <;> simp [Memory.read, Ne.symm h]
  | cons p m ih =>
    obtain ⟨k, v⟩ := p
    intro hw
    simp only [Memory.wfFrom, Bool.and_eq_true, decide_eq_true_eq] at hw
    unfold Memory.write
    split
    · rename_i hlt
      split
      · rfl
      · simp only [Memory.read]
        rw [if_neg (Ne.symm h)]
        split
        · rw [if_neg (by omega), if_pos (by omega)]
        · rfl
    · split
      · rename_i hk; subst hk
        split
        · simp only [Memory.read]; rw [if_neg (Ne.symm h)]
          split
          · exact Memory.read_below (by omega) _ hw.2
          · rfl
        · simp only [Memory.read, if_neg (Ne.symm h)]
      · simp only [Memory.read, ih hw.2]

theorem Memory.read_write {m : Memory} (h : m.wf = true) (a c : Nat) (b : Byte) :
    (m.write a b).read c = if c = a then b else m.read c := by
  split
  · rename_i e; subst e; exact Memory.read_write_same b m h
  · rename_i e; exact Memory.read_write_ne b e m h

/-- A place that no cell names keeps its byte. -/
theorem Memory.read_writeCells_other (c : Nat) (cs : List Host.Cell) : ∀ {m : Memory}, m.wf = true → (∀ p ∈ cs, p.1 ≠ c) →
    (m.writeCells cs).read c = m.read c := by
  induction cs with
  | nil => intro m _ _; rfl
  | cons p cs ih =>
    intro m hw hn
    show (Memory.writeCells (m.write p.1 p.2) cs).read c = _
    rw [ih (Memory.wf_write _ _ hw) fun q hq => hn q (List.mem_cons_of_mem _ hq), Memory.read_write hw, if_neg]
    exact fun e => hn p List.mem_cons_self e.symm

/-- The place of the last cell reads as its byte. -/
theorem Memory.writeCells_append (m : Memory) (cs ds : List Host.Cell) : m.writeCells (cs ++ ds) = (m.writeCells cs).writeCells ds := by
  induction cs generalizing m with
  | nil => rfl
  | cons p cs ih => exact ih _

theorem Memory.read_writeCells_last {m : Memory} (h : m.wf = true) (cs : List Host.Cell) (a : Nat) (b : Byte) :
    (m.writeCells (cs ++ [(a, b)])).read a = b := by
  rw [Memory.writeCells_append]
  show ((m.writeCells cs).write a b).read a = b
  rw [Memory.read_write (Memory.wf_writeCells cs h), if_pos rfl]

/-- Bytes written from an address on read back. -/
theorem Memory.read_writeBytes_other (c : Nat) (bs : List Byte) : ∀ {m : Memory} (a : Nat), m.wf = true → (c < a ∨ a + bs.length ≤ c) →
    (m.writeBytes a bs).read c = m.read c := by
  induction bs with
  | nil => intro m a _ _; rfl
  | cons b bs ih =>
    intro m a hw hn
    simp only [List.length_cons] at hn
    show (Memory.writeBytes (m.write a b) (a + 1) bs).read c = _
    rw [ih (a + 1) (Memory.wf_write _ _ hw) (by omega), Memory.read_write hw, if_neg (by omega)]

theorem Memory.readBytes_writeBytes (bs : List Byte) : ∀ {m : Memory} (a : Nat), m.wf = true →
    (m.writeBytes a bs).readBytes a bs.length = bs := by
  induction bs with
  | nil => intro m a _; rfl
  | cons b bs ih =>
    intro m a hw
    show (Memory.writeBytes (m.write a b) (a + 1) bs).read a :: (Memory.writeBytes (m.write a b) (a + 1) bs).readBytes (a + 1) bs.length = _
    rw [ih (a + 1) (Memory.wf_write _ _ hw), Memory.read_writeBytes_other a bs (a + 1) (Memory.wf_write _ _ hw) (by omega),
      Memory.read_write hw, if_pos rfl]

/-- Two canonical memories that read alike are equal. -/
theorem Memory.ext_of_read : ∀ (lo : Nat) (m n : Memory), Memory.wfFrom lo m = true → Memory.wfFrom lo n = true →
    (∀ a, m.read a = n.read a) → m = n := by
  intro lo m
  induction m generalizing lo with
  | nil =>
    intro n _ hn h
    cases n with
    | nil => rfl
    | cons p n =>
      obtain ⟨k, v⟩ := p
      simp only [Memory.wfFrom, Bool.and_eq_true, decide_eq_true_eq] at hn
      have := h k
      simp [Memory.read] at this
      exact absurd this.symm hn.1.2
  | cons p m ih =>
    obtain ⟨k, v⟩ := p
    intro n hm hn h
    have hm' := hm
    simp only [Memory.wfFrom, Bool.and_eq_true, decide_eq_true_eq] at hm
    cases n with
    | nil =>
      have := h k
      simp [Memory.read] at this
      exact absurd this hm.1.2
    | cons q n =>
      obtain ⟨j, w⟩ := q
      have hn' := hn
      simp only [Memory.wfFrom, Bool.and_eq_true, decide_eq_true_eq] at hn
      have hkj : k = j := by
        rcases Nat.lt_trichotomy k j with hlt | he | hlt
        · have := h k
          rw [show Memory.read ((k, v) :: m) k = v by simp [Memory.read], show Memory.read ((j, w) :: n) k = unlisted by
            simp only [Memory.read]; rw [if_neg (by omega), if_pos hlt]] at this
          exact absurd this hm.1.2
        · exact he
        · have := h j
          rw [show Memory.read ((j, w) :: n) j = w by simp [Memory.read], show Memory.read ((k, v) :: m) j = unlisted by
            simp only [Memory.read]; rw [if_neg (by omega), if_pos hlt]] at this
          exact absurd this.symm hn.1.2
      subst hkj
      have hv : v = w := by simpa [Memory.read] using h k
      subst hv
      have : m = n := ih (k + 1) n hm.2 hn.2 fun a => by
        by_cases ha : k = a
        · subst ha
          rw [Memory.read_below (Nat.lt_succ_self k) m hm.2, Memory.read_below (Nat.lt_succ_self k) n hn.2]
        · have h2 := h a
          simp only [Memory.read, if_neg ha] at h2
          by_cases hb : a < k
          · rw [Memory.read_below (by omega) m hm.2, Memory.read_below (by omega) n hn.2]
          · simpa [hb] using h2
      rw [this]

end Sys2Proof.Machine
end

