-- ==== Sys2Proof/Laws/State.lean ====
section
/-! SUPPORT. One lemma for each field and each update of a state, a tile and a thread that leaves the field alone, so that no later
proof unfolds a record update. -/

namespace Sys2Proof.Machine

-- State

@[simp] theorem State.putTile_mem (s : State) (t : TileId) (x : Tile) : (s.putTile t x).mem = s.mem := rfl
@[simp] theorem State.putTile_fe (s : State) (t : TileId) (x : Tile) : (s.putTile t x).fe = s.fe := rfl
@[simp] theorem State.putTile_staged (s : State) (t : TileId) (x : Tile) : (s.putTile t x).staged = s.staged := rfl
@[simp] theorem State.putTile_resvs (s : State) (t : TileId) (x : Tile) : (s.putTile t x).resvs = s.resvs := rfl
@[simp] theorem State.putTile_rels (s : State) (t : TileId) (x : Tile) : (s.putTile t x).rels = s.rels := rfl
@[simp] theorem State.putTile_watchers (s : State) (t : TileId) (x : Tile) : (s.putTile t x).watchers = s.watchers := rfl
@[simp] theorem State.putTile_notices (s : State) (t : TileId) (x : Tile) : (s.putTile t x).notices = s.notices := rfl
@[simp] theorem State.putTile_xlats (s : State) (t : TileId) (x : Tile) : (s.putTile t x).xlats = s.xlats := rfl
@[simp] theorem State.putTile_heldPages (s : State) (t : TileId) (x : Tile) : (s.putTile t x).heldPages = s.heldPages := rfl
@[simp] theorem State.putTile_refused (s : State) (t : TileId) (x : Tile) : (s.putTile t x).refused = s.refused := rfl
@[simp] theorem State.putTile_trans (s : State) (t : TileId) (x : Tile) : (s.putTile t x).trans = s.trans := rfl
@[simp] theorem State.putTile_pdbase (s : State) (t : TileId) (x : Tile) : (s.putTile t x).pdbase = s.pdbase := rfl
@[simp] theorem State.putTile_logBase (s : State) (t : TileId) (x : Tile) : (s.putTile t x).logBase = s.logBase := rfl
@[simp] theorem State.putTile_logSize (s : State) (t : TileId) (x : Tile) : (s.putTile t x).logSize = s.logSize := rfl
@[simp] theorem State.putTile_logNext (s : State) (t : TileId) (x : Tile) : (s.putTile t x).logNext = s.logNext := rfl
@[simp] theorem State.putTile_logSeq (s : State) (t : TileId) (x : Tile) : (s.putTile t x).logSeq = s.logSeq := rfl
@[simp] theorem State.putTile_logWait (s : State) (t : TileId) (x : Tile) : (s.putTile t x).logWait = s.logWait := rfl
@[simp] theorem State.putTile_msix (s : State) (t : TileId) (x : Tile) : (s.putTile t x).msix = s.msix := rfl
@[simp] theorem State.putTile_boards (s : State) (t : TileId) (x : Tile) : (s.putTile t x).boards = s.boards := rfl
@[simp] theorem State.putTile_refs (s : State) (t : TileId) (x : Tile) : (s.putTile t x).refs = s.refs := rfl
@[simp] theorem State.putTile_gangs (s : State) (t : TileId) (x : Tile) : (s.putTile t x).gangs = s.gangs := rfl
@[simp] theorem State.putTile_windows (s : State) (t : TileId) (x : Tile) : (s.putTile t x).windows = s.windows := rfl
@[simp] theorem State.putTile_winMem (s : State) (t : TileId) (x : Tile) : (s.putTile t x).winMem = s.winMem := rfl
@[simp] theorem State.putTile_dmode (s : State) (t : TileId) (x : Tile) : (s.putTile t x).dmode = s.dmode := rfl
@[simp] theorem State.putTile_dmodeErr (s : State) (t : TileId) (x : Tile) : (s.putTile t x).dmodeErr = s.dmodeErr := rfl
@[simp] theorem State.putTile_plim (s : State) (t : TileId) (x : Tile) : (s.putTile t x).plim = s.plim := rfl
@[simp] theorem State.putTile_degraded (s : State) (t : TileId) (x : Tile) : (s.putTile t x).degraded = s.degraded := rfl
@[simp] theorem State.putTile_dies (s : State) (t : TileId) (x : Tile) : (s.putTile t x).dies = s.dies := rfl
@[simp] theorem State.putTile_skips (s : State) (t : TileId) (x : Tile) : (s.putTile t x).skips = s.skips := rfl
@[simp] theorem State.putTile_failing (s : State) (t : TileId) (x : Tile) : (s.putTile t x).failing = s.failing := rfl
@[simp] theorem State.putTile_snapshots (s : State) (t : TileId) (x : Tile) : (s.putTile t x).snapshots = s.snapshots := rfl
@[simp] theorem State.putTile_snapStaged (s : State) (t : TileId) (x : Tile) : (s.putTile t x).snapStaged = s.snapStaged := rfl
@[simp] theorem State.putTile_bar4 (s : State) (t : TileId) (x : Tile) : (s.putTile t x).bar4 = s.bar4 := rfl
@[simp] theorem State.putTile_lostPkgs (s : State) (t : TileId) (x : Tile) : (s.putTile t x).lostPkgs = s.lostPkgs := rfl
@[simp] theorem State.putTile_lostDies (s : State) (t : TileId) (x : Tile) : (s.putTile t x).lostDies = s.lostDies := rfl
@[simp] theorem State.putTile_unreach (s : State) (t : TileId) (x : Tile) : (s.putTile t x).unreach = s.unreach := rfl
@[simp] theorem State.putTile_unreachPkgs (s : State) (t : TileId) (x : Tile) : (s.putTile t x).unreachPkgs = s.unreachPkgs := rfl
@[simp] theorem State.putTile_ports (s : State) (t : TileId) (x : Tile) : (s.putTile t x).ports = s.ports := rfl
@[simp] theorem State.putTile_bridges (s : State) (t : TileId) (x : Tile) : (s.putTile t x).bridges = s.bridges := rfl
@[simp] theorem State.putTile_wear (s : State) (t : TileId) (x : Tile) : (s.putTile t x).wear = s.wear := rfl
@[simp] theorem State.putTile_wearNext (s : State) (t : TileId) (x : Tile) : (s.putTile t x).wearNext = s.wearNext := rfl
@[simp] theorem State.putTile_wearNew (s : State) (t : TileId) (x : Tile) : (s.putTile t x).wearNew = s.wearNew := rfl
@[simp] theorem State.putTile_root (s : State) (t : TileId) (x : Tile) : (s.putTile t x).root = s.root := rfl
@[simp] theorem State.putTile_hostRead (s : State) (t : TileId) (x : Tile) : (s.putTile t x).hostRead = s.hostRead := rfl
@[simp] theorem State.putTile_timebase (s : State) (t : TileId) (x : Tile) : (s.putTile t x).timebase = s.timebase := rfl
@[simp] theorem State.putTile_node (s : State) (t : TileId) (x : Tile) : (s.putTile t x).node = s.node := rfl
@[simp] theorem State.putTile_domPkg (s : State) (t : TileId) (x : Tile) : (s.putTile t x).domPkg = s.domPkg := rfl
@[simp] theorem State.putTile_domPkgs (s : State) (t : TileId) (x : Tile) : (s.putTile t x).domPkgs = s.domPkgs := rfl
@[simp] theorem State.putTile_agenda (s : State) (t : TileId) (x : Tile) : (s.putTile t x).agenda = s.agenda := rfl
@[simp] theorem State.putTile_focus (s : State) (t : TileId) (x : Tile) : (s.putTile t x).focus = s.focus := rfl
@[simp] theorem State.putTile_curTile (s : State) (t : TileId) (x : Tile) : (s.putTile t x).curTile = s.curTile := rfl
@[simp] theorem State.putTile_curSlot (s : State) (t : TileId) (x : Tile) : (s.putTile t x).curSlot = s.curSlot := rfl
@[simp] theorem State.putTile_free (s : State) (t : TileId) (x : Tile) : (s.putTile t x).free = s.free := rfl
@[simp] theorem State.putTile_stamp (s : State) (t : TileId) (x : Tile) : (s.putTile t x).stamp = s.stamp := rfl

@[simp] theorem State.modTile_mem (s : State) (t : TileId) (f : Tile → Tile) : (s.modTile t f).mem = s.mem := rfl
@[simp] theorem State.modTile_fe (s : State) (t : TileId) (f : Tile → Tile) : (s.modTile t f).fe = s.fe := rfl
@[simp] theorem State.modTile_staged (s : State) (t : TileId) (f : Tile → Tile) : (s.modTile t f).staged = s.staged := rfl
@[simp] theorem State.modTile_resvs (s : State) (t : TileId) (f : Tile → Tile) : (s.modTile t f).resvs = s.resvs := rfl
@[simp] theorem State.modTile_rels (s : State) (t : TileId) (f : Tile → Tile) : (s.modTile t f).rels = s.rels := rfl
@[simp] theorem State.modTile_watchers (s : State) (t : TileId) (f : Tile → Tile) : (s.modTile t f).watchers = s.watchers := rfl
@[simp] theorem State.modTile_notices (s : State) (t : TileId) (f : Tile → Tile) : (s.modTile t f).notices = s.notices := rfl
@[simp] theorem State.modTile_xlats (s : State) (t : TileId) (f : Tile → Tile) : (s.modTile t f).xlats = s.xlats := rfl
@[simp] theorem State.modTile_heldPages (s : State) (t : TileId) (f : Tile → Tile) : (s.modTile t f).heldPages = s.heldPages := rfl
@[simp] theorem State.modTile_refused (s : State) (t : TileId) (f : Tile → Tile) : (s.modTile t f).refused = s.refused := rfl
@[simp] theorem State.modTile_trans (s : State) (t : TileId) (f : Tile → Tile) : (s.modTile t f).trans = s.trans := rfl
@[simp] theorem State.modTile_pdbase (s : State) (t : TileId) (f : Tile → Tile) : (s.modTile t f).pdbase = s.pdbase := rfl
@[simp] theorem State.modTile_logBase (s : State) (t : TileId) (f : Tile → Tile) : (s.modTile t f).logBase = s.logBase := rfl
@[simp] theorem State.modTile_logSize (s : State) (t : TileId) (f : Tile → Tile) : (s.modTile t f).logSize = s.logSize := rfl
@[simp] theorem State.modTile_logNext (s : State) (t : TileId) (f : Tile → Tile) : (s.modTile t f).logNext = s.logNext := rfl
@[simp] theorem State.modTile_logSeq (s : State) (t : TileId) (f : Tile → Tile) : (s.modTile t f).logSeq = s.logSeq := rfl
@[simp] theorem State.modTile_logWait (s : State) (t : TileId) (f : Tile → Tile) : (s.modTile t f).logWait = s.logWait := rfl
@[simp] theorem State.modTile_msix (s : State) (t : TileId) (f : Tile → Tile) : (s.modTile t f).msix = s.msix := rfl
@[simp] theorem State.modTile_boards (s : State) (t : TileId) (f : Tile → Tile) : (s.modTile t f).boards = s.boards := rfl
@[simp] theorem State.modTile_refs (s : State) (t : TileId) (f : Tile → Tile) : (s.modTile t f).refs = s.refs := rfl
@[simp] theorem State.modTile_gangs (s : State) (t : TileId) (f : Tile → Tile) : (s.modTile t f).gangs = s.gangs := rfl
@[simp] theorem State.modTile_windows (s : State) (t : TileId) (f : Tile → Tile) : (s.modTile t f).windows = s.windows := rfl
@[simp] theorem State.modTile_winMem (s : State) (t : TileId) (f : Tile → Tile) : (s.modTile t f).winMem = s.winMem := rfl
@[simp] theorem State.modTile_dmode (s : State) (t : TileId) (f : Tile → Tile) : (s.modTile t f).dmode = s.dmode := rfl
@[simp] theorem State.modTile_dmodeErr (s : State) (t : TileId) (f : Tile → Tile) : (s.modTile t f).dmodeErr = s.dmodeErr := rfl
@[simp] theorem State.modTile_plim (s : State) (t : TileId) (f : Tile → Tile) : (s.modTile t f).plim = s.plim := rfl
@[simp] theorem State.modTile_degraded (s : State) (t : TileId) (f : Tile → Tile) : (s.modTile t f).degraded = s.degraded := rfl
@[simp] theorem State.modTile_dies (s : State) (t : TileId) (f : Tile → Tile) : (s.modTile t f).dies = s.dies := rfl
@[simp] theorem State.modTile_skips (s : State) (t : TileId) (f : Tile → Tile) : (s.modTile t f).skips = s.skips := rfl
@[simp] theorem State.modTile_failing (s : State) (t : TileId) (f : Tile → Tile) : (s.modTile t f).failing = s.failing := rfl
@[simp] theorem State.modTile_snapshots (s : State) (t : TileId) (f : Tile → Tile) : (s.modTile t f).snapshots = s.snapshots := rfl
@[simp] theorem State.modTile_snapStaged (s : State) (t : TileId) (f : Tile → Tile) : (s.modTile t f).snapStaged = s.snapStaged := rfl
@[simp] theorem State.modTile_bar4 (s : State) (t : TileId) (f : Tile → Tile) : (s.modTile t f).bar4 = s.bar4 := rfl
@[simp] theorem State.modTile_lostPkgs (s : State) (t : TileId) (f : Tile → Tile) : (s.modTile t f).lostPkgs = s.lostPkgs := rfl
@[simp] theorem State.modTile_lostDies (s : State) (t : TileId) (f : Tile → Tile) : (s.modTile t f).lostDies = s.lostDies := rfl
@[simp] theorem State.modTile_unreach (s : State) (t : TileId) (f : Tile → Tile) : (s.modTile t f).unreach = s.unreach := rfl
@[simp] theorem State.modTile_unreachPkgs (s : State) (t : TileId) (f : Tile → Tile) : (s.modTile t f).unreachPkgs = s.unreachPkgs := rfl
@[simp] theorem State.modTile_ports (s : State) (t : TileId) (f : Tile → Tile) : (s.modTile t f).ports = s.ports := rfl
@[simp] theorem State.modTile_bridges (s : State) (t : TileId) (f : Tile → Tile) : (s.modTile t f).bridges = s.bridges := rfl
@[simp] theorem State.modTile_wear (s : State) (t : TileId) (f : Tile → Tile) : (s.modTile t f).wear = s.wear := rfl
@[simp] theorem State.modTile_wearNext (s : State) (t : TileId) (f : Tile → Tile) : (s.modTile t f).wearNext = s.wearNext := rfl
@[simp] theorem State.modTile_wearNew (s : State) (t : TileId) (f : Tile → Tile) : (s.modTile t f).wearNew = s.wearNew := rfl
@[simp] theorem State.modTile_root (s : State) (t : TileId) (f : Tile → Tile) : (s.modTile t f).root = s.root := rfl
@[simp] theorem State.modTile_hostRead (s : State) (t : TileId) (f : Tile → Tile) : (s.modTile t f).hostRead = s.hostRead := rfl
@[simp] theorem State.modTile_timebase (s : State) (t : TileId) (f : Tile → Tile) : (s.modTile t f).timebase = s.timebase := rfl
@[simp] theorem State.modTile_node (s : State) (t : TileId) (f : Tile → Tile) : (s.modTile t f).node = s.node := rfl
@[simp] theorem State.modTile_domPkg (s : State) (t : TileId) (f : Tile → Tile) : (s.modTile t f).domPkg = s.domPkg := rfl
@[simp] theorem State.modTile_domPkgs (s : State) (t : TileId) (f : Tile → Tile) : (s.modTile t f).domPkgs = s.domPkgs := rfl
@[simp] theorem State.modTile_agenda (s : State) (t : TileId) (f : Tile → Tile) : (s.modTile t f).agenda = s.agenda := rfl
@[simp] theorem State.modTile_focus (s : State) (t : TileId) (f : Tile → Tile) : (s.modTile t f).focus = s.focus := rfl
@[simp] theorem State.modTile_curTile (s : State) (t : TileId) (f : Tile → Tile) : (s.modTile t f).curTile = s.curTile := rfl
@[simp] theorem State.modTile_curSlot (s : State) (t : TileId) (f : Tile → Tile) : (s.modTile t f).curSlot = s.curSlot := rfl
@[simp] theorem State.modTile_free (s : State) (t : TileId) (f : Tile → Tile) : (s.modTile t f).free = s.free := rfl
@[simp] theorem State.modTile_stamp (s : State) (t : TileId) (f : Tile → Tile) : (s.modTile t f).stamp = s.stamp := rfl

@[simp] theorem State.modThrAt_mem (s : State) (t : TileId) (k : Slot) (f : Thread → Thread) : (s.modThrAt t k f).mem = s.mem := rfl
@[simp] theorem State.modThrAt_fe (s : State) (t : TileId) (k : Slot) (f : Thread → Thread) : (s.modThrAt t k f).fe = s.fe := rfl
@[simp] theorem State.modThrAt_staged (s : State) (t : TileId) (k : Slot) (f : Thread → Thread) : (s.modThrAt t k f).staged = s.staged := rfl
@[simp] theorem State.modThrAt_resvs (s : State) (t : TileId) (k : Slot) (f : Thread → Thread) : (s.modThrAt t k f).resvs = s.resvs := rfl
@[simp] theorem State.modThrAt_rels (s : State) (t : TileId) (k : Slot) (f : Thread → Thread) : (s.modThrAt t k f).rels = s.rels := rfl
@[simp] theorem State.modThrAt_watchers (s : State) (t : TileId) (k : Slot) (f : Thread → Thread) : (s.modThrAt t k f).watchers = s.watchers := rfl
@[simp] theorem State.modThrAt_notices (s : State) (t : TileId) (k : Slot) (f : Thread → Thread) : (s.modThrAt t k f).notices = s.notices := rfl
@[simp] theorem State.modThrAt_xlats (s : State) (t : TileId) (k : Slot) (f : Thread → Thread) : (s.modThrAt t k f).xlats = s.xlats := rfl
@[simp] theorem State.modThrAt_heldPages (s : State) (t : TileId) (k : Slot) (f : Thread → Thread) : (s.modThrAt t k f).heldPages = s.heldPages := rfl
@[simp] theorem State.modThrAt_refused (s : State) (t : TileId) (k : Slot) (f : Thread → Thread) : (s.modThrAt t k f).refused = s.refused := rfl
@[simp] theorem State.modThrAt_trans (s : State) (t : TileId) (k : Slot) (f : Thread → Thread) : (s.modThrAt t k f).trans = s.trans := rfl
@[simp] theorem State.modThrAt_pdbase (s : State) (t : TileId) (k : Slot) (f : Thread → Thread) : (s.modThrAt t k f).pdbase = s.pdbase := rfl
@[simp] theorem State.modThrAt_logBase (s : State) (t : TileId) (k : Slot) (f : Thread → Thread) : (s.modThrAt t k f).logBase = s.logBase := rfl
@[simp] theorem State.modThrAt_logSize (s : State) (t : TileId) (k : Slot) (f : Thread → Thread) : (s.modThrAt t k f).logSize = s.logSize := rfl
@[simp] theorem State.modThrAt_logNext (s : State) (t : TileId) (k : Slot) (f : Thread → Thread) : (s.modThrAt t k f).logNext = s.logNext := rfl
@[simp] theorem State.modThrAt_logSeq (s : State) (t : TileId) (k : Slot) (f : Thread → Thread) : (s.modThrAt t k f).logSeq = s.logSeq := rfl
@[simp] theorem State.modThrAt_logWait (s : State) (t : TileId) (k : Slot) (f : Thread → Thread) : (s.modThrAt t k f).logWait = s.logWait := rfl
@[simp] theorem State.modThrAt_msix (s : State) (t : TileId) (k : Slot) (f : Thread → Thread) : (s.modThrAt t k f).msix = s.msix := rfl
@[simp] theorem State.modThrAt_boards (s : State) (t : TileId) (k : Slot) (f : Thread → Thread) : (s.modThrAt t k f).boards = s.boards := rfl
@[simp] theorem State.modThrAt_refs (s : State) (t : TileId) (k : Slot) (f : Thread → Thread) : (s.modThrAt t k f).refs = s.refs := rfl
@[simp] theorem State.modThrAt_gangs (s : State) (t : TileId) (k : Slot) (f : Thread → Thread) : (s.modThrAt t k f).gangs = s.gangs := rfl
@[simp] theorem State.modThrAt_windows (s : State) (t : TileId) (k : Slot) (f : Thread → Thread) : (s.modThrAt t k f).windows = s.windows := rfl
@[simp] theorem State.modThrAt_winMem (s : State) (t : TileId) (k : Slot) (f : Thread → Thread) : (s.modThrAt t k f).winMem = s.winMem := rfl
@[simp] theorem State.modThrAt_dmode (s : State) (t : TileId) (k : Slot) (f : Thread → Thread) : (s.modThrAt t k f).dmode = s.dmode := rfl
@[simp] theorem State.modThrAt_dmodeErr (s : State) (t : TileId) (k : Slot) (f : Thread → Thread) : (s.modThrAt t k f).dmodeErr = s.dmodeErr := rfl
@[simp] theorem State.modThrAt_plim (s : State) (t : TileId) (k : Slot) (f : Thread → Thread) : (s.modThrAt t k f).plim = s.plim := rfl
@[simp] theorem State.modThrAt_degraded (s : State) (t : TileId) (k : Slot) (f : Thread → Thread) : (s.modThrAt t k f).degraded = s.degraded := rfl
@[simp] theorem State.modThrAt_dies (s : State) (t : TileId) (k : Slot) (f : Thread → Thread) : (s.modThrAt t k f).dies = s.dies := rfl
@[simp] theorem State.modThrAt_skips (s : State) (t : TileId) (k : Slot) (f : Thread → Thread) : (s.modThrAt t k f).skips = s.skips := rfl
@[simp] theorem State.modThrAt_failing (s : State) (t : TileId) (k : Slot) (f : Thread → Thread) : (s.modThrAt t k f).failing = s.failing := rfl
@[simp] theorem State.modThrAt_snapshots (s : State) (t : TileId) (k : Slot) (f : Thread → Thread) : (s.modThrAt t k f).snapshots = s.snapshots := rfl
@[simp] theorem State.modThrAt_snapStaged (s : State) (t : TileId) (k : Slot) (f : Thread → Thread) : (s.modThrAt t k f).snapStaged = s.snapStaged := rfl
@[simp] theorem State.modThrAt_bar4 (s : State) (t : TileId) (k : Slot) (f : Thread → Thread) : (s.modThrAt t k f).bar4 = s.bar4 := rfl
@[simp] theorem State.modThrAt_lostPkgs (s : State) (t : TileId) (k : Slot) (f : Thread → Thread) : (s.modThrAt t k f).lostPkgs = s.lostPkgs := rfl
@[simp] theorem State.modThrAt_lostDies (s : State) (t : TileId) (k : Slot) (f : Thread → Thread) : (s.modThrAt t k f).lostDies = s.lostDies := rfl
@[simp] theorem State.modThrAt_unreach (s : State) (t : TileId) (k : Slot) (f : Thread → Thread) : (s.modThrAt t k f).unreach = s.unreach := rfl
@[simp] theorem State.modThrAt_unreachPkgs (s : State) (t : TileId) (k : Slot) (f : Thread → Thread) : (s.modThrAt t k f).unreachPkgs = s.unreachPkgs := rfl
@[simp] theorem State.modThrAt_ports (s : State) (t : TileId) (k : Slot) (f : Thread → Thread) : (s.modThrAt t k f).ports = s.ports := rfl
@[simp] theorem State.modThrAt_bridges (s : State) (t : TileId) (k : Slot) (f : Thread → Thread) : (s.modThrAt t k f).bridges = s.bridges := rfl
@[simp] theorem State.modThrAt_wear (s : State) (t : TileId) (k : Slot) (f : Thread → Thread) : (s.modThrAt t k f).wear = s.wear := rfl
@[simp] theorem State.modThrAt_wearNext (s : State) (t : TileId) (k : Slot) (f : Thread → Thread) : (s.modThrAt t k f).wearNext = s.wearNext := rfl
@[simp] theorem State.modThrAt_wearNew (s : State) (t : TileId) (k : Slot) (f : Thread → Thread) : (s.modThrAt t k f).wearNew = s.wearNew := rfl
@[simp] theorem State.modThrAt_root (s : State) (t : TileId) (k : Slot) (f : Thread → Thread) : (s.modThrAt t k f).root = s.root := rfl
@[simp] theorem State.modThrAt_hostRead (s : State) (t : TileId) (k : Slot) (f : Thread → Thread) : (s.modThrAt t k f).hostRead = s.hostRead := rfl
@[simp] theorem State.modThrAt_timebase (s : State) (t : TileId) (k : Slot) (f : Thread → Thread) : (s.modThrAt t k f).timebase = s.timebase := rfl
@[simp] theorem State.modThrAt_node (s : State) (t : TileId) (k : Slot) (f : Thread → Thread) : (s.modThrAt t k f).node = s.node := rfl
@[simp] theorem State.modThrAt_domPkg (s : State) (t : TileId) (k : Slot) (f : Thread → Thread) : (s.modThrAt t k f).domPkg = s.domPkg := rfl
@[simp] theorem State.modThrAt_domPkgs (s : State) (t : TileId) (k : Slot) (f : Thread → Thread) : (s.modThrAt t k f).domPkgs = s.domPkgs := rfl
@[simp] theorem State.modThrAt_agenda (s : State) (t : TileId) (k : Slot) (f : Thread → Thread) : (s.modThrAt t k f).agenda = s.agenda := rfl
@[simp] theorem State.modThrAt_focus (s : State) (t : TileId) (k : Slot) (f : Thread → Thread) : (s.modThrAt t k f).focus = s.focus := rfl
@[simp] theorem State.modThrAt_curTile (s : State) (t : TileId) (k : Slot) (f : Thread → Thread) : (s.modThrAt t k f).curTile = s.curTile := rfl
@[simp] theorem State.modThrAt_curSlot (s : State) (t : TileId) (k : Slot) (f : Thread → Thread) : (s.modThrAt t k f).curSlot = s.curSlot := rfl
@[simp] theorem State.modThrAt_free (s : State) (t : TileId) (k : Slot) (f : Thread → Thread) : (s.modThrAt t k f).free = s.free := rfl
@[simp] theorem State.modThrAt_stamp (s : State) (t : TileId) (k : Slot) (f : Thread → Thread) : (s.modThrAt t k f).stamp = s.stamp := rfl

@[simp] theorem State.modThr_mem (s : State) (f : Thread → Thread) : (s.modThr f).mem = s.mem := rfl
@[simp] theorem State.modThr_fe (s : State) (f : Thread → Thread) : (s.modThr f).fe = s.fe := rfl
@[simp] theorem State.modThr_staged (s : State) (f : Thread → Thread) : (s.modThr f).staged = s.staged := rfl
@[simp] theorem State.modThr_resvs (s : State) (f : Thread → Thread) : (s.modThr f).resvs = s.resvs := rfl
@[simp] theorem State.modThr_rels (s : State) (f : Thread → Thread) : (s.modThr f).rels = s.rels := rfl
@[simp] theorem State.modThr_watchers (s : State) (f : Thread → Thread) : (s.modThr f).watchers = s.watchers := rfl
@[simp] theorem State.modThr_notices (s : State) (f : Thread → Thread) : (s.modThr f).notices = s.notices := rfl
@[simp] theorem State.modThr_xlats (s : State) (f : Thread → Thread) : (s.modThr f).xlats = s.xlats := rfl
@[simp] theorem State.modThr_heldPages (s : State) (f : Thread → Thread) : (s.modThr f).heldPages = s.heldPages := rfl
@[simp] theorem State.modThr_refused (s : State) (f : Thread → Thread) : (s.modThr f).refused = s.refused := rfl
@[simp] theorem State.modThr_trans (s : State) (f : Thread → Thread) : (s.modThr f).trans = s.trans := rfl
@[simp] theorem State.modThr_pdbase (s : State) (f : Thread → Thread) : (s.modThr f).pdbase = s.pdbase := rfl
@[simp] theorem State.modThr_logBase (s : State) (f : Thread → Thread) : (s.modThr f).logBase = s.logBase := rfl
@[simp] theorem State.modThr_logSize (s : State) (f : Thread → Thread) : (s.modThr f).logSize = s.logSize := rfl
@[simp] theorem State.modThr_logNext (s : State) (f : Thread → Thread) : (s.modThr f).logNext = s.logNext := rfl
@[simp] theorem State.modThr_logSeq (s : State) (f : Thread → Thread) : (s.modThr f).logSeq = s.logSeq := rfl
@[simp] theorem State.modThr_logWait (s : State) (f : Thread → Thread) : (s.modThr f).logWait = s.logWait := rfl
@[simp] theorem State.modThr_msix (s : State) (f : Thread → Thread) : (s.modThr f).msix = s.msix := rfl
@[simp] theorem State.modThr_boards (s : State) (f : Thread → Thread) : (s.modThr f).boards = s.boards := rfl
@[simp] theorem State.modThr_refs (s : State) (f : Thread → Thread) : (s.modThr f).refs = s.refs := rfl
@[simp] theorem State.modThr_gangs (s : State) (f : Thread → Thread) : (s.modThr f).gangs = s.gangs := rfl
@[simp] theorem State.modThr_windows (s : State) (f : Thread → Thread) : (s.modThr f).windows = s.windows := rfl
@[simp] theorem State.modThr_winMem (s : State) (f : Thread → Thread) : (s.modThr f).winMem = s.winMem := rfl
@[simp] theorem State.modThr_dmode (s : State) (f : Thread → Thread) : (s.modThr f).dmode = s.dmode := rfl
@[simp] theorem State.modThr_dmodeErr (s : State) (f : Thread → Thread) : (s.modThr f).dmodeErr = s.dmodeErr := rfl
@[simp] theorem State.modThr_plim (s : State) (f : Thread → Thread) : (s.modThr f).plim = s.plim := rfl
@[simp] theorem State.modThr_degraded (s : State) (f : Thread → Thread) : (s.modThr f).degraded = s.degraded := rfl
@[simp] theorem State.modThr_dies (s : State) (f : Thread → Thread) : (s.modThr f).dies = s.dies := rfl
@[simp] theorem State.modThr_skips (s : State) (f : Thread → Thread) : (s.modThr f).skips = s.skips := rfl
@[simp] theorem State.modThr_failing (s : State) (f : Thread → Thread) : (s.modThr f).failing = s.failing := rfl
@[simp] theorem State.modThr_snapshots (s : State) (f : Thread → Thread) : (s.modThr f).snapshots = s.snapshots := rfl
@[simp] theorem State.modThr_snapStaged (s : State) (f : Thread → Thread) : (s.modThr f).snapStaged = s.snapStaged := rfl
@[simp] theorem State.modThr_bar4 (s : State) (f : Thread → Thread) : (s.modThr f).bar4 = s.bar4 := rfl
@[simp] theorem State.modThr_lostPkgs (s : State) (f : Thread → Thread) : (s.modThr f).lostPkgs = s.lostPkgs := rfl
@[simp] theorem State.modThr_lostDies (s : State) (f : Thread → Thread) : (s.modThr f).lostDies = s.lostDies := rfl
@[simp] theorem State.modThr_unreach (s : State) (f : Thread → Thread) : (s.modThr f).unreach = s.unreach := rfl
@[simp] theorem State.modThr_unreachPkgs (s : State) (f : Thread → Thread) : (s.modThr f).unreachPkgs = s.unreachPkgs := rfl
@[simp] theorem State.modThr_ports (s : State) (f : Thread → Thread) : (s.modThr f).ports = s.ports := rfl
@[simp] theorem State.modThr_bridges (s : State) (f : Thread → Thread) : (s.modThr f).bridges = s.bridges := rfl
@[simp] theorem State.modThr_wear (s : State) (f : Thread → Thread) : (s.modThr f).wear = s.wear := rfl
@[simp] theorem State.modThr_wearNext (s : State) (f : Thread → Thread) : (s.modThr f).wearNext = s.wearNext := rfl
@[simp] theorem State.modThr_wearNew (s : State) (f : Thread → Thread) : (s.modThr f).wearNew = s.wearNew := rfl
@[simp] theorem State.modThr_root (s : State) (f : Thread → Thread) : (s.modThr f).root = s.root := rfl
@[simp] theorem State.modThr_hostRead (s : State) (f : Thread → Thread) : (s.modThr f).hostRead = s.hostRead := rfl
@[simp] theorem State.modThr_timebase (s : State) (f : Thread → Thread) : (s.modThr f).timebase = s.timebase := rfl
@[simp] theorem State.modThr_node (s : State) (f : Thread → Thread) : (s.modThr f).node = s.node := rfl
@[simp] theorem State.modThr_domPkg (s : State) (f : Thread → Thread) : (s.modThr f).domPkg = s.domPkg := rfl
@[simp] theorem State.modThr_domPkgs (s : State) (f : Thread → Thread) : (s.modThr f).domPkgs = s.domPkgs := rfl
@[simp] theorem State.modThr_agenda (s : State) (f : Thread → Thread) : (s.modThr f).agenda = s.agenda := rfl
@[simp] theorem State.modThr_focus (s : State) (f : Thread → Thread) : (s.modThr f).focus = s.focus := rfl
@[simp] theorem State.modThr_curTile (s : State) (f : Thread → Thread) : (s.modThr f).curTile = s.curTile := rfl
@[simp] theorem State.modThr_curSlot (s : State) (f : Thread → Thread) : (s.modThr f).curSlot = s.curSlot := rfl
@[simp] theorem State.modThr_free (s : State) (f : Thread → Thread) : (s.modThr f).free = s.free := rfl
@[simp] theorem State.modThr_stamp (s : State) (f : Thread → Thread) : (s.modThr f).stamp = s.stamp := rfl

@[simp] theorem State.modCur_mem (s : State) (f : Tile → Tile) : (s.modCur f).mem = s.mem := rfl
@[simp] theorem State.modCur_fe (s : State) (f : Tile → Tile) : (s.modCur f).fe = s.fe := rfl
@[simp] theorem State.modCur_staged (s : State) (f : Tile → Tile) : (s.modCur f).staged = s.staged := rfl
@[simp] theorem State.modCur_resvs (s : State) (f : Tile → Tile) : (s.modCur f).resvs = s.resvs := rfl
@[simp] theorem State.modCur_rels (s : State) (f : Tile → Tile) : (s.modCur f).rels = s.rels := rfl
@[simp] theorem State.modCur_watchers (s : State) (f : Tile → Tile) : (s.modCur f).watchers = s.watchers := rfl
@[simp] theorem State.modCur_notices (s : State) (f : Tile → Tile) : (s.modCur f).notices = s.notices := rfl
@[simp] theorem State.modCur_xlats (s : State) (f : Tile → Tile) : (s.modCur f).xlats = s.xlats := rfl
@[simp] theorem State.modCur_heldPages (s : State) (f : Tile → Tile) : (s.modCur f).heldPages = s.heldPages := rfl
@[simp] theorem State.modCur_refused (s : State) (f : Tile → Tile) : (s.modCur f).refused = s.refused := rfl
@[simp] theorem State.modCur_trans (s : State) (f : Tile → Tile) : (s.modCur f).trans = s.trans := rfl
@[simp] theorem State.modCur_pdbase (s : State) (f : Tile → Tile) : (s.modCur f).pdbase = s.pdbase := rfl
@[simp] theorem State.modCur_logBase (s : State) (f : Tile → Tile) : (s.modCur f).logBase = s.logBase := rfl
@[simp] theorem State.modCur_logSize (s : State) (f : Tile → Tile) : (s.modCur f).logSize = s.logSize := rfl
@[simp] theorem State.modCur_logNext (s : State) (f : Tile → Tile) : (s.modCur f).logNext = s.logNext := rfl
@[simp] theorem State.modCur_logSeq (s : State) (f : Tile → Tile) : (s.modCur f).logSeq = s.logSeq := rfl
@[simp] theorem State.modCur_logWait (s : State) (f : Tile → Tile) : (s.modCur f).logWait = s.logWait := rfl
@[simp] theorem State.modCur_msix (s : State) (f : Tile → Tile) : (s.modCur f).msix = s.msix := rfl
@[simp] theorem State.modCur_boards (s : State) (f : Tile → Tile) : (s.modCur f).boards = s.boards := rfl
@[simp] theorem State.modCur_refs (s : State) (f : Tile → Tile) : (s.modCur f).refs = s.refs := rfl
@[simp] theorem State.modCur_gangs (s : State) (f : Tile → Tile) : (s.modCur f).gangs = s.gangs := rfl
@[simp] theorem State.modCur_windows (s : State) (f : Tile → Tile) : (s.modCur f).windows = s.windows := rfl
@[simp] theorem State.modCur_winMem (s : State) (f : Tile → Tile) : (s.modCur f).winMem = s.winMem := rfl
@[simp] theorem State.modCur_dmode (s : State) (f : Tile → Tile) : (s.modCur f).dmode = s.dmode := rfl
@[simp] theorem State.modCur_dmodeErr (s : State) (f : Tile → Tile) : (s.modCur f).dmodeErr = s.dmodeErr := rfl
@[simp] theorem State.modCur_plim (s : State) (f : Tile → Tile) : (s.modCur f).plim = s.plim := rfl
@[simp] theorem State.modCur_degraded (s : State) (f : Tile → Tile) : (s.modCur f).degraded = s.degraded := rfl
@[simp] theorem State.modCur_dies (s : State) (f : Tile → Tile) : (s.modCur f).dies = s.dies := rfl
@[simp] theorem State.modCur_skips (s : State) (f : Tile → Tile) : (s.modCur f).skips = s.skips := rfl
@[simp] theorem State.modCur_failing (s : State) (f : Tile → Tile) : (s.modCur f).failing = s.failing := rfl
@[simp] theorem State.modCur_snapshots (s : State) (f : Tile → Tile) : (s.modCur f).snapshots = s.snapshots := rfl
@[simp] theorem State.modCur_snapStaged (s : State) (f : Tile → Tile) : (s.modCur f).snapStaged = s.snapStaged := rfl
@[simp] theorem State.modCur_bar4 (s : State) (f : Tile → Tile) : (s.modCur f).bar4 = s.bar4 := rfl
@[simp] theorem State.modCur_lostPkgs (s : State) (f : Tile → Tile) : (s.modCur f).lostPkgs = s.lostPkgs := rfl
@[simp] theorem State.modCur_lostDies (s : State) (f : Tile → Tile) : (s.modCur f).lostDies = s.lostDies := rfl
@[simp] theorem State.modCur_unreach (s : State) (f : Tile → Tile) : (s.modCur f).unreach = s.unreach := rfl
@[simp] theorem State.modCur_unreachPkgs (s : State) (f : Tile → Tile) : (s.modCur f).unreachPkgs = s.unreachPkgs := rfl
@[simp] theorem State.modCur_ports (s : State) (f : Tile → Tile) : (s.modCur f).ports = s.ports := rfl
@[simp] theorem State.modCur_bridges (s : State) (f : Tile → Tile) : (s.modCur f).bridges = s.bridges := rfl
@[simp] theorem State.modCur_wear (s : State) (f : Tile → Tile) : (s.modCur f).wear = s.wear := rfl
@[simp] theorem State.modCur_wearNext (s : State) (f : Tile → Tile) : (s.modCur f).wearNext = s.wearNext := rfl
@[simp] theorem State.modCur_wearNew (s : State) (f : Tile → Tile) : (s.modCur f).wearNew = s.wearNew := rfl
@[simp] theorem State.modCur_root (s : State) (f : Tile → Tile) : (s.modCur f).root = s.root := rfl
@[simp] theorem State.modCur_hostRead (s : State) (f : Tile → Tile) : (s.modCur f).hostRead = s.hostRead := rfl
@[simp] theorem State.modCur_timebase (s : State) (f : Tile → Tile) : (s.modCur f).timebase = s.timebase := rfl
@[simp] theorem State.modCur_node (s : State) (f : Tile → Tile) : (s.modCur f).node = s.node := rfl
@[simp] theorem State.modCur_domPkg (s : State) (f : Tile → Tile) : (s.modCur f).domPkg = s.domPkg := rfl
@[simp] theorem State.modCur_domPkgs (s : State) (f : Tile → Tile) : (s.modCur f).domPkgs = s.domPkgs := rfl
@[simp] theorem State.modCur_agenda (s : State) (f : Tile → Tile) : (s.modCur f).agenda = s.agenda := rfl
@[simp] theorem State.modCur_focus (s : State) (f : Tile → Tile) : (s.modCur f).focus = s.focus := rfl
@[simp] theorem State.modCur_curTile (s : State) (f : Tile → Tile) : (s.modCur f).curTile = s.curTile := rfl
@[simp] theorem State.modCur_curSlot (s : State) (f : Tile → Tile) : (s.modCur f).curSlot = s.curSlot := rfl
@[simp] theorem State.modCur_free (s : State) (f : Tile → Tile) : (s.modCur f).free = s.free := rfl
@[simp] theorem State.modCur_stamp (s : State) (f : Tile → Tile) : (s.modCur f).stamp = s.stamp := rfl

@[simp] theorem State.putS_mem (s : State) (r : Reg) (x : Word) : (s.putS r x).mem = s.mem := rfl
@[simp] theorem State.putS_fe (s : State) (r : Reg) (x : Word) : (s.putS r x).fe = s.fe := rfl
@[simp] theorem State.putS_staged (s : State) (r : Reg) (x : Word) : (s.putS r x).staged = s.staged := rfl
@[simp] theorem State.putS_resvs (s : State) (r : Reg) (x : Word) : (s.putS r x).resvs = s.resvs := rfl
@[simp] theorem State.putS_rels (s : State) (r : Reg) (x : Word) : (s.putS r x).rels = s.rels := rfl
@[simp] theorem State.putS_watchers (s : State) (r : Reg) (x : Word) : (s.putS r x).watchers = s.watchers := rfl
@[simp] theorem State.putS_notices (s : State) (r : Reg) (x : Word) : (s.putS r x).notices = s.notices := rfl
@[simp] theorem State.putS_xlats (s : State) (r : Reg) (x : Word) : (s.putS r x).xlats = s.xlats := rfl
@[simp] theorem State.putS_heldPages (s : State) (r : Reg) (x : Word) : (s.putS r x).heldPages = s.heldPages := rfl
@[simp] theorem State.putS_refused (s : State) (r : Reg) (x : Word) : (s.putS r x).refused = s.refused := rfl
@[simp] theorem State.putS_trans (s : State) (r : Reg) (x : Word) : (s.putS r x).trans = s.trans := rfl
@[simp] theorem State.putS_pdbase (s : State) (r : Reg) (x : Word) : (s.putS r x).pdbase = s.pdbase := rfl
@[simp] theorem State.putS_logBase (s : State) (r : Reg) (x : Word) : (s.putS r x).logBase = s.logBase := rfl
@[simp] theorem State.putS_logSize (s : State) (r : Reg) (x : Word) : (s.putS r x).logSize = s.logSize := rfl
@[simp] theorem State.putS_logNext (s : State) (r : Reg) (x : Word) : (s.putS r x).logNext = s.logNext := rfl
@[simp] theorem State.putS_logSeq (s : State) (r : Reg) (x : Word) : (s.putS r x).logSeq = s.logSeq := rfl
@[simp] theorem State.putS_logWait (s : State) (r : Reg) (x : Word) : (s.putS r x).logWait = s.logWait := rfl
@[simp] theorem State.putS_msix (s : State) (r : Reg) (x : Word) : (s.putS r x).msix = s.msix := rfl
@[simp] theorem State.putS_boards (s : State) (r : Reg) (x : Word) : (s.putS r x).boards = s.boards := rfl
@[simp] theorem State.putS_refs (s : State) (r : Reg) (x : Word) : (s.putS r x).refs = s.refs := rfl
@[simp] theorem State.putS_gangs (s : State) (r : Reg) (x : Word) : (s.putS r x).gangs = s.gangs := rfl
@[simp] theorem State.putS_windows (s : State) (r : Reg) (x : Word) : (s.putS r x).windows = s.windows := rfl
@[simp] theorem State.putS_winMem (s : State) (r : Reg) (x : Word) : (s.putS r x).winMem = s.winMem := rfl
@[simp] theorem State.putS_dmode (s : State) (r : Reg) (x : Word) : (s.putS r x).dmode = s.dmode := rfl
@[simp] theorem State.putS_dmodeErr (s : State) (r : Reg) (x : Word) : (s.putS r x).dmodeErr = s.dmodeErr := rfl
@[simp] theorem State.putS_plim (s : State) (r : Reg) (x : Word) : (s.putS r x).plim = s.plim := rfl
@[simp] theorem State.putS_degraded (s : State) (r : Reg) (x : Word) : (s.putS r x).degraded = s.degraded := rfl
@[simp] theorem State.putS_dies (s : State) (r : Reg) (x : Word) : (s.putS r x).dies = s.dies := rfl
@[simp] theorem State.putS_skips (s : State) (r : Reg) (x : Word) : (s.putS r x).skips = s.skips := rfl
@[simp] theorem State.putS_failing (s : State) (r : Reg) (x : Word) : (s.putS r x).failing = s.failing := rfl
@[simp] theorem State.putS_snapshots (s : State) (r : Reg) (x : Word) : (s.putS r x).snapshots = s.snapshots := rfl
@[simp] theorem State.putS_snapStaged (s : State) (r : Reg) (x : Word) : (s.putS r x).snapStaged = s.snapStaged := rfl
@[simp] theorem State.putS_bar4 (s : State) (r : Reg) (x : Word) : (s.putS r x).bar4 = s.bar4 := rfl
@[simp] theorem State.putS_lostPkgs (s : State) (r : Reg) (x : Word) : (s.putS r x).lostPkgs = s.lostPkgs := rfl
@[simp] theorem State.putS_lostDies (s : State) (r : Reg) (x : Word) : (s.putS r x).lostDies = s.lostDies := rfl
@[simp] theorem State.putS_unreach (s : State) (r : Reg) (x : Word) : (s.putS r x).unreach = s.unreach := rfl
@[simp] theorem State.putS_unreachPkgs (s : State) (r : Reg) (x : Word) : (s.putS r x).unreachPkgs = s.unreachPkgs := rfl
@[simp] theorem State.putS_ports (s : State) (r : Reg) (x : Word) : (s.putS r x).ports = s.ports := rfl
@[simp] theorem State.putS_bridges (s : State) (r : Reg) (x : Word) : (s.putS r x).bridges = s.bridges := rfl
@[simp] theorem State.putS_wear (s : State) (r : Reg) (x : Word) : (s.putS r x).wear = s.wear := rfl
@[simp] theorem State.putS_wearNext (s : State) (r : Reg) (x : Word) : (s.putS r x).wearNext = s.wearNext := rfl
@[simp] theorem State.putS_wearNew (s : State) (r : Reg) (x : Word) : (s.putS r x).wearNew = s.wearNew := rfl
@[simp] theorem State.putS_root (s : State) (r : Reg) (x : Word) : (s.putS r x).root = s.root := rfl
@[simp] theorem State.putS_hostRead (s : State) (r : Reg) (x : Word) : (s.putS r x).hostRead = s.hostRead := rfl
@[simp] theorem State.putS_timebase (s : State) (r : Reg) (x : Word) : (s.putS r x).timebase = s.timebase := rfl
@[simp] theorem State.putS_node (s : State) (r : Reg) (x : Word) : (s.putS r x).node = s.node := rfl
@[simp] theorem State.putS_domPkg (s : State) (r : Reg) (x : Word) : (s.putS r x).domPkg = s.domPkg := rfl
@[simp] theorem State.putS_domPkgs (s : State) (r : Reg) (x : Word) : (s.putS r x).domPkgs = s.domPkgs := rfl
@[simp] theorem State.putS_agenda (s : State) (r : Reg) (x : Word) : (s.putS r x).agenda = s.agenda := rfl
@[simp] theorem State.putS_focus (s : State) (r : Reg) (x : Word) : (s.putS r x).focus = s.focus := rfl
@[simp] theorem State.putS_curTile (s : State) (r : Reg) (x : Word) : (s.putS r x).curTile = s.curTile := rfl
@[simp] theorem State.putS_curSlot (s : State) (r : Reg) (x : Word) : (s.putS r x).curSlot = s.curSlot := rfl
@[simp] theorem State.putS_free (s : State) (r : Reg) (x : Word) : (s.putS r x).free = s.free := rfl
@[simp] theorem State.putS_stamp (s : State) (r : Reg) (x : Word) : (s.putS r x).stamp = s.stamp := rfl

@[simp] theorem State.retireAt_mem (s : State) (t : TileId) (k : Slot) (pc : Word) (ns : List Word) : (s.retireAt t k pc ns).mem = s.mem := rfl
@[simp] theorem State.retireAt_fe (s : State) (t : TileId) (k : Slot) (pc : Word) (ns : List Word) : (s.retireAt t k pc ns).fe = s.fe := rfl
@[simp] theorem State.retireAt_staged (s : State) (t : TileId) (k : Slot) (pc : Word) (ns : List Word) : (s.retireAt t k pc ns).staged = s.staged := rfl
@[simp] theorem State.retireAt_resvs (s : State) (t : TileId) (k : Slot) (pc : Word) (ns : List Word) : (s.retireAt t k pc ns).resvs = s.resvs := rfl
@[simp] theorem State.retireAt_rels (s : State) (t : TileId) (k : Slot) (pc : Word) (ns : List Word) : (s.retireAt t k pc ns).rels = s.rels := rfl
@[simp] theorem State.retireAt_watchers (s : State) (t : TileId) (k : Slot) (pc : Word) (ns : List Word) : (s.retireAt t k pc ns).watchers = s.watchers := rfl
@[simp] theorem State.retireAt_notices (s : State) (t : TileId) (k : Slot) (pc : Word) (ns : List Word) : (s.retireAt t k pc ns).notices = s.notices := rfl
@[simp] theorem State.retireAt_xlats (s : State) (t : TileId) (k : Slot) (pc : Word) (ns : List Word) : (s.retireAt t k pc ns).xlats = s.xlats := rfl
@[simp] theorem State.retireAt_heldPages (s : State) (t : TileId) (k : Slot) (pc : Word) (ns : List Word) : (s.retireAt t k pc ns).heldPages = s.heldPages := rfl
@[simp] theorem State.retireAt_refused (s : State) (t : TileId) (k : Slot) (pc : Word) (ns : List Word) : (s.retireAt t k pc ns).refused = s.refused := rfl
@[simp] theorem State.retireAt_trans (s : State) (t : TileId) (k : Slot) (pc : Word) (ns : List Word) : (s.retireAt t k pc ns).trans = s.trans := rfl
@[simp] theorem State.retireAt_pdbase (s : State) (t : TileId) (k : Slot) (pc : Word) (ns : List Word) : (s.retireAt t k pc ns).pdbase = s.pdbase := rfl
@[simp] theorem State.retireAt_logBase (s : State) (t : TileId) (k : Slot) (pc : Word) (ns : List Word) : (s.retireAt t k pc ns).logBase = s.logBase := rfl
@[simp] theorem State.retireAt_logSize (s : State) (t : TileId) (k : Slot) (pc : Word) (ns : List Word) : (s.retireAt t k pc ns).logSize = s.logSize := rfl
@[simp] theorem State.retireAt_logNext (s : State) (t : TileId) (k : Slot) (pc : Word) (ns : List Word) : (s.retireAt t k pc ns).logNext = s.logNext := rfl
@[simp] theorem State.retireAt_logSeq (s : State) (t : TileId) (k : Slot) (pc : Word) (ns : List Word) : (s.retireAt t k pc ns).logSeq = s.logSeq := rfl
@[simp] theorem State.retireAt_logWait (s : State) (t : TileId) (k : Slot) (pc : Word) (ns : List Word) : (s.retireAt t k pc ns).logWait = s.logWait := rfl
@[simp] theorem State.retireAt_msix (s : State) (t : TileId) (k : Slot) (pc : Word) (ns : List Word) : (s.retireAt t k pc ns).msix = s.msix := rfl
@[simp] theorem State.retireAt_boards (s : State) (t : TileId) (k : Slot) (pc : Word) (ns : List Word) : (s.retireAt t k pc ns).boards = s.boards := rfl
@[simp] theorem State.retireAt_refs (s : State) (t : TileId) (k : Slot) (pc : Word) (ns : List Word) : (s.retireAt t k pc ns).refs = s.refs := rfl
@[simp] theorem State.retireAt_gangs (s : State) (t : TileId) (k : Slot) (pc : Word) (ns : List Word) : (s.retireAt t k pc ns).gangs = s.gangs := rfl
@[simp] theorem State.retireAt_windows (s : State) (t : TileId) (k : Slot) (pc : Word) (ns : List Word) : (s.retireAt t k pc ns).windows = s.windows := rfl
@[simp] theorem State.retireAt_winMem (s : State) (t : TileId) (k : Slot) (pc : Word) (ns : List Word) : (s.retireAt t k pc ns).winMem = s.winMem := rfl
@[simp] theorem State.retireAt_dmode (s : State) (t : TileId) (k : Slot) (pc : Word) (ns : List Word) : (s.retireAt t k pc ns).dmode = s.dmode := rfl
@[simp] theorem State.retireAt_dmodeErr (s : State) (t : TileId) (k : Slot) (pc : Word) (ns : List Word) : (s.retireAt t k pc ns).dmodeErr = s.dmodeErr := rfl
@[simp] theorem State.retireAt_plim (s : State) (t : TileId) (k : Slot) (pc : Word) (ns : List Word) : (s.retireAt t k pc ns).plim = s.plim := rfl
@[simp] theorem State.retireAt_degraded (s : State) (t : TileId) (k : Slot) (pc : Word) (ns : List Word) : (s.retireAt t k pc ns).degraded = s.degraded := rfl
@[simp] theorem State.retireAt_dies (s : State) (t : TileId) (k : Slot) (pc : Word) (ns : List Word) : (s.retireAt t k pc ns).dies = s.dies := rfl
@[simp] theorem State.retireAt_skips (s : State) (t : TileId) (k : Slot) (pc : Word) (ns : List Word) : (s.retireAt t k pc ns).skips = s.skips := rfl
@[simp] theorem State.retireAt_failing (s : State) (t : TileId) (k : Slot) (pc : Word) (ns : List Word) : (s.retireAt t k pc ns).failing = s.failing := rfl
@[simp] theorem State.retireAt_snapshots (s : State) (t : TileId) (k : Slot) (pc : Word) (ns : List Word) : (s.retireAt t k pc ns).snapshots = s.snapshots := rfl
@[simp] theorem State.retireAt_snapStaged (s : State) (t : TileId) (k : Slot) (pc : Word) (ns : List Word) : (s.retireAt t k pc ns).snapStaged = s.snapStaged := rfl
@[simp] theorem State.retireAt_bar4 (s : State) (t : TileId) (k : Slot) (pc : Word) (ns : List Word) : (s.retireAt t k pc ns).bar4 = s.bar4 := rfl
@[simp] theorem State.retireAt_lostPkgs (s : State) (t : TileId) (k : Slot) (pc : Word) (ns : List Word) : (s.retireAt t k pc ns).lostPkgs = s.lostPkgs := rfl
@[simp] theorem State.retireAt_lostDies (s : State) (t : TileId) (k : Slot) (pc : Word) (ns : List Word) : (s.retireAt t k pc ns).lostDies = s.lostDies := rfl
@[simp] theorem State.retireAt_unreach (s : State) (t : TileId) (k : Slot) (pc : Word) (ns : List Word) : (s.retireAt t k pc ns).unreach = s.unreach := rfl
@[simp] theorem State.retireAt_unreachPkgs (s : State) (t : TileId) (k : Slot) (pc : Word) (ns : List Word) : (s.retireAt t k pc ns).unreachPkgs = s.unreachPkgs := rfl
@[simp] theorem State.retireAt_ports (s : State) (t : TileId) (k : Slot) (pc : Word) (ns : List Word) : (s.retireAt t k pc ns).ports = s.ports := rfl
@[simp] theorem State.retireAt_bridges (s : State) (t : TileId) (k : Slot) (pc : Word) (ns : List Word) : (s.retireAt t k pc ns).bridges = s.bridges := rfl
@[simp] theorem State.retireAt_wear (s : State) (t : TileId) (k : Slot) (pc : Word) (ns : List Word) : (s.retireAt t k pc ns).wear = s.wear := rfl
@[simp] theorem State.retireAt_wearNext (s : State) (t : TileId) (k : Slot) (pc : Word) (ns : List Word) : (s.retireAt t k pc ns).wearNext = s.wearNext := rfl
@[simp] theorem State.retireAt_wearNew (s : State) (t : TileId) (k : Slot) (pc : Word) (ns : List Word) : (s.retireAt t k pc ns).wearNew = s.wearNew := rfl
@[simp] theorem State.retireAt_root (s : State) (t : TileId) (k : Slot) (pc : Word) (ns : List Word) : (s.retireAt t k pc ns).root = s.root := rfl
@[simp] theorem State.retireAt_hostRead (s : State) (t : TileId) (k : Slot) (pc : Word) (ns : List Word) : (s.retireAt t k pc ns).hostRead = s.hostRead := rfl
@[simp] theorem State.retireAt_timebase (s : State) (t : TileId) (k : Slot) (pc : Word) (ns : List Word) : (s.retireAt t k pc ns).timebase = s.timebase := rfl
@[simp] theorem State.retireAt_node (s : State) (t : TileId) (k : Slot) (pc : Word) (ns : List Word) : (s.retireAt t k pc ns).node = s.node := rfl
@[simp] theorem State.retireAt_domPkg (s : State) (t : TileId) (k : Slot) (pc : Word) (ns : List Word) : (s.retireAt t k pc ns).domPkg = s.domPkg := rfl
@[simp] theorem State.retireAt_domPkgs (s : State) (t : TileId) (k : Slot) (pc : Word) (ns : List Word) : (s.retireAt t k pc ns).domPkgs = s.domPkgs := rfl
@[simp] theorem State.retireAt_agenda (s : State) (t : TileId) (k : Slot) (pc : Word) (ns : List Word) : (s.retireAt t k pc ns).agenda = s.agenda := rfl
@[simp] theorem State.retireAt_focus (s : State) (t : TileId) (k : Slot) (pc : Word) (ns : List Word) : (s.retireAt t k pc ns).focus = s.focus := rfl
@[simp] theorem State.retireAt_curTile (s : State) (t : TileId) (k : Slot) (pc : Word) (ns : List Word) : (s.retireAt t k pc ns).curTile = s.curTile := rfl
@[simp] theorem State.retireAt_curSlot (s : State) (t : TileId) (k : Slot) (pc : Word) (ns : List Word) : (s.retireAt t k pc ns).curSlot = s.curSlot := rfl
@[simp] theorem State.retireAt_free (s : State) (t : TileId) (k : Slot) (pc : Word) (ns : List Word) : (s.retireAt t k pc ns).free = s.free := rfl
@[simp] theorem State.retireAt_stamp (s : State) (t : TileId) (k : Slot) (pc : Word) (ns : List Word) : (s.retireAt t k pc ns).stamp = s.stamp := rfl

-- Tile

@[simp] theorem Tile.putThr_cycle (x : Tile) (k : Slot) (th : Thread) : (x.putThr k th).cycle = x.cycle := rfl
@[simp] theorem Tile.putThr_horizon (x : Tile) (k : Slot) (th : Thread) : (x.putThr k th).horizon = x.horizon := rfl
@[simp] theorem Tile.putThr_vtime (x : Tile) (k : Slot) (th : Thread) : (x.putThr k th).vtime = x.vtime := rfl
@[simp] theorem Tile.putThr_mode (x : Tile) (k : Slot) (th : Thread) : (x.putThr k th).mode = x.mode := rfl
@[simp] theorem Tile.putThr_pid (x : Tile) (k : Slot) (th : Thread) : (x.putThr k th).pid = x.pid := rfl
@[simp] theorem Tile.putThr_gang (x : Tile) (k : Slot) (th : Thread) : (x.putThr k th).gang = x.gang := rfl
@[simp] theorem Tile.putThr_gift (x : Tile) (k : Slot) (th : Thread) : (x.putThr k th).gift = x.gift := rfl
@[simp] theorem Tile.putThr_fmts (x : Tile) (k : Slot) (th : Thread) : (x.putThr k th).fmts = x.fmts := rfl
@[simp] theorem Tile.putThr_acc (x : Tile) (k : Slot) (th : Thread) : (x.putThr k th).acc = x.acc := rfl
@[simp] theorem Tile.putThr_icache (x : Tile) (k : Slot) (th : Thread) : (x.putThr k th).icache = x.icache := rfl
@[simp] theorem Tile.putThr_stores (x : Tile) (k : Slot) (th : Thread) : (x.putThr k th).stores = x.stores := rfl
@[simp] theorem Tile.putThr_waitList (x : Tile) (k : Slot) (th : Thread) : (x.putThr k th).waitList = x.waitList := rfl
@[simp] theorem Tile.putThr_barrier (x : Tile) (k : Slot) (th : Thread) : (x.putThr k th).barrier = x.barrier := rfl
@[simp] theorem Tile.putThr_queue (x : Tile) (k : Slot) (th : Thread) : (x.putThr k th).queue = x.queue := rfl
@[simp] theorem Tile.putThr_woke (x : Tile) (k : Slot) (th : Thread) : (x.putThr k th).woke = x.woke := rfl
@[simp] theorem Tile.putThr_laceSeqs (x : Tile) (k : Slot) (th : Thread) : (x.putThr k th).laceSeqs = x.laceSeqs := rfl
@[simp] theorem Tile.putThr_channels (x : Tile) (k : Slot) (th : Thread) : (x.putThr k th).channels = x.channels := rfl
@[simp] theorem Tile.putThr_seqs (x : Tile) (k : Slot) (th : Thread) : (x.putThr k th).seqs = x.seqs := rfl
@[simp] theorem Tile.putThr_sent (x : Tile) (k : Slot) (th : Thread) : (x.putThr k th).sent = x.sent := rfl
@[simp] theorem Tile.putThr_heldEnts (x : Tile) (k : Slot) (th : Thread) : (x.putThr k th).heldEnts = x.heldEnts := rfl
@[simp] theorem Tile.putThr_compSeq (x : Tile) (k : Slot) (th : Thread) : (x.putThr k th).compSeq = x.compSeq := rfl
@[simp] theorem Tile.putThr_sysSeq (x : Tile) (k : Slot) (th : Thread) : (x.putThr k th).sysSeq = x.sysSeq := rfl
@[simp] theorem Tile.putThr_tag (x : Tile) (k : Slot) (th : Thread) : (x.putThr k th).tag = x.tag := rfl
@[simp] theorem Tile.putThr_eyelets (x : Tile) (k : Slot) (th : Thread) : (x.putThr k th).eyelets = x.eyelets := rfl
@[simp] theorem Tile.putThr_accepted (x : Tile) (k : Slot) (th : Thread) : (x.putThr k th).accepted = x.accepted := rfl
@[simp] theorem Tile.putThr_ops (x : Tile) (k : Slot) (th : Thread) : (x.putThr k th).ops = x.ops := rfl
@[simp] theorem Tile.putThr_flagging (x : Tile) (k : Slot) (th : Thread) : (x.putThr k th).flagging = x.flagging := rfl
@[simp] theorem Tile.putThr_mxq (x : Tile) (k : Slot) (th : Thread) : (x.putThr k th).mxq = x.mxq := rfl
@[simp] theorem Tile.putThr_grpq (x : Tile) (k : Slot) (th : Thread) : (x.putThr k th).grpq = x.grpq := rfl
@[simp] theorem Tile.putThr_freezing (x : Tile) (k : Slot) (th : Thread) : (x.putThr k th).freezing = x.freezing := rfl
@[simp] theorem Tile.putThr_frozen (x : Tile) (k : Slot) (th : Thread) : (x.putThr k th).frozen = x.frozen := rfl
@[simp] theorem Tile.putThr_headers (x : Tile) (k : Slot) (th : Thread) : (x.putThr k th).headers = x.headers := rfl
@[simp] theorem Tile.putThr_gens (x : Tile) (k : Slot) (th : Thread) : (x.putThr k th).gens = x.gens := rfl
@[simp] theorem Tile.putThr_promises (x : Tile) (k : Slot) (th : Thread) : (x.putThr k th).promises = x.promises := rfl
@[simp] theorem Tile.putThr_weltQ (x : Tile) (k : Slot) (th : Thread) : (x.putThr k th).weltQ = x.weltQ := rfl
@[simp] theorem Tile.putThr_weltHeld (x : Tile) (k : Slot) (th : Thread) : (x.putThr k th).weltHeld = x.weltHeld := rfl
@[simp] theorem Tile.putThr_brks (x : Tile) (k : Slot) (th : Thread) : (x.putThr k th).brks = x.brks := rfl
@[simp] theorem Tile.putThr_watches (x : Tile) (k : Slot) (th : Thread) : (x.putThr k th).watches = x.watches := rfl
@[simp] theorem Tile.putThr_pairing (x : Tile) (k : Slot) (th : Thread) : (x.putThr k th).pairing = x.pairing := rfl
@[simp] theorem Tile.putThr_hidden (x : Tile) (k : Slot) (th : Thread) : (x.putThr k th).hidden = x.hidden := rfl
@[simp] theorem Tile.putThr_suspect (x : Tile) (k : Slot) (th : Thread) : (x.putThr k th).suspect = x.suspect := rfl
@[simp] theorem Tile.putThr_treeCount (x : Tile) (k : Slot) (th : Thread) : (x.putThr k th).treeCount = x.treeCount := rfl
@[simp] theorem Tile.putThr_barCount (x : Tile) (k : Slot) (th : Thread) : (x.putThr k th).barCount = x.barCount := rfl
@[simp] theorem Tile.putThr_barDone (x : Tile) (k : Slot) (th : Thread) : (x.putThr k th).barDone = x.barDone := rfl
@[simp] theorem Tile.putThr_nextId (x : Tile) (k : Slot) (th : Thread) : (x.putThr k th).nextId = x.nextId := rfl

@[simp] theorem Tile.modThr_cycle (x : Tile) (k : Slot) (f : Thread → Thread) : (x.modThr k f).cycle = x.cycle := rfl
@[simp] theorem Tile.modThr_horizon (x : Tile) (k : Slot) (f : Thread → Thread) : (x.modThr k f).horizon = x.horizon := rfl
@[simp] theorem Tile.modThr_vtime (x : Tile) (k : Slot) (f : Thread → Thread) : (x.modThr k f).vtime = x.vtime := rfl
@[simp] theorem Tile.modThr_mode (x : Tile) (k : Slot) (f : Thread → Thread) : (x.modThr k f).mode = x.mode := rfl
@[simp] theorem Tile.modThr_pid (x : Tile) (k : Slot) (f : Thread → Thread) : (x.modThr k f).pid = x.pid := rfl
@[simp] theorem Tile.modThr_gang (x : Tile) (k : Slot) (f : Thread → Thread) : (x.modThr k f).gang = x.gang := rfl
@[simp] theorem Tile.modThr_gift (x : Tile) (k : Slot) (f : Thread → Thread) : (x.modThr k f).gift = x.gift := rfl
@[simp] theorem Tile.modThr_fmts (x : Tile) (k : Slot) (f : Thread → Thread) : (x.modThr k f).fmts = x.fmts := rfl
@[simp] theorem Tile.modThr_acc (x : Tile) (k : Slot) (f : Thread → Thread) : (x.modThr k f).acc = x.acc := rfl
@[simp] theorem Tile.modThr_icache (x : Tile) (k : Slot) (f : Thread → Thread) : (x.modThr k f).icache = x.icache := rfl
@[simp] theorem Tile.modThr_stores (x : Tile) (k : Slot) (f : Thread → Thread) : (x.modThr k f).stores = x.stores := rfl
@[simp] theorem Tile.modThr_waitList (x : Tile) (k : Slot) (f : Thread → Thread) : (x.modThr k f).waitList = x.waitList := rfl
@[simp] theorem Tile.modThr_barrier (x : Tile) (k : Slot) (f : Thread → Thread) : (x.modThr k f).barrier = x.barrier := rfl
@[simp] theorem Tile.modThr_queue (x : Tile) (k : Slot) (f : Thread → Thread) : (x.modThr k f).queue = x.queue := rfl
@[simp] theorem Tile.modThr_woke (x : Tile) (k : Slot) (f : Thread → Thread) : (x.modThr k f).woke = x.woke := rfl
@[simp] theorem Tile.modThr_laceSeqs (x : Tile) (k : Slot) (f : Thread → Thread) : (x.modThr k f).laceSeqs = x.laceSeqs := rfl
@[simp] theorem Tile.modThr_channels (x : Tile) (k : Slot) (f : Thread → Thread) : (x.modThr k f).channels = x.channels := rfl
@[simp] theorem Tile.modThr_seqs (x : Tile) (k : Slot) (f : Thread → Thread) : (x.modThr k f).seqs = x.seqs := rfl
@[simp] theorem Tile.modThr_sent (x : Tile) (k : Slot) (f : Thread → Thread) : (x.modThr k f).sent = x.sent := rfl
@[simp] theorem Tile.modThr_heldEnts (x : Tile) (k : Slot) (f : Thread → Thread) : (x.modThr k f).heldEnts = x.heldEnts := rfl
@[simp] theorem Tile.modThr_compSeq (x : Tile) (k : Slot) (f : Thread → Thread) : (x.modThr k f).compSeq = x.compSeq := rfl
@[simp] theorem Tile.modThr_sysSeq (x : Tile) (k : Slot) (f : Thread → Thread) : (x.modThr k f).sysSeq = x.sysSeq := rfl
@[simp] theorem Tile.modThr_tag (x : Tile) (k : Slot) (f : Thread → Thread) : (x.modThr k f).tag = x.tag := rfl
@[simp] theorem Tile.modThr_eyelets (x : Tile) (k : Slot) (f : Thread → Thread) : (x.modThr k f).eyelets = x.eyelets := rfl
@[simp] theorem Tile.modThr_accepted (x : Tile) (k : Slot) (f : Thread → Thread) : (x.modThr k f).accepted = x.accepted := rfl
@[simp] theorem Tile.modThr_ops (x : Tile) (k : Slot) (f : Thread → Thread) : (x.modThr k f).ops = x.ops := rfl
@[simp] theorem Tile.modThr_flagging (x : Tile) (k : Slot) (f : Thread → Thread) : (x.modThr k f).flagging = x.flagging := rfl
@[simp] theorem Tile.modThr_mxq (x : Tile) (k : Slot) (f : Thread → Thread) : (x.modThr k f).mxq = x.mxq := rfl
@[simp] theorem Tile.modThr_grpq (x : Tile) (k : Slot) (f : Thread → Thread) : (x.modThr k f).grpq = x.grpq := rfl
@[simp] theorem Tile.modThr_freezing (x : Tile) (k : Slot) (f : Thread → Thread) : (x.modThr k f).freezing = x.freezing := rfl
@[simp] theorem Tile.modThr_frozen (x : Tile) (k : Slot) (f : Thread → Thread) : (x.modThr k f).frozen = x.frozen := rfl
@[simp] theorem Tile.modThr_headers (x : Tile) (k : Slot) (f : Thread → Thread) : (x.modThr k f).headers = x.headers := rfl
@[simp] theorem Tile.modThr_gens (x : Tile) (k : Slot) (f : Thread → Thread) : (x.modThr k f).gens = x.gens := rfl
@[simp] theorem Tile.modThr_promises (x : Tile) (k : Slot) (f : Thread → Thread) : (x.modThr k f).promises = x.promises := rfl
@[simp] theorem Tile.modThr_weltQ (x : Tile) (k : Slot) (f : Thread → Thread) : (x.modThr k f).weltQ = x.weltQ := rfl
@[simp] theorem Tile.modThr_weltHeld (x : Tile) (k : Slot) (f : Thread → Thread) : (x.modThr k f).weltHeld = x.weltHeld := rfl
@[simp] theorem Tile.modThr_brks (x : Tile) (k : Slot) (f : Thread → Thread) : (x.modThr k f).brks = x.brks := rfl
@[simp] theorem Tile.modThr_watches (x : Tile) (k : Slot) (f : Thread → Thread) : (x.modThr k f).watches = x.watches := rfl
@[simp] theorem Tile.modThr_pairing (x : Tile) (k : Slot) (f : Thread → Thread) : (x.modThr k f).pairing = x.pairing := rfl
@[simp] theorem Tile.modThr_hidden (x : Tile) (k : Slot) (f : Thread → Thread) : (x.modThr k f).hidden = x.hidden := rfl
@[simp] theorem Tile.modThr_suspect (x : Tile) (k : Slot) (f : Thread → Thread) : (x.modThr k f).suspect = x.suspect := rfl
@[simp] theorem Tile.modThr_treeCount (x : Tile) (k : Slot) (f : Thread → Thread) : (x.modThr k f).treeCount = x.treeCount := rfl
@[simp] theorem Tile.modThr_barCount (x : Tile) (k : Slot) (f : Thread → Thread) : (x.modThr k f).barCount = x.barCount := rfl
@[simp] theorem Tile.modThr_barDone (x : Tile) (k : Slot) (f : Thread → Thread) : (x.modThr k f).barDone = x.barDone := rfl
@[simp] theorem Tile.modThr_nextId (x : Tile) (k : Slot) (f : Thread → Thread) : (x.modThr k f).nextId = x.nextId := rfl

-- Thread

@[simp] theorem Thread.retireTo_s (th : Thread) (pc : Word) : (th.retireTo pc).s = th.s := rfl
@[simp] theorem Thread.retireTo_v (th : Thread) (pc : Word) : (th.retireTo pc).v = th.v := rfl
@[simp] theorem Thread.retireTo_g (th : Thread) (pc : Word) : (th.retireTo pc).g = th.g := rfl
@[simp] theorem Thread.retireTo_fpcsr (th : Thread) (pc : Word) : (th.retireTo pc).fpcsr = th.fpcsr := rfl
@[simp] theorem Thread.retireTo_vstat (th : Thread) (pc : Word) : (th.retireTo pc).vstat = th.vstat := rfl
@[simp] theorem Thread.retireTo_status (th : Thread) (pc : Word) : (th.retireTo pc).status = th.status := rfl
@[simp] theorem Thread.retireTo_epc (th : Thread) (pc : Word) : (th.retireTo pc).epc = th.epc := rfl
@[simp] theorem Thread.retireTo_cause (th : Thread) (pc : Word) : (th.retireTo pc).cause = th.cause := rfl
@[simp] theorem Thread.retireTo_tval (th : Thread) (pc : Word) : (th.retireTo pc).tval = th.tval := rfl
@[simp] theorem Thread.retireTo_tvec (th : Thread) (pc : Word) : (th.retireTo pc).tvec = th.tvec := rfl
@[simp] theorem Thread.retireTo_tmcmp (th : Thread) (pc : Word) : (th.retireTo pc).tmcmp = th.tmcmp := rfl
@[simp] theorem Thread.retireTo_scratch0 (th : Thread) (pc : Word) : (th.retireTo pc).scratch0 = th.scratch0 := rfl
@[simp] theorem Thread.retireTo_scratch1 (th : Thread) (pc : Word) : (th.retireTo pc).scratch1 = th.scratch1 := rfl
@[simp] theorem Thread.retireTo_cntLd (th : Thread) (pc : Word) : (th.retireTo pc).cntLd = th.cntLd := rfl
@[simp] theorem Thread.retireTo_cntSt (th : Thread) (pc : Word) : (th.retireTo pc).cntSt = th.cntSt := rfl
@[simp] theorem Thread.retireTo_cntCp (th : Thread) (pc : Word) : (th.retireTo pc).cntCp = th.cntCp := rfl
@[simp] theorem Thread.retireTo_cntTl (th : Thread) (pc : Word) : (th.retireTo pc).cntTl = th.cntTl := rfl
@[simp] theorem Thread.retireTo_lastN0 (th : Thread) (pc : Word) : (th.retireTo pc).lastN0 = th.lastN0 := rfl
@[simp] theorem Thread.retireTo_shadow (th : Thread) (pc : Word) : (th.retireTo pc).shadow = th.shadow := rfl
@[simp] theorem Thread.retireTo_results (th : Thread) (pc : Word) : (th.retireTo pc).results = th.results := rfl
@[simp] theorem Thread.retireTo_loads (th : Thread) (pc : Word) : (th.retireTo pc).loads = th.loads := rfl
@[simp] theorem Thread.retireTo_faults (th : Thread) (pc : Word) : (th.retireTo pc).faults = th.faults := rfl
@[simp] theorem Thread.retireTo_armed (th : Thread) (pc : Word) : (th.retireTo pc).armed = th.armed := rfl
@[simp] theorem Thread.retireTo_monitors (th : Thread) (pc : Word) : (th.retireTo pc).monitors = th.monitors := rfl
@[simp] theorem Thread.retireTo_sleep (th : Thread) (pc : Word) : (th.retireTo pc).sleep = th.sleep := rfl
@[simp] theorem Thread.retireTo_req (th : Thread) (pc : Word) : (th.retireTo pc).req = th.req := rfl
@[simp] theorem Thread.retireTo_hold (th : Thread) (pc : Word) : (th.retireTo pc).hold = th.hold := rfl
@[simp] theorem Thread.retireTo_barSeq (th : Thread) (pc : Word) : (th.retireTo pc).barSeq = th.barSeq := rfl
@[simp] theorem Thread.retireTo_pending (th : Thread) (pc : Word) : (th.retireTo pc).pending = th.pending := rfl
@[simp] theorem Thread.retireTo_yielded (th : Thread) (pc : Word) : (th.retireTo pc).yielded = th.yielded := rfl
@[simp] theorem Thread.retireTo_pastBrk (th : Thread) (pc : Word) : (th.retireTo pc).pastBrk = th.pastBrk := rfl
@[simp] theorem Thread.retireTo_rouse (th : Thread) (pc : Word) : (th.retireTo pc).rouse = th.rouse := rfl
@[simp] theorem Thread.retireTo_met (th : Thread) (pc : Word) : (th.retireTo pc).met = th.met := rfl
@[simp] theorem Thread.retireTo_binds (th : Thread) (pc : Word) : (th.retireTo pc).binds = th.binds := rfl
@[simp] theorem Thread.retireTo_past (th : Thread) (pc : Word) : (th.retireTo pc).past = th.past := rfl
@[simp] theorem Thread.retireTo_seq (th : Thread) (pc : Word) : (th.retireTo pc).seq = th.seq := rfl

@[simp] theorem Thread.enterTrap_s (th : Thread) (b : Bool) (c : Cause) (tv pc : Word) (n : Nat) : (th.enterTrap b c tv pc n).s = th.s := rfl
@[simp] theorem Thread.enterTrap_v (th : Thread) (b : Bool) (c : Cause) (tv pc : Word) (n : Nat) : (th.enterTrap b c tv pc n).v = th.v := rfl
@[simp] theorem Thread.enterTrap_g (th : Thread) (b : Bool) (c : Cause) (tv pc : Word) (n : Nat) : (th.enterTrap b c tv pc n).g = th.g := rfl
@[simp] theorem Thread.enterTrap_fpcsr (th : Thread) (b : Bool) (c : Cause) (tv pc : Word) (n : Nat) : (th.enterTrap b c tv pc n).fpcsr = th.fpcsr := rfl
@[simp] theorem Thread.enterTrap_vstat (th : Thread) (b : Bool) (c : Cause) (tv pc : Word) (n : Nat) : (th.enterTrap b c tv pc n).vstat = th.vstat := rfl
@[simp] theorem Thread.enterTrap_tvec (th : Thread) (b : Bool) (c : Cause) (tv pc : Word) (n : Nat) : (th.enterTrap b c tv pc n).tvec = th.tvec := rfl
@[simp] theorem Thread.enterTrap_tmcmp (th : Thread) (b : Bool) (c : Cause) (tv pc : Word) (n : Nat) : (th.enterTrap b c tv pc n).tmcmp = th.tmcmp := rfl
@[simp] theorem Thread.enterTrap_scratch0 (th : Thread) (b : Bool) (c : Cause) (tv pc : Word) (n : Nat) : (th.enterTrap b c tv pc n).scratch0 = th.scratch0 := rfl
@[simp] theorem Thread.enterTrap_scratch1 (th : Thread) (b : Bool) (c : Cause) (tv pc : Word) (n : Nat) : (th.enterTrap b c tv pc n).scratch1 = th.scratch1 := rfl
@[simp] theorem Thread.enterTrap_instret (th : Thread) (b : Bool) (c : Cause) (tv pc : Word) (n : Nat) : (th.enterTrap b c tv pc n).instret = th.instret := rfl
@[simp] theorem Thread.enterTrap_cntLd (th : Thread) (b : Bool) (c : Cause) (tv pc : Word) (n : Nat) : (th.enterTrap b c tv pc n).cntLd = th.cntLd := rfl
@[simp] theorem Thread.enterTrap_cntSt (th : Thread) (b : Bool) (c : Cause) (tv pc : Word) (n : Nat) : (th.enterTrap b c tv pc n).cntSt = th.cntSt := rfl
@[simp] theorem Thread.enterTrap_cntCp (th : Thread) (b : Bool) (c : Cause) (tv pc : Word) (n : Nat) : (th.enterTrap b c tv pc n).cntCp = th.cntCp := rfl
@[simp] theorem Thread.enterTrap_cntTl (th : Thread) (b : Bool) (c : Cause) (tv pc : Word) (n : Nat) : (th.enterTrap b c tv pc n).cntTl = th.cntTl := rfl
@[simp] theorem Thread.enterTrap_lastN0 (th : Thread) (b : Bool) (c : Cause) (tv pc : Word) (n : Nat) : (th.enterTrap b c tv pc n).lastN0 = th.lastN0 := rfl
@[simp] theorem Thread.enterTrap_results (th : Thread) (b : Bool) (c : Cause) (tv pc : Word) (n : Nat) : (th.enterTrap b c tv pc n).results = th.results := rfl
@[simp] theorem Thread.enterTrap_loads (th : Thread) (b : Bool) (c : Cause) (tv pc : Word) (n : Nat) : (th.enterTrap b c tv pc n).loads = th.loads := rfl
@[simp] theorem Thread.enterTrap_faults (th : Thread) (b : Bool) (c : Cause) (tv pc : Word) (n : Nat) : (th.enterTrap b c tv pc n).faults = th.faults := rfl
@[simp] theorem Thread.enterTrap_armed (th : Thread) (b : Bool) (c : Cause) (tv pc : Word) (n : Nat) : (th.enterTrap b c tv pc n).armed = th.armed := rfl
@[simp] theorem Thread.enterTrap_monitors (th : Thread) (b : Bool) (c : Cause) (tv pc : Word) (n : Nat) : (th.enterTrap b c tv pc n).monitors = th.monitors := rfl
@[simp] theorem Thread.enterTrap_req (th : Thread) (b : Bool) (c : Cause) (tv pc : Word) (n : Nat) : (th.enterTrap b c tv pc n).req = th.req := rfl
@[simp] theorem Thread.enterTrap_hold (th : Thread) (b : Bool) (c : Cause) (tv pc : Word) (n : Nat) : (th.enterTrap b c tv pc n).hold = th.hold := rfl
@[simp] theorem Thread.enterTrap_barWait (th : Thread) (b : Bool) (c : Cause) (tv pc : Word) (n : Nat) : (th.enterTrap b c tv pc n).barWait = th.barWait := rfl
@[simp] theorem Thread.enterTrap_barSeq (th : Thread) (b : Bool) (c : Cause) (tv pc : Word) (n : Nat) : (th.enterTrap b c tv pc n).barSeq = th.barSeq := rfl
@[simp] theorem Thread.enterTrap_pending (th : Thread) (b : Bool) (c : Cause) (tv pc : Word) (n : Nat) : (th.enterTrap b c tv pc n).pending = th.pending := rfl
@[simp] theorem Thread.enterTrap_yielded (th : Thread) (b : Bool) (c : Cause) (tv pc : Word) (n : Nat) : (th.enterTrap b c tv pc n).yielded = th.yielded := rfl
@[simp] theorem Thread.enterTrap_rouse (th : Thread) (b : Bool) (c : Cause) (tv pc : Word) (n : Nat) : (th.enterTrap b c tv pc n).rouse = th.rouse := rfl
@[simp] theorem Thread.enterTrap_binds (th : Thread) (b : Bool) (c : Cause) (tv pc : Word) (n : Nat) : (th.enterTrap b c tv pc n).binds = th.binds := rfl
@[simp] theorem Thread.enterTrap_past (th : Thread) (b : Bool) (c : Cause) (tv pc : Word) (n : Nat) : (th.enterTrap b c tv pc n).past = th.past := rfl
@[simp] theorem Thread.enterTrap_seq (th : Thread) (b : Bool) (c : Cause) (tv pc : Word) (n : Nat) : (th.enterTrap b c tv pc n).seq = th.seq := rfl

@[simp] theorem Thread.returnTrap_s (th : Thread) : (th.returnTrap).s = th.s := rfl
@[simp] theorem Thread.returnTrap_v (th : Thread) : (th.returnTrap).v = th.v := rfl
@[simp] theorem Thread.returnTrap_g (th : Thread) : (th.returnTrap).g = th.g := rfl
@[simp] theorem Thread.returnTrap_fpcsr (th : Thread) : (th.returnTrap).fpcsr = th.fpcsr := rfl
@[simp] theorem Thread.returnTrap_vstat (th : Thread) : (th.returnTrap).vstat = th.vstat := rfl
@[simp] theorem Thread.returnTrap_epc (th : Thread) : (th.returnTrap).epc = th.epc := rfl
@[simp] theorem Thread.returnTrap_cause (th : Thread) : (th.returnTrap).cause = th.cause := rfl
@[simp] theorem Thread.returnTrap_tval (th : Thread) : (th.returnTrap).tval = th.tval := rfl
@[simp] theorem Thread.returnTrap_tvec (th : Thread) : (th.returnTrap).tvec = th.tvec := rfl
@[simp] theorem Thread.returnTrap_tmcmp (th : Thread) : (th.returnTrap).tmcmp = th.tmcmp := rfl
@[simp] theorem Thread.returnTrap_scratch0 (th : Thread) : (th.returnTrap).scratch0 = th.scratch0 := rfl
@[simp] theorem Thread.returnTrap_scratch1 (th : Thread) : (th.returnTrap).scratch1 = th.scratch1 := rfl
@[simp] theorem Thread.returnTrap_cntLd (th : Thread) : (th.returnTrap).cntLd = th.cntLd := rfl
@[simp] theorem Thread.returnTrap_cntSt (th : Thread) : (th.returnTrap).cntSt = th.cntSt := rfl
@[simp] theorem Thread.returnTrap_cntCp (th : Thread) : (th.returnTrap).cntCp = th.cntCp := rfl
@[simp] theorem Thread.returnTrap_cntTl (th : Thread) : (th.returnTrap).cntTl = th.cntTl := rfl
@[simp] theorem Thread.returnTrap_lastN0 (th : Thread) : (th.returnTrap).lastN0 = th.lastN0 := rfl
@[simp] theorem Thread.returnTrap_results (th : Thread) : (th.returnTrap).results = th.results := rfl
@[simp] theorem Thread.returnTrap_loads (th : Thread) : (th.returnTrap).loads = th.loads := rfl
@[simp] theorem Thread.returnTrap_faults (th : Thread) : (th.returnTrap).faults = th.faults := rfl
@[simp] theorem Thread.returnTrap_armed (th : Thread) : (th.returnTrap).armed = th.armed := rfl
@[simp] theorem Thread.returnTrap_monitors (th : Thread) : (th.returnTrap).monitors = th.monitors := rfl
@[simp] theorem Thread.returnTrap_sleep (th : Thread) : (th.returnTrap).sleep = th.sleep := rfl
@[simp] theorem Thread.returnTrap_req (th : Thread) : (th.returnTrap).req = th.req := rfl
@[simp] theorem Thread.returnTrap_hold (th : Thread) : (th.returnTrap).hold = th.hold := rfl
@[simp] theorem Thread.returnTrap_barWait (th : Thread) : (th.returnTrap).barWait = th.barWait := rfl
@[simp] theorem Thread.returnTrap_barSeq (th : Thread) : (th.returnTrap).barSeq = th.barSeq := rfl
@[simp] theorem Thread.returnTrap_pending (th : Thread) : (th.returnTrap).pending = th.pending := rfl
@[simp] theorem Thread.returnTrap_yielded (th : Thread) : (th.returnTrap).yielded = th.yielded := rfl
@[simp] theorem Thread.returnTrap_rouse (th : Thread) : (th.returnTrap).rouse = th.rouse := rfl
@[simp] theorem Thread.returnTrap_met (th : Thread) : (th.returnTrap).met = th.met := rfl
@[simp] theorem Thread.returnTrap_binds (th : Thread) : (th.returnTrap).binds = th.binds := rfl
@[simp] theorem Thread.returnTrap_past (th : Thread) : (th.returnTrap).past = th.past := rfl
@[simp] theorem Thread.returnTrap_seq (th : Thread) : (th.returnTrap).seq = th.seq := rfl

@[simp] theorem Thread.flagF_run (th : Thread) (x : FFlags) : (th.flagF x).run = th.run := rfl
@[simp] theorem Thread.flagF_pc (th : Thread) (x : FFlags) : (th.flagF x).pc = th.pc := rfl
@[simp] theorem Thread.flagF_s (th : Thread) (x : FFlags) : (th.flagF x).s = th.s := rfl
@[simp] theorem Thread.flagF_v (th : Thread) (x : FFlags) : (th.flagF x).v = th.v := rfl
@[simp] theorem Thread.flagF_g (th : Thread) (x : FFlags) : (th.flagF x).g = th.g := rfl
@[simp] theorem Thread.flagF_vstat (th : Thread) (x : FFlags) : (th.flagF x).vstat = th.vstat := rfl
@[simp] theorem Thread.flagF_status (th : Thread) (x : FFlags) : (th.flagF x).status = th.status := rfl
@[simp] theorem Thread.flagF_epc (th : Thread) (x : FFlags) : (th.flagF x).epc = th.epc := rfl
@[simp] theorem Thread.flagF_cause (th : Thread) (x : FFlags) : (th.flagF x).cause = th.cause := rfl
@[simp] theorem Thread.flagF_tval (th : Thread) (x : FFlags) : (th.flagF x).tval = th.tval := rfl
@[simp] theorem Thread.flagF_tvec (th : Thread) (x : FFlags) : (th.flagF x).tvec = th.tvec := rfl
@[simp] theorem Thread.flagF_tmcmp (th : Thread) (x : FFlags) : (th.flagF x).tmcmp = th.tmcmp := rfl
@[simp] theorem Thread.flagF_scratch0 (th : Thread) (x : FFlags) : (th.flagF x).scratch0 = th.scratch0 := rfl
@[simp] theorem Thread.flagF_scratch1 (th : Thread) (x : FFlags) : (th.flagF x).scratch1 = th.scratch1 := rfl
@[simp] theorem Thread.flagF_instret (th : Thread) (x : FFlags) : (th.flagF x).instret = th.instret := rfl
@[simp] theorem Thread.flagF_cntLd (th : Thread) (x : FFlags) : (th.flagF x).cntLd = th.cntLd := rfl
@[simp] theorem Thread.flagF_cntSt (th : Thread) (x : FFlags) : (th.flagF x).cntSt = th.cntSt := rfl
@[simp] theorem Thread.flagF_cntCp (th : Thread) (x : FFlags) : (th.flagF x).cntCp = th.cntCp := rfl
@[simp] theorem Thread.flagF_cntTl (th : Thread) (x : FFlags) : (th.flagF x).cntTl = th.cntTl := rfl
@[simp] theorem Thread.flagF_lastN0 (th : Thread) (x : FFlags) : (th.flagF x).lastN0 = th.lastN0 := rfl
@[simp] theorem Thread.flagF_shadow (th : Thread) (x : FFlags) : (th.flagF x).shadow = th.shadow := rfl
@[simp] theorem Thread.flagF_fetched (th : Thread) (x : FFlags) : (th.flagF x).fetched = th.fetched := rfl
@[simp] theorem Thread.flagF_results (th : Thread) (x : FFlags) : (th.flagF x).results = th.results := rfl
@[simp] theorem Thread.flagF_loads (th : Thread) (x : FFlags) : (th.flagF x).loads = th.loads := rfl
@[simp] theorem Thread.flagF_faults (th : Thread) (x : FFlags) : (th.flagF x).faults = th.faults := rfl
@[simp] theorem Thread.flagF_armed (th : Thread) (x : FFlags) : (th.flagF x).armed = th.armed := rfl
@[simp] theorem Thread.flagF_monitors (th : Thread) (x : FFlags) : (th.flagF x).monitors = th.monitors := rfl
@[simp] theorem Thread.flagF_sleep (th : Thread) (x : FFlags) : (th.flagF x).sleep = th.sleep := rfl
@[simp] theorem Thread.flagF_req (th : Thread) (x : FFlags) : (th.flagF x).req = th.req := rfl
@[simp] theorem Thread.flagF_hold (th : Thread) (x : FFlags) : (th.flagF x).hold = th.hold := rfl
@[simp] theorem Thread.flagF_barWait (th : Thread) (x : FFlags) : (th.flagF x).barWait = th.barWait := rfl
@[simp] theorem Thread.flagF_barSeq (th : Thread) (x : FFlags) : (th.flagF x).barSeq = th.barSeq := rfl
@[simp] theorem Thread.flagF_pending (th : Thread) (x : FFlags) : (th.flagF x).pending = th.pending := rfl
@[simp] theorem Thread.flagF_yielded (th : Thread) (x : FFlags) : (th.flagF x).yielded = th.yielded := rfl
@[simp] theorem Thread.flagF_pastBrk (th : Thread) (x : FFlags) : (th.flagF x).pastBrk = th.pastBrk := rfl
@[simp] theorem Thread.flagF_rouse (th : Thread) (x : FFlags) : (th.flagF x).rouse = th.rouse := rfl
@[simp] theorem Thread.flagF_met (th : Thread) (x : FFlags) : (th.flagF x).met = th.met := rfl
@[simp] theorem Thread.flagF_binds (th : Thread) (x : FFlags) : (th.flagF x).binds = th.binds := rfl
@[simp] theorem Thread.flagF_past (th : Thread) (x : FFlags) : (th.flagF x).past = th.past := rfl
@[simp] theorem Thread.flagF_seq (th : Thread) (x : FFlags) : (th.flagF x).seq = th.seq := rfl

@[simp] theorem Thread.flagV_run (th : Thread) (x : VFlags) : (th.flagV x).run = th.run := rfl
@[simp] theorem Thread.flagV_pc (th : Thread) (x : VFlags) : (th.flagV x).pc = th.pc := rfl
@[simp] theorem Thread.flagV_s (th : Thread) (x : VFlags) : (th.flagV x).s = th.s := rfl
@[simp] theorem Thread.flagV_v (th : Thread) (x : VFlags) : (th.flagV x).v = th.v := rfl
@[simp] theorem Thread.flagV_g (th : Thread) (x : VFlags) : (th.flagV x).g = th.g := rfl
@[simp] theorem Thread.flagV_fpcsr (th : Thread) (x : VFlags) : (th.flagV x).fpcsr = th.fpcsr := rfl
@[simp] theorem Thread.flagV_status (th : Thread) (x : VFlags) : (th.flagV x).status = th.status := rfl
@[simp] theorem Thread.flagV_epc (th : Thread) (x : VFlags) : (th.flagV x).epc = th.epc := rfl
@[simp] theorem Thread.flagV_cause (th : Thread) (x : VFlags) : (th.flagV x).cause = th.cause := rfl
@[simp] theorem Thread.flagV_tval (th : Thread) (x : VFlags) : (th.flagV x).tval = th.tval := rfl
@[simp] theorem Thread.flagV_tvec (th : Thread) (x : VFlags) : (th.flagV x).tvec = th.tvec := rfl
@[simp] theorem Thread.flagV_tmcmp (th : Thread) (x : VFlags) : (th.flagV x).tmcmp = th.tmcmp := rfl
@[simp] theorem Thread.flagV_scratch0 (th : Thread) (x : VFlags) : (th.flagV x).scratch0 = th.scratch0 := rfl
@[simp] theorem Thread.flagV_scratch1 (th : Thread) (x : VFlags) : (th.flagV x).scratch1 = th.scratch1 := rfl
@[simp] theorem Thread.flagV_instret (th : Thread) (x : VFlags) : (th.flagV x).instret = th.instret := rfl
@[simp] theorem Thread.flagV_cntLd (th : Thread) (x : VFlags) : (th.flagV x).cntLd = th.cntLd := rfl
@[simp] theorem Thread.flagV_cntSt (th : Thread) (x : VFlags) : (th.flagV x).cntSt = th.cntSt := rfl
@[simp] theorem Thread.flagV_cntCp (th : Thread) (x : VFlags) : (th.flagV x).cntCp = th.cntCp := rfl
@[simp] theorem Thread.flagV_cntTl (th : Thread) (x : VFlags) : (th.flagV x).cntTl = th.cntTl := rfl
@[simp] theorem Thread.flagV_lastN0 (th : Thread) (x : VFlags) : (th.flagV x).lastN0 = th.lastN0 := rfl
@[simp] theorem Thread.flagV_shadow (th : Thread) (x : VFlags) : (th.flagV x).shadow = th.shadow := rfl
@[simp] theorem Thread.flagV_fetched (th : Thread) (x : VFlags) : (th.flagV x).fetched = th.fetched := rfl
@[simp] theorem Thread.flagV_results (th : Thread) (x : VFlags) : (th.flagV x).results = th.results := rfl
@[simp] theorem Thread.flagV_loads (th : Thread) (x : VFlags) : (th.flagV x).loads = th.loads := rfl
@[simp] theorem Thread.flagV_faults (th : Thread) (x : VFlags) : (th.flagV x).faults = th.faults := rfl
@[simp] theorem Thread.flagV_armed (th : Thread) (x : VFlags) : (th.flagV x).armed = th.armed := rfl
@[simp] theorem Thread.flagV_monitors (th : Thread) (x : VFlags) : (th.flagV x).monitors = th.monitors := rfl
@[simp] theorem Thread.flagV_sleep (th : Thread) (x : VFlags) : (th.flagV x).sleep = th.sleep := rfl
@[simp] theorem Thread.flagV_req (th : Thread) (x : VFlags) : (th.flagV x).req = th.req := rfl
@[simp] theorem Thread.flagV_hold (th : Thread) (x : VFlags) : (th.flagV x).hold = th.hold := rfl
@[simp] theorem Thread.flagV_barWait (th : Thread) (x : VFlags) : (th.flagV x).barWait = th.barWait := rfl
@[simp] theorem Thread.flagV_barSeq (th : Thread) (x : VFlags) : (th.flagV x).barSeq = th.barSeq := rfl
@[simp] theorem Thread.flagV_pending (th : Thread) (x : VFlags) : (th.flagV x).pending = th.pending := rfl
@[simp] theorem Thread.flagV_yielded (th : Thread) (x : VFlags) : (th.flagV x).yielded = th.yielded := rfl
@[simp] theorem Thread.flagV_pastBrk (th : Thread) (x : VFlags) : (th.flagV x).pastBrk = th.pastBrk := rfl
@[simp] theorem Thread.flagV_rouse (th : Thread) (x : VFlags) : (th.flagV x).rouse = th.rouse := rfl
@[simp] theorem Thread.flagV_met (th : Thread) (x : VFlags) : (th.flagV x).met = th.met := rfl
@[simp] theorem Thread.flagV_binds (th : Thread) (x : VFlags) : (th.flagV x).binds = th.binds := rfl
@[simp] theorem Thread.flagV_past (th : Thread) (x : VFlags) : (th.flagV x).past = th.past := rfl
@[simp] theorem Thread.flagV_seq (th : Thread) (x : VFlags) : (th.flagV x).seq = th.seq := rfl

@[simp] theorem Thread.setV_run (th : Thread) (r : Reg) (x : Vec) : (th.setV r x).run = th.run := rfl
@[simp] theorem Thread.setV_pc (th : Thread) (r : Reg) (x : Vec) : (th.setV r x).pc = th.pc := rfl
@[simp] theorem Thread.setV_s (th : Thread) (r : Reg) (x : Vec) : (th.setV r x).s = th.s := rfl
@[simp] theorem Thread.setV_g (th : Thread) (r : Reg) (x : Vec) : (th.setV r x).g = th.g := rfl
@[simp] theorem Thread.setV_fpcsr (th : Thread) (r : Reg) (x : Vec) : (th.setV r x).fpcsr = th.fpcsr := rfl
@[simp] theorem Thread.setV_vstat (th : Thread) (r : Reg) (x : Vec) : (th.setV r x).vstat = th.vstat := rfl
@[simp] theorem Thread.setV_status (th : Thread) (r : Reg) (x : Vec) : (th.setV r x).status = th.status := rfl
@[simp] theorem Thread.setV_epc (th : Thread) (r : Reg) (x : Vec) : (th.setV r x).epc = th.epc := rfl
@[simp] theorem Thread.setV_cause (th : Thread) (r : Reg) (x : Vec) : (th.setV r x).cause = th.cause := rfl
@[simp] theorem Thread.setV_tval (th : Thread) (r : Reg) (x : Vec) : (th.setV r x).tval = th.tval := rfl
@[simp] theorem Thread.setV_tvec (th : Thread) (r : Reg) (x : Vec) : (th.setV r x).tvec = th.tvec := rfl
@[simp] theorem Thread.setV_tmcmp (th : Thread) (r : Reg) (x : Vec) : (th.setV r x).tmcmp = th.tmcmp := rfl
@[simp] theorem Thread.setV_scratch0 (th : Thread) (r : Reg) (x : Vec) : (th.setV r x).scratch0 = th.scratch0 := rfl
@[simp] theorem Thread.setV_scratch1 (th : Thread) (r : Reg) (x : Vec) : (th.setV r x).scratch1 = th.scratch1 := rfl
@[simp] theorem Thread.setV_instret (th : Thread) (r : Reg) (x : Vec) : (th.setV r x).instret = th.instret := rfl
@[simp] theorem Thread.setV_cntLd (th : Thread) (r : Reg) (x : Vec) : (th.setV r x).cntLd = th.cntLd := rfl
@[simp] theorem Thread.setV_cntSt (th : Thread) (r : Reg) (x : Vec) : (th.setV r x).cntSt = th.cntSt := rfl
@[simp] theorem Thread.setV_cntCp (th : Thread) (r : Reg) (x : Vec) : (th.setV r x).cntCp = th.cntCp := rfl
@[simp] theorem Thread.setV_cntTl (th : Thread) (r : Reg) (x : Vec) : (th.setV r x).cntTl = th.cntTl := rfl
@[simp] theorem Thread.setV_lastN0 (th : Thread) (r : Reg) (x : Vec) : (th.setV r x).lastN0 = th.lastN0 := rfl
@[simp] theorem Thread.setV_shadow (th : Thread) (r : Reg) (x : Vec) : (th.setV r x).shadow = th.shadow := rfl
@[simp] theorem Thread.setV_fetched (th : Thread) (r : Reg) (x : Vec) : (th.setV r x).fetched = th.fetched := rfl
@[simp] theorem Thread.setV_results (th : Thread) (r : Reg) (x : Vec) : (th.setV r x).results = th.results := rfl
@[simp] theorem Thread.setV_loads (th : Thread) (r : Reg) (x : Vec) : (th.setV r x).loads = th.loads := rfl
@[simp] theorem Thread.setV_faults (th : Thread) (r : Reg) (x : Vec) : (th.setV r x).faults = th.faults := rfl
@[simp] theorem Thread.setV_armed (th : Thread) (r : Reg) (x : Vec) : (th.setV r x).armed = th.armed := rfl
@[simp] theorem Thread.setV_monitors (th : Thread) (r : Reg) (x : Vec) : (th.setV r x).monitors = th.monitors := rfl
@[simp] theorem Thread.setV_sleep (th : Thread) (r : Reg) (x : Vec) : (th.setV r x).sleep = th.sleep := rfl
@[simp] theorem Thread.setV_req (th : Thread) (r : Reg) (x : Vec) : (th.setV r x).req = th.req := rfl
@[simp] theorem Thread.setV_hold (th : Thread) (r : Reg) (x : Vec) : (th.setV r x).hold = th.hold := rfl
@[simp] theorem Thread.setV_barWait (th : Thread) (r : Reg) (x : Vec) : (th.setV r x).barWait = th.barWait := rfl
@[simp] theorem Thread.setV_barSeq (th : Thread) (r : Reg) (x : Vec) : (th.setV r x).barSeq = th.barSeq := rfl
@[simp] theorem Thread.setV_pending (th : Thread) (r : Reg) (x : Vec) : (th.setV r x).pending = th.pending := rfl
@[simp] theorem Thread.setV_yielded (th : Thread) (r : Reg) (x : Vec) : (th.setV r x).yielded = th.yielded := rfl
@[simp] theorem Thread.setV_pastBrk (th : Thread) (r : Reg) (x : Vec) : (th.setV r x).pastBrk = th.pastBrk := rfl
@[simp] theorem Thread.setV_rouse (th : Thread) (r : Reg) (x : Vec) : (th.setV r x).rouse = th.rouse := rfl
@[simp] theorem Thread.setV_met (th : Thread) (r : Reg) (x : Vec) : (th.setV r x).met = th.met := rfl
@[simp] theorem Thread.setV_binds (th : Thread) (r : Reg) (x : Vec) : (th.setV r x).binds = th.binds := rfl
@[simp] theorem Thread.setV_past (th : Thread) (r : Reg) (x : Vec) : (th.setV r x).past = th.past := rfl
@[simp] theorem Thread.setV_seq (th : Thread) (r : Reg) (x : Vec) : (th.setV r x).seq = th.seq := rfl

end Sys2Proof.Machine
end

