-- ==== Sys2Proof/Laws/Ops.lean ====
section
/-! SUPPORT. What the shared operations read back, and everything that each of them can answer. -/

namespace Sys2Proof.Machine

-- Association lists

@[simp] theorem assocGet_set_same {α : Type} (d : α) (l : List (Nat × α)) (a : Nat) (x : α) : assocGet d (assocSet l a x) a = x := by
  induction l with
  | nil => simp [assocSet, assocGet]
  | cons p l ih =>
    obtain ⟨k, v⟩ := p
    simp only [assocSet]
    split
    · simp [assocGet]
    · split
      · rename_i h; simp [assocGet, h]
      · rename_i h; simp [assocGet, h, ih]

theorem assocGet_set_ne {α : Type} (d : α) (l : List (Nat × α)) (a b : Nat) (x : α) (h : b ≠ a) :
    assocGet d (assocSet l a x) b = assocGet d l b := by
  induction l with
  | nil => simp [assocSet, assocGet, Ne.symm h]
  | cons p l ih =>
    obtain ⟨k, v⟩ := p
    simp only [assocSet]
    split
    · simp [assocGet, Ne.symm h]
    · split
      · rename_i hk; subst hk; simp [assocGet, Ne.symm h]
      · simp [assocGet, ih]

theorem assocSet_set {α : Type} (l : List (Nat × α)) (a : Nat) (x y : α) : assocSet (assocSet l a x) a y = assocSet l a y := by
  induction l with
  | nil => simp [assocSet]
  | cons p l ih =>
    obtain ⟨k, v⟩ := p
    by_cases h : a < k
    · simp [assocSet, h]
    · by_cases h2 : k = a
      · simp [assocSet, h2]
      · simp [assocSet, h, h2, ih]

-- Tiles and threads

@[simp] theorem tileAt_putTile (s : State) (t : TileId) (x : Tile) : (s.putTile t x).tileAt t = x := by
  simp [State.putTile, State.tileAt]
theorem tileAt_putTile_ne (s : State) (t u : TileId) (x : Tile) (h : u ≠ t) : (s.putTile t x).tileAt u = s.tileAt u :=
  assocGet_set_ne _ _ _ _ _ h
@[simp] theorem putTile_putTile (s : State) (t : TileId) (x y : Tile) : (s.putTile t x).putTile t y = s.putTile t y := by
  simp [State.putTile, assocSet_set]

@[simp] theorem tileAt_modTile (s : State) (t : TileId) (f : Tile → Tile) : (s.modTile t f).tileAt t = f (s.tileAt t) :=
  tileAt_putTile _ _ _
theorem tileAt_modTile_ne (s : State) (t u : TileId) (f : Tile → Tile) (h : u ≠ t) : (s.modTile t f).tileAt u = s.tileAt u :=
  tileAt_putTile_ne _ _ _ _ h
@[simp] theorem modTile_modTile (s : State) (t : TileId) (f g : Tile → Tile) :
    (s.modTile t f).modTile t g = s.modTile t fun x => g (f x) := by
  simp [State.modTile]

@[simp] theorem putThr_slot (x : Tile) (k : Slot) (th : Thread) : (x.putThr k th).slots[k] = th := by simp [Tile.putThr]
theorem putThr_slot_ne (x : Tile) (k j : Slot) (th : Thread) (h : j ≠ k) : (x.putThr k th).slots[j] = x.slots[j] := by
  simp only [Tile.putThr, Fin.getElem_fin]
  exact Vector.getElem_set_ne _ _ fun e => h (Fin.ext e.symm)
@[simp] theorem putThr_putThr (x : Tile) (k : Slot) (a b : Thread) : (x.putThr k a).putThr k b = x.putThr k b := by
  simp [Tile.putThr]

@[simp] theorem tileAt_modThrAt (s : State) (t : TileId) (k : Slot) (f : Thread → Thread) :
    (s.modThrAt t k f).tileAt t = (s.tileAt t).putThr k (f (s.thrAt t k)) := by
  simp [State.modThrAt, State.putThrAt]
theorem tileAt_modThrAt_ne (s : State) (t u : TileId) (k : Slot) (f : Thread → Thread) (h : u ≠ t) :
    (s.modThrAt t k f).tileAt u = s.tileAt u := tileAt_modTile_ne _ _ _ _ h
@[simp] theorem thrAt_modThrAt (s : State) (t : TileId) (k : Slot) (f : Thread → Thread) :
    (s.modThrAt t k f).thrAt t k = f (s.thrAt t k) := by
  simp only [State.thrAt, tileAt_modThrAt, putThr_slot]
theorem thrAt_modThrAt_slot (s : State) (t : TileId) (k j : Slot) (f : Thread → Thread) (h : j ≠ k) :
    (s.modThrAt t k f).thrAt t j = s.thrAt t j := by
  simp only [State.thrAt, tileAt_modThrAt]; exact putThr_slot_ne _ _ _ _ h
theorem thrAt_modThrAt_tile (s : State) (t u : TileId) (k j : Slot) (f : Thread → Thread) (h : u ≠ t) :
    (s.modThrAt t k f).thrAt u j = s.thrAt u j := by
  simp only [State.thrAt, tileAt_modThrAt_ne _ _ _ _ _ h]
@[simp] theorem modThrAt_modThrAt (s : State) (t : TileId) (k : Slot) (f g : Thread → Thread) :
    (s.modThrAt t k f).modThrAt t k g = s.modThrAt t k fun th => g (f th) := by
  simp only [State.modThrAt, State.putThrAt, State.thrAt, tileAt_modTile, putThr_slot, modTile_modTile, putThr_putThr]

@[simp] theorem thr_modThr (s : State) (f : Thread → Thread) : (s.modThr f).thr = f s.thr := thrAt_modThrAt _ _ _ _
@[simp] theorem modThr_modThr (s : State) (f g : Thread → Thread) : (s.modThr f).modThr g = s.modThr fun th => g (f th) :=
  modThrAt_modThrAt _ _ _ _ _
@[simp] theorem tile_modThr (s : State) (f : Thread → Thread) : (s.modThr f).tile = s.tile.putThr s.curSlot (f s.thr) :=
  tileAt_modThrAt _ _ _ _
@[simp] theorem tile_modCur (s : State) (f : Tile → Tile) : (s.modCur f).tile = f s.tile := tileAt_modTile _ _ _
@[simp] theorem thr_modCur (s : State) (f : Tile → Tile) : (s.modCur f).thr = (f s.tile).slots[s.curSlot] := by
  simp only [State.thr, State.thrAt, State.modCur_curTile, State.modCur_curSlot]
  exact congrArg (fun x : Tile => x.slots[s.curSlot]) (tile_modCur s f)

@[simp] theorem tileAt_retireAt (s : State) (t : TileId) (k : Slot) (pc : Word) (ns : List Word) :
    (s.retireAt t k pc ns).tileAt t =
      ((s.tileAt t).putThr k ((s.thrAt t k).retireTo pc)).foldPair k (s.thrAt t k).pc ns := tileAt_modTile _ _ _
theorem tileAt_retireAt_ne (s : State) (t u : TileId) (k : Slot) (pc : Word) (ns : List Word) (h : u ≠ t) :
    (s.retireAt t k pc ns).tileAt u = s.tileAt u := tileAt_modTile_ne _ _ _ _ h
@[simp] theorem foldPair_slots (x : Tile) (k : Slot) (pc : Word) (ns : List Word) : (x.foldPair k pc ns).slots = x.slots := by
  unfold Tile.foldPair; split <;> rfl
@[simp] theorem thrAt_retireAt (s : State) (t : TileId) (k : Slot) (pc : Word) (ns : List Word) :
    (s.retireAt t k pc ns).thrAt t k = (s.thrAt t k).retireTo pc := by
  simp only [State.thrAt, tileAt_retireAt, foldPair_slots, putThr_slot]
theorem thrAt_retireAt_slot (s : State) (t : TileId) (k j : Slot) (pc : Word) (ns : List Word) (h : j ≠ k) :
    (s.retireAt t k pc ns).thrAt t j = s.thrAt t j := by
  simp only [State.thrAt, tileAt_retireAt, foldPair_slots]; exact putThr_slot_ne _ _ _ _ h

-- Registers

@[simp] theorem getS_setS (th : Thread) (r : Reg) (x : Word) (h : r ≠ 0) : (th.setS r x).getS r = ⟨x, true, false, false⟩ := by
  simp [Thread.setS, Thread.getS, h]
theorem getS_setS_ne (th : Thread) (r q : Reg) (x : Word) (h : q ≠ r) : (th.setS r x).getS q = th.getS q := by
  unfold Thread.setS
  split
  · rfl
  · simp only [Thread.getS, Fin.getElem_fin]; exact Vector.getElem_set_ne _ _ fun e => h (Fin.ext e.symm)
@[simp] theorem setS_zero (th : Thread) (x : Word) : th.setS 0 x = th := by simp [Thread.setS]
@[simp] theorem setS_pc (th : Thread) (r : Reg) (x : Word) : (th.setS r x).pc = th.pc := by unfold Thread.setS; split <;> rfl
@[simp] theorem getV_setV (th : Thread) (r : Reg) (x : Vec) : (th.setV r x).getV r = ⟨x, true, false, false⟩ := by
  simp [Thread.setV, Thread.getV]
theorem getV_setV_ne (th : Thread) (r q : Reg) (x : Vec) (h : q ≠ r) : (th.setV r x).getV q = th.getV q := by
  simp only [Thread.setV, Thread.getV, Fin.getElem_fin]; exact Vector.getElem_set_ne _ _ fun e => h (Fin.ext e.symm)
@[simp] theorem pendS_zero (th : Thread) : th.pendS 0 = th := by simp [Thread.pendS]
@[simp] theorem pendS_pc (th : Thread) (r : Reg) : (th.pendS r).pc = th.pc := by unfold Thread.pendS; split <;> rfl
@[simp] theorem setG_zero (th : Thread) (x : Guard) : th.setG 0 x = th := by simp [Thread.setG]
@[simp] theorem setG_pc (th : Thread) (r : GReg) (x : Guard) : (th.setG r x).pc = th.pc := by unfold Thread.setG; split <;> rfl
@[simp] theorem pc_putS (s : State) (r : Reg) (x : Word) : (s.putS r x).thr.pc = s.thr.pc := by simp [State.putS]
@[simp] theorem pc_putLater (s : State) (ws : List RegWrite) (n : Nat) : (s.putLater ws n).thr.pc = s.thr.pc := by
  have h : ∀ (ws : List RegWrite) (th : Thread), (ws.foldl (fun t w => t.pendReg w.name) th).pc = th.pc := by
    intro ws
    induction ws with
    | nil => intro th; rfl
    | cons w ws ih => intro th; rw [List.foldl_cons, ih]; cases w <;> simp [Thread.pendReg, RegWrite.name, Thread.pendV]
  simp [State.putLater, Thread.later, h]

-- Examination of operands: what each answers where the operand can be read or written

theorem exS_holds {s : State} {r : Reg} {x : Word} (h : s.thr.holds r x) (k : Word → Out) : exS s r k = k x := by
  unfold exS
  by_cases hr : r = 0
  · simp_all [Thread.holds]
  · have h' : s.thr.getS r = ⟨x, true, false, false⟩ := by simpa [Thread.holds, hr] using h
    simp [hr, h']

theorem dstS_free {s : State} {d : Reg} (h : s.thr.free d) (k : Out) : dstS s d k = k := by
  unfold dstS; rcases h with h | h <;> simp [h]

theorem exS2_holds {s : State} {a b : Reg} {x y : Word} (ha : s.thr.holds a x) (hb : s.thr.holds b y) (k : Word → Word → Out) :
    exS2 s a b k = k x y := by simp only [exS2, exS_holds ha, exS_holds hb]
theorem exS3_holds {s : State} {a b c : Reg} {x y z : Word} (ha : s.thr.holds a x) (hb : s.thr.holds b y) (hc : s.thr.holds c z)
    (k : Word → Word → Word → Out) : exS3 s a b c k = k x y z := by simp only [exS3, exS_holds ha, exS_holds hb, exS_holds hc]

theorem retireS_free {s : State} {d : Reg} (h : s.thr.free d) (x : Word) : retireS s d x = .next (s.wrote d x) := by
  simp only [retireS, dstS_free h, retire, retireTo, pc_putS, State.wrote, State.putS_curTile, State.putS_curSlot]
theorem retireLater_free {s : State} {d : Reg} (h : s.thr.free d) (x : Word) (n : Nat) :
    retireLater s d x n = .next (s.awaits d x n) := by
  simp only [retireLater, dstS_free h, State.awaits]
  split
  · rfl
  · simp only [retire, retireTo, pc_putLater]; rfl

theorem exV_reads {s : State} {r : Reg} {x : Vec} (h : s.reads r x) (k : Vec → Out) : exV s r k = k x := by
  unfold State.reads at h
  unfold exV
  cases hk : (s.thr.bindOf r).kind <;> simp only [hk] at h ⊢
  · simp [h]
  · obtain ⟨hp, e, rest, hb, he, hx⟩ := h
    simp [BindKind.writes, Bind.exhausted, BindKind.isMem, hk, Nat.not_le.mpr hp, hb, he, hx]
  · generalize s.tile.chanHead _ = y at h ⊢; subst h; simp [BindKind.writes, Bind.exhausted, BindKind.isMem, hk]

theorem dstV_takes {s : State} {d : Reg} (h : s.takes d) (k : Out) : dstV s d k = k := by
  unfold State.takes at h
  unfold dstV
  cases hk : (s.thr.bindOf d).kind <;> simp only [hk] at h ⊢
  · simp [h]
  · obtain ⟨hp, hb⟩ := h
    simp [BindKind.reads, Bind.exhausted, BindKind.isMem, hk, Nat.not_le.mpr hp, Nat.not_le.mpr hb]
  · simp [BindKind.reads, Bind.exhausted, BindKind.isMem, hk, Nat.not_le.mpr h]

theorem oldV_olds {s : State} {d : Reg} {g : Bool} {x : Vec} (h : s.olds d g x) (k : Vec → Out) : oldV s d g k = k x := by
  unfold State.olds at h
  unfold oldV
  split
  · simp_all
  · simp only [*, if_false] at h
    split
    · rename_i hg; exact exV_reads (by simpa [hg] using h) k
    · simp_all

-- Everything that an examination can answer

theorem leads_next {s : State} {P : State → Prop} (h : P s) : Leads (.next s) P := by intro t e; cases e; exact h
theorem leads_refused {P : State → Prop} (r : Refusal) : Leads (.refused r) P := by intro t e; cases e
theorem leads_fault {P : State → Prop} (r : Fault) : Leads (.fault r) P := by intro t e; cases e
theorem leads_noEvent {P : State → Prop} (m : String) : Leads (noEvent m) P := leads_refused _

theorem leads_exS {s : State} {r : Reg} {k : Word → Out} {P : State → Prop} (hp : ∀ p, P (s.parked p)) (ht : ∀ c v, P (s.trapped c v))
    (hk : ∀ x, Leads (k x) P) : Leads (exS s r k) P := by
  unfold exS
  split
  · exact hk 0
  · dsimp only
    repeat' split
    · exact leads_next (hp _)
    · exact leads_next (hp _)
    · exact leads_next (ht _ _)
    · exact hk _

theorem leads_dstS {s : State} {d : Reg} {k : Out} {P : State → Prop} (hp : ∀ p, P (s.parked p)) (hk : Leads k P) :
    Leads (dstS s d k) P := by
  unfold dstS
  split
  · exact leads_next (hp _)
  · exact hk

theorem leads_exV {s : State} {r : Reg} {k : Vec → Out} {P : State → Prop} (hp : ∀ p, P (s.parked p)) (ht : ∀ c v, P (s.trapped c v))
    (hk : ∀ x, Leads (k x) P) : Leads (exV s r k) P := by
  unfold exV
  dsimp only
  repeat' split
  all_goals first | exact leads_next (hp _) | exact leads_next (ht _ _) | exact hk _

theorem leads_dstV {s : State} {d : Reg} {k : Out} {P : State → Prop} (hp : ∀ p, P (s.parked p)) (ht : ∀ c v, P (s.trapped c v))
    (hk : Leads k P) : Leads (dstV s d k) P := by
  unfold dstV
  dsimp only
  repeat' split
  all_goals first | exact leads_next (hp _) | exact leads_next (ht _ _) | exact hk

theorem leads_oldV {s : State} {d : Reg} {g : Bool} {k : Vec → Out} {P : State → Prop} (hp : ∀ p, P (s.parked p))
    (ht : ∀ c v, P (s.trapped c v)) (hk : ∀ x, Leads (k x) P) : Leads (oldV s d g k) P := by
  unfold oldV
  repeat' split
  · exact hk _
  · exact leads_exV hp ht hk
  · exact hk _

theorem leads_checkAddr {s : State} {a : Word} {n : Nat} {l w : Bool} {k : Out} {P : State → Prop} (ht : ∀ c v, P (s.trapped c v))
    (hk : Leads k P) : Leads (checkAddr s a n l w k) P := by
  unfold checkAddr
  repeat' split
  all_goals first | exact leads_next (ht _ _) | exact hk

theorem leads_checkFret {s : State} {a : Word} {n : Nat} {w : Bool} {k : Out} {P : State → Prop} (hp : ∀ p, P (s.parked p))
    (hk : Leads k P) : Leads (checkFret s a n w k) P := by
  unfold checkFret
  dsimp only
  split
  · exact leads_next (hp _)
  · exact hk

theorem leads_needCnt {s : State} {n : Cnt} {k : Out} {P : State → Prop} (hp : ∀ p, P (s.parked p)) (hk : Leads k P) :
    Leads (needCnt s n k) P := by
  unfold needCnt
  split
  · exact leads_next (hp _)
  · exact hk

theorem leads_needSv {s : State} {i : Instr} {k : Out} {P : State → Prop} (ht : ∀ c v, P (s.trapped c v)) (hk : Leads k P) :
    Leads (needSv s i k) P := by
  unfold needSv
  split
  · exact hk
  · exact leads_next (ht _ _)

end Sys2Proof.Machine
end

