-- ==== Sys2Proof/Laws/Operands.lean ====
section
/-! SUPPORT. What the operand forms leave alone: popping sources and appending elements change the bindings of the executing thread and the
channels, sent items and sequence numbers of its tile, and nothing else. -/

namespace Sys2Proof.Machine

theorem OnlyBinds.thr {s t : State} (h : OnlyBinds s t) : ∃ bs, t.thr = s.thr.withBinds bs := by
  obtain ⟨x, rfl, hb, _⟩ := h
  simpa [State.thr, State.thrAt] using hb

theorem OnlyBinds.trans {s t u : State} (h : OnlyBinds s t) (g : OnlyBinds t u) : OnlyBinds s u := by
  obtain ⟨bs, hb⟩ := h.thr
  obtain ⟨x, rfl, _, hk⟩ := h
  obtain ⟨y, rfl, ⟨cs, hy⟩, hj⟩ := g
  refine ⟨y, by simp, ⟨cs, ?_⟩, fun k hne => ?_⟩
  · rw [hb] at hy; exact hy
  · have := hj k hne
    simp only [State.tile, State.putTile_curTile, tileAt_putTile] at this
    exact this.trans (hk k hne)

theorem onlyBinds_modThr (s : State) (f : Thread → Thread) (bs : Vector Bind 8) (h : f s.thr = s.thr.withBinds bs) :
    OnlyBinds s (s.modThr f) :=
  ⟨s.tile.putThr s.curSlot (f s.thr), rfl, ⟨bs, (putThr_slot _ _ _).trans h⟩, fun _ hk => putThr_slot_ne _ _ _ _ hk⟩

theorem onlyBinds_modCur (s : State) (f : Tile → Tile) (h : (f s.tile).slots = s.tile.slots) : OnlyBinds s (s.modCur f) :=
  ⟨f s.tile, rfl, ⟨s.thr.binds, by rw [h]; rfl⟩, fun k _ => by rw [h]⟩

theorem chanPop_slots (x : Tile) (c : Fin 8) : (x.chanPop c).slots = x.slots := rfl

theorem popOne_only (s : State) (r : Reg) : s.popOne r = s ∨ OnlyBinds s (s.popOne r) := by
  unfold State.popOne
  split
  · exact .inl rfl
  · rename_i q _
    dsimp only
    split
    · right
      have hb : OnlyBinds s s.bumpId := onlyBinds_modCur _ _ rfl
      split
      · exact (hb.trans (onlyBinds_modThr _ _ _ rfl)).trans (onlyBinds_modCur _ _ (chanPop_slots _ _))
      · exact hb.trans (onlyBinds_modThr _ _ _ rfl)
    · exact .inl rfl

theorem popV_only (s : State) (rs : List Reg) : s.popV rs = s ∨ OnlyBinds s (s.popV rs) := by
  unfold State.popV
  generalize rs.eraseDups = qs
  induction qs generalizing s with
  | nil => exact .inl rfl
  | cons q qs ih =>
    rw [List.foldl_cons]
    rcases popOne_only s q with h | h
    · rw [h]; exact ih s
    · rcases ih (s.popOne q) with h2 | h2
      · rw [h2]; exact .inr h
      · exact .inr (h.trans h2)

theorem sendReady_slots (p : BitVec 16) (t : TileId) (k : Slot) (r : StreamReg) : ∀ (m : Nat) (x : Tile),
    (∃ bs, (sendReady p t k r m x).slots[k] = x.slots[k].withBinds bs) ∧
      ∀ j, j ≠ k → (sendReady p t k r m x).slots[j] = x.slots[j]
  | 0, x => ⟨⟨x.slots[k].binds, rfl⟩, fun _ _ => rfl⟩
  | m + 1, x => by
    have same : (∃ bs, x.slots[k] = x.slots[k].withBinds bs) ∧ ∀ j, j ≠ k → x.slots[j] = x.slots[j] :=
      ⟨⟨x.slots[k].binds, rfl⟩, fun _ _ => rfl⟩
    have step (l : List SentItem) (f : Thread → Thread) (bs : Vector Bind 8) (hf : f x.slots[k] = x.slots[k].withBinds bs) :
        (∃ bs, (sendReady p t k r m ({ x.modThr k f with sent := l })).slots[k] = x.slots[k].withBinds bs) ∧
          ∀ j, j ≠ k → (sendReady p t k r m ({ x.modThr k f with sent := l })).slots[j] = x.slots[j] := by
      obtain ⟨⟨cs, h⟩, hj⟩ := sendReady_slots p t k r m ({ x.modThr k f with sent := l })
      refine ⟨⟨cs, ?_⟩, fun j hk => (hj j hk).trans (putThr_slot_ne _ _ _ _ hk)⟩
      rw [h]; simp only [Tile.modThr, putThr_slot, hf]; rfl
    unfold sendReady
    dsimp only
    split
    · split
      · exact step _ _ _ rfl
      · exact same
    · exact same

theorem pushElems_only (s : State) (q : StreamReg) : OnlyBinds s (s.pushElems s.curTile s.curSlot q) :=
  ⟨_, rfl, (sendReady_slots _ _ _ _ _ _).1, (sendReady_slots _ _ _ _ _ _).2⟩

theorem appendV_only (s : State) (q : StreamReg) (v : Vec) (w : Option Nat) : OnlyBinds s (s.appendV q v w) := by
  unfold State.appendV
  dsimp only
  have hb (b : Bool) (n m : Nat) : OnlyBinds s (s.modCur fun y => if b then y.bumpSeq n m else y) :=
    onlyBinds_modCur _ _ (by cases b <;> rfl)
  exact ((hb _ _ _).trans ((onlyBinds_modCur _ _ rfl).trans (onlyBinds_modThr _ _ _ rfl))).trans (pushElems_only _ q)

/-- A state that pops and appends may have led to. -/
theorem pc_popV (s : State) (rs : List Reg) : (s.popV rs).thr.pc = s.thr.pc := by
  rcases popV_only s rs with h | h
  · rw [h]
  · obtain ⟨bs, h⟩ := h.thr; rw [h]; rfl

theorem pc_putV (s : State) (d : Reg) (x : Vec) (n : Nat) : (s.putV d x n).thr.pc = s.thr.pc := by
  unfold State.putV
  split
  · split
    · exact pc_putLater _ _ _
    · obtain ⟨bs, h⟩ := (appendV_only s _ x none).thr; rw [h]; rfl
  · exact pc_putLater _ _ _

theorem OnlyBinds.curs {s t : State} (h : OnlyBinds s t) : t.curTile = s.curTile ∧ t.curSlot = s.curSlot := by
  obtain ⟨x, rfl, _⟩ := h; exact ⟨rfl, rfl⟩
theorem curs_popV (s : State) (rs : List Reg) : (s.popV rs).curTile = s.curTile ∧ (s.popV rs).curSlot = s.curSlot := by
  rcases popV_only s rs with h | h
  · rw [h]; exact ⟨rfl, rfl⟩
  · exact h.curs
theorem curs_putV (s : State) (d : Reg) (x : Vec) (n : Nat) : (s.putV d x n).curTile = s.curTile ∧ (s.putV d x n).curSlot = s.curSlot := by
  unfold State.putV
  split
  · split
    · exact ⟨rfl, rfl⟩
    · exact (appendV_only s _ _ _).curs
  · exact ⟨rfl, rfl⟩

/-- A vector result retires into a destination that takes it. -/
theorem retireV_takes {s : State} {d : Reg} (h : s.takes d) (srcs : List Reg) (r : Vec × VFlags) (n : Nat) :
    retireV s srcs d r.1 r.2 n = .next (s.wroteV srcs d r n) := by
  unfold retireV
  rw [dstV_takes h]
  simp only [retire, retireTo, State.wroteV, pc_putV, curs_putV, State.modThr_curTile, State.modThr_curSlot, curs_popV, thr_modThr,
    Thread.flagV_pc, pc_popV]

theorem retireG_next (s : State) (srcs : List Reg) (d : GReg) (x : Guard) : retireG s srcs d x = .next (s.wroteG srcs d x) := by
  simp only [retireG, retire, retireTo, State.wroteG, State.modThr_curTile, State.modThr_curSlot, curs_popV, thr_modThr, setG_pc, pc_popV]

-- Memory operands and requests

/-- An access that the checks let through. -/
theorem checkAddr_lets {s : State} {a : Word} {n : Nat} {l w x : Bool} (h : s.lets a n l w x) (k : Out) : checkAddr s a n l w k = k := by
  obtain ⟨h1, h2, h3, _⟩ := h
  unfold checkAddr
  rw [if_neg (by rintro ⟨p, q⟩; simp [h1 p] at q), if_neg (by simpa using h2), h3]; rfl
theorem checkFret_lets {s : State} {a : Word} {n : Nat} {l w x : Bool} (h : s.lets a n l w x) (k : Out) : checkFret s a n x k = k := by
  unfold checkFret; dsimp only; rw [h.2.2.2]; rfl
theorem needCnt_below {s : State} {c : Cnt} (h : s.thr.count c < 255) (k : Out) : needCnt s c k = k := by
  unfold needCnt; exact if_neg (by omega)

/-- A request that is sent, and its thread parked. -/
theorem park_sendReq (s : State) (op : ReqOp) (d : Reg) (addr : Word) (p : Park) : park (s.sendReq op d addr) p = .next (s.asked op d addr p) := by
  unfold park State.sendReq State.bumpId State.asked
  rw [modThr_modThr]

end Sys2Proof.Machine
end

