-- ==== Sys2Proof/Laws/PerInstr.lean ====
section
/-! SUPPORT. A law for every instruction: the fields that the encoder makes fit their places in the word (R57), one lemma for each
constructor. An event has no word. -/

namespace Sys2Proof.Laws

theorem Rnd_code_lt (x : Rnd) : x.code < 8 := by cases x <;> decide
theorem SkCond_code_lt (x : SkCond) : x.code < 8 := by cases x <;> decide
theorem FskCond_code_lt (x : FskCond) : x.code < 8 := by cases x <;> decide
theorem BrCond_code_lt (x : BrCond) : x.code < 6 := by cases x <;> decide
theorem LdType_code_lt (x : LdType) : x.code < 7 := by cases x <;> decide
theorem StSize_code_lt (x : StSize) : x.code < 4 := by cases x <;> decide
theorem Scope_code_lt (x : Scope) : x.code < 5 := by cases x <;> decide
theorem CvtType_code_lt (x : CvtType) : x.code < 8 := by cases x <;> decide
theorem FTy_code_lt (x : FTy) : x.code < 3 := by cases x <;> decide
theorem ITy_code_lt (x : ITy) : x.code < 7 := by cases x <;> decide
theorem ETy_code_lt (x : ETy) : x.code < 7 := by cases x <;> decide
theorem NTy_code_lt (x : NTy) : x.code < 7 := by cases x <;> decide
theorem STy_code_lt (x : STy) : x.code < 5 := by cases x <;> decide
theorem WTy_code_lt (x : WTy) : x.code < 5 := by cases x <;> decide
theorem VCond_code_lt (x : VCond) : x.code < 10 := by cases x <;> decide
theorem BlkSel_code_lt (x : BlkSel) : x.code < 5 := by cases x <;> decide
theorem RegClass_code_lt (x : RegClass) : x.code < 2 := by cases x <;> decide
theorem MmaFmt_code_lt (x : MmaFmt) : x.code < 8 := by cases x <;> decide
theorem MsgOrd_code_lt (x : MsgOrd) : x.code < 6 := by
  cases x with
  | plain => decide
  | rel sc => cases sc <;> decide
theorem PrmOrd_code_lt (x : PrmOrd) : x.code < 3 := by cases x <;> decide
theorem Size_code_lt (x : Size) : x.code < 2 := by cases x <;> decide
theorem Prec_code_lt (x : Prec) : x.code < 2 := by cases x <;> decide
theorem PrmPolicy_code_lt (x : PrmPolicy) : x.code < 2 := by cases x <;> decide
theorem PrmSel_code_lt (x : PrmSel) : x.code < 2 := by cases x <;> decide

/-- The fields of a well-formed instruction fit: seven bits for op, five for each other (R57). -/
def FieldsFit.Statement (i : Instr) : Prop :=
  ∀ x, encodeFields i = some x → i.wellFormed = true → x.op < 128 ∧ x.d < 32 ∧ x.a < 32 ∧ x.b < 32 ∧ x.c < 32 ∧ x.f < 32

theorem FieldsFit.add (d : Reg) (a : Reg) (b : Reg) : FieldsFit.Statement (.add d a b) := by
  intro x hx _
  obtain rfl := Option.some.inj hx
  have := d.isLt
  have := a.isLt
  have := b.isLt
  simp only [fieldsR]; omega
theorem FieldsFit.sub (d : Reg) (a : Reg) (b : Reg) : FieldsFit.Statement (.sub d a b) := by
  intro x hx _
  obtain rfl := Option.some.inj hx
  have := d.isLt
  have := a.isLt
  have := b.isLt
  simp only [fieldsR]; omega
theorem FieldsFit.and (d : Reg) (a : Reg) (b : Reg) : FieldsFit.Statement (.and d a b) := by
  intro x hx _
  obtain rfl := Option.some.inj hx
  have := d.isLt
  have := a.isLt
  have := b.isLt
  simp only [fieldsR]; omega
theorem FieldsFit.or (d : Reg) (a : Reg) (b : Reg) : FieldsFit.Statement (.or d a b) := by
  intro x hx _
  obtain rfl := Option.some.inj hx
  have := d.isLt
  have := a.isLt
  have := b.isLt
  simp only [fieldsR]; omega
theorem FieldsFit.xor (d : Reg) (a : Reg) (b : Reg) : FieldsFit.Statement (.xor d a b) := by
  intro x hx _
  obtain rfl := Option.some.inj hx
  have := d.isLt
  have := a.isLt
  have := b.isLt
  simp only [fieldsR]; omega
theorem FieldsFit.sll (d : Reg) (a : Reg) (b : Reg) : FieldsFit.Statement (.sll d a b) := by
  intro x hx _
  obtain rfl := Option.some.inj hx
  have := d.isLt
  have := a.isLt
  have := b.isLt
  simp only [fieldsR]; omega
theorem FieldsFit.srl (d : Reg) (a : Reg) (b : Reg) : FieldsFit.Statement (.srl d a b) := by
  intro x hx _
  obtain rfl := Option.some.inj hx
  have := d.isLt
  have := a.isLt
  have := b.isLt
  simp only [fieldsR]; omega
theorem FieldsFit.sra (d : Reg) (a : Reg) (b : Reg) : FieldsFit.Statement (.sra d a b) := by
  intro x hx _
  obtain rfl := Option.some.inj hx
  have := d.isLt
  have := a.isLt
  have := b.isLt
  simp only [fieldsR]; omega
theorem FieldsFit.slt (d : Reg) (a : Reg) (b : Reg) : FieldsFit.Statement (.slt d a b) := by
  intro x hx _
  obtain rfl := Option.some.inj hx
  have := d.isLt
  have := a.isLt
  have := b.isLt
  simp only [fieldsR]; omega
theorem FieldsFit.sltn (d : Reg) (a : Reg) (b : Reg) : FieldsFit.Statement (.sltn d a b) := by
  intro x hx _
  obtain rfl := Option.some.inj hx
  have := d.isLt
  have := a.isLt
  have := b.isLt
  simp only [fieldsR]; omega
theorem FieldsFit.min (d : Reg) (a : Reg) (b : Reg) : FieldsFit.Statement (.min d a b) := by
  intro x hx _
  obtain rfl := Option.some.inj hx
  have := d.isLt
  have := a.isLt
  have := b.isLt
  simp only [fieldsR]; omega
theorem FieldsFit.max (d : Reg) (a : Reg) (b : Reg) : FieldsFit.Statement (.max d a b) := by
  intro x hx _
  obtain rfl := Option.some.inj hx
  have := d.isLt
  have := a.isLt
  have := b.isLt
  simp only [fieldsR]; omega
theorem FieldsFit.minn (d : Reg) (a : Reg) (b : Reg) : FieldsFit.Statement (.minn d a b) := by
  intro x hx _
  obtain rfl := Option.some.inj hx
  have := d.isLt
  have := a.isLt
  have := b.isLt
  simp only [fieldsR]; omega
theorem FieldsFit.maxn (d : Reg) (a : Reg) (b : Reg) : FieldsFit.Statement (.maxn d a b) := by
  intro x hx _
  obtain rfl := Option.some.inj hx
  have := d.isLt
  have := a.isLt
  have := b.isLt
  simp only [fieldsR]; omega
theorem FieldsFit.mul (d : Reg) (a : Reg) (b : Reg) : FieldsFit.Statement (.mul d a b) := by
  intro x hx _
  obtain rfl := Option.some.inj hx
  have := d.isLt
  have := a.isLt
  have := b.isLt
  simp only [fieldsR]; omega
theorem FieldsFit.mulh (d : Reg) (a : Reg) (b : Reg) : FieldsFit.Statement (.mulh d a b) := by
  intro x hx _
  obtain rfl := Option.some.inj hx
  have := d.isLt
  have := a.isLt
  have := b.isLt
  simp only [fieldsR]; omega
theorem FieldsFit.mulhn (d : Reg) (a : Reg) (b : Reg) : FieldsFit.Statement (.mulhn d a b) := by
  intro x hx _
  obtain rfl := Option.some.inj hx
  have := d.isLt
  have := a.isLt
  have := b.isLt
  simp only [fieldsR]; omega
theorem FieldsFit.div (d : Reg) (a : Reg) (b : Reg) : FieldsFit.Statement (.div d a b) := by
  intro x hx _
  obtain rfl := Option.some.inj hx
  have := d.isLt
  have := a.isLt
  have := b.isLt
  simp only [fieldsR]; omega
theorem FieldsFit.divn (d : Reg) (a : Reg) (b : Reg) : FieldsFit.Statement (.divn d a b) := by
  intro x hx _
  obtain rfl := Option.some.inj hx
  have := d.isLt
  have := a.isLt
  have := b.isLt
  simp only [fieldsR]; omega
theorem FieldsFit.rem (d : Reg) (a : Reg) (b : Reg) : FieldsFit.Statement (.rem d a b) := by
  intro x hx _
  obtain rfl := Option.some.inj hx
  have := d.isLt
  have := a.isLt
  have := b.isLt
  simp only [fieldsR]; omega
theorem FieldsFit.remn (d : Reg) (a : Reg) (b : Reg) : FieldsFit.Statement (.remn d a b) := by
  intro x hx _
  obtain rfl := Option.some.inj hx
  have := d.isLt
  have := a.isLt
  have := b.isLt
  simp only [fieldsR]; omega
theorem FieldsFit.rot (d : Reg) (a : Reg) (b : Reg) : FieldsFit.Statement (.rot d a b) := by
  intro x hx _
  obtain rfl := Option.some.inj hx
  have := d.isLt
  have := a.isLt
  have := b.isLt
  simp only [fieldsR]; omega
theorem FieldsFit.clz (d : Reg) (a : Reg) : FieldsFit.Statement (.clz d a) := by
  intro x hx _
  obtain rfl := Option.some.inj hx
  have := d.isLt
  have := a.isLt
  simp only [fieldsR]; omega
theorem FieldsFit.ctz (d : Reg) (a : Reg) : FieldsFit.Statement (.ctz d a) := by
  intro x hx _
  obtain rfl := Option.some.inj hx
  have := d.isLt
  have := a.isLt
  simp only [fieldsR]; omega
theorem FieldsFit.popc (d : Reg) (a : Reg) : FieldsFit.Statement (.popc d a) := by
  intro x hx _
  obtain rfl := Option.some.inj hx
  have := d.isLt
  have := a.isLt
  simp only [fieldsR]; omega
theorem FieldsFit.sel (d : Reg) (a : Reg) (b : Reg) (c : Reg) : FieldsFit.Statement (.sel d a b c) := by
  intro x hx _
  obtain rfl := Option.some.inj hx
  have := d.isLt
  have := a.isLt
  have := b.isLt
  have := c.isLt
  simp only [fieldsR]; omega
theorem FieldsFit.addi (d : Reg) (a : Reg) (i : BitVec 12) : FieldsFit.Statement (.addi d a i) := by
  intro x hx _
  obtain rfl := Option.some.inj hx
  have := d.isLt
  have := a.isLt
  have := i.isLt
  simp only [fieldsI]; omega
theorem FieldsFit.andi (d : Reg) (a : Reg) (i : BitVec 12) : FieldsFit.Statement (.andi d a i) := by
  intro x hx _
  obtain rfl := Option.some.inj hx
  have := d.isLt
  have := a.isLt
  have := i.isLt
  simp only [fieldsI]; omega
theorem FieldsFit.ori (d : Reg) (a : Reg) (i : BitVec 12) : FieldsFit.Statement (.ori d a i) := by
  intro x hx _
  obtain rfl := Option.some.inj hx
  have := d.isLt
  have := a.isLt
  have := i.isLt
  simp only [fieldsI]; omega
theorem FieldsFit.xori (d : Reg) (a : Reg) (i : BitVec 12) : FieldsFit.Statement (.xori d a i) := by
  intro x hx _
  obtain rfl := Option.some.inj hx
  have := d.isLt
  have := a.isLt
  have := i.isLt
  simp only [fieldsI]; omega
theorem FieldsFit.slti (d : Reg) (a : Reg) (i : BitVec 12) : FieldsFit.Statement (.slti d a i) := by
  intro x hx _
  obtain rfl := Option.some.inj hx
  have := d.isLt
  have := a.isLt
  have := i.isLt
  simp only [fieldsI]; omega
theorem FieldsFit.sltni (d : Reg) (a : Reg) (i : BitVec 12) : FieldsFit.Statement (.sltni d a i) := by
  intro x hx _
  obtain rfl := Option.some.inj hx
  have := d.isLt
  have := a.isLt
  have := i.isLt
  simp only [fieldsI]; omega
theorem FieldsFit.slli (d : Reg) (a : Reg) (h : BitVec 6) : FieldsFit.Statement (.slli d a h) := by
  intro x hx _
  obtain rfl := Option.some.inj hx
  have := d.isLt
  have := a.isLt
  have := h.isLt
  simp only [fieldsI]; omega
theorem FieldsFit.srli (d : Reg) (a : Reg) (h : BitVec 6) : FieldsFit.Statement (.srli d a h) := by
  intro x hx _
  obtain rfl := Option.some.inj hx
  have := d.isLt
  have := a.isLt
  have := h.isLt
  simp only [fieldsI]; omega
theorem FieldsFit.srai (d : Reg) (a : Reg) (h : BitVec 6) : FieldsFit.Statement (.srai d a h) := by
  intro x hx _
  obtain rfl := Option.some.inj hx
  have := d.isLt
  have := a.isLt
  have := h.isLt
  simp only [fieldsI]; omega
theorem FieldsFit.lui (d : Reg) (i : BitVec 20) : FieldsFit.Statement (.lui d i) := by
  intro x hx _
  obtain rfl := Option.some.inj hx
  have := d.isLt
  have := i.isLt
  simp only [fieldsU]; omega
theorem FieldsFit.adpc (d : Reg) (i : BitVec 20) : FieldsFit.Statement (.adpc d i) := by
  intro x hx _
  obtain rfl := Option.some.inj hx
  have := d.isLt
  have := i.isLt
  simp only [fieldsU]; omega
theorem FieldsFit.ext (d : Reg) (a : Reg) (p : BitVec 6) (l : BitVec 6) : FieldsFit.Statement (.ext d a p l) := by
  intro x hx _
  obtain rfl := Option.some.inj hx
  have := d.isLt
  have := a.isLt
  have := p.isLt
  have := l.isLt
  simp only [fieldsI]; omega
theorem FieldsFit.extn (d : Reg) (a : Reg) (p : BitVec 6) (l : BitVec 6) : FieldsFit.Statement (.extn d a p l) := by
  intro x hx _
  obtain rfl := Option.some.inj hx
  have := d.isLt
  have := a.isLt
  have := p.isLt
  have := l.isLt
  simp only [fieldsI]; omega
theorem FieldsFit.ins (d : Reg) (a : Reg) (p : BitVec 6) (l : BitVec 6) : FieldsFit.Statement (.ins d a p l) := by
  intro x hx _
  obtain rfl := Option.some.inj hx
  have := d.isLt
  have := a.isLt
  have := p.isLt
  have := l.isLt
  simp only [fieldsI]; omega
theorem FieldsFit.sk (c : SkCond) (n : BitVec 2) (a : Reg) (b : Reg) : FieldsFit.Statement (.sk c n a b) := by
  intro x hx _
  obtain rfl := Option.some.inj hx
  have := SkCond_code_lt c
  have := n.isLt
  have := a.isLt
  have := b.isLt
  simp only [fieldsK]; omega
theorem FieldsFit.ski (c : SkCond) (n : BitVec 2) (a : Reg) (i : BitVec 15) : FieldsFit.Statement (.ski c n a i) := by
  intro x hx _
  obtain rfl := Option.some.inj hx
  have := SkCond_code_lt c
  have := n.isLt
  have := a.isLt
  have := i.isLt
  simp only [fieldsKI]; omega
theorem FieldsFit.fsk (c : FskCond) (n : BitVec 2) (a : Reg) (b : Reg) : FieldsFit.Statement (.fsk c n a b) := by
  intro x hx _
  obtain rfl := Option.some.inj hx
  have := FskCond_code_lt c
  have := n.isLt
  have := a.isLt
  have := b.isLt
  simp only [fieldsK]; omega
theorem FieldsFit.fskd (c : FskCond) (n : BitVec 2) (a : Reg) (b : Reg) : FieldsFit.Statement (.fskd c n a b) := by
  intro x hx _
  obtain rfl := Option.some.inj hx
  have := FskCond_code_lt c
  have := n.isLt
  have := a.isLt
  have := b.isLt
  simp only [fieldsK]; omega
theorem FieldsFit.ld (t : LdType) (d : Reg) (a : Reg) (i : BitVec 12) : FieldsFit.Statement (.ld t d a i) := by
  intro x hx _
  obtain rfl := Option.some.inj hx
  have := LdType_code_lt t
  have := d.isLt
  have := a.isLt
  have := i.isLt
  simp only [fieldsI]; omega
theorem FieldsFit.st (z : StSize) (b : Reg) (a : Reg) (i : BitVec 12) : FieldsFit.Statement (.st z b a i) := by
  intro x hx _
  obtain rfl := Option.some.inj hx
  have := StSize_code_lt z
  have := b.isLt
  have := a.isLt
  have := i.isLt
  simp only [fieldsS]; omega
theorem FieldsFit.ldAcq (z : Size) (sc : Scope) (d : Reg) (a : Reg) : FieldsFit.Statement (.ldAcq z sc d a) := by
  intro x hx _
  obtain rfl := Option.some.inj hx
  have := Size_code_lt z
  have := Scope_code_lt sc
  have := d.isLt
  have := a.isLt
  simp only [fieldsR]; omega
theorem FieldsFit.ldfe64 (d : Reg) (a : Reg) : FieldsFit.Statement (.ldfe64 d a) := by
  intro x hx _
  obtain rfl := Option.some.inj hx
  have := d.isLt
  have := a.isLt
  simp only [fieldsR]; omega
theorem FieldsFit.ldff64 (d : Reg) (a : Reg) : FieldsFit.Statement (.ldff64 d a) := by
  intro x hx _
  obtain rfl := Option.some.inj hx
  have := d.isLt
  have := a.isLt
  simp only [fieldsR]; omega
theorem FieldsFit.ldfe32 (d : Reg) (a : Reg) : FieldsFit.Statement (.ldfe32 d a) := by
  intro x hx _
  obtain rfl := Option.some.inj hx
  have := d.isLt
  have := a.isLt
  simp only [fieldsR]; omega
theorem FieldsFit.ldff32 (d : Reg) (a : Reg) : FieldsFit.Statement (.ldff32 d a) := by
  intro x hx _
  obtain rfl := Option.some.inj hx
  have := d.isLt
  have := a.isLt
  simp only [fieldsR]; omega
theorem FieldsFit.stRel (z : Size) (sc : Scope) (b : Reg) (a : Reg) : FieldsFit.Statement (.stRel z sc b a) := by
  intro x hx _
  obtain rfl := Option.some.inj hx
  have := Size_code_lt z
  have := Scope_code_lt sc
  have := b.isLt
  have := a.isLt
  simp only [fieldsR]; omega
theorem FieldsFit.stef (z : Size) (b : Reg) (a : Reg) : FieldsFit.Statement (.stef z b a) := by
  intro x hx _
  obtain rfl := Option.some.inj hx
  have := Size_code_lt z
  have := b.isLt
  have := a.isLt
  simp only [fieldsR]; omega
theorem FieldsFit.stff (z : Size) (b : Reg) (a : Reg) : FieldsFit.Statement (.stff z b a) := by
  intro x hx _
  obtain rfl := Option.some.inj hx
  have := Size_code_lt z
  have := b.isLt
  have := a.isLt
  simp only [fieldsR]; omega
theorem FieldsFit.ste (a : Reg) : FieldsFit.Statement (.ste a) := by
  intro x hx _
  obtain rfl := Option.some.inj hx
  have := a.isLt
  simp only [fieldsR]; omega
theorem FieldsFit.arsv (z : Size) (d : Reg) (a : Reg) : FieldsFit.Statement (.arsv z d a) := by
  intro x hx _
  obtain rfl := Option.some.inj hx
  have := Size_code_lt z
  have := d.isLt
  have := a.isLt
  simp only [fieldsR]; omega
theorem FieldsFit.arel (z : Size) (b : Reg) (a : Reg) : FieldsFit.Statement (.arel z b a) := by
  intro x hx _
  obtain rfl := Option.some.inj hx
  have := Size_code_lt z
  have := b.isLt
  have := a.isLt
  simp only [fieldsR]; omega
theorem FieldsFit.aadd (z : Size) (d : Reg) (a : Reg) (b : Reg) : FieldsFit.Statement (.aadd z d a b) := by
  intro x hx _
  obtain rfl := Option.some.inj hx
  have := Size_code_lt z
  have := d.isLt
  have := a.isLt
  have := b.isLt
  simp only [fieldsR]; omega
theorem FieldsFit.amin (z : Size) (d : Reg) (a : Reg) (b : Reg) : FieldsFit.Statement (.amin z d a b) := by
  intro x hx _
  obtain rfl := Option.some.inj hx
  have := Size_code_lt z
  have := d.isLt
  have := a.isLt
  have := b.isLt
  simp only [fieldsR]; omega
theorem FieldsFit.amax (z : Size) (d : Reg) (a : Reg) (b : Reg) : FieldsFit.Statement (.amax z d a b) := by
  intro x hx _
  obtain rfl := Option.some.inj hx
  have := Size_code_lt z
  have := d.isLt
  have := a.isLt
  have := b.isLt
  simp only [fieldsR]; omega
theorem FieldsFit.aminn (z : Size) (d : Reg) (a : Reg) (b : Reg) : FieldsFit.Statement (.aminn z d a b) := by
  intro x hx _
  obtain rfl := Option.some.inj hx
  have := Size_code_lt z
  have := d.isLt
  have := a.isLt
  have := b.isLt
  simp only [fieldsR]; omega
theorem FieldsFit.amaxn (z : Size) (d : Reg) (a : Reg) (b : Reg) : FieldsFit.Statement (.amaxn z d a b) := by
  intro x hx _
  obtain rfl := Option.some.inj hx
  have := Size_code_lt z
  have := d.isLt
  have := a.isLt
  have := b.isLt
  simp only [fieldsR]; omega
theorem FieldsFit.aand (z : Size) (d : Reg) (a : Reg) (b : Reg) : FieldsFit.Statement (.aand z d a b) := by
  intro x hx _
  obtain rfl := Option.some.inj hx
  have := Size_code_lt z
  have := d.isLt
  have := a.isLt
  have := b.isLt
  simp only [fieldsR]; omega
theorem FieldsFit.aor (z : Size) (d : Reg) (a : Reg) (b : Reg) : FieldsFit.Statement (.aor z d a b) := by
  intro x hx _
  obtain rfl := Option.some.inj hx
  have := Size_code_lt z
  have := d.isLt
  have := a.isLt
  have := b.isLt
  simp only [fieldsR]; omega
theorem FieldsFit.axor (z : Size) (d : Reg) (a : Reg) (b : Reg) : FieldsFit.Statement (.axor z d a b) := by
  intro x hx _
  obtain rfl := Option.some.inj hx
  have := Size_code_lt z
  have := d.isLt
  have := a.isLt
  have := b.isLt
  simp only [fieldsR]; omega
theorem FieldsFit.axchg (z : Size) (d : Reg) (a : Reg) (b : Reg) : FieldsFit.Statement (.axchg z d a b) := by
  intro x hx _
  obtain rfl := Option.some.inj hx
  have := Size_code_lt z
  have := d.isLt
  have := a.isLt
  have := b.isLt
  simp only [fieldsR]; omega
theorem FieldsFit.acas (z : Size) (d : Reg) (a : Reg) (b : Reg) (c : Reg) : FieldsFit.Statement (.acas z d a b c) := by
  intro x hx _
  obtain rfl := Option.some.inj hx
  have := Size_code_lt z
  have := d.isLt
  have := a.isLt
  have := b.isLt
  have := c.isLt
  simp only [fieldsR]; omega
theorem FieldsFit.aaddf (z : Size) (d : Reg) (a : Reg) (b : Reg) : FieldsFit.Statement (.aaddf z d a b) := by
  intro x hx _
  obtain rfl := Option.some.inj hx
  have := Size_code_lt z
  have := d.isLt
  have := a.isLt
  have := b.isLt
  simp only [fieldsR]; omega
theorem FieldsFit.fence (sc : Scope) : FieldsFit.Statement (.fence sc) := by
  intro x hx _
  obtain rfl := Option.some.inj hx
  have := Scope_code_lt sc
  simp only [fieldsR]; omega
theorem FieldsFit.fenceLd (sc : Scope) : FieldsFit.Statement (.fenceLd sc) := by
  intro x hx _
  obtain rfl := Option.some.inj hx
  have := Scope_code_lt sc
  simp only [fieldsR]; omega
theorem FieldsFit.fenceSt (sc : Scope) : FieldsFit.Statement (.fenceSt sc) := by
  intro x hx _
  obtain rfl := Option.some.inj hx
  have := Scope_code_lt sc
  simp only [fieldsR]; omega
theorem FieldsFit.xfence (sc : Scope) : FieldsFit.Statement (.xfence sc) := by
  intro x hx _
  obtain rfl := Option.some.inj hx
  have := Scope_code_lt sc
  simp only [fieldsR]; omega
theorem FieldsFit.fenceI : FieldsFit.Statement (.fenceI) := by
  intro x hx _
  obtain rfl := Option.some.inj hx
  simp only [fieldsR]; omega
theorem FieldsFit.wait (tl : BitVec 4) (cp : BitVec 4) (st : BitVec 4) (ld : BitVec 4) : FieldsFit.Statement (.wait tl cp st ld) := by
  intro x hx _
  obtain rfl := Option.some.inj hx
  have := tl.isLt
  have := cp.isLt
  have := st.isLt
  have := ld.isLt
  simp only [fieldsU]; omega
theorem FieldsFit.br (c : BrCond) (a : Reg) (b : Reg) (i : BitVec 10) : FieldsFit.Statement (.br c a b i) := by
  intro x hx _
  obtain rfl := Option.some.inj hx
  have := BrCond_code_lt c
  have := a.isLt
  have := b.isLt
  have := i.isLt
  simp only [fieldsB]; omega
theorem FieldsFit.jl (d : Reg) (i : BitVec 20) : FieldsFit.Statement (.jl d i) := by
  intro x hx _
  obtain rfl := Option.some.inj hx
  have := d.isLt
  have := i.isLt
  simp only [fieldsU]; omega
theorem FieldsFit.jlr (d : Reg) (a : Reg) (i : BitVec 12) : FieldsFit.Statement (.jlr d a i) := by
  intro x hx _
  obtain rfl := Option.some.inj hx
  have := d.isLt
  have := a.isLt
  have := i.isLt
  simp only [fieldsI]; omega
theorem FieldsFit.csrr (d : Reg) (n : BitVec 12) : FieldsFit.Statement (.csrr d n) := by
  intro x hx _
  obtain rfl := Option.some.inj hx
  have := d.isLt
  have := n.isLt
  simp only [fieldsI]; omega
theorem FieldsFit.csrw (d : Reg) (n : BitVec 12) (a : Reg) : FieldsFit.Statement (.csrw d n a) := by
  intro x hx _
  obtain rfl := Option.some.inj hx
  have := d.isLt
  have := n.isLt
  have := a.isLt
  simp only [fieldsI]; omega
theorem FieldsFit.csrs (d : Reg) (n : BitVec 12) (a : Reg) : FieldsFit.Statement (.csrs d n a) := by
  intro x hx _
  obtain rfl := Option.some.inj hx
  have := d.isLt
  have := n.isLt
  have := a.isLt
  simp only [fieldsI]; omega
theorem FieldsFit.csrc (d : Reg) (n : BitVec 12) (a : Reg) : FieldsFit.Statement (.csrc d n a) := by
  intro x hx _
  obtain rfl := Option.some.inj hx
  have := d.isLt
  have := n.isLt
  have := a.isLt
  simp only [fieldsI]; omega
theorem FieldsFit.sys (n : BitVec 5) : FieldsFit.Statement (.sys n) := by
  intro x hx _
  obtain rfl := Option.some.inj hx
  have := n.isLt
  simp only [fieldsR]; omega
theorem FieldsFit.eret : FieldsFit.Statement (.eret) := by
  intro x hx _
  obtain rfl := Option.some.inj hx
  simp only [fieldsR]; omega
theorem FieldsFit.brk (n : BitVec 5) : FieldsFit.Statement (.brk n) := by
  intro x hx _
  obtain rfl := Option.some.inj hx
  have := n.isLt
  simp only [fieldsR]; omega
theorem FieldsFit.tkill (a : Reg) : FieldsFit.Statement (.tkill a) := by
  intro x hx _
  obtain rfl := Option.some.inj hx
  have := a.isLt
  simp only [fieldsR]; omega
theorem FieldsFit.pair (d : Reg) (a : Reg) : FieldsFit.Statement (.pair d a) := by
  intro x hx _
  obtain rfl := Option.some.inj hx
  have := d.isLt
  have := a.isLt
  simp only [fieldsR]; omega
theorem FieldsFit.unpair : FieldsFit.Statement (.unpair) := by
  intro x hx _
  obtain rfl := Option.some.inj hx
  simp only [fieldsR]; omega
theorem FieldsFit.fprt : FieldsFit.Statement (.fprt) := by
  intro x hx _
  obtain rfl := Option.some.inj hx
  simp only [fieldsR]; omega
theorem FieldsFit.mxfrz : FieldsFit.Statement (.mxfrz) := by
  intro x hx _
  obtain rfl := Option.some.inj hx
  simp only [fieldsR]; omega
theorem FieldsFit.mxthaw : FieldsFit.Statement (.mxthaw) := by
  intro x hx _
  obtain rfl := Option.some.inj hx
  simp only [fieldsR]; omega
theorem FieldsFit.scrub (a : Reg) : FieldsFit.Statement (.scrub a) := by
  intro x hx _
  obtain rfl := Option.some.inj hx
  have := a.isLt
  simp only [fieldsR]; omega
theorem FieldsFit.fadd (p : Prec) (r : Rnd) (d : Reg) (a : Reg) (b : Reg) : FieldsFit.Statement (.fadd p r d a b) := by
  intro x hx _
  obtain rfl := Option.some.inj hx
  have := Prec_code_lt p
  have := Rnd_code_lt r
  have := d.isLt
  have := a.isLt
  have := b.isLt
  simp only [fieldsR]; omega
theorem FieldsFit.fsub (p : Prec) (r : Rnd) (d : Reg) (a : Reg) (b : Reg) : FieldsFit.Statement (.fsub p r d a b) := by
  intro x hx _
  obtain rfl := Option.some.inj hx
  have := Prec_code_lt p
  have := Rnd_code_lt r
  have := d.isLt
  have := a.isLt
  have := b.isLt
  simp only [fieldsR]; omega
theorem FieldsFit.fmul (p : Prec) (r : Rnd) (d : Reg) (a : Reg) (b : Reg) : FieldsFit.Statement (.fmul p r d a b) := by
  intro x hx _
  obtain rfl := Option.some.inj hx
  have := Prec_code_lt p
  have := Rnd_code_lt r
  have := d.isLt
  have := a.isLt
  have := b.isLt
  simp only [fieldsR]; omega
theorem FieldsFit.fdiv (p : Prec) (r : Rnd) (d : Reg) (a : Reg) (b : Reg) : FieldsFit.Statement (.fdiv p r d a b) := by
  intro x hx _
  obtain rfl := Option.some.inj hx
  have := Prec_code_lt p
  have := Rnd_code_lt r
  have := d.isLt
  have := a.isLt
  have := b.isLt
  simp only [fieldsR]; omega
theorem FieldsFit.fsqrt (p : Prec) (r : Rnd) (d : Reg) (a : Reg) : FieldsFit.Statement (.fsqrt p r d a) := by
  intro x hx _
  obtain rfl := Option.some.inj hx
  have := Prec_code_lt p
  have := Rnd_code_lt r
  have := d.isLt
  have := a.isLt
  simp only [fieldsR]; omega
theorem FieldsFit.fmin (p : Prec) (d : Reg) (a : Reg) (b : Reg) : FieldsFit.Statement (.fmin p d a b) := by
  intro x hx _
  obtain rfl := Option.some.inj hx
  have := Prec_code_lt p
  have := d.isLt
  have := a.isLt
  have := b.isLt
  simp only [fieldsR]; omega
theorem FieldsFit.fmax (p : Prec) (d : Reg) (a : Reg) (b : Reg) : FieldsFit.Statement (.fmax p d a b) := by
  intro x hx _
  obtain rfl := Option.some.inj hx
  have := Prec_code_lt p
  have := d.isLt
  have := a.isLt
  have := b.isLt
  simp only [fieldsR]; omega
theorem FieldsFit.fsgnj (p : Prec) (d : Reg) (a : Reg) (b : Reg) : FieldsFit.Statement (.fsgnj p d a b) := by
  intro x hx _
  obtain rfl := Option.some.inj hx
  have := Prec_code_lt p
  have := d.isLt
  have := a.isLt
  have := b.isLt
  simp only [fieldsR]; omega
theorem FieldsFit.fsgnjn (p : Prec) (d : Reg) (a : Reg) (b : Reg) : FieldsFit.Statement (.fsgnjn p d a b) := by
  intro x hx _
  obtain rfl := Option.some.inj hx
  have := Prec_code_lt p
  have := d.isLt
  have := a.isLt
  have := b.isLt
  simp only [fieldsR]; omega
theorem FieldsFit.fsgnjx (p : Prec) (d : Reg) (a : Reg) (b : Reg) : FieldsFit.Statement (.fsgnjx p d a b) := by
  intro x hx _
  obtain rfl := Option.some.inj hx
  have := Prec_code_lt p
  have := d.isLt
  have := a.isLt
  have := b.isLt
  simp only [fieldsR]; omega
theorem FieldsFit.fma (p : Prec) (d : Reg) (a : Reg) (b : Reg) (c : Reg) : FieldsFit.Statement (.fma p d a b c) := by
  intro x hx _
  obtain rfl := Option.some.inj hx
  have := Prec_code_lt p
  have := d.isLt
  have := a.isLt
  have := b.isLt
  have := c.isLt
  simp only [fieldsR]; omega
theorem FieldsFit.fms (p : Prec) (d : Reg) (a : Reg) (b : Reg) (c : Reg) : FieldsFit.Statement (.fms p d a b c) := by
  intro x hx _
  obtain rfl := Option.some.inj hx
  have := Prec_code_lt p
  have := d.isLt
  have := a.isLt
  have := b.isLt
  have := c.isLt
  simp only [fieldsR]; omega
theorem FieldsFit.fnma (p : Prec) (d : Reg) (a : Reg) (b : Reg) (c : Reg) : FieldsFit.Statement (.fnma p d a b c) := by
  intro x hx _
  obtain rfl := Option.some.inj hx
  have := Prec_code_lt p
  have := d.isLt
  have := a.isLt
  have := b.isLt
  have := c.isLt
  simp only [fieldsR]; omega
theorem FieldsFit.fclass (p : Prec) (d : Reg) (a : Reg) : FieldsFit.Statement (.fclass p d a) := by
  intro x hx _
  obtain rfl := Option.some.inj hx
  have := Prec_code_lt p
  have := d.isLt
  have := a.isLt
  simp only [fieldsR]; omega
theorem FieldsFit.feq (p : Prec) (d : Reg) (a : Reg) (b : Reg) : FieldsFit.Statement (.feq p d a b) := by
  intro x hx _
  obtain rfl := Option.some.inj hx
  have := Prec_code_lt p
  have := d.isLt
  have := a.isLt
  have := b.isLt
  simp only [fieldsR]; omega
theorem FieldsFit.flt (p : Prec) (d : Reg) (a : Reg) (b : Reg) : FieldsFit.Statement (.flt p d a b) := by
  intro x hx _
  obtain rfl := Option.some.inj hx
  have := Prec_code_lt p
  have := d.isLt
  have := a.isLt
  have := b.isLt
  simp only [fieldsR]; omega
theorem FieldsFit.fle (p : Prec) (d : Reg) (a : Reg) (b : Reg) : FieldsFit.Statement (.fle p d a b) := by
  intro x hx _
  obtain rfl := Option.some.inj hx
  have := Prec_code_lt p
  have := d.isLt
  have := a.isLt
  have := b.isLt
  simp only [fieldsR]; omega
theorem FieldsFit.fcvt (w : Bool) (r : Rnd) (c : CvtType) (b : CvtType) (d : Reg) (a : Reg) : FieldsFit.Statement (.fcvt w r c b d a) := by
  intro x hx _
  obtain rfl := Option.some.inj hx
  have := Rnd_code_lt r
  have := CvtType_code_lt c
  have := CvtType_code_lt b
  have := d.isLt
  have := a.isLt
  cases w <;>
  (simp only [fieldsR, Bool.false_eq_true, if_true, if_false]; omega)
theorem FieldsFit.vaddF (t : FTy) (g : GReg) (d : Reg) (a : Reg) (b : Reg) : FieldsFit.Statement (.vaddF t g d a b) := by
  intro x hx _
  obtain rfl := Option.some.inj hx
  have := FTy_code_lt t
  have := g.isLt
  have := d.isLt
  have := a.isLt
  have := b.isLt
  simp only [fieldsV]; omega
theorem FieldsFit.vsubF (t : FTy) (g : GReg) (d : Reg) (a : Reg) (b : Reg) : FieldsFit.Statement (.vsubF t g d a b) := by
  intro x hx _
  obtain rfl := Option.some.inj hx
  have := FTy_code_lt t
  have := g.isLt
  have := d.isLt
  have := a.isLt
  have := b.isLt
  simp only [fieldsV]; omega
theorem FieldsFit.vmulF (t : FTy) (g : GReg) (d : Reg) (a : Reg) (b : Reg) : FieldsFit.Statement (.vmulF t g d a b) := by
  intro x hx _
  obtain rfl := Option.some.inj hx
  have := FTy_code_lt t
  have := g.isLt
  have := d.isLt
  have := a.isLt
  have := b.isLt
  simp only [fieldsV]; omega
theorem FieldsFit.vfma (t : FTy) (g : GReg) (d : Reg) (a : Reg) (b : Reg) : FieldsFit.Statement (.vfma t g d a b) := by
  intro x hx _
  obtain rfl := Option.some.inj hx
  have := FTy_code_lt t
  have := g.isLt
  have := d.isLt
  have := a.isLt
  have := b.isLt
  simp only [fieldsV]; omega
theorem FieldsFit.vfms (t : FTy) (g : GReg) (d : Reg) (a : Reg) (b : Reg) : FieldsFit.Statement (.vfms t g d a b) := by
  intro x hx _
  obtain rfl := Option.some.inj hx
  have := FTy_code_lt t
  have := g.isLt
  have := d.isLt
  have := a.isLt
  have := b.isLt
  simp only [fieldsV]; omega
theorem FieldsFit.vminF (t : FTy) (g : GReg) (d : Reg) (a : Reg) (b : Reg) : FieldsFit.Statement (.vminF t g d a b) := by
  intro x hx _
  obtain rfl := Option.some.inj hx
  have := FTy_code_lt t
  have := g.isLt
  have := d.isLt
  have := a.isLt
  have := b.isLt
  simp only [fieldsV]; omega
theorem FieldsFit.vmaxF (t : FTy) (g : GReg) (d : Reg) (a : Reg) (b : Reg) : FieldsFit.Statement (.vmaxF t g d a b) := by
  intro x hx _
  obtain rfl := Option.some.inj hx
  have := FTy_code_lt t
  have := g.isLt
  have := d.isLt
  have := a.isLt
  have := b.isLt
  simp only [fieldsV]; omega
theorem FieldsFit.vabsF (t : FTy) (g : GReg) (d : Reg) (a : Reg) : FieldsFit.Statement (.vabsF t g d a) := by
  intro x hx _
  obtain rfl := Option.some.inj hx
  have := FTy_code_lt t
  have := g.isLt
  have := d.isLt
  have := a.isLt
  simp only [fieldsV]; omega
theorem FieldsFit.vneg (t : FTy) (g : GReg) (d : Reg) (a : Reg) : FieldsFit.Statement (.vneg t g d a) := by
  intro x hx _
  obtain rfl := Option.some.inj hx
  have := FTy_code_lt t
  have := g.isLt
  have := d.isLt
  have := a.isLt
  simp only [fieldsV]; omega
theorem FieldsFit.vrcp (t : FTy) (g : GReg) (d : Reg) (a : Reg) : FieldsFit.Statement (.vrcp t g d a) := by
  intro x hx _
  obtain rfl := Option.some.inj hx
  have := FTy_code_lt t
  have := g.isLt
  have := d.isLt
  have := a.isLt
  simp only [fieldsV]; omega
theorem FieldsFit.vrsq (t : FTy) (g : GReg) (d : Reg) (a : Reg) : FieldsFit.Statement (.vrsq t g d a) := by
  intro x hx _
  obtain rfl := Option.some.inj hx
  have := FTy_code_lt t
  have := g.isLt
  have := d.isLt
  have := a.isLt
  simp only [fieldsV]; omega
theorem FieldsFit.vexp2 (t : FTy) (g : GReg) (d : Reg) (a : Reg) : FieldsFit.Statement (.vexp2 t g d a) := by
  intro x hx _
  obtain rfl := Option.some.inj hx
  have := FTy_code_lt t
  have := g.isLt
  have := d.isLt
  have := a.isLt
  simp only [fieldsV]; omega
theorem FieldsFit.vlog2 (t : FTy) (g : GReg) (d : Reg) (a : Reg) : FieldsFit.Statement (.vlog2 t g d a) := by
  intro x hx _
  obtain rfl := Option.some.inj hx
  have := FTy_code_lt t
  have := g.isLt
  have := d.isLt
  have := a.isLt
  simp only [fieldsV]; omega
theorem FieldsFit.vaddI (t : ITy) (g : GReg) (d : Reg) (a : Reg) (b : Reg) : FieldsFit.Statement (.vaddI t g d a b) := by
  intro x hx _
  obtain rfl := Option.some.inj hx
  have := ITy_code_lt t
  have := g.isLt
  have := d.isLt
  have := a.isLt
  have := b.isLt
  simp only [fieldsV]; omega
theorem FieldsFit.vsubI (t : ITy) (g : GReg) (d : Reg) (a : Reg) (b : Reg) : FieldsFit.Statement (.vsubI t g d a b) := by
  intro x hx _
  obtain rfl := Option.some.inj hx
  have := ITy_code_lt t
  have := g.isLt
  have := d.isLt
  have := a.isLt
  have := b.isLt
  simp only [fieldsV]; omega
theorem FieldsFit.vmulI (t : ITy) (g : GReg) (d : Reg) (a : Reg) (b : Reg) : FieldsFit.Statement (.vmulI t g d a b) := by
  intro x hx _
  obtain rfl := Option.some.inj hx
  have := ITy_code_lt t
  have := g.isLt
  have := d.isLt
  have := a.isLt
  have := b.isLt
  simp only [fieldsV]; omega
theorem FieldsFit.vmulh (t : ITy) (g : GReg) (d : Reg) (a : Reg) (b : Reg) : FieldsFit.Statement (.vmulh t g d a b) := by
  intro x hx _
  obtain rfl := Option.some.inj hx
  have := ITy_code_lt t
  have := g.isLt
  have := d.isLt
  have := a.isLt
  have := b.isLt
  simp only [fieldsV]; omega
theorem FieldsFit.vminI (t : ITy) (g : GReg) (d : Reg) (a : Reg) (b : Reg) : FieldsFit.Statement (.vminI t g d a b) := by
  intro x hx _
  obtain rfl := Option.some.inj hx
  have := ITy_code_lt t
  have := g.isLt
  have := d.isLt
  have := a.isLt
  have := b.isLt
  simp only [fieldsV]; omega
theorem FieldsFit.vmaxI (t : ITy) (g : GReg) (d : Reg) (a : Reg) (b : Reg) : FieldsFit.Statement (.vmaxI t g d a b) := by
  intro x hx _
  obtain rfl := Option.some.inj hx
  have := ITy_code_lt t
  have := g.isLt
  have := d.isLt
  have := a.isLt
  have := b.isLt
  simp only [fieldsV]; omega
theorem FieldsFit.vminn (t : ITy) (g : GReg) (d : Reg) (a : Reg) (b : Reg) : FieldsFit.Statement (.vminn t g d a b) := by
  intro x hx _
  obtain rfl := Option.some.inj hx
  have := ITy_code_lt t
  have := g.isLt
  have := d.isLt
  have := a.isLt
  have := b.isLt
  simp only [fieldsV]; omega
theorem FieldsFit.vmaxn (t : ITy) (g : GReg) (d : Reg) (a : Reg) (b : Reg) : FieldsFit.Statement (.vmaxn t g d a b) := by
  intro x hx _
  obtain rfl := Option.some.inj hx
  have := ITy_code_lt t
  have := g.isLt
  have := d.isLt
  have := a.isLt
  have := b.isLt
  simp only [fieldsV]; omega
theorem FieldsFit.vand (t : ITy) (g : GReg) (d : Reg) (a : Reg) (b : Reg) : FieldsFit.Statement (.vand t g d a b) := by
  intro x hx _
  obtain rfl := Option.some.inj hx
  have := ITy_code_lt t
  have := g.isLt
  have := d.isLt
  have := a.isLt
  have := b.isLt
  simp only [fieldsV]; omega
theorem FieldsFit.vor (t : ITy) (g : GReg) (d : Reg) (a : Reg) (b : Reg) : FieldsFit.Statement (.vor t g d a b) := by
  intro x hx _
  obtain rfl := Option.some.inj hx
  have := ITy_code_lt t
  have := g.isLt
  have := d.isLt
  have := a.isLt
  have := b.isLt
  simp only [fieldsV]; omega
theorem FieldsFit.vxor (t : ITy) (g : GReg) (d : Reg) (a : Reg) (b : Reg) : FieldsFit.Statement (.vxor t g d a b) := by
  intro x hx _
  obtain rfl := Option.some.inj hx
  have := ITy_code_lt t
  have := g.isLt
  have := d.isLt
  have := a.isLt
  have := b.isLt
  simp only [fieldsV]; omega
theorem FieldsFit.vsll (t : ITy) (g : GReg) (d : Reg) (a : Reg) (b : Reg) : FieldsFit.Statement (.vsll t g d a b) := by
  intro x hx _
  obtain rfl := Option.some.inj hx
  have := ITy_code_lt t
  have := g.isLt
  have := d.isLt
  have := a.isLt
  have := b.isLt
  simp only [fieldsV]; omega
theorem FieldsFit.vsrl (t : ITy) (g : GReg) (d : Reg) (a : Reg) (b : Reg) : FieldsFit.Statement (.vsrl t g d a b) := by
  intro x hx _
  obtain rfl := Option.some.inj hx
  have := ITy_code_lt t
  have := g.isLt
  have := d.isLt
  have := a.isLt
  have := b.isLt
  simp only [fieldsV]; omega
theorem FieldsFit.vsra (t : ITy) (g : GReg) (d : Reg) (a : Reg) (b : Reg) : FieldsFit.Statement (.vsra t g d a b) := by
  intro x hx _
  obtain rfl := Option.some.inj hx
  have := ITy_code_lt t
  have := g.isLt
  have := d.isLt
  have := a.isLt
  have := b.isLt
  simp only [fieldsV]; omega
theorem FieldsFit.vabsI (t : ITy) (g : GReg) (d : Reg) (a : Reg) : FieldsFit.Statement (.vabsI t g d a) := by
  intro x hx _
  obtain rfl := Option.some.inj hx
  have := ITy_code_lt t
  have := g.isLt
  have := d.isLt
  have := a.isLt
  simp only [fieldsV]; omega
theorem FieldsFit.vadds (t : ITy) (g : GReg) (d : Reg) (a : Reg) (b : Reg) : FieldsFit.Statement (.vadds t g d a b) := by
  intro x hx _
  obtain rfl := Option.some.inj hx
  have := ITy_code_lt t
  have := g.isLt
  have := d.isLt
  have := a.isLt
  have := b.isLt
  simp only [fieldsV]; omega
theorem FieldsFit.vcmp (f : VCond) (t : ETy) (g : GReg) (d : GReg) (a : Reg) (b : Reg) : FieldsFit.Statement (.vcmp f t g d a b) := by
  intro x hx _
  obtain rfl := Option.some.inj hx
  have := VCond_code_lt f
  have := ETy_code_lt t
  have := g.isLt
  have := d.isLt
  have := a.isLt
  have := b.isLt
  simp only [fieldsV]; omega
theorem FieldsFit.vmov (t : ETy) (g : GReg) (d : Reg) (a : Reg) : FieldsFit.Statement (.vmov t g d a) := by
  intro x hx _
  obtain rfl := Option.some.inj hx
  have := ETy_code_lt t
  have := g.isLt
  have := d.isLt
  have := a.isLt
  simp only [fieldsV]; omega
theorem FieldsFit.vsel (t : ETy) (g : GReg) (d : Reg) (a : Reg) (b : Reg) : FieldsFit.Statement (.vsel t g d a b) := by
  intro x hx _
  obtain rfl := Option.some.inj hx
  have := ETy_code_lt t
  have := g.isLt
  have := d.isLt
  have := a.isLt
  have := b.isLt
  simp only [fieldsV]; omega
theorem FieldsFit.vbcast (t : ETy) (g : GReg) (d : Reg) (a : Reg) : FieldsFit.Statement (.vbcast t g d a) := by
  intro x hx _
  obtain rfl := Option.some.inj hx
  have := ETy_code_lt t
  have := g.isLt
  have := d.isLt
  have := a.isLt
  simp only [fieldsV]; omega
theorem FieldsFit.vextr (t : ETy) (d : Reg) (a : Reg) (b : Reg) : FieldsFit.Statement (.vextr t d a b) := by
  intro x hx _
  obtain rfl := Option.some.inj hx
  have := ETy_code_lt t
  have := d.isLt
  have := a.isLt
  have := b.isLt
  simp only [fieldsV]; omega
theorem FieldsFit.vins (t : ETy) (d : Reg) (a : Reg) (b : Reg) : FieldsFit.Statement (.vins t d a b) := by
  intro x hx _
  obtain rfl := Option.some.inj hx
  have := ETy_code_lt t
  have := d.isLt
  have := a.isLt
  have := b.isLt
  simp only [fieldsV]; omega
theorem FieldsFit.vperm (t : ETy) (g : GReg) (d : Reg) (a : Reg) (b : Reg) : FieldsFit.Statement (.vperm t g d a b) := by
  intro x hx _
  obtain rfl := Option.some.inj hx
  have := ETy_code_lt t
  have := g.isLt
  have := d.isLt
  have := a.isLt
  have := b.isLt
  simp only [fieldsV]; omega
theorem FieldsFit.vrot (t : ETy) (g : GReg) (d : Reg) (a : Reg) (b : Reg) : FieldsFit.Statement (.vrot t g d a b) := by
  intro x hx _
  obtain rfl := Option.some.inj hx
  have := ETy_code_lt t
  have := g.isLt
  have := d.isLt
  have := a.isLt
  have := b.isLt
  simp only [fieldsV]; omega
theorem FieldsFit.vredAdd (t : ETy) (g : GReg) (d : Reg) (a : Reg) : FieldsFit.Statement (.vredAdd t g d a) := by
  intro x hx _
  obtain rfl := Option.some.inj hx
  have := ETy_code_lt t
  have := g.isLt
  have := d.isLt
  have := a.isLt
  simp only [fieldsV]; omega
theorem FieldsFit.vredMax (t : ETy) (g : GReg) (d : Reg) (a : Reg) : FieldsFit.Statement (.vredMax t g d a) := by
  intro x hx _
  obtain rfl := Option.some.inj hx
  have := ETy_code_lt t
  have := g.isLt
  have := d.isLt
  have := a.isLt
  simp only [fieldsV]; omega
theorem FieldsFit.vredMin (t : ETy) (g : GReg) (d : Reg) (a : Reg) : FieldsFit.Statement (.vredMin t g d a) := by
  intro x hx _
  obtain rfl := Option.some.inj hx
  have := ETy_code_lt t
  have := g.isLt
  have := d.isLt
  have := a.isLt
  simp only [fieldsV]; omega
theorem FieldsFit.vscanAdd (t : ETy) (g : GReg) (d : Reg) (a : Reg) : FieldsFit.Statement (.vscanAdd t g d a) := by
  intro x hx _
  obtain rfl := Option.some.inj hx
  have := ETy_code_lt t
  have := g.isLt
  have := d.isLt
  have := a.isLt
  simp only [fieldsV]; omega
theorem FieldsFit.vscanAff (g : GReg) (d : Reg) (a : Reg) : FieldsFit.Statement (.vscanAff g d a) := by
  intro x hx _
  obtain rfl := Option.some.inj hx
  have := g.isLt
  have := d.isLt
  have := a.isLt
  simp only [fieldsV]; omega
theorem FieldsFit.vamax (t : FTy) (g : GReg) (d : Reg) (a : Reg) : FieldsFit.Statement (.vamax t g d a) := by
  intro x hx _
  obtain rfl := Option.some.inj hx
  have := FTy_code_lt t
  have := g.isLt
  have := d.isLt
  have := a.isLt
  simp only [fieldsV]; omega
theorem FieldsFit.vwid (t : NTy) (g : GReg) (d : Reg) (a : Reg) : FieldsFit.Statement (.vwid t g d a) := by
  intro x hx _
  obtain rfl := Option.some.inj hx
  have := NTy_code_lt t
  have := g.isLt
  have := d.isLt
  have := a.isLt
  simp only [fieldsV]; omega
theorem FieldsFit.vnar (t : NTy) (g : GReg) (d : Reg) (a : Reg) (b : Reg) : FieldsFit.Statement (.vnar t g d a b) := by
  intro x hx _
  obtain rfl := Option.some.inj hx
  have := NTy_code_lt t
  have := g.isLt
  have := d.isLt
  have := a.isLt
  have := b.isLt
  simp only [fieldsV]; omega
theorem FieldsFit.vscl (t : STy) (g : GReg) (d : Reg) (a : Reg) (b : Reg) : FieldsFit.Statement (.vscl t g d a b) := by
  intro x hx _
  obtain rfl := Option.some.inj hx
  have := STy_code_lt t
  have := g.isLt
  have := d.isLt
  have := a.isLt
  have := b.isLt
  simp only [fieldsV]; omega
theorem FieldsFit.vq (t : BlkSel) (g : GReg) (d : Reg) (a : Reg) (b : Reg) : FieldsFit.Statement (.vq t g d a b) := by
  intro x hx _
  obtain rfl := Option.some.inj hx
  have := BlkSel_code_lt t
  have := g.isLt
  have := d.isLt
  have := a.isLt
  have := b.isLt
  simp only [fieldsV]; omega
theorem FieldsFit.vdq (t : BlkSel) (g : GReg) (d : Reg) (a : Reg) (b : Reg) : FieldsFit.Statement (.vdq t g d a b) := by
  intro x hx _
  obtain rfl := Option.some.inj hx
  have := BlkSel_code_lt t
  have := g.isLt
  have := d.isLt
  have := a.isLt
  have := b.isLt
  simp only [fieldsV]; omega
theorem FieldsFit.vld (t : ETy) (g : GReg) (d : Reg) (a : Reg) : FieldsFit.Statement (.vld t g d a) := by
  intro x hx _
  obtain rfl := Option.some.inj hx
  have := ETy_code_lt t
  have := g.isLt
  have := d.isLt
  have := a.isLt
  simp only [fieldsV]; omega
theorem FieldsFit.vst (t : ETy) (g : GReg) (d : Reg) (a : Reg) : FieldsFit.Statement (.vst t g d a) := by
  intro x hx _
  obtain rfl := Option.some.inj hx
  have := ETy_code_lt t
  have := g.isLt
  have := d.isLt
  have := a.isLt
  simp only [fieldsV]; omega
theorem FieldsFit.vgat (t : WTy) (g : GReg) (d : Reg) (a : Reg) (b : Reg) : FieldsFit.Statement (.vgat t g d a b) := by
  intro x hx _
  obtain rfl := Option.some.inj hx
  have := WTy_code_lt t
  have := g.isLt
  have := d.isLt
  have := a.isLt
  have := b.isLt
  simp only [fieldsV]; omega
theorem FieldsFit.vsct (t : WTy) (g : GReg) (d : Reg) (a : Reg) (b : Reg) : FieldsFit.Statement (.vsct t g d a b) := by
  intro x hx _
  obtain rfl := Option.some.inj hx
  have := WTy_code_lt t
  have := g.isLt
  have := d.isLt
  have := a.isLt
  have := b.isLt
  simp only [fieldsV]; omega
theorem FieldsFit.vldb (t : ETy) (g : GReg) (d : Reg) (a : Reg) : FieldsFit.Statement (.vldb t g d a) := by
  intro x hx _
  obtain rfl := Option.some.inj hx
  have := ETy_code_lt t
  have := g.isLt
  have := d.isLt
  have := a.isLt
  simp only [fieldsV]; omega
theorem FieldsFit.gand (d : GReg) (a : GReg) (b : GReg) : FieldsFit.Statement (.gand d a b) := by
  intro x hx _
  obtain rfl := Option.some.inj hx
  have := d.isLt
  have := a.isLt
  have := b.isLt
  simp only [fieldsR]; omega
theorem FieldsFit.gor (d : GReg) (a : GReg) (b : GReg) : FieldsFit.Statement (.gor d a b) := by
  intro x hx _
  obtain rfl := Option.some.inj hx
  have := d.isLt
  have := a.isLt
  have := b.isLt
  simp only [fieldsR]; omega
theorem FieldsFit.gxor (d : GReg) (a : GReg) (b : GReg) : FieldsFit.Statement (.gxor d a b) := by
  intro x hx _
  obtain rfl := Option.some.inj hx
  have := d.isLt
  have := a.isLt
  have := b.isLt
  simp only [fieldsR]; omega
theorem FieldsFit.gnot (d : GReg) (a : GReg) : FieldsFit.Statement (.gnot d a) := by
  intro x hx _
  obtain rfl := Option.some.inj hx
  have := d.isLt
  have := a.isLt
  simp only [fieldsR]; omega
theorem FieldsFit.gpop (d : Reg) (a : GReg) : FieldsFit.Statement (.gpop d a) := by
  intro x hx _
  obtain rfl := Option.some.inj hx
  have := d.isLt
  have := a.isLt
  simp only [fieldsR]; omega
theorem FieldsFit.gfirst (d : Reg) (a : GReg) : FieldsFit.Statement (.gfirst d a) := by
  intro x hx _
  obtain rfl := Option.some.inj hx
  have := d.isLt
  have := a.isLt
  simp only [fieldsR]; omega
theorem FieldsFit.gmov (d : Reg) (a : GReg) (h : Bool) : FieldsFit.Statement (.gmov d a h) := by
  intro x hx _
  obtain rfl := Option.some.inj hx
  have := d.isLt
  have := a.isLt
  cases h <;>
  (simp only [fieldsR, Bool.false_eq_true, if_true, if_false]; omega)
theorem FieldsFit.gset (d : GReg) (a : Reg) (b : Reg) : FieldsFit.Statement (.gset d a b) := by
  intro x hx _
  obtain rfl := Option.some.inj hx
  have := d.isLt
  have := a.isLt
  have := b.isLt
  simp only [fieldsR]; omega
theorem FieldsFit.sbindMem (d : StreamReg) (a : Reg) (b : Reg) (c : Reg) : FieldsFit.Statement (.sbindMem d a b c) := by
  intro x hx _
  obtain rfl := Option.some.inj hx
  have := d.isLt
  have := a.isLt
  have := b.isLt
  have := c.isLt
  simp only [fieldsR]; omega
theorem FieldsFit.sbindCh (d : StreamReg) (a : Reg) : FieldsFit.Statement (.sbindCh d a) := by
  intro x hx _
  obtain rfl := Option.some.inj hx
  have := d.isLt
  have := a.isLt
  simp only [fieldsR]; omega
theorem FieldsFit.sbindOut (d : StreamReg) (a : Reg) (b : Reg) : FieldsFit.Statement (.sbindOut d a b) := by
  intro x hx _
  obtain rfl := Option.some.inj hx
  have := d.isLt
  have := a.isLt
  have := b.isLt
  simp only [fieldsR]; omega
theorem FieldsFit.sunbind (d : StreamReg) : FieldsFit.Statement (.sunbind d) := by
  intro x hx _
  obtain rfl := Option.some.inj hx
  have := d.isLt
  simp only [fieldsR]; omega
theorem FieldsFit.sstat (d : Reg) (a : StreamReg) : FieldsFit.Statement (.sstat d a) := by
  intro x hx _
  obtain rfl := Option.some.inj hx
  have := d.isLt
  have := a.isLt
  simp only [fieldsR]; omega
theorem FieldsFit.fef (c : RegClass) (d : Reg) : FieldsFit.Statement (.fef c d) := by
  intro x hx _
  obtain rfl := Option.some.inj hx
  have := RegClass_code_lt c
  have := d.isLt
  simp only [fieldsR]; omega
theorem FieldsFit.fee (c : RegClass) (d : Reg) : FieldsFit.Statement (.fee c d) := by
  intro x hx _
  obtain rfl := Option.some.inj hx
  have := RegClass_code_lt c
  have := d.isLt
  simp only [fieldsR]; omega
theorem FieldsFit.feqReg (c : RegClass) (d : Reg) (a : Reg) : FieldsFit.Statement (.feqReg c d a) := by
  intro x hx _
  obtain rfl := Option.some.inj hx
  have := RegClass_code_lt c
  have := d.isLt
  have := a.isLt
  simp only [fieldsR]; omega
theorem FieldsFit.marm (a : Reg) (e : Fin 4) : FieldsFit.Statement (.marm a e) := by
  intro x hx _
  obtain rfl := Option.some.inj hx
  have := a.isLt
  have := e.isLt
  simp only [fieldsR]; omega
theorem FieldsFit.mdis (m : BitVec 4) : FieldsFit.Statement (.mdis m) := by
  intro x hx _
  obtain rfl := Option.some.inj hx
  have := m.isLt
  simp only [fieldsR]; omega
theorem FieldsFit.mslp (d : Reg) (a : Reg) : FieldsFit.Statement (.mslp d a) := by
  intro x hx _
  obtain rfl := Option.some.inj hx
  have := d.isLt
  have := a.isLt
  simp only [fieldsR]; omega
theorem FieldsFit.wadr (d : Reg) (a : Reg) (b : Reg) (c : Reg) : FieldsFit.Statement (.wadr d a b c) := by
  intro x hx _
  obtain rfl := Option.some.inj hx
  have := d.isLt
  have := a.isLt
  have := b.isLt
  have := c.isLt
  simp only [fieldsR]; omega
theorem FieldsFit.barReg (a : Reg) : FieldsFit.Statement (.barReg a) := by
  intro x hx _
  obtain rfl := Option.some.inj hx
  have := a.isLt
  simp only [fieldsR]; omega
theorem FieldsFit.barArr (d : Reg) : FieldsFit.Statement (.barArr d) := by
  intro x hx _
  obtain rfl := Option.some.inj hx
  have := d.isLt
  simp only [fieldsR]; omega
theorem FieldsFit.barWait : FieldsFit.Statement (.barWait) := by
  intro x hx _
  obtain rfl := Option.some.inj hx
  simp only [fieldsR]; omega
theorem FieldsFit.barArw (d : Reg) : FieldsFit.Statement (.barArw d) := by
  intro x hx _
  obtain rfl := Option.some.inj hx
  have := d.isLt
  simp only [fieldsR]; omega
theorem FieldsFit.tqpush (a : Reg) : FieldsFit.Statement (.tqpush a) := by
  intro x hx _
  obtain rfl := Option.some.inj hx
  have := a.isLt
  simp only [fieldsR]; omega
theorem FieldsFit.tqpop (d : Reg) : FieldsFit.Statement (.tqpop d) := by
  intro x hx _
  obtain rfl := Option.some.inj hx
  have := d.isLt
  simp only [fieldsR]; omega
theorem FieldsFit.tqpopNb (d : Reg) : FieldsFit.Statement (.tqpopNb d) := by
  intro x hx _
  obtain rfl := Option.some.inj hx
  have := d.isLt
  simp only [fieldsR]; omega
theorem FieldsFit.tqpeek (d : Reg) : FieldsFit.Statement (.tqpeek d) := by
  intro x hx _
  obtain rfl := Option.some.inj hx
  have := d.isLt
  simp only [fieldsR]; omega
theorem FieldsFit.texit : FieldsFit.Statement (.texit) := by
  intro x hx _
  obtain rfl := Option.some.inj hx
  simp only [fieldsR]; omega
theorem FieldsFit.tyield : FieldsFit.Statement (.tyield) := by
  intro x hx _
  obtain rfl := Option.some.inj hx
  simp only [fieldsR]; omega
theorem FieldsFit.tmset (d : Reg) (a : Reg) : FieldsFit.Statement (.tmset d a) := by
  intro x hx _
  obtain rfl := Option.some.inj hx
  have := d.isLt
  have := a.isLt
  simp only [fieldsR]; omega
theorem FieldsFit.tlaunch (a : Reg) (b : Reg) : FieldsFit.Statement (.tlaunch a b) := by
  intro x hx _
  obtain rfl := Option.some.inj hx
  have := a.isLt
  have := b.isLt
  simp only [fieldsR]; omega
theorem FieldsFit.msend (o : MsgOrd) (a : Reg) (b : Reg) : FieldsFit.Statement (.msend o a b) := by
  intro x hx _
  obtain rfl := Option.some.inj hx
  have := MsgOrd_code_lt o
  have := a.isLt
  have := b.isLt
  simp only [fieldsR]; omega
theorem FieldsFit.mrecv (d : Reg) (a : Reg) (c : Reg) : FieldsFit.Statement (.mrecv d a c) := by
  intro x hx _
  obtain rfl := Option.some.inj hx
  have := d.isLt
  have := a.isLt
  have := c.isLt
  simp only [fieldsR]; omega
theorem FieldsFit.mwait (d : Reg) (a : Reg) (b : Reg) : FieldsFit.Statement (.mwait d a b) := by
  intro x hx _
  obtain rfl := Option.some.inj hx
  have := d.isLt
  have := a.isLt
  have := b.isLt
  simp only [fieldsR]; omega
theorem FieldsFit.mpeek (d : Reg) (a : Reg) (n : Fin 3) : FieldsFit.Statement (.mpeek d a n) := by
  intro x hx _
  obtain rfl := Option.some.inj hx
  have := d.isLt
  have := a.isLt
  have := n.isLt
  simp only [fieldsR]; omega
theorem FieldsFit.msendt (o : MsgOrd) (a : Reg) (b : Reg) : FieldsFit.Statement (.msendt o a b) := by
  intro x hx _
  obtain rfl := Option.some.inj hx
  have := MsgOrd_code_lt o
  have := a.isLt
  have := b.isLt
  simp only [fieldsR]; omega
theorem FieldsFit.mcfg (a : Reg) (b : Reg) : FieldsFit.Statement (.mcfg a b) := by
  intro x hx _
  obtain rfl := Option.some.inj hx
  have := a.isLt
  have := b.isLt
  simp only [fieldsR]; omega
theorem FieldsFit.cpy (d : Reg) (a : Reg) (b : Reg) (c : Reg) : FieldsFit.Statement (.cpy d a b c) := by
  intro x hx _
  obtain rfl := Option.some.inj hx
  have := d.isLt
  have := a.isLt
  have := b.isLt
  have := c.isLt
  simp only [fieldsR]; omega
theorem FieldsFit.cpyt (d : Reg) (a : Reg) (b : Reg) (c : Reg) : FieldsFit.Statement (.cpyt d a b c) := by
  intro x hx _
  obtain rfl := Option.some.inj hx
  have := d.isLt
  have := a.isLt
  have := b.isLt
  have := c.isLt
  simp only [fieldsR]; omega
theorem FieldsFit.cpym (d : Reg) (a : Reg) (b : Reg) (c : Reg) : FieldsFit.Statement (.cpym d a b c) := by
  intro x hx _
  obtain rfl := Option.some.inj hx
  have := d.isLt
  have := a.isLt
  have := b.isLt
  have := c.isLt
  simp only [fieldsR]; omega
theorem FieldsFit.cpyf (z : Size) (a : Reg) (b : Reg) : FieldsFit.Statement (.cpyf z a b) := by
  intro x hx _
  obtain rfl := Option.some.inj hx
  have := Size_code_lt z
  have := a.isLt
  have := b.isLt
  simp only [fieldsR]; omega
theorem FieldsFit.cpyq (d : Reg) (a : Reg) : FieldsFit.Statement (.cpyq d a) := by
  intro x hx _
  obtain rfl := Option.some.inj hx
  have := d.isLt
  have := a.isLt
  simp only [fieldsR]; omega
theorem FieldsFit.mma (f : MmaFmt) (a : Reg) (b : Reg) (c : Reg) : FieldsFit.Statement (.mma f a b c) := by
  intro x hx _
  obtain rfl := Option.some.inj hx
  have := MmaFmt_code_lt f
  have := a.isLt
  have := b.isLt
  have := c.isLt
  simp only [fieldsR]; omega
theorem FieldsFit.mmaSp (f : MmaFmt) (a : Reg) (b : Reg) (c : Reg) (d : Reg) : FieldsFit.Statement (.mmaSp f a b c d) := by
  intro x hx _
  obtain rfl := Option.some.inj hx
  have := MmaFmt_code_lt f
  have := a.isLt
  have := b.isLt
  have := c.isLt
  have := d.isLt
  simp only [fieldsR]; omega
theorem FieldsFit.acz (a : Reg) : FieldsFit.Statement (.acz a) := by
  intro x hx _
  obtain rfl := Option.some.inj hx
  have := a.isLt
  simp only [fieldsR]; omega
theorem FieldsFit.acld (a : Reg) (b : Reg) : FieldsFit.Statement (.acld a b) := by
  intro x hx _
  obtain rfl := Option.some.inj hx
  have := a.isLt
  have := b.isLt
  simp only [fieldsR]; omega
theorem FieldsFit.acst (a : Reg) (b : Reg) : FieldsFit.Statement (.acst a b) := by
  intro x hx _
  obtain rfl := Option.some.inj hx
  have := a.isLt
  have := b.isLt
  simp only [fieldsR]; omega
theorem FieldsFit.adrn (d : Reg) (a : Reg) (b : Reg) (c : Reg) : FieldsFit.Statement (.adrn d a b c) := by
  intro x hx _
  obtain rfl := Option.some.inj hx
  have := d.isLt
  have := a.isLt
  have := b.isLt
  have := c.isLt
  simp only [fieldsR]; omega
theorem FieldsFit.acrd (d : Reg) (a : Reg) : FieldsFit.Statement (.acrd d a) := by
  intro x hx _
  obtain rfl := Option.some.inj hx
  have := d.isLt
  have := a.isLt
  simp only [fieldsR]; omega
theorem FieldsFit.acwr (b : Reg) (a : Reg) : FieldsFit.Statement (.acwr b a) := by
  intro x hx _
  obtain rfl := Option.some.inj hx
  have := b.isLt
  have := a.isLt
  simp only [fieldsR]; omega
theorem FieldsFit.tredAdd (a : Reg) (b : Reg) (c : Reg) : FieldsFit.Statement (.tredAdd a b c) := by
  intro x hx _
  obtain rfl := Option.some.inj hx
  have := a.isLt
  have := b.isLt
  have := c.isLt
  simp only [fieldsR]; omega
theorem FieldsFit.tredMax (a : Reg) (b : Reg) (c : Reg) : FieldsFit.Statement (.tredMax a b c) := by
  intro x hx _
  obtain rfl := Option.some.inj hx
  have := a.isLt
  have := b.isLt
  have := c.isLt
  simp only [fieldsR]; omega
theorem FieldsFit.tredMin (a : Reg) (b : Reg) (c : Reg) : FieldsFit.Statement (.tredMin a b c) := by
  intro x hx _
  obtain rfl := Option.some.inj hx
  have := a.isLt
  have := b.isLt
  have := c.isLt
  simp only [fieldsR]; omega
theorem FieldsFit.tscanAdd (a : Reg) (b : Reg) (c : Reg) : FieldsFit.Statement (.tscanAdd a b c) := by
  intro x hx _
  obtain rfl := Option.some.inj hx
  have := a.isLt
  have := b.isLt
  have := c.isLt
  simp only [fieldsR]; omega
theorem FieldsFit.tscanAff (a : Reg) (b : Reg) (c : Reg) : FieldsFit.Statement (.tscanAff a b c) := by
  intro x hx _
  obtain rfl := Option.some.inj hx
  have := a.isLt
  have := b.isLt
  have := c.isLt
  simp only [fieldsR]; omega
theorem FieldsFit.tbar : FieldsFit.Statement (.tbar) := by
  intro x hx _
  obtain rfl := Option.some.inj hx
  simp only [fieldsR]; omega
theorem FieldsFit.ccv (a : Reg) (b : Reg) (c : Reg) : FieldsFit.Statement (.ccv a b c) := by
  intro x hx _
  obtain rfl := Option.some.inj hx
  have := a.isLt
  have := b.isLt
  have := c.isLt
  simp only [fieldsR]; omega
theorem FieldsFit.ccvq (a : Reg) (b : Reg) (c : Reg) (d : Reg) : FieldsFit.Statement (.ccvq a b c d) := by
  intro x hx _
  obtain rfl := Option.some.inj hx
  have := a.isLt
  have := b.isLt
  have := c.isLt
  have := d.isLt
  simp only [fieldsR]; omega
theorem FieldsFit.prmi (d : Reg) (a : Reg) (b : Reg) : FieldsFit.Statement (.prmi d a b) := by
  intro x hx _
  obtain rfl := Option.some.inj hx
  have := d.isLt
  have := a.isLt
  have := b.isLt
  simp only [fieldsR]; omega
theorem FieldsFit.prmr (o : PrmOrd) (a : Reg) (b : Reg) : FieldsFit.Statement (.prmr o a b) := by
  intro x hx _
  obtain rfl := Option.some.inj hx
  have := PrmOrd_code_lt o
  have := a.isLt
  have := b.isLt
  simp only [fieldsR]; omega
theorem FieldsFit.prmx (o : PrmOrd) (p : PrmPolicy) (a : Reg) : FieldsFit.Statement (.prmx o p a) := by
  intro x hx _
  obtain rfl := Option.some.inj hx
  have := PrmOrd_code_lt o
  have := PrmPolicy_code_lt p
  have := a.isLt
  simp only [fieldsR]; omega
theorem FieldsFit.prmq (h : PrmSel) (d : Reg) (a : Reg) : FieldsFit.Statement (.prmq h d a) := by
  intro x hx _
  obtain rfl := Option.some.inj hx
  have := PrmSel_code_lt h
  have := d.isLt
  have := a.isLt
  simp only [fieldsR]; omega
theorem FieldsFit.wupd (a : Reg) (b : Reg) : FieldsFit.Statement (.wupd a b) := by
  intro x hx _
  obtain rfl := Option.some.inj hx
  have := a.isLt
  have := b.isLt
  simp only [fieldsR]; omega
theorem FieldsFit.nbpost (d : Reg) (a : Reg) (b : Reg) (c : Reg) : FieldsFit.Statement (.nbpost d a b c) := by
  intro x hx _
  obtain rfl := Option.some.inj hx
  have := d.isLt
  have := a.isLt
  have := b.isLt
  have := c.isLt
  simp only [fieldsR]; omega
theorem FieldsFit.nbview (d : Reg) (a : Reg) (c : Reg) : FieldsFit.Statement (.nbview d a c) := by
  intro x hx _
  obtain rfl := Option.some.inj hx
  have := d.isLt
  have := a.isLt
  have := c.isLt
  simp only [fieldsR]; omega
theorem FieldsFit.nbadv (d : Reg) (a : Reg) (b : Reg) : FieldsFit.Statement (.nbadv d a b) := by
  intro x hx _
  obtain rfl := Option.some.inj hx
  have := d.isLt
  have := a.isLt
  have := b.isLt
  simp only [fieldsR]; omega
theorem FieldsFit.nbinit (d : Reg) (a : Reg) (b : Reg) (c : Reg) : FieldsFit.Statement (.nbinit d a b c) := by
  intro x hx _
  obtain rfl := Option.some.inj hx
  have := d.isLt
  have := a.isLt
  have := b.isLt
  have := c.isLt
  simp only [fieldsR]; omega
theorem FieldsFit.annulledWord (t : TileId) (k : Slot) : FieldsFit.Statement (.annulledWord t k) := nofun
theorem FieldsFit.resultLand (t : TileId) (k : Slot) (i : Nat) : FieldsFit.Statement (.resultLand t k i) := nofun
theorem FieldsFit.loadFill (t : TileId) (k : Slot) (r : LoadPart) : FieldsFit.Statement (.loadFill t k r) := nofun
theorem FieldsFit.storeAck (t : TileId) (id : Nat) (nxt : StoreStage) : FieldsFit.Statement (.storeAck t id nxt) := nofun
theorem FieldsFit.releaseLeaves (t : TileId) (id : Nat) : FieldsFit.Statement (.releaseLeaves t id) := nofun
theorem FieldsFit.homeAccess (t : TileId) (k : Slot) : FieldsFit.Statement (.homeAccess t k) := nofun
theorem FieldsFit.answer (t : TileId) (k : Slot) : FieldsFit.Statement (.answer t k) := nofun
theorem FieldsFit.refusedResend (r : Resend) : FieldsFit.Statement (.refusedResend r) := nofun
theorem FieldsFit.withdrawal (t : TileId) (k : Slot) : FieldsFit.Statement (.withdrawal t k) := nofun
theorem FieldsFit.withdrawalConfirm (t : TileId) (k : Slot) : FieldsFit.Statement (.withdrawalConfirm t k) := nofun
theorem FieldsFit.monitorNotice (t : TileId) (k : Slot) (e : Fin 4) : FieldsFit.Statement (.monitorNotice t k e) := nofun
theorem FieldsFit.mslpTimeout (t : TileId) (k : Slot) : FieldsFit.Statement (.mslpTimeout t k) := nofun
theorem FieldsFit.wadrTimeout (t : TileId) (k : Slot) : FieldsFit.Statement (.wadrTimeout t k) := nofun
theorem FieldsFit.barrierComplete (t : TileId) : FieldsFit.Statement (.barrierComplete t) := nofun
theorem FieldsFit.gangBarrierComplete (g : Nat) : FieldsFit.Statement (.gangBarrierComplete g) := nofun
theorem FieldsFit.wake (src : WakeSrc) : FieldsFit.Statement (.wake src) := nofun
theorem FieldsFit.channelAccept (src : MsgSrc) : FieldsFit.Statement (.channelAccept src) := nofun
theorem FieldsFit.horizonRound (g : Nat) (rest : Word) : FieldsFit.Statement (.horizonRound g rest) := nofun
theorem FieldsFit.horizonPublish (t : TileId) (j : Nat) : FieldsFit.Statement (.horizonPublish t j) := nofun
theorem FieldsFit.streamFetch (t : TileId) (k : Slot) (r : StreamReg) : FieldsFit.Statement (.streamFetch t k r) := nofun
theorem FieldsFit.streamWrite (t : TileId) (k : Slot) (r : StreamReg) : FieldsFit.Statement (.streamWrite t k r) := nofun
theorem FieldsFit.streamElementAck (t : TileId) (k : Slot) (r : StreamReg) : FieldsFit.Statement (.streamElementAck t k r) := nofun
theorem FieldsFit.carrierAccept (t : TileId) : FieldsFit.Statement (.carrierAccept t) := nofun
theorem FieldsFit.fretboardEnter (t : TileId) : FieldsFit.Statement (.fretboardEnter t) := nofun
theorem FieldsFit.dispatch (t : TileId) (id : Nat) : FieldsFit.Statement (.dispatch t id) := nofun
theorem FieldsFit.addressGeneration (t : TileId) (id : Nat) (g : GenStep) : FieldsFit.Statement (.addressGeneration t id g) := nofun
theorem FieldsFit.readDone (t : TileId) (id : Nat) : FieldsFit.Statement (.readDone t id) := nofun
theorem FieldsFit.operationComplete (t : TileId) (id : Nat) : FieldsFit.Statement (.operationComplete t id) := nofun
theorem FieldsFit.errorCompletion (t : TileId) (id : Nat) (e : EngErr) : FieldsFit.Statement (.errorCompletion t id e) := nofun
theorem FieldsFit.stagingCommit (i : Nat) : FieldsFit.Statement (.stagingCommit i) := nofun
theorem FieldsFit.groupBroadcast (t : TileId) (id : Nat) (m : TileId) : FieldsFit.Statement (.groupBroadcast t id m) := nofun
theorem FieldsFit.treeResult (g : Nat) : FieldsFit.Statement (.treeResult g) := nofun
theorem FieldsFit.treeStep (g : Nat) (l : TreeLevel) (parts : Option (List TreePart)) : FieldsFit.Statement (.treeStep g l parts) := nofun
theorem FieldsFit.weltApply (t : TileId) : FieldsFit.Statement (.weltApply t) := nofun
theorem FieldsFit.kChunkBoundary (c : ChunkStart) : FieldsFit.Statement (.kChunkBoundary c) := nofun
theorem FieldsFit.translationWalk (die : Nat) (station : Nat) (pid : BitVec 16) (page : BitVec 36) : FieldsFit.Statement (.translationWalk die station pid page) := nofun
theorem FieldsFit.pdbase (v : Word) : FieldsFit.Statement (.pdbase v) := nofun
theorem FieldsFit.inval (v : Word) : FieldsFit.Statement (.inval v) := nofun
theorem FieldsFit.resume (v : Word) : FieldsFit.Statement (.resume v) := nofun
theorem FieldsFit.bankFormatWrite (t : TileId) (n : Fin 16) (v : Word) : FieldsFit.Statement (.bankFormatWrite t n v) := nofun
theorem FieldsFit.headerStore (t : TileId) (k : Fin 16) (off : Fin 64) (bytes : List Byte) : FieldsFit.Statement (.headerStore t k off bytes) := nofun
theorem FieldsFit.bindingRecordStore (t : TileId) (k : Slot) (r : StreamReg) (v : Word) : FieldsFit.Statement (.bindingRecordStore t k r v) := nofun
theorem FieldsFit.watchpointControlWrite (t : TileId) (j : Fin 2) (v : Word) : FieldsFit.Statement (.watchpointControlWrite t j v) := nofun
theorem FieldsFit.registerWrite (p : RegPlace) (v : Word) : FieldsFit.Statement (.registerWrite p v) := nofun
theorem FieldsFit.timer (t : TileId) (k : Slot) : FieldsFit.Statement (.timer t k) := nofun
theorem FieldsFit.rsvTimeout (t : TileId) (k : Slot) : FieldsFit.Statement (.rsvTimeout t k) := nofun
theorem FieldsFit.trapEntry (t : TileId) (k : Slot) : FieldsFit.Statement (.trapEntry t k) := nofun
theorem FieldsFit.uncorrectableError (u : ErrUse) : FieldsFit.Statement (.uncorrectableError u) := nofun
theorem FieldsFit.pairCopyDone (t : TileId) : FieldsFit.Statement (.pairCopyDone t) := nofun
theorem FieldsFit.intervalEnd (t : TileId) (odd : BitVec 64) : FieldsFit.Statement (.intervalEnd t odd) := nofun
theorem FieldsFit.debugHalt (die : Nat) : FieldsFit.Statement (.debugHalt die) := nofun
theorem FieldsFit.debugResume (die : Nat) : FieldsFit.Statement (.debugResume die) := nofun
theorem FieldsFit.preempt (g : Nat) : FieldsFit.Statement (.preempt g) := nofun
theorem FieldsFit.deadlineStop (g : Nat) : FieldsFit.Statement (.deadlineStop g) := nofun
theorem FieldsFit.stoppedGangDelivery (src : AgentSrc) : FieldsFit.Statement (.stoppedGangDelivery src) := nofun
theorem FieldsFit.placement (g : Nat) (act : PlaceAct) : FieldsFit.Statement (.placement g act) := nofun
theorem FieldsFit.placementConfirm (g : Nat) : FieldsFit.Statement (.placementConfirm g) := nofun
theorem FieldsFit.launchTick (g : Nat) : FieldsFit.Statement (.launchTick g) := nofun
theorem FieldsFit.bridgeReplay (f : FlitReplay) : FieldsFit.Statement (.bridgeReplay f) := nofun
theorem FieldsFit.bridgeRetrain (b : Fin 11) : FieldsFit.Statement (.bridgeRetrain b) := nofun
theorem FieldsFit.retrainingEnd (b : Fin 11) (ok : Bool) : FieldsFit.Statement (.retrainingEnd b ok) := nofun
theorem FieldsFit.portFailure (p : Fin 24) (lost : List (Nat × Option Nat)) : FieldsFit.Statement (.portFailure p lost) := nofun
theorem FieldsFit.laceRetransmit (p : Fin 24) : FieldsFit.Statement (.laceRetransmit p) := nofun
theorem FieldsFit.homeLost (h : LostHome) : FieldsFit.Statement (.homeLost h) := nofun
theorem FieldsFit.inFieldTest (die : Nat) (cluster : Nat) (fails : List TileId) : FieldsFit.Statement (.inFieldTest die cluster fails) := nofun
theorem FieldsFit.doorbell (w : Fin 24) (v : Word) : FieldsFit.Statement (.doorbell w v) := nofun
theorem FieldsFit.launch (w : Fin 24) : FieldsFit.Statement (.launch w) := nofun
theorem FieldsFit.copy (w : Fin 24) : FieldsFit.Statement (.copy w) := nofun
theorem FieldsFit.read (w : Fin 24) : FieldsFit.Statement (.read w) := nofun
theorem FieldsFit.write (w : Fin 24) : FieldsFit.Statement (.write w) := nofun
theorem FieldsFit.hostFence (w : Fin 24) : FieldsFit.Statement (.hostFence w) := nofun
theorem FieldsFit.stop (w : Fin 24) : FieldsFit.Statement (.stop w) := nofun
theorem FieldsFit.resumeGang (w : Fin 24) : FieldsFit.Statement (.resumeGang w) := nofun
theorem FieldsFit.gangEnd (w : Fin 24) : FieldsFit.Statement (.gangEnd w) := nofun
theorem FieldsFit.doneClear (w : Fin 24) (m : Byte) : FieldsFit.Statement (.doneClear w m) := nofun
theorem FieldsFit.bar2Write (pa : BitVec 40) (bytes : List Byte) : FieldsFit.Statement (.bar2Write pa bytes) := nofun
theorem FieldsFit.bar2Read (pa : BitVec 40) (n : Nat) : FieldsFit.Statement (.bar2Read pa n) := nofun
theorem FieldsFit.cxlMemAccess (op : CxlOp) : FieldsFit.Statement (.cxlMemAccess op) := nofun
theorem FieldsFit.dmodeWrite (v : Word) : FieldsFit.Statement (.dmodeWrite v) := nofun
theorem FieldsFit.plimWrite (v : Word) : FieldsFit.Statement (.plimWrite v) := nofun
theorem FieldsFit.arbiterPeriod (grants : List Nat) : FieldsFit.Statement (.arbiterPeriod grants) := nofun
theorem FieldsFit.thermalThrottle (die : Nat) (hot : Bool) : FieldsFit.Statement (.thermalThrottle die hot) := nofun
theorem FieldsFit.thermalStop (die : Nat) : FieldsFit.Statement (.thermalStop die) := nofun
theorem FieldsFit.supplyDroop (die : Nat) : FieldsFit.Statement (.supplyDroop die) := nofun
theorem FieldsFit.wearLogFlush : FieldsFit.Statement .wearLogFlush := nofun
theorem FieldsFit.powerOn (b : BootRun) : FieldsFit.Statement (.powerOn b) := nofun
theorem FieldsFit.powerLoss : FieldsFit.Statement (.powerLoss) := nofun
theorem FieldsFit.reload (b : BootRun) : FieldsFit.Statement (.reload b) := nofun
theorem FieldsFit.attestRequest : FieldsFit.Statement (.attestRequest) := nofun
theorem FieldsFit.attestReport : FieldsFit.Statement (.attestReport) := nofun

end Sys2Proof.Laws
end

