-- ==== Sys2Proof/Tests/Slice0.lean ====
section
/-! SUPPORT. Tests: words written out from the tables of spec/03_encoding.md, the checks of WellFormed, one step of some instructions, and, for
each statement with hypotheses, states and operands that meet them. -/

namespace Sys2Proof.Tests

set_option Elab.async false

open Sys2Proof Sys2Proof.Machine

-- Decoding: every word instruction, by a word written out field by field from spec/03_encoding.md

/-- Each word decodes to its instruction, which encodes to the word. -/
def reads (l : List (Insn × Instr)) : Bool :=
  l.all fun p => (match decodeWord p.1 with
    | .ok i => decide (i = p.2)
    | .error _ => false) && encode p.2 == some p.1

/-- Each word is refused for its reason. -/
def refuses (l : List (Insn × Illegal)) : Bool :=
  l.all fun p => match decodeWord p.1 with
    | .ok _ => false
    | .error e => decide (e = p.2)

/-- OPI (R102, R103), from the tables of spec/03_encoding.md. -/
theorem test_decode_opi : reads [
  (0b0000000000_01010_10001_00011_0000001, .add 3 17 10),
  (0b0000100000_01011_10010_00100_0000001, .sub 4 18 11),
  (0b0001000000_01100_10011_00101_0000001, .and 5 19 12),
  (0b0001100000_01101_10100_00110_0000001, .or 6 20 13),
  (0b0010000000_01110_10101_00111_0000001, .xor 7 21 14),
  (0b0010100000_01111_10110_01000_0000001, .sll 8 22 15),
  (0b0011000000_10000_10111_01001_0000001, .srl 9 23 16),
  (0b0011100000_10001_11000_01010_0000001, .sra 10 24 17),
  (0b0100000000_10010_11001_01011_0000001, .slt 11 25 18),
  (0b0100100000_10011_11010_01100_0000001, .sltn 12 26 19),
  (0b0101000000_10100_11011_01101_0000001, .min 13 27 20),
  (0b0101100000_10101_11100_01110_0000001, .max 14 28 21),
  (0b0110000000_10110_11101_01111_0000001, .minn 15 29 22),
  (0b0110100000_10111_11110_10000_0000001, .maxn 16 30 23),
  (0b0111000000_11000_11111_10001_0000001, .mul 17 31 24),
  (0b0111100000_11001_00000_10010_0000001, .mulh 18 0 25),
  (0b1000000000_11010_00001_10011_0000001, .mulhn 19 1 26),
  (0b1000100000_11011_00010_10100_0000001, .div 20 2 27),
  (0b1001000000_11100_00011_10101_0000001, .divn 21 3 28),
  (0b1001100000_11101_00100_10110_0000001, .rem 22 4 29),
  (0b1010000000_11110_00101_10111_0000001, .remn 23 5 30),
  (0b1010100000_11111_00110_11000_0000001, .rot 24 6 31),
  (0b101100000000000_00001_11110_0000001, .clz 30 1),
  (0b101110000000000_00001_11110_0000001, .ctz 30 1),
  (0b110000000000000_00001_11110_0000001, .popc 30 1),
  (0b11001_11111_00110_00101_00100_0000001, .sel 4 5 6 31)] = true := by decide

/-- IMMI, LUI, ADPC and BITF (R105 to R107), from the tables of spec/03_encoding.md. -/
theorem test_decode_immi : reads [
  (0b100000000000_000_11111_00001_0000010, .addi 1 31 0x800),
  (0b011111111111_001_11110_00010_0000010, .andi 2 30 0x7FF),
  (0b000000000001_010_11101_00011_0000010, .ori 3 29 0x001),
  (0b101010111100_011_11100_00100_0000010, .xori 4 28 0xABC),
  (0b111111111111_100_11011_00101_0000010, .slti 5 27 0xFFF),
  (0b000100100011_101_11010_00110_0000010, .sltni 6 26 0x123),
  (0b000000_111111_110_01001_00111_0000010, .slli 7 9 63),
  (0b000001_100000_110_01001_00111_0000010, .srli 7 9 32),
  (0b000010_000001_110_01001_00111_0000010, .srai 7 9 1),
  (0b10000000000000000001_01100_0000011, .lui 12 0x80001),
  (0b11111111111111111110_01101_0000100, .adpc 13 0xFFFFE),
  (0b000101_000011_000_01001_01000_0000101, .ext 8 9 3 5),
  (0b001100_010111_001_01001_01000_0000101, .extn 8 9 23 12),
  (0b010011_101011_010_01001_01000_0000101, .ins 8 9 43 19)] = true := by decide

/-- SK, SKI, FSK32, FSK64, BR, JL and JLR (R108, R112 to R114), from the tables of spec/03_encoding.md. -/
theorem test_decode_skip : reads [
  (0b0000000000_10101_00100_101_11_0000110, .sk .gen 3 4 21),
  (0b100000000000001_00110_111_01_0000111, .ski .ntst 1 6 0x4001),
  (0b0000000000_01000_00111_111_10_1000011, .fsk .ford 2 7 8),
  (0b0000000000_11110_01001_100_01_1000100, .fskd .fle 1 9 30),
  (0b1000000001_00101_10010_00_100_0100111, .br .ltn 18 5 0x201),
  (0b10000000000000000011_00001_0101000, .jl 1 0x80003),
  (0b111111111100_000_00010_00001_0101001, .jlr 1 2 0xFFC)] = true := by decide

/-- LD, ST, LDX, STX and ATOM (R115, R262, R265, R267), from the tables of spec/03_encoding.md. -/
theorem test_decode_mem : reads [
  (0b100000000100_101_00111_00110_0100000, .ld .n32 6 7 0x804),
  (0b1010010_001_01001_01000_11111_0100001, .st .b16 9 8 0xA5F),
  (0b0000_1_00100_00000_00101_00100_0100010, .ldAcq .w32 .domain 4 5),
  (0b000100000000000_01100_01011_0100010, .ldfe64 11 12),
  (0b000110000000000_01100_01011_0100010, .ldff64 11 12),
  (0b001000000000000_01100_01011_0100010, .ldfe32 11 12),
  (0b001010000000000_01100_01011_0100010, .ldff32 11 12),
  (0b0000_0_00011_10110_10111_00000_0100011, .stRel .w64 .package 22 23),
  (0b0001_1_00000_00010_00011_00000_0100011, .stef .w32 2 3),
  (0b0010_0_00000_00100_00101_00000_0100011, .stff .w64 4 5),
  (0b001100000000000_11111_00000_0100011, .ste 31),
  (0b1_00000000000000_00010_00001_0100100, .arsv .w32 1 2),
  (0b0_000100000_00011_00100_00000_0100100, .arel .w64 3 4),
  (0b0_001000000_10101_01011_00001_0100100, .aadd .w64 1 11 21),
  (0b1_001100000_10110_01100_00010_0100100, .amin .w32 2 12 22),
  (0b0_010000000_10111_01101_00011_0100100, .amax .w64 3 13 23),
  (0b1_010100000_11000_01110_00100_0100100, .aminn .w32 4 14 24),
  (0b0_011000000_11001_01111_00101_0100100, .amaxn .w64 5 15 25),
  (0b1_011100000_11010_10000_00110_0100100, .aand .w32 6 16 26),
  (0b0_100000000_11011_10001_00111_0100100, .aor .w64 7 17 27),
  (0b1_100100000_11100_10010_01000_0100100, .axor .w32 8 18 28),
  (0b0_101000000_11101_10011_01001_0100100, .axchg .w64 9 19 29),
  (0b1_110000000_11110_10100_01010_0100100, .aaddf .w32 10 20 30),
  (0b1_1011_01000_00111_00110_00101_0100100, .acas .w32 5 6 7 8)] = true := by decide

/-- FENCE, WAIT, CSR and SYS (R121, R124, R273, R359), from the tables of spec/03_encoding.md. -/
theorem test_decode_sys : reads [
  (0b00000_00000_000000000000000_0100101, .fence .tile),
  (0b00001_00001_000000000000000_0100101, .fenceLd .cluster),
  (0b00010_00010_000000000000000_0100101, .fenceSt .die),
  (0b00011_00100_000000000000000_0100101, .xfence .domain),
  (0b0010000000000000000000000_0100101, .fenceI),
  (0b0001_0010_0100_1000_000000000_0100110, .wait 1 2 4 8),
  (0b110000000001_00000000_00101_0101010, .csrr 5 0xC01),
  (0b100000000100_001_00110_00101_0101010, .csrw 5 0x804 6),
  (0b100000000100_010_00110_00101_0101010, .csrs 5 0x804 6),
  (0b100000000100_011_00110_00101_0101010, .csrc 5 0x804 6),
  (0b00000_11111_000000000000000_0101011, .sys 31),
  (0b0000100000000000000000000_0101011, .eret),
  (0b00010_10001_000000000000000_0101011, .brk 17),
  (0b000110000000000_01001_00000_0101011, .tkill 9),
  (0b001000000000000_01001_01000_0101011, .pair 8 9),
  (0b0010100000000000000000000_0101011, .unpair),
  (0b0011000000000000000000000_0101011, .fprt),
  (0b0011100000000000000000000_0101011, .mxfrz),
  (0b0100000000000000000000000_0101011, .mxthaw),
  (0b010010000000000_01010_00000_0101011, .scrub 10)] = true := by decide

/-- FOP32, FOP64 and FCVT (R128, R130), from the tables of spec/03_encoding.md. -/
theorem test_decode_float : reads [
  (0b0000000_000_10111_00010_00001_100000_0, .fadd .single .rne 1 2 23),
  (0b0000100_001_11000_00011_00010_100000_1, .fsub .double .rtz 2 3 24),
  (0b0001000_011_11001_00100_00011_100000_0, .fmul .single .rup 3 4 25),
  (0b0001100_111_11010_00101_00100_100000_1, .fdiv .double .dyn 4 5 26),
  (0b0010000_010_00000_00100_00011_100000_1, .fsqrt .double .rdn 3 4),
  (0b0010100000_10100_01001_00001_100000_0, .fmin .single 1 9 20),
  (0b0011000000_10101_01010_00010_100000_1, .fmax .double 2 10 21),
  (0b0011100000_10110_01011_00011_100000_0, .fsgnj .single 3 11 22),
  (0b0100000000_10111_01100_00100_100000_1, .fsgnjn .double 4 12 23),
  (0b0100100000_11000_01101_00101_100000_0, .fsgnjx .single 5 13 24),
  (0b0111000000_11001_01110_00110_100000_1, .feq .double 6 14 25),
  (0b0111100000_11010_01111_00111_100000_0, .flt .single 7 15 26),
  (0b1000000000_11011_10000_01000_100000_1, .fle .double 8 16 27),
  (0b01010_11101_10100_01001_00001_100000_0, .fma .single 1 9 20 29),
  (0b01011_11110_10101_01010_00010_100000_1, .fms .double 2 10 21 30),
  (0b01100_11111_10110_01011_00011_100000_0, .fnma .single 3 11 22 31),
  (0b011010000000000_00111_00110_100000_1, .fclass .double 6 7),
  (0b0_1_111_00101_00001_01001_01000_1000010, .fcvt true .dyn .n32 .f64 8 9)] = true := by decide

/-- VOPF (R138), from the tables of spec/03_encoding.md. -/
theorem test_decode_vopf : reads [
  (0b0000_001_001_01010_00111_00100_1100000, .vaddF .bf16 1 4 7 10),
  (0b0001_010_010_10001_01100_00111_1100000, .vsubF .f16 2 7 12 17),
  (0b0010_000_011_11000_10001_01010_1100000, .vmulF .f32 3 10 17 24),
  (0b0011_001_100_11111_10110_01101_1100000, .vfma .bf16 4 13 22 31),
  (0b0100_010_101_00110_11011_10000_1100000, .vfms .f16 5 16 27 6),
  (0b0101_000_110_01101_00000_10011_1100000, .vminF .f32 6 19 0 13),
  (0b0110_001_111_10100_00101_10110_1100000, .vmaxF .bf16 7 22 5 20),
  (0b0111_010_000_00000_01010_11001_1100000, .vabsF .f16 0 25 10),
  (0b1000_000_001_00000_01111_11100_1100000, .vneg .f32 1 28 15),
  (0b1001_001_010_00000_10100_11111_1100000, .vrcp .bf16 2 31 20),
  (0b1010_010_011_00000_11001_00010_1100000, .vrsq .f16 3 2 25),
  (0b1011_000_100_00000_11110_00101_1100000, .vexp2 .f32 4 5 30),
  (0b1100_001_101_00000_00011_01000_1100000, .vlog2 .bf16 5 8 3)] = true := by decide

/-- VOPI (R140), from the tables of spec/03_encoding.md. -/
theorem test_decode_vopi : reads [
  (0b0000_110_110_00101_01000_01011_1100001, .vaddI .i8 6 11 8 5),
  (0b0001_100_111_01100_01101_01110_1100001, .vsubI .i32 7 14 13 12),
  (0b0010_101_000_10011_10010_10001_1100001, .vmulI .i16 0 17 18 19),
  (0b0011_110_001_11010_10111_10100_1100001, .vmulh .i8 1 20 23 26),
  (0b0100_100_010_00001_11100_10111_1100001, .vminI .i32 2 23 28 1),
  (0b0101_101_011_01000_00001_11010_1100001, .vmaxI .i16 3 26 1 8),
  (0b0110_110_100_01111_00110_11101_1100001, .vminn .i8 4 29 6 15),
  (0b0111_100_101_10110_01011_00000_1100001, .vmaxn .i32 5 0 11 22),
  (0b1000_101_110_11101_10000_00011_1100001, .vand .i16 6 3 16 29),
  (0b1001_110_111_00100_10101_00110_1100001, .vor .i8 7 6 21 4),
  (0b1010_100_000_01011_11010_01001_1100001, .vxor .i32 0 9 26 11),
  (0b1011_101_001_10010_11111_01100_1100001, .vsll .i16 1 12 31 18),
  (0b1100_110_010_11001_00100_01111_1100001, .vsrl .i8 2 15 4 25),
  (0b1101_100_011_00000_01001_10010_1100001, .vsra .i32 3 18 9 0),
  (0b1110_101_100_00000_01110_10101_1100001, .vabsI .i16 4 21 14),
  (0b1111_110_101_01110_10011_11000_1100001, .vadds .i8 5 24 19 14)] = true := by decide

/-- VCMP, VMOV and VRED (R141, R142, R144), from the tables of spec/03_encoding.md. -/
theorem test_decode_vmov : reads [
  (0b0100_101_011_01001_01000_00111_1100010, .vcmp .ltn .i16 3 7 8 9),
  (0b0000_000_110_00000_11000_11011_1100011, .vmov .f32 6 27 24),
  (0b0001_001_111_11100_11101_11110_1100011, .vsel .bf16 7 30 29 28),
  (0b0010_010_000_00000_00010_00001_1100011, .vbcast .f16 0 1 2),
  (0b0101_100_001_01010_00111_00100_1100011, .vperm .i32 1 4 7 10),
  (0b0110_101_010_10001_01100_00111_1100011, .vrot .i16 2 7 12 17),
  (0b0011_110_000_00011_00010_00001_1100011, .vextr .i8 1 2 3),
  (0b0100_010_000_00110_00101_00100_1100011, .vins .f16 4 5 6),
  (0b0000_110_011_00000_10001_01010_1100100, .vredAdd .i8 3 10 17),
  (0b0001_000_100_00000_10110_01101_1100100, .vredMax .f32 4 13 22),
  (0b0010_001_101_00000_11011_10000_1100100, .vredMin .bf16 5 16 27),
  (0b0011_010_110_00000_00000_10011_1100100, .vscanAdd .f16 6 19 0),
  (0b0100000_101_00000_00111_00110_1100100, .vscanAff 5 6 7),
  (0b0101_000_111_00000_00101_10110_1100100, .vamax .f32 7 22 5)] = true := by decide

/-- VCVT and VMEM (R146 to R149), from the tables of spec/03_encoding.md. -/
theorem test_decode_vconv : reads [
  (0b0000_110_011_00000_10001_01010_1100101, .vwid .i8 3 10 17),
  (0b0001_101_010_10001_01100_00111_1100101, .vnar .i16 2 7 12 17),
  (0b0010_100_011_11000_10001_01010_1100101, .vscl .i32 3 10 17 24),
  (0b0011_100_010_11110_10100_01001_1100101, .vq .sx2h 2 9 20 30),
  (0b0100_001_011_01000_01001_10000_1100101, .vdq .sx4 3 16 9 8),
  (0b0000_101_100_00000_10110_01101_1100110, .vld .i16 4 13 22),
  (0b0001_110_101_00000_11011_10000_1100110, .vst .i8 5 16 27),
  (0b0010_100_001_01010_00111_00100_1100110, .vgat .i32 1 4 7 10),
  (0b0011_000_010_10001_01100_00111_1100110, .vsct .f32 2 7 12 17),
  (0b0100_010_010_00000_01100_00111_1100110, .vldb .f16 2 7 12)] = true := by decide

/-- GMASK (R153), from the tables of spec/03_encoding.md. -/
theorem test_decode_guard : reads [
  (0b0000000000_00101_00011_00001_1100111, .gand 1 3 5),
  (0b0000100000_00110_00100_00010_1100111, .gor 2 4 6),
  (0b0001000000_00111_00101_00011_1100111, .gxor 3 5 7),
  (0b000110000000000_00110_00111_1100111, .gnot 7 6),
  (0b001000000000000_00111_11111_1100111, .gpop 31 7),
  (0b001010000000000_00110_11110_1100111, .gfirst 30 6),
  (0b00110_00001_00000_00101_11101_1100111, .gmov 29 5 true),
  (0b0011100000_10101_10100_00100_1100111, .gset 4 20 21)] = true := by decide

/-- STRM (R155), from the tables of spec/03_encoding.md. -/
theorem test_decode_stream : reads [
  (0b00000_00011_00010_00001_11111_1101000, .sbindMem 7 1 2 3),
  (0b000010000000000_00100_11000_1101000, .sbindCh 0 4),
  (0b0001000000_00110_00101_11001_1101000, .sbindOut 1 5 6),
  (0b00011000000000000000_11010_1101000, .sunbind 2),
  (0b001000000000000_11011_01001_1101000, .sstat 9 3)] = true := by decide

/-- FE, MON, BAR, TASK and MSG (R186, R188, R192, R194, R204), from the tables of spec/03_encoding.md. -/
theorem test_decode_sync : reads [
  (0b00000_00001_0000000000_01000_1101001, .fef .vector 8),
  (0b00001_00000_0000000000_01001_1101001, .fee .scalar 9),
  (0b00010_00001_00000_01011_01010_1101001, .feqReg .vector 10 11),
  (0b00000_00011_00000_01100_00000_1101010, .marm 12 3),
  (0b00001_01010_000000000000000_1101010, .mdis 0b1010),
  (0b000100000000000_01110_01101_1101010, .mslp 13 14),
  (0b00011_10010_10001_10000_01111_1101010, .wadr 15 16 17 18),
  (0b000000000000000_10011_00000_1101011, .barReg 19),
  (0b00001000000000000000_10100_1101011, .barArr 20),
  (0b0001000000000000000000000_1101011, .barWait),
  (0b00011000000000000000_10101_1101011, .barArw 21),
  (0b000000000000000_10110_00000_1101100, .tqpush 22),
  (0b00001000000000000000_10111_1101100, .tqpop 23),
  (0b00001000010000000000_11000_1101100, .tqpopNb 24),
  (0b00010000000000000000_11001_1101100, .tqpeek 25),
  (0b0001100000000000000000000_1101100, .texit),
  (0b0010000000000000000000000_1101100, .tyield),
  (0b001010000000000_11011_11010_1101100, .tmset 26 27),
  (0b0011000000_11101_11100_00000_1101100, .tlaunch 28 29),
  (0b00000_00011_00010_00001_00000_1101101, .msend (.rel .die) 1 2),
  (0b00001_00110_00000_00101_00100_1101101, .mrecv 4 5 6),
  (0b0001000000_01010_01001_01000_1101101, .mwait 8 9 10),
  (0b00011_00010_00000_01100_01011_1101101, .mpeek 11 12 2),
  (0b00100_00000_01110_01101_00000_1101101, .msendt .plain 13 14),
  (0b0010100000_10000_01111_00000_1101101, .mcfg 15 16)] = true := by decide

/-- CPY, MMA, ACC, TREE and CCV (R310, R316, R323, R328, R333), from the tables of spec/03_encoding.md. -/
theorem test_decode_engine : reads [
  (0b00000_00100_00011_00010_00001_1101110, .cpy 1 2 3 4),
  (0b00001_01000_00111_00110_00101_1101110, .cpyt 5 6 7 8),
  (0b00010_01100_01011_01010_01001_1101110, .cpym 9 10 11 12),
  (0b00011_00001_01110_01101_00000_1101110, .cpyf .w32 13 14),
  (0b001000000000000_10000_01111_1101110, .cpyq 15 16),
  (0b00_110_00011_00010_00001_00000_1101111, .mma .f32x3 1 2 3),
  (0b01_100_00110_00101_00100_00111_1101111, .mmaSp .sx2 4 5 6 7),
  (0b000000000000000_00001_00000_1110000, .acz 1),
  (0b0000100000_00011_00010_00000_1110000, .acld 2 3),
  (0b0001000000_00101_00100_00000_1110000, .acst 4 5),
  (0b00011_01001_01000_00111_00110_1110000, .adrn 6 7 8 9),
  (0b001000000000000_01011_10111_1110000, .acrd 23 11),
  (0b0010100000_10110_01100_00000_1110000, .acwr 22 12),
  (0b00000_00011_00010_00001_00000_1110001, .tredAdd 1 2 3),
  (0b00001_00100_00011_00010_00000_1110001, .tredMax 2 3 4),
  (0b00010_00101_00100_00011_00000_1110001, .tredMin 3 4 5),
  (0b00011_00110_00101_00100_00000_1110001, .tscanAdd 4 5 6),
  (0b00100_00111_00110_00101_00000_1110001, .tscanAff 5 6 7),
  (0b0010100000000000000000000_1110001, .tbar),
  (0b00000_00011_00010_00001_00000_1110010, .ccv 1 2 3),
  (0b00001_00110_00101_00100_00111_1110010, .ccvq 4 5 6 7)] = true := by decide

/-- PRM and NB (R276, R348), from the tables of spec/03_encoding.md. -/
theorem test_decode_promise : reads [
  (0b0000000000_00011_00010_00001_1110011, .prmi 1 2 3),
  (0b00001000_10_00101_00100_00000_1110011, .prmr .arrival 4 5),
  (0b0001000_1_01_00000_00110_00000_1110011, .prmx .strict .revert 6),
  (0b000110000_1_00000_01000_00111_1110011, .prmq .header 7 8),
  (0b0010000000_01010_01001_00000_1110011, .wupd 9 10),
  (0b00000_00100_00011_00010_00001_1110100, .nbpost 1 2 3 4),
  (0b00001_00111_00000_00110_00101_1110100, .nbview 5 6 7),
  (0b0001000000_01010_01001_01000_1110100, .nbadv 8 9 10),
  (0b00011_01110_01101_01100_01011_1110100, .nbinit 11 12 13 14)] = true := by decide

/-- R69: no major 0x00 or 0x08; no function 26 of OPI; a nonzero c field of ADD; imm[11:8] of `shi`; a bit field past bit 63; skip count 0; an
unassigned major 0x7F; t = 3 of VOPF; VCMP `eq` of a floating type; an FCVT to its own type; an odd pair of `msend`; d = 24 of `acrd`; an s field of `cpym`
that is no multiple of 4; a stream field below 24; a guard field above 7; a rounding code 4; a condition 6 of BR. -/
theorem test_decode_refused : refuses [
  (0b00000_00000_00000_00000_00000_0000000, .major), (0b00000_00000_00000_00000_00000_0001000, .major), (0b11111_11111_11111_11111_11111_1111111, .major),
  (0b11010_00000_00010_00001_00011_0000001, .function), (0b00000_00001_00010_00001_00011_0000001, .field),
  (0b000100_000000_110_00001_00011_0000010, .field), (0b000001_111111_000_00001_00011_0000101, .field), (0b0000000000_00001_00010_000_00_0000110, .function),
  (0b0000_011_000_00001_00010_00011_1100000, .field), (0b0000_000_000_00001_00010_00011_1100010, .field), (0b0_0_000_00001_00001_00010_00011_1000010, .field),
  (0b00000_00000_00001_00010_00000_1101101, .field), (0b00100_00000_00000_00001_11000_1110000, .field), (0b00010_00110_00011_00010_00001_1101110, .field),
  (0b00000_00011_00010_00001_10111_1101000, .field), (0b00000_00000_01000_00001_00010_1100111, .field), (0b00000_00_100_00011_00010_00001_1000000, .field),
  (0b0000000001_00010_00001_00_110_0100111, .function)] = true := by decide

/-- Seven zero bits and then ones: an instruction of the table with no encoding (an event) has no word. -/
theorem test_decode_event : decodeTableWord 0 0 = none ∧ encode (.placement 0 .reserve) = none := by decide

-- The checks of WellFormed, each with a term that it refuses beside one that it takes

theorem test_wellFormed_bitfield : (Instr.ext 1 2 1 63).wellFormed = false ∧ (Instr.extn 1 2 63 1).wellFormed = false ∧ (Instr.ins 1 2 32 32).wellFormed = false ∧
    (Instr.ext 1 2 0 63).wellFormed = true := by decide
theorem test_wellFormed_skip : (Instr.sk .eq 0 1 2).wellFormed = false ∧ (Instr.ski .eq 0 1 2).wellFormed = false ∧ (Instr.fsk .feq 0 1 2).wellFormed = false ∧
    (Instr.fskd .feq 0 1 2).wellFormed = false ∧ (Instr.sk .eq 3 1 2).wellFormed = true := by decide
theorem test_wellFormed_fcvt : (Instr.fcvt false .rne .f32 .f32 1 2).wellFormed = false ∧ (Instr.fcvt false .rne .f32 .f64 1 2).wellFormed = true := by decide
theorem test_wellFormed_vcmp : (Instr.vcmp .eq .f32 0 1 2 3).wellFormed = false ∧ (Instr.vcmp .fun .i8 0 1 2 3).wellFormed = false ∧
    (Instr.vcmp .fun .bf16 0 1 2 3).wellFormed = true := by decide
theorem test_wellFormed_blocks : (Instr.vq .sx7 0 1 21 2).wellFormed = false ∧ (Instr.vq .sx7 0 1 24 2).wellFormed = false ∧ (Instr.vq .sx7 0 1 20 3).wellFormed = false ∧
    (Instr.vdq .sx7 0 2 1 2).wellFormed = false ∧ (Instr.vdq .sx7 0 20 1 5).wellFormed = false ∧ (Instr.vq .sx7 0 1 20 2).wellFormed = true := by decide
theorem test_wellFormed_pairs : (Instr.msend .plain 1 3).wellFormed = false ∧ (Instr.msendt .plain 1 3).wellFormed = false ∧ (Instr.mrecv 3 1 2).wellFormed = false ∧
    (Instr.mwait 5 1 2).wellFormed = false ∧ (Instr.mrecv 30 1 2).wellFormed = true := by decide
theorem test_wellFormed_cpym : (Instr.cpym 1 2 3 0).wellFormed = false ∧ (Instr.cpym 1 2 3 30).wellFormed = false ∧ (Instr.cpym 1 2 3 28).wellFormed = true := by decide
theorem test_wellFormed_acc : (Instr.acrd 24 1).wellFormed = false ∧ (Instr.acwr 24 1).wellFormed = false ∧ (Instr.acrd 23 1).wellFormed = true := by decide
theorem test_wellFormed_tile : (Instr.loadFill 1536 0 ⟨0, 0⟩).wellFormed = false ∧ (Instr.answer 1536 0).wellFormed = false ∧ (Instr.mslpTimeout 1536 0).wellFormed = false ∧
    (Instr.streamFetch 1536 0 0).wellFormed = false ∧ (Instr.carrierAccept 1536).wellFormed = false ∧ (Instr.operationComplete 1536 0).wellFormed = false ∧
    (Instr.timer 1536 0).wellFormed = false ∧ (Instr.bankFormatWrite 1536 0 0).wellFormed = false ∧ (Instr.groupBroadcast 0 0 1536).wellFormed = false ∧
    (Instr.loadFill 1535 0 ⟨0, 0⟩).wellFormed = true := by decide
theorem test_wellFormed_die : (Instr.translationWalk 6 0 0 0).wellFormed = false ∧ (Instr.translationWalk 0 8 0 0).wellFormed = false ∧ (Instr.debugHalt 6).wellFormed = false ∧
    (Instr.supplyDroop 8).wellFormed = false ∧ (Instr.inFieldTest 6 0 []).wellFormed = false ∧ (Instr.inFieldTest 0 16 []).wellFormed = false ∧
    (Instr.arbiterPeriod [120]).wellFormed = false ∧ (Instr.supplyDroop 7).wellFormed = true := by decide

-- Small states

/-- Registers by number and value, full. -/
def regs (l : List (Reg × Word)) (th : Thread) : Thread := l.foldl (fun th p => th.setS p.1 p.2) th
/-- The homes of the eight bytes at 64 of tile 0. -/
def homes64 : List Home := (List.range 8).map fun i => ⟨tileLoc 0 (64 + i), 0, 0, none⟩
/-- A ready thread at 0x1000 with a handler at 0x2000: s1 = 64, s2 = 3, s3 = 5, s6 = 0xFFFFFFFFFFFFFFF8, v1 = 7, v2 = 9, v3 = 2, every other register empty. -/
def th0 : Thread :=
  let th := regs [(1, 64), (2, 3), (3, 5), (6, 0xFFFFFFFFFFFFFFF8)] { Thread.reset with run := .ready, pc := 0x1000, tvec := 0x2000 }
  ((th.setV 1 7).setV 2 9).setV 3 2
/-- The machine after reset, with a thread in slot 1 of tile 0, which executes. -/
def mach (th : Thread) (f : Tile → Tile) : State :=
  { State.reset with tiles := [(0, f { Tile.reset with slots := Tile.reset.slots.set 1 th })] }
def plainTile (x : Tile) : Tile := x
def s0 : State := mach th0 plainTile
/-- The same thread in supervisor mode. -/
def s1 : State := mach { th0 with status := 5 } plainTile

/-- An outcome is a next state. -/
def goes (o : Out) : Bool := match o with
  | .next _ => true
  | _ => false
/-- Some field of what an outcome leads to. -/
def see {α : Type} (o : Out) (f : State → α) : Option α := match o with
  | .next t => some (f t)
  | _ => none

theorem reads_of {s : State} {r : Reg} {x : Vec} (hk : (s.thr.bindOf r).kind = .unbound) (h : s.thr.getV r = ⟨x, true, false, false⟩) : s.reads r x := by
  simp only [State.reads, hk]; exact h
theorem takes_of {s : State} {d : Reg} (hk : (s.thr.bindOf d).kind = .unbound) (h : (s.thr.getV d).pend = false) : s.takes d := by
  simp only [State.takes, hk]; exact h
theorem olds_bare {s : State} {d : Reg} (hk : (s.thr.bindOf d).kind = .unbound) : s.olds d false (s.thr.getV d).val := by
  simp [State.olds, hk]
theorem olds_read {s : State} {d : Reg} {x : Vec} (hk : (s.thr.bindOf d).kind = .unbound) (h : s.reads d x) : s.olds d true x := by
  simp only [State.olds, hk]; simpa using h

theorem takes_write {s : State} {d : Reg} (hk : (s.thr.bindOf d).kind = .memWrite) (h : (s.thr.bindOf d).pos < (s.thr.bindOf d).count ∧ (s.thr.bindOf d).buf.length < bufRoom) :
    s.takes d := by
  simp only [State.takes, hk]; exact h
theorem olds_bound {s : State} {d : Reg} {g : Bool} (hk : (s.thr.bindOf d).kind ≠ .unbound) : s.olds d g 0 := by
  simp [State.olds, hk]

-- Witnesses: for each statement, states and operands that meet its hypotheses

theorem witness_ScalarResults : s0.thr.holds 1 64 ∧ s0.thr.holds 2 3 ∧ s0.thr.free 4 ∧ s0.thr.holds 0 0 ∧ s0.thr.free 0 := by decide
theorem witness_BitCountResults : s0.thr.holds 1 64 ∧ s0.thr.holds 2 3 ∧ s0.thr.holds 3 5 ∧ s0.thr.free 4 := by decide
theorem witness_ProductResults : s0.thr.holds 6 0xFFFFFFFFFFFFFFF8 ∧ s0.thr.holds 0 0 ∧ s0.thr.free 6 := by decide
theorem witness_ImmediateResults : s0.thr.holds 1 64 ∧ s0.thr.free 4 ∧
    let w : Insn := 0b000011_000000_110_00001_00011_0000010
    let v : Insn := 0b000100_000000_110_00001_00011_0000010
    w.extractLsb' 0 7 = 0x02 ∧ w.extractLsb' 17 3 = 6 ∧ w.extractLsb' 26 2 = 3 ∧ v.extractLsb' 0 7 = 0x02 ∧ v.extractLsb' 17 3 = 6 ∧ v.extractLsb' 28 4 ≠ 0 := by decide
theorem witness_BitFieldResults : (63#6).toNat + (0#6).toNat + 1 ≤ 64 ∧ (0#6).toNat + (63#6).toNat + 1 ≤ 64 ∧ s0.thr.holds 1 64 ∧ s0.thr.free 3 ∧ s0.thr.holds 3 5 ∧
    s0.thr.free 4 ∧ (4 : Reg) ≠ 0 ∧ (s0.thr.getS 4).full = false ∧
    let w : Insn := 0b111111_000001_010_00001_00011_0000101
    w.extractLsb' 0 7 = 0x05 ∧ (w.extractLsb' 17 3).toNat < 3 ∧ 64 < (w.extractLsb' 20 6).toNat + (w.extractLsb' 26 6).toNat + 1 := by decide
theorem witness_SkipResults : s0.thr.holds 1 64 ∧ s0.thr.holds 2 3 := by decide
theorem witness_JumpResults : s0.thr.holds 1 64 ∧ s0.thr.holds 2 3 ∧ s0.thr.free 1 ∧ (64 + (4#12).signExtend 64 : Word).toNat % 4 = 0 ∧
    (64 + (1#12).signExtend 64 : Word).toNat % 4 ≠ 0 ∧ (4 : Reg) ≠ 0 ∧ (s0.thr.getS 4).pend = false ∧ (s0.thr.getS 4).full = false ∧
    let w : Insn := 0b0000000001_00010_00001_01_000_0100111
    w.extractLsb' 0 7 = 0x27 ∧ w.extractLsb' 10 2 ≠ 0 := by decide
theorem witness_FloatResults : s0.thr.holds 1 64 ∧ s0.thr.holds 2 3 ∧ s0.thr.holds 3 5 ∧ s0.thr.free 4 := by decide
/-- A NaN; 1 over -0; 1, which bf16 holds. -/
theorem witness_FloatCorners : bf16 ∈ [f64, f32, bf16, f16] ∧ 0x7FC0 < 2 ^ bf16.width ∧ bf16.isNan 0x7FC0 = true ∧ 0x3F80 < 2 ^ bf16.width ∧ 0x8000 < 2 ^ bf16.width ∧
    bf16.isNan 0x3F80 = false ∧ bf16.isInf 0x3F80 = false ∧ bf16.isZero 0x3F80 = false ∧ bf16.isZero 0x8000 = true := by decide
theorem witness_LaneWise : (8 = 8 ∨ 8 = 16 ∨ 8 = 32) ∧ (32 = 8 ∨ 32 = 16 ∨ 32 = 32) := by decide

/-- v1 and v2 are read, v3 is read and written, v4 is empty and written: with g0 its old lanes are not read, with g1 those of v3 are. -/
theorem vector_operands : s0.reads 1 7 ∧ s0.reads 2 9 ∧ s0.reads 3 2 ∧ s0.takes 3 ∧ s0.takes 4 ∧ s0.olds 4 ((0 : GReg) != 0) 0 ∧ s0.olds 3 ((1 : GReg) != 0) 2 ∧ s0.olds 3 true 2 :=
  have r : s0.reads 3 2 := reads_of (by decide +kernel) (by decide +kernel)
  ⟨reads_of (by decide +kernel) (by decide +kernel), reads_of (by decide +kernel) (by decide +kernel), r, takes_of (by decide +kernel) (by decide +kernel), takes_of (by decide +kernel) (by decide +kernel),
    olds_bare (by decide +kernel), olds_read (by decide +kernel) r, olds_read (by decide +kernel) r⟩
theorem witness_VectorFloatResults : s0.reads 1 7 ∧ s0.reads 2 9 ∧ s0.takes 3 ∧ s0.olds 3 ((1 : GReg) != 0) 2 ∧ s0.reads 3 2 :=
  have h := vector_operands
  ⟨h.1, h.2.1, h.2.2.2.1, h.2.2.2.2.2.2.1, h.2.2.1⟩
theorem witness_VectorIntResults : s0.reads 1 7 ∧ s0.reads 2 9 ∧ s0.takes 4 ∧ s0.olds 4 ((0 : GReg) != 0) 0 :=
  have h := vector_operands
  ⟨h.1, h.2.1, h.2.2.2.2.1, h.2.2.2.2.2.1⟩
theorem witness_LaneMoveResults : s0.reads 1 7 ∧ s0.reads 2 9 ∧ s0.takes 3 ∧ s0.olds 3 ((1 : GReg) != 0) 2 ∧ s0.thr.holds 2 3 ∧ s0.thr.free 5 ∧ s0.thr.holds 1 64 ∧
    s0.olds 3 true 2 :=
  have h := vector_operands
  ⟨h.1, h.2.1, h.2.2.2.1, h.2.2.2.2.2.2.1, by decide, by decide, by decide, h.2.2.2.2.2.2.2⟩
/-- With g1, which reset leaves zero, no lane is present; with g0 all are. -/
theorem witness_VectorReductions : s0.reads 1 7 ∧ s0.thr.free 4 ∧ s0.takes 3 ∧ s0.olds 3 ((1 : GReg) != 0) 2 ∧
    ((List.range 32).filter fun i => (s0.guard 1).getLsbD i) = [] ∧ ((List.range 32).filter fun i => (s0.guard 0).getLsbD i) ≠ [] ∧ (s0.guard 0).getLsbD 0 = true :=
  have h := vector_operands
  ⟨h.1, by decide, h.2.2.2.1, h.2.2.2.2.2.2.1, by decide, by decide, by decide⟩
theorem witness_VectorConversions :
    let s := mach ((((th0.setV 4 1).setV 5 2).setV 6 3).setV 7 4) plainTile
    s.reads 4 1 ∧ s.takes 8 ∧ s.olds 8 ((0 : GReg) != 0) 0 ∧ s.reads 2 9 ∧ s.thr.holds 2 3 ∧ s.reads (regPlus 4 1) 2 ∧ s.reads (regPlus 4 2) 3 ∧ s.reads (regPlus 4 3) 4 ∧
      s.olds 8 (selHalf .sx7) 0 ∧ s.thr.free 12 ∧ s.thr.free (regPlus 12 1) ∧ (s.thr.bindOf 8).kind = .unbound ∧ (12 : Reg).val % 2 = 0 ∧
      s.thr.holds (regPlus 2 1) 5 ∧ ∀ k : Fin 4, s.olds (regPlus 8 k) ((0 : GReg) != 0) 0 ∧ s.takes (regPlus 8 k) ∧ (s.thr.bindOf (regPlus 8 k)).kind = .unbound := by
  refine ⟨reads_of (by decide +kernel) (by decide +kernel), takes_of (by decide +kernel) (by decide +kernel), olds_bare (by decide +kernel), reads_of (by decide +kernel) (by decide +kernel), by decide,
    reads_of (by decide +kernel) (by decide +kernel), reads_of (by decide +kernel) (by decide +kernel), reads_of (by decide +kernel) (by decide +kernel), olds_bare (by decide +kernel), by decide, by decide, by decide, by decide,
    by decide, ?_⟩
  intro k
  exact ⟨by match k with | 0 => exact olds_bare (by decide +kernel) | 1 => exact olds_bare (by decide +kernel) | 2 => exact olds_bare (by decide +kernel) | 3 => exact olds_bare (by decide +kernel),
    by match k with | 0 => exact takes_of (by decide +kernel) (by decide +kernel) | 1 => exact takes_of (by decide +kernel) (by decide +kernel) | 2 => exact takes_of (by decide +kernel) (by decide +kernel) | 3 => exact takes_of (by decide +kernel) (by decide +kernel),
    by revert k; decide⟩
/-- A thread whose stream register q0 is bound to be written. -/
def writeBound (f : Thread → Thread) : State := mach (f { th0 with binds := th0.binds.set 0 ⟨.memWrite, 128, 128, 8, 0, 0, true, [], 0, 0, 0, none, 0, []⟩ }) plainTile
/-- `vq` into a write-bound register. -/
theorem witness_VectorConversions_bound :
    let s := writeBound fun th => (((th.setV 4 1).setV 5 2).setV 6 3).setV 7 4
    s.reads 4 1 ∧ s.takes (streamReg 0) ∧ s.olds (streamReg 0) ((1 : GReg) != 0) 0 ∧ s.reads (regPlus 4 1) 2 ∧ s.reads (regPlus 4 2) 3 ∧ s.reads (regPlus 4 3) 4 ∧
      s.olds (streamReg 0) (selHalf .sx7) 0 ∧ s.thr.free 12 ∧ s.thr.free (regPlus 12 1) ∧ (12 : Reg).val % 2 = 0 ∧ (s.thr.bindOf (streamReg 0)).kind ≠ .unbound :=
  ⟨reads_of (by decide +kernel) (by decide +kernel), takes_write (by decide +kernel) (by decide +kernel), olds_bound (by decide +kernel), reads_of (by decide +kernel) (by decide +kernel),
    reads_of (by decide +kernel) (by decide +kernel), reads_of (by decide +kernel) (by decide +kernel), olds_bound (by decide +kernel), by decide +kernel, by decide +kernel, by decide, by decide +kernel⟩
/-- A vector load into it. -/
theorem witness_VectorMemory_bound : (writeBound id).thr.holds 1 64 ∧ (writeBound id).reads 2 9 ∧ (writeBound id).takes (streamReg 0) ∧ (writeBound id).olds (streamReg 0) ((1 : GReg) != 0) 0 ∧
    ((writeBound id).thr.bindOf (streamReg 0)).kind ≠ .unbound :=
  ⟨by decide +kernel, reads_of (by decide +kernel) (by decide +kernel), takes_write (by decide +kernel) (by decide +kernel), olds_bound (by decide +kernel), by decide +kernel⟩
/-- At 64, every lane of a 32-bit form is in the tile's own scratchpad; with g1 no lane is active. -/
theorem witness_VectorMemory : s0.thr.holds 1 64 ∧ s0.reads 2 9 ∧ (s0.thr.bindOf 4).kind = .unbound ∧ s0.takes 4 ∧ s0.olds 4 ((0 : GReg) != 0) 0 ∧ s0.reads 3 2 ∧
    (∀ i ∈ (List.range 32).filter fun i => (s0.guard 0).getLsbD i, s0.lets (64 + BitVec.ofNat 64 (i * 4)) 4 true false false ∧ s0.lets (64 + BitVec.ofNat 64 (i * 4)) 4 false true true) ∧
    ((List.range 32).filter fun i => (s0.guard 0).getLsbD i) ≠ [] ∧ ((List.range 32).filter fun i => (s0.guard 1).getLsbD i) = [] ∧ s0.thr.cntLd < 255 ∧ s0.thr.cntSt < 255 :=
  have h := vector_operands
  ⟨by decide, h.2.1, by decide, h.2.2.2.2.1, h.2.2.2.2.2.1, h.2.2.1, by simp only [State.lets]; decide +kernel, by decide, by decide, by decide, by decide⟩
theorem witness_GuardResults : s0.thr.holds 1 64 ∧ s0.thr.holds 2 3 ∧ s0.thr.free 4 := by decide

/-- The invariant, as a Bool. -/
def inv (s : State) : Bool := decide s.Inv
/-- A slot-1 thread with something changed. -/
def slot1 (f : Thread → Thread) : State := mach (f th0) plainTile

theorem witness_ShadowsAndResults :
    let s := slot1 fun th => { th with shadow := 1, results := [⟨[.s 4 7], 0⟩] }
    let u := slot1 fun th => { th with results := [⟨[.s 4 7], 0⟩], run := .parked (.regEmpty (.s 4)) }
    let v := mach { th0 with shadow := 1 } fun x => { x with mode := 1 }
    let z (p : Park) := slot1 fun th => { th with results := [⟨[.v 4 7], 0⟩], run := .parked p }
    (s.thrAt 0 1).run = .ready ∧ (s.thrAt 0 1).shadow ≠ 0 ∧ s.mayTrap 0 1 = false ∧ (s.tileAt 0).breaks (s.thrAt 0 1).pc true = false ∧ (4 : Reg) ≠ 0 ∧
      (v.tileAt 0).throughput = false ∧ (s.thrAt 0 1).results[0]? = some ⟨[.s 4 7], 0⟩ ∧ 0 ≤ (s.tileAt 0).cycle.toNat ∧ (u.thrAt 0 1).results[0]? = some ⟨[.s 4 7], 0⟩ ∧
      (u.thrAt 0 1).run = .parked (.regEmpty (.s 4)) ∧ ∀ p ∈ [Park.regEmpty (.v 4), Park.fillPending (.v 4)], ((z p).thrAt 0 1).results[0]? = some ⟨[.v 4 7], 0⟩ ∧
        ((z p).thrAt 0 1).run = .parked p ∧ goes (exec (.resultLand 0 1 0) (z p)) := by decide +kernel
/-- At 64 in the tile's own scratchpad; with a hold of that word, of another, and with none. -/
theorem witness_LoadsAndStoresIssue :
    let s := slot1 fun th => { th with hold := some ⟨64, .w64, homes64, 1000⟩ }
    s.thr.holds 1 64 ∧ s.thr.holds 2 3 ∧ s.thr.free 4 ∧ s.lets 64 4 true false false ∧ s.lets 64 8 false true true ∧ s.thr.cntLd < 255 ∧ s.thr.cntSt < 255 ∧
      s.thr.hold = some ⟨64, .w64, homes64, 1000⟩ ∧ (Size.w64 = .w64 ∧ (64 : Word) = 64) ∧ s.lets 64 4 false true true ∧ Size.w64 ≠ .w32 ∧ s0.thr.hold = none ∧ s0.thr.holds 1 64 ∧
      s0.lets 64 8 false true true ∧ (s.ownOff s.curTile 64).isSome := by
  simp only [State.lets]; decide +kernel
/-- Device space in user mode; 64 + 1 and no word; a watchpoint on 64 for loads and stores; the offset of each. -/
theorem witness_LoadsAndStoresIssue_traps :
    let s := mach (regs [(1, 0xC000000000000000), (5, 65)] th0) plainTile
    let w := mach th0 fun x => { x with watches := x.watches.set 0 ⟨64, 7⟩ }
    s.thr.holds 1 0xC000000000000000 ∧ regionOf (0xC000000000000000 + (0#12).signExtend 64) = 3 ∧ s.thr.sv = false ∧ s.thr.holds 5 65 ∧ regionOf 65 ≠ 3 ∧ (65 : Word).toNat % ldBytes .i32 ≠ 0 ∧
      (65 : Word).toNat % stBytes .b64 ≠ 0 ∧ (65 : Word).toNat % sizeBytes .w64 ≠ 0 ∧ w.thr.holds 1 64 ∧ (64 : Word).toNat % 8 = 0 ∧ w.tile.watched 64 (ldBytes .i64) true false = true ∧
      w.tile.watched 64 (stBytes .b64) false true = true ∧ w.tile.watched 64 (sizeBytes .w64) false true = true := by decide +kernel
/-- A load of the tile's own scratchpad, one of a die that is lost, and a vector load of two parts, of which none or one has returned. -/
theorem witness_LoadsLand :
    let l : LoadReq := ⟨7, 0, 0, .scalar 4 .i32 64, some 0, []⟩
    let s := slot1 fun th => { th with loads := [l], cntLd := 1 }
    let m : LoadReq := ⟨7, 0, 0, .scalar 4 .i32 0x4000000100000040, none, []⟩
    let u : State := { (slot1 fun th => { th with loads := [m], cntLd := 1 }) with lostDies := [0] }
    (s.thrAt 0 1).loads.find? (fun x => x.id = l.id) = some l ∧ l.dest = .scalar 4 .i32 64 ∧ (∀ n, l.due = some n → n ≤ (s.tileAt 0).cycle.toNat) ∧ (s.tileAt 0).pairing = none ∧
      s.loadOut 0 1 l 0 = .bytes [0, 0, 0, 0] ∧ 64 + ldBytes .i32 ≤ 0x180000 ∧ (s.tileAt 0).stores = [] ∧ (s.thrAt 0 1).past = [] ∧ s.staged = [] ∧ dieOf 0 < 6 ∧ s.lostDies = [] ∧
      (u.thrAt 0 1).loads.find? (fun x => x.id = m.id) = some m ∧ u.loadOut 0 1 m 0 = .fatal := by
  refine ⟨by decide +kernel, rfl, ?_, by decide +kernel, by decide +kernel, by decide, by decide +kernel, by decide +kernel, rfl, by decide, rfl, by decide +kernel, by decide +kernel⟩
  intro n h; cases h; exact Nat.zero_le _
def vectorLoad (got : List (Nat × Option (List Byte))) : LoadReq := ⟨7, 0, 0, .vector 4 32 [(0, 60), (1, 64)] false, none, got⟩
theorem witness_LoadsLand_parts :
    let s (got : List (Nat × Option (List Byte))) : State := slot1 fun th => { th with loads := [vectorLoad got], cntLd := 1 }
    let n : List (Nat × Option (List Byte)) := [(0, some [0, 0, 0, 0])]
    ((s []).thrAt 0 1).loads.find? (fun x => x.id = 7) = some (vectorLoad []) ∧ (vectorLoad []).partsLeft = [0, 1] ∧ (s []).loadOut 0 1 (vectorLoad []) 0 = .bytes [0, 0, 0, 0] ∧
      ((s n).thrAt 0 1).loads.find? (fun x => x.id = 7) = some (vectorLoad n) ∧ (vectorLoad n).partsLeft = [1] ∧ (s n).loadOut 0 1 (vectorLoad n) 1 = .bytes [0, 0, 0, 0] ∧
      ({ s n with lostDies := [0] } : State).loadOut 0 1 (vectorLoad n) 1 = .fatal := by decide +kernel
/-- A load into an element of a write-bound stream register that waits for it. -/
theorem witness_LoadsLand_bound :
    let l : LoadReq := ⟨7, 0, 0, .vector (streamReg 0) 32 [(0, 64)] true, none, []⟩
    let s := slot1 fun th => { th with loads := [l], cntLd := 1, binds := th.binds.set 0 ⟨.memWrite, 128, 128, 8, 1, 0, true, [⟨5, false, some 7, 0, 0⟩], 0, 0, 0, none, 0, []⟩ }
    (s.thrAt 0 1).loads.find? (fun x => x.id = l.id) = some l ∧ l.partsLeft = [0] ∧ s.loadOut 0 1 l 0 = .bytes [0, 0, 0, 0] ∧ ({ s with lostDies := [0] } : State).loadOut 0 1 l 0 = .fatal ∧
      ((s.thrAt 0 1).binds[(0 : StreamReg)]).buf.map (·.wait) = [some 7] := by decide +kernel
/-- Tile 0 with its thread and one store. -/
def storing (r : StoreReq) : State := mach { th0 with cntSt := 1 } fun x => { x with stores := [r] }
/-- A store of two bytes of tile 0's slot 1. -/
def store0 (k : StoreKind) (waits : Bool) (a : Word) (st : StoreStage) : StoreReq := ⟨0, 1, 0, 0, false, k, waits, [], [(a, [1, 2])], 2, st, true, false, 0, []⟩
/-- A store at the tile's bank; one to tile 300, which is of die 1, in the egress queue; a release that waits for nothing. -/
theorem witness_StoresPerform :
    let q := store0 .plain false 64 .bank
    let s := storing q
    let r := store0 .plain false 0x4000012C00000040 .egress
    let u := storing r
    let v := store0 (.release .die) true 64 .bank
    let z := storing v
    let homed : Bool := match u.storeOut 0 r with
      | .homes _ => true
      | _ => false
    s.Inv ∧ (s.tileAt 0).stores.find? (fun x => x.id = q.id) = some q ∧ [1, 2] ≠ ([] : List Byte) ∧ (64 : Word).toNat + 2 ≤ 0x180000 ∧ s.storeFree 0 q = true ∧
      s.staged = [] ∧ dieOf 0 < 6 ∧ s.lostDies = [] ∧ (s.tileAt 0).morePieces q = false ∧
      u.Inv ∧ (u.tileAt 0).stores.find? (fun x => x.id = r.id) = some r ∧ r.toDevice = false ∧ u.storeFree 0 r = true ∧ (u.tileAt 0).laneBehind r .bridge = false ∧ homed ∧ u.nextStage 0 r = .bridge ∧
      (let w := store0 (.release .die) false 0x4000012C00000040 .egress
       (storing w).storeFree 0 w = true ∧ (storing w).nextStage 0 w = .bridge ∧ w.counted = true ∧ w.acked = false) ∧
      z.Inv ∧ (z.tileAt 0).stores.find? (fun x => x.id = v.id) = some v ∧ v.kind = .release .die ∧ v.waits = true ∧ (z.tileAt 0).pairing = none ∧
      (∀ l ∈ (z.thrAt 0 v.slot).loads, v.seq ≤ l.seq) ∧ (∀ q ∈ (z.tileAt 0).stores, q.slot = v.slot → q.seq < v.seq → z.ackedAt 0 .die q = true) ∧ v.past = [] := by
  decide +kernel
/-- A release that an acquire has put behind a store to die 1 which its own die's bridge has taken. -/
theorem witness_StoresPerform_past :
    let q := { store0 .plain false 0x4000012C00000040 .bridge with id := 5, homes := [⟨tileLoc 300 64, 0, 1, none⟩, ⟨tileLoc 300 65, 0, 1, none⟩] }
    let v := { store0 (.release .die) true 64 .bank with slot := 2, past := [(0, 5)] }
    let z := mach { th0 with cntSt := 1 } fun x => { x with stores := [v, q] }
    (z.tileAt 0).stores.find? (fun x => x.id = v.id) = some v ∧ (z.tileAt 0).pairing = none ∧ (∀ l ∈ (z.thrAt 0 v.slot).loads, v.seq ≤ l.seq) ∧
      (∀ q ∈ (z.tileAt 0).stores, q.slot = v.slot → q.seq < v.seq → z.ackedAt 0 .die q = true) ∧ z.storeOf (0, 5) = some q ∧ z.ackedAt 0 .die q = true := by decide +kernel
/-- Operands for the requests: a word of the tile, a word of another package's board, and the operand words of the notice board; a supervisor. -/
theorem witness_RequestsSent :
    let s := mach (regs [(1, 64), (2, 3), (3, 5)] { th0 with status := 5 }) plainTile
    let u := slot1 fun th => { th with hold := some ⟨64, .w64, homes64, 1000⟩ }
    let g := mach (regs [(1, 0x8000000000000040)] th0) plainTile
    s.thr.holds 1 64 ∧ s.thr.holds 2 3 ∧ s.thr.holds 3 5 ∧ s.thr.free 4 ∧ (∀ z : Size, z = .w64 ∨ z = .w32) ∧
      s.lets 64 8 true false false ∧ s.lets 64 8 true true true ∧ s.lets 64 4 true true true ∧ s.lets 64 8 true false true ∧ regionOf 64 ≠ 2 ∧ s.thr.hold = none ∧
      u.thr.hold = some ⟨64, .w64, homes64, 1000⟩ ∧ u.thr.holds 1 64 ∧ g.thr.holds 1 0x8000000000000040 ∧ regionOf 0x8000000000000040 = 2 ∧ (0x8000000000000040 : Word).toNat % 8 = 0 ∧
      (0x8000000000000040 : Word).toNat % sizeBytes .w64 = 0 ∧ (0x8000000000000040 : Word).toNat % sizeBytes .w32 = 0 ∧ g.thr.holds 2 3 ∧ g.thr.free 4 ∧ s.thr.hold ≠ u.thr.hold ∧
      (regionOf 64 = 3 → s.thr.sv = true) ∧ s.noPlace 64 = false ∧ (64 : Word).toNat % 8 = 0 := by
  refine ⟨by decide, by decide, by decide, by decide, fun z => by cases z <;> simp, ?_⟩
  simp only [State.lets]; decide +kernel
/-- The first board of die 0, and a buffer at 0 and at the last place it may stand. -/
theorem witness_RequestsSent_boards :
    let b : Word := 0xC000080000000000
    let s := mach (regs [(1, b), (2, 3), (3, 5)] { th0 with status := 5 }) plainTile
    let w : Word := 0x17FF8000000005
    (boardOf b).isSome ∧ s.thr.holds 1 b ∧ s.thr.holds 2 3 ∧ s.thr.holds 3 5 ∧ s.thr.free 4 ∧ (5 : Word) &&& ~~~0x1FFFFF000003FF#64 = 0 ∧ (5 : Word) &&& ~~~0x1FFFFF0000801F#64 = 0 ∧
      w &&& ~~~0x1FFFFF000003FF#64 = 0 ∧ w.toNat / 2 ^ 32 % 2 ^ 21 % 64 = 0 ∧ w.toNat / 2 ^ 32 % 2 ^ 21 < 0x17FFC0 ∧ s.tile.watched 0x17FF80 128 false true = false ∧
      s.fretHolds s.curTile (s.ownBytes 0x17FF80 128) true = false ∧ s.fretHolds s.curTile (s.ownBytes 0 128) true = false ∧
      (3 : Word).toNat < 2 ^ 32 ∧ s.thr.sv = true ∧ (3 : Word) &&& ~~~0x7FF07FF#64 = 0 ∧ (5 : Word).toNat < 2 ^ 32 := by decide +kernel
/-- A `marm` where nothing is and of device space; an address that is no board; operand words with a bit that must be zero, and buffers that are out of place. -/
theorem witness_RequestsSent_bad :
    let s := mach (regs [(1, 0xC000000000000000), (2, 0x8000), (5, 0x400000000000)] { th0 with status := 5 }) plainTile
    let u := mach (regs [(1, 0xC000000000000000)] th0) plainTile
    s.thr.holds 1 0xC000000000000000 ∧ regionOf 0xC000000000000000 = 3 ∧ s.thr.sv = true ∧ s.noPlace 0xC000000000000000 = true ∧ s.thr.tvec ≠ 0 ∧ u.thr.sv = false ∧
      boardOf 64 = none ∧ s.thr.holds 2 0x8000 ∧ (0x8000 : Word) &&& ~~~0x1FFFFF000003FF#64 ≠ 0 ∧ (0x20 : Word) &&& ~~~0x1FFFFF0000801F#64 ≠ 0 ∧
      (0x100000000 : Word).toNat / 2 ^ 32 % 2 ^ 21 % 64 ≠ 0 ∧ 0x17FFC0 ≤ (0x17FFC000000000 : Word).toNat / 2 ^ 32 % 2 ^ 21 ∧ 2 ^ 32 ≤ (0x100000000 : Word).toNat ∧
      (0x8000 : Word) &&& ~~~0x7FF07FF#64 ≠ 0 := by decide +kernel
def reqAt64 (op : ReqOp) (st : ReqStage) : Req := ⟨0, 0, op, 4, 64, 0, st, [], [], []⟩
def asking (op : ReqOp) (st : ReqStage) : State := slot1 fun th => { th with run := .parked .wordFe, req := some (reqAt64 op st) }
/-- A request of the word of a size at 64 of tile 0 that has been sent, in a quiet machine. -/
def atHome (z : Size) (op : ReqOp) (u : State) : Bool := decide (u.Inv ∧ (u.thrAt 0 1).req = some (reqAt64 op .sent) ∧ (u.tileAt 0).pairing = none ∧ dieOf 0 < 6 ∧ u.lostDies = [] ∧
  u.staged = [] ∧ (u.tileAt 0).stores = [] ∧ u.waiters = [] ∧ (u.thrAt 0 1).loads = [] ∧ (u.thrAt 0 1).past = [] ∧ (64 : Word).toNat + sizeBytes z ≤ 0x180000 ∧
  (64 : Word).toNat % sizeBytes z = 0 ∧ ∀ q ∈ u.resvs, ¬(q.loc = tileLoc 0 64 ∧ q.size = z)) && goes (exec (.homeAccess 0 1) u)
/-- Whether the words that a form of a size meets are all full, or all empty. -/
def meets (z : Size) (b : Bool) (u : State) : Bool := (List.range (sizeBytes z / 4)).all fun i => feFull (wordOf (tileLoc 0 64) + i) u.fe == b
/-- Forms of both sizes, with both their halves full, both empty, or one of each. -/
theorem witness_RequestsReachHome :
    let e (op : ReqOp) : State := asking op .sent
    let s (op : ReqOp) : State := { e op with fe := [wordOf (tileLoc 0 64), wordOf (tileLoc 0 64) + 1] }
    let h (op : ReqOp) : State := { e op with fe := [wordOf (tileLoc 0 64)] }
    (∀ z ∈ [Size.w64, Size.w32],
      (∀ op ∈ [ReqOp.rmw .add z 1 0, .arsv z, .acq z .die, .ldfe z, .ldff z, .stef z 9, .stff z 9], atHome z op (s op) ∧ meets z true (s op) ∧ atHome z op (e op) ∧ meets z false (e op))) ∧
      atHome .w32 .ste (s .ste) ∧ (∀ op ∈ [ReqOp.ldfe .w64, .ldff .w64, .stef .w64 9], atHome .w64 op (h op) ∧ ¬meets .w64 true (h op) ∧ ¬meets .w64 false (h op)) ∧
      4 * wordOf (tileLoc 0 64) = tileLoc 0 64 := by
  decide +kernel
theorem witness_AtomicValues : (4 = 4 ∨ 4 = 8) ∧ 2 ^ 32 - 1 < 2 ^ (8 * 4) ∧ (8 = 4 ∨ 8 = 8) ∧ 2 ^ 64 - 1 < 2 ^ (8 * 8) := by decide
abbrev hasAnswer (op : ReqOp) (a : Answer) : Prop :=
  ((asking op (.answered a)).thrAt 0 1).req = some (reqAt64 op (.answered a)) ∧ ((asking op (.answered a)).tileAt 0).pairing = none ∧
    ((asking op (.answered a)).thrAt 0 1).tvec ≠ 0 ∧ (asking op (.answered a)).dieHalted 0 = false ∧ (asking op (.answered a)).answerOpen 0 (reqAt64 op (.answered a)) = true
/-- Each kind of answer. -/
theorem witness_AnswersRetire :
    hasAnswer (.acq .w64 .die) (.value 5 0) ∧ (ReqOp.acq .w64 .die).writesReg = true ∧ hasAnswer (.stef .w64 3) (.value 0 0) ∧ (ReqOp.stef .w64 3).writesReg = false ∧
      hasAnswer (.ldfe .w64) .poison ∧ hasAnswer (.arsv .w64) (.granted 5 homes64) ∧ hasAnswer (.marm 0) (.armed []) ∧ hasAnswer (.nb (.adv 3)) (.board 1 none) ∧
      hasAnswer (.nb (.adv 3)) .missing ∧
      (let a : Answer := .board 1 (some [7, 8])
       let s := asking (.nb (.view false 1 64)) (.answered a)
       hasAnswer (.nb (.view false 1 64)) a ∧ (NbOp.view false 1 64).buf = some 64 ∧ s.imageHeld 0 1 (reqAt64 (.nb (.view false 1 64)) (.answered a)) a = false ∧ s.Inv ∧ s.staged = []) := by
  decide +kernel
/-- A store's fault, and that of a `marm`. -/
theorem witness_AnswersRetire_fault : hasAnswer (.stef .w64 3) .fault ∧ hasAnswer (.marm 2) .fault ∧ ∀ e : Fin 4, ReqOp.stef .w64 3 ≠ .marm e := by
  refine ⟨by decide +kernel, by decide +kernel, fun e h => ?_⟩
  cases h
/-- With nothing outstanding; with a load that has not returned and one store fault. -/
theorem witness_FencesRetire :
    let u := slot1 fun th => { th with loads := [⟨0, 0, 0, .scalar 4 .i32 64, none, []⟩], cntLd := 1, seq := 1 }
    s0.thr.faults = [] ∧ ((0#4 = 15 ∨ s0.thr.cntLd ≤ (0#4).toNat) ∧ (0#4 = 15 ∨ s0.thr.cntSt ≤ (0#4).toNat) ∧ (0#4 = 15 ∨ s0.thr.cntCp ≤ (0#4).toNat) ∧ (0#4 = 15 ∨ s0.thr.cntTl ≤ (0#4).toNat)) ∧
      (∀ l ∈ s0.thr.loads, s0.thr.seq ≤ l.seq) ∧ (∀ r ∈ s0.tile.stores, r.slot = s0.curSlot → r.seq < s0.thr.seq → s0.ackedAt s0.curTile .domain r = true) ∧
      ¬(0#4 = 15 ∨ u.thr.cntLd ≤ (0#4).toNat) ∧ ¬(∀ l ∈ u.thr.loads, u.thr.seq ≤ l.seq) ∧ s0.Inv ∧
      (let v := mach { th0 with cntSt := 1, seq := 1 } fun x => { x with stores := [store0 .plain false 64 .bank] }
       ¬(∀ r ∈ v.tile.stores, r.slot = v.curSlot → r.seq < v.thr.seq → v.ackedAt v.curTile .domain r = true)) := by decide +kernel
/-- No bridge of the package carries anything. -/
def cutApart (s : State) : State := { s with bridges := Vector.replicate 11 ⟨false, false, 0⟩ }
/-- A staged byte of die 1, with the bridges up and down; a locked line whose tables are in die 1. -/
theorem witness_FencesRetire_bridges :
    let f : Staged := ⟨0, 0, true, 2 ^ 37 + 64, 5⟩
    let s : State := { s0 with staged := [f, ⟨0, 0, true, 64, 6⟩] }
    let fenced (u : State) (e : Staged) : Bool := e.tile = u.curTile && e.done && u.inScope u.curTile .domain e.loc
    let l : State := { mach th0 fun x => { x with icache := [⟨0x1000, List.replicate 16 5, true⟩] } with pdbase := 2 ^ 37 }
    s.Inv ∧ fenced s f = true ∧ (∀ e ∈ s.staged, fenced s e = true → s.commitOpen s.curTile e.loc = true) ∧ goes (exec (.xfence .domain) s) ∧
      fenced (cutApart s) f = true ∧ (cutApart s).commitOpen 0 f.loc = false ∧ (cutApart s).commitOpen 0 64 = true ∧ goes (exec (.xfence .domain) (cutApart s)) ∧
      l.refetchOpen l.curTile = true ∧ (cutApart l).refetchOpen 0 = false ∧ s0.refetchOpen s0.curTile = true ∧
      (∀ r ∈ l.tile.stores, r.slot = l.curSlot → r.seq < l.thr.seq → l.ackedAt l.curTile .domain r = true) := by decide +kernel
/-- Two store faults, both to be reported, the first of them first; a third of an instruction of which a store is still listed. -/
theorem witness_FencesRetire_fault :
    let f : StoreFault := ⟨3, 8, 64⟩
    let g : StoreFault := ⟨3, 9, 128⟩
    let s := slot1 fun th => { th with faults := [g, f], seq := 9 }
    let b : StoreFault := ⟨0, 0, 64⟩
    let u := mach { th0 with faults := [b] } fun x => { x with stores := [store0 .plain false 64 .bank] }
    f ∈ s.thr.faults ∧ (∀ r ∈ s.tile.stores, r.slot = s.curSlot → r.seq ≠ f.seq) ∧ (∀ h ∈ s.thr.faults, f.seq < h.seq ∨ (f.seq = h.seq ∧ f.id < h.id) ∨ f = h) ∧ (3#4 : BitVec 4) ≠ 15 ∧
      s.thr.cntSt ≤ (3#4).toNat ∧ (∀ l ∈ s.thr.loads, s.thr.seq ≤ l.seq) ∧ (∀ h ∈ u.thr.faults, ¬∀ r ∈ u.tile.stores, r.slot = u.curSlot → r.seq ≠ h.seq) := by decide +kernel
def engEntry (op : EngOp) (st : FState) (fin : Bool) (out : Option EngOut) : EngEntry :=
  ⟨⟨0, 0, op, 1, false, false, 0, none, 0, true, [], []⟩, st, [], [0], [0], [], 0, 0, [], [], [], if fin then [⟨0, 0, 0, true⟩] else [], 0, [], 0, [], out, none⟩
/-- A control word with K = 16. -/
def ctl16 : Word := 15 <<< 24
/-- `tval` in supervisor and user mode; the read-only CSR 0x000; an unallocated number; a frozen sequencer with a matrix operation of two chunks. -/
theorem witness_CsrAccess :
    let e := engEntry (.mma .bf16 false 64 128 ctl16 0 false) .active false none
    let z := mach { th0 with status := 5 } fun x => { x with mxq := [(0, 0)], ops := [e], frozen := true }
    s1.thr.holds 1 64 ∧ s1.thr.free 4 ∧ s1.thr.free 0 ∧ csrAllocated 0x803 = true ∧ (csrSupervisor 0x803 = true → s1.thr.sv = true) ∧ csrReadOnly 0x803 = false ∧
      csrAllocated 0x401 = true ∧ csrSupervisor 0x401 = false ∧ csrReadOnly 0x401 = false ∧ s0.thr.holds 1 64 ∧ s0.thr.holds 0 0 ∧ csrAllocated 0xFFF = false ∧
      csrSupervisor 0x803 = true ∧ s0.thr.sv = false ∧ csrAllocated 0 = true ∧ csrSupervisor 0 = false ∧ csrReadOnly 0 = true ∧ z.tile.frozen = true ∧
      z.headOp z.curTile = some e ∧ mmaChunks .bf16 (ctlK ctl16) = 2 ∧ z.thr.holds 1 64 := by decide +kernel
theorem witness_TrapsAndReturns : s0.thr.tvec ≠ 0 ∧ (slot1 fun th => { th with tvec := 0 }).thr.tvec = 0 ∧ s0.thr.sv = false ∧ s1.thr.sv = true := by decide
def pairOf (retired miss : Nat) : Pairing := ⟨1, true, 12, 5, miss, retired, 77, [], [], [], [], false, none, []⟩
/-- A supervisor of a paired tile, its wait met or not. -/
theorem witness_SlotsAndSequencer_paired :
    let s (m : Option Word) : State := mach { th0 with status := 5, met := m } fun x => { x with pairing := some (pairOf 7 0) }
    (s none).isMet = false ∧ (s none).tile.pairing = some (pairOf 7 0) ∧ (s none).thr.sv = true ∧ (s none).thr.holds 1 64 ∧ (s (some 0x1000)).isMet = true ∧ (s none).tile.pairing ≠ none ∧
      goes (exec .fprt (s none)) ∧ goes (exec .unpair (s none)) ∧ goes (exec .fprt (s (some 0x1000))) ∧ goes (exec .unpair (s (some 0x1000))) := by decide +kernel
/-- A supervisor in slot 1, with slot 2 ready, killed or empty; a sequencer at work; a tile that can pair with tile 1. -/
theorem witness_SlotsAndSequencer :
    let two (r : Run) : State := mach (regs [(1, 2), (2, 0), (3, 8)] { th0 with status := 5 }) fun x => { x with slots := x.slots.set 2 { th0 with run := r } }
    let z : State := mach { th0 with status := 5 } fun x =>
      { x with mxq := [(0, 0)], ops := [engEntry (.acz 0) .active false none] }
    (two .ready).tile.pairing = none ∧ (two .ready).thr.sv = true ∧ (two .ready).thr.holds 1 2 ∧ (2 : Word).toNat < 8 ∧ (Fin.ofNat 8 (2 : Word).toNat : Slot) ≠ 0 ∧
      (Fin.ofNat 8 (2 : Word).toNat : Slot) ≠ (two .ready).curSlot ∧ ((two .ready).thrAt 0 2).run ≠ .empty ∧ ((two .ready).thrAt 0 2).run ≠ .killed ∧ ((two .empty).thrAt 0 2).run ≠ .killed ∧ ((two .killed).thrAt 0 2).run = .killed ∧
      (two .ready).thr.holds 3 8 ∧ ¬(8 : Word).toNat < 8 ∧ (two .ready).headBusy 0 = false ∧ z.headBusy 0 = true ∧ z.tile.frozen = false ∧ z.thr.sv = true ∧
      (two .ready).thr.holds 2 0 ∧ (two .ready).thr.free 4 ∧ (two .ready).curTile % 2 = 0 ∧ ((two .ready).tileAt ((two .ready).curTile + 1)).canPair = true ∧ s0.thr.sv = false := by
  decide +kernel
/-- A thread whose stream registers are as given, in a tile as given. -/
def bound (q : StreamReg) (b : Bind) (f : Tile → Tile) : State := mach { th0 with binds := th0.binds.set q b } f
/-- A word of tile 0's channel 1, and of its channel 0. -/
def chan1 : Word := 0x4000000000000001
def chan0 : Word := 0x4000000000000000
theorem witness_StreamsBind :
    let s := mach (regs [(1, 64), (2, 4), (3, 8), (4, 1), (5, chan1), (7, 0)] th0) plainTile
    let u := bound 0 ⟨.memRead, 64, 4, 8, 1, 2, true, [⟨5, false, none, 0, 0⟩], 0, 0, 0, none, 0, []⟩ plainTile
    let w := bound 0 ⟨.memWrite, 64, 4, 8, 1, 0, true, [⟨5, false, none, 0, 0⟩], 0, 0, 0, none, 0, []⟩ plainTile
    s.thr.holds 1 64 ∧ s.thr.holds 2 4 ∧ s.thr.holds 3 8 ∧ (s.thr.binds[(0 : StreamReg)]).kind = .unbound ∧ (s.thr.getV (streamReg 0)).pend = false ∧ (8 : Word).toNat < 2 ^ 33 ∧
      regionOf 64 ≠ 3 ∧ (64 : Word).toNat % 4 = 0 ∧ s.tile.eyelets.length < 4 ∧ s.thr.holds 4 1 ∧ (1 : Word).toNat < 8 ∧ (s.tile.channels[(1 : Fin 8)]).bound = none ∧
      s.thr.holds 5 chan1 ∧ s.thr.holds 7 0 ∧ s.outBindOk s.curTile chan1 0 = true ∧ u.thr.holds 1 64 ∧ (u.thr.binds[(0 : StreamReg)]).kind ≠ .unbound ∧
      (u.thr.binds[(0 : StreamReg)]).drained = true ∧ (w.thr.binds[(0 : StreamReg)]).drained = false ∧ u.thr.free 4 ∧ (u.thr.binds[(0 : StreamReg)]).buf.length ≤ 4 := by
  decide +kernel
/-- Bad operand words of a free register, one fault each; full eyelets; a channel that is bound. -/
theorem witness_StreamsBind_bad :
    let dev : Word := 0xC000000000000000
    let s := mach (regs [(1, 64), (2, 4), (3, 8), (4, 0x200000000), (5, dev), (7, 66), (8, 0), (9, 9)] th0) fun x => { x with channels := x.channels.set 2 ⟨[], [], false, some (3, 0), 0⟩ }
    let f := mach (regs [(1, 64), (2, 4), (3, 8)] th0) fun x => { x with eyelets := List.replicate 4 ⟨0, 0, .tbar, 1, false, false, 9, none, 0, true, [], []⟩ }
    (s.thr.binds[(0 : StreamReg)]).kind = .unbound ∧ (s.thr.getV (streamReg 0)).pend = false ∧ s.thr.holds 1 64 ∧ s.thr.holds 2 4 ∧ s.thr.holds 4 0x200000000 ∧ 2 ^ 33 ≤ (0x200000000 : Word).toNat ∧
      s.thr.holds 3 8 ∧ (8 : Word).toNat < 2 ^ 33 ∧ s.thr.holds 5 dev ∧ regionOf dev = 3 ∧ s.thr.holds 7 66 ∧ regionOf 66 ≠ 3 ∧ (66 : Word).toNat % 4 ≠ 0 ∧
      (f.thr.binds[(0 : StreamReg)]).kind = .unbound ∧ (f.thr.getV (streamReg 0)).pend = false ∧ f.thr.holds 1 64 ∧ f.thr.holds 2 4 ∧ f.thr.holds 3 8 ∧ 4 ≤ f.tile.eyelets.length ∧
      s.thr.holds 8 0 ∧ s.thr.holds 9 9 ∧ 8 ≤ (9 : Word).toNat ∧ (s.tile.channels[(Fin.ofNat 8 (2 : Word).toNat : Fin 8)]).bound.isSome = true ∧ s.outBindOk s.curTile 64 4 = false := by
  decide +kernel
/-- A register of each kind, for its status word. -/
theorem witness_StreamsBind_status :
    let u (k : BindKind) (buf : List Elem) (x : Tile → Tile) := bound 0 ⟨k, 1, 4, 8, 1, 0, true, buf, 0, 0, 0, none, 0, []⟩ x
    let e : Elem := ⟨5, false, none, 0, 0⟩
    let full (x : Tile) : Tile := { x with channels := x.channels.set 1 ⟨List.replicate 9 ⟨1, 2, 3, none, none, []⟩, [], false, some (1, 0), 8⟩ }
    (∀ k ∈ [BindKind.unbound, .memRead, .memWrite, .chan, .out], (u k [] plainTile).thr.free 4 ∧ ((u k [] plainTile).thr.binds[(0 : StreamReg)]).kind = k ∧
      (u k [] plainTile).tile.gathered 1 ≤ 4 ∧ goes (exec (.sstat 4 0) (u k [] plainTile))) ∧
      (∀ k ∈ [BindKind.memRead, .memWrite, .out], ((u k [e] plainTile).thr.binds[(0 : StreamReg)]).buf.length ≤ 4 ∧ ((u k [e] plainTile).thr.binds[(0 : StreamReg)]).buf ≠ []) ∧
      (u .chan [] full).tile.chanHead (Fin.ofNat 8 (1 : Word).toNat) ≠ none ∧ (u .chan [] full).tile.gathered (Fin.ofNat 8 (1 : Word).toNat) = 1 := by decide +kernel
theorem witness_FullEmptyAndMonitors :
    let armed (w : Bool) : State := slot1 fun th => { th with monitors := th.monitors.set 2 ⟨true, 64, [], w⟩ }
    (4 : Reg) ≠ 0 ∧ (s0.thr.getS 4).pend = false ∧ (s0.thr.bindOf 4).kind = .unbound ∧ (s0.thr.getV 4).pend = false ∧ s0.thr.free 4 ∧ s0.thr.holds 0 0 ∧ s0.thr.holds 2 3 ∧
      s0.thr.sleep = none ∧ (∀ e : Fin 4, (s0.thr.monitors[e]).valid = false) ∧
      ((List.finRange 4).map fun e => if ((armed true).thr.monitors[e]).valid && ((armed true).thr.monitors[e]).w then 2 ^ e.val else 0).sum ≠ 0 ∧
      ((List.finRange 4).map fun e => if ((armed false).thr.monitors[e]).valid && ((armed false).thr.monitors[e]).w then 2 ^ e.val else 0).sum = 0 ∧
      (∃ e : Fin 4, ((armed false).thr.monitors[e]).valid = true) := by decide +kernel
/-- Slot 1 registered or not, arrived or not; a wait that began in an earlier generation. -/
theorem witness_TileBarrier :
    let s (th : Thread) (b : Barrier) : State := mach (regs [(1, 1), (2, 3), (3, 4)] th) fun x => { x with barrier := b }
    let me : BitVec 8 := 1#8 <<< (1 : Slot).val
    let r := s th0 ⟨2, 0, false, 5, none, []⟩
    let w (a : Option Reg) := s { th0 with barWait := some ⟨0x1000, 4, a⟩ } ⟨2, 0, false, 5, none, []⟩
    r.thr.holds 1 1 ∧ (1 : Word).toNat < 2 ∧ r.thr.holds 2 3 ∧ 2 ≤ (3 : Word).toNat ∧ (3 : Word).toNat < 4 ∧ r.thr.holds 3 4 ∧ 4 ≤ (4 : Word).toNat ∧ r.thr.free 4 ∧
      r.tile.barrier.reg &&& me ≠ 0 ∧ r.tile.barrier.arr &&& me = 0 ∧ s0.tile.barrier.reg &&& me = 0 ∧ s0.tile.barrier.reg = 0 ∧ s0.thr.barWait = none ∧ r.thr.barWait = none ∧ r.tile.barrier.reg ≠ 0 ∧
      (w none).thr.barWait = some ⟨(w none).thr.pc, 4, none⟩ ∧ (4 : BitVec 16) ≠ (w none).tile.barrier.gen ∧ (w (some 4)).thr.barWait = some ⟨(w (some 4)).thr.pc, 4, some 4⟩ := by
  decide +kernel
/-- Three handles, of which the second is of the least priority number; 64 of them; a thread with nothing outstanding; the WAKE word of tile 0. -/
theorem witness_TaskQueue :
    let s := mach (regs [(1, chan0), (2, 5)] th0) fun x => { x with queue := [0x400000, 0x200000, 0x600000] }
    let full := mach th0 fun x => { x with queue := List.replicate 64 1 }
    let pri (g : Word) : Nat := g.toNat / 2 ^ 21 % 4
    s.thr.holds 1 chan0 ∧ s.thr.holds 2 5 ∧ s.thr.free 4 ∧ (5 : Word) ≠ BitVec.allOnes 64 ∧ s.tile.queue.length < 64 ∧ 64 ≤ full.tile.queue.length ∧ full.thr.holds 1 64 ∧
      s.tile.queue = [0x400000] ++ 0x200000 :: [0x600000] ∧ pri 0x200000 < pri 0x400000 ∧ pri 0x200000 ≤ pri 0x600000 ∧
      s0.tile.queue = [] ∧ s0.thr.hold = none ∧ s0.tile.recvsOf s0.curSlot = 0 ∧ s0.thr.cntLd = 0 ∧ s0.thr.cntSt = 0 ∧ s0.thr.cntCp = 0 ∧ s0.thr.cntTl = 0 ∧ s0.thr.faults = [] ∧
      (∀ r : StreamReg, (s0.thr.binds[r]).kind = .unbound) ∧ destOf (s.gangPkgs s.curTile) chan0 = some ⟨none, 0, 0⟩ ∧ s.thr.cntSt < 255 := by decide +kernel
/-- Channel 1 of tile 0, empty and with an entry. -/
theorem witness_Messages :
    let e : ChEntry := ⟨7, 8, 9, none, none, []⟩
    let s := mach (regs [(1, chan1), (2, 3), (3, 5), (4, 1), (6, 1), (7, 0)] th0) plainTile
    let u := mach (regs [(1, chan1), (2, 3), (3, 5), (4, 1)] th0) fun x => { x with channels := x.channels.set 1 ⟨[e], [], false, none, 0⟩ }
    s.thr.holds 1 chan1 ∧ s.thr.holds 2 3 ∧ s.thr.holds (Reg.next 2) 5 ∧ destOf (s.gangPkgs s.curTile) chan1 = some ⟨none, 0, 1⟩ ∧ s.thr.cntSt < 255 ∧ s.curTile < 2 ^ 11 ∧
      s.thr.holds 4 1 ∧ (1 : Word).toNat < 8 ∧ s.thr.free 8 ∧ s.thr.free (Reg.next 8) ∧ s.thr.cntLd < 255 ∧ (s.tile.channels[(1 : Fin 8)]).bound = none ∧
      (s.tile.channels[(1 : Fin 8)]).recvs.length < 8 ∧ (s.tile.channels[(1 : Fin 8)]).entries = [] ∧ s.thr.free 10 ∧ (3 : Word).toNat < 2 ^ 32 ∧
      (u.tile.channels[(1 : Fin 8)]).entries = [e] ∧ (u.tile.channels[(1 : Fin 8)]).recvs = [] ∧ (u.tile.channels[(1 : Fin 8)]).horizon = false ∧ (u.tile.channels[(1 : Fin 8)]).formed = 0 ∧ u.thr.holds 4 1 ∧ u.thr.free 8 ∧
      (10 : Reg) ≠ 8 ∧ (10 : Reg) ≠ Reg.next 8 ∧ s.thr.holds 6 1 ∧ (1 : Word).toNat < 2 ∧ s.thr.holds (Reg.next 6) 0 := by decide +kernel
/-- Two local addresses and a count; a device address; full eyelets; a tag in use. -/
theorem witness_CopiesIssue :
    let r : EngReq := ⟨0, 0, .cpy 64 128 64, 1, false, false, 9, none, 0, true, [], []⟩
    let s := mach (regs [(1, 64), (2, 128), (3, 64), (4, 0), (5, 1), (6, 256)] th0) plainTile
    let d := mach (regs [(1, 0xC000000000000000), (2, 0)] th0) plainTile
    let e := mach (regs [(1, 64), (2, 128), (3, 64), (4, 9)] th0) fun x => { x with eyelets := List.replicate 4 r }
    s.thr.holds 1 64 ∧ s.thr.holds 2 128 ∧ s.thr.holds 3 64 ∧ s.thr.free 8 ∧ s.thr.cntCp < 255 ∧ s.tile.eyelets.length < 4 ∧ regionOf 64 ≠ 3 ∧ regionOf 128 ≠ 3 ∧ regionOf (64 + 64) ≠ 3 ∧ regionOf (0xBFFFFFFFFFFFFFC0 + 64) = 3 ∧
      1 ≤ (64 : Word).toNat ∧ (64 : Word).toNat < 2 ^ 32 ∧ s.thr.holds 4 0 ∧ ctlOkM 0 = true ∧ s.thr.holds (Reg.next 4) 1 ∧ s.thr.holds (Reg.next (Reg.next 4)) 256 ∧
      1 ≤ (1 : Word).toNat ∧ ownTile s.curTile 64 = true ∧ (64 : Word).toNat % 64 = 0 ∧ regionOf 256 ≤ 1 ∧ (256 : Word).toNat % 64 = 0 ∧ s.thr.cntTl < 255 ∧
      d.thr.holds 1 0xC000000000000000 ∧ regionOf 0xC000000000000000 = 3 ∧ ¬1 ≤ (0 : Word).toNat ∧ e.thr.holds 1 64 ∧ 4 ≤ e.tile.eyelets.length ∧ e.thr.free 8 ∧
      (64 : Word).toNat % sizeBytes .w64 = 0 ∧ (3 : Word).toNat % sizeBytes .w32 ≠ 0 ∧ (9 : Word).toNat < 2 ^ 16 ∧ e.thr.holds 4 9 := by decide +kernel
/-- Good words: control 0 (one row, column and K of 1, formats of code 0), region 0, sources at 64 and 128; a control word with every bit set. -/
theorem witness_MatrixIssue :
    let s := mach ((regs [(1, 64), (2, 128), (3, 0), (4, 192), (5, 0xFFFFFFFFFFFFFFFF), (6, 0)] th0).setV 2 9) plainTile
    (s.thr.holds 1 64 ∧ s.thr.holds 2 128 ∧ s.thr.holds 3 0 ∧ s.thr.holds 4 192 ∧ s.thr.cntTl < 255 ∧ s.tile.eyelets.length < 4 ∧ ctlOk 0 = true ∧ regionOf 64 ≤ 1 ∧
      (64 : Word).toNat % 64 = 0 ∧ (128 : Word).toNat % 64 = 0 ∧ regionOf 192 ≤ 1 ∧ s.thr.holds 5 0xFFFFFFFFFFFFFFFF ∧ ctlOk 0xFFFFFFFFFFFFFFFF = false ∧ s.thr.holds 6 0 ∧
      regionOk 0 true = true ∧ regionOk 0xFFFFFFFFFFFFFFFF true = false ∧ regionOk 0 false = true ∧ accAddrOk s.curTile 64 0 = true ∧ s.thr.free 8 ∧ s.thr.cntCp < 255 ∧
      (0 : Word) ≠ BitVec.allOnes 64 ∧ (0 : Word).toNat < 2 ^ 16 ∧ (0 : Word).toNat % 256 ≤ 127 ∧ (0x607F : Word).toNat % 256 ≤ 127 ∧ (0x607F : Word).toNat / 256 ≤ 96) ∧
      s.takes 4 ∧ s.reads 2 9 :=
  ⟨by decide, takes_of (by decide +kernel) (by decide +kernel), reads_of (by decide +kernel) (by decide +kernel)⟩
theorem witness_TreesAndConversionsIssue :
    let r : EngReq := ⟨0, 0, .tree .add 64 128 0, 1, false, false, 9, none, 0, true, [], []⟩
    let cc : Word := 0x1000000010
    let cq : Word := 0x6000000010
    let s := mach (regs [(1, 64), (2, 128), (3, 0), (4, cc), (5, 0xFFFFFFFFFFFFFFFF), (6, 0), (7, cq)] th0) plainTile
    let e := mach (regs [(1, 64), (2, 128), (3, 0)] th0) fun x => { x with accepted := List.replicate 4 r }
    s.thr.holds 1 64 ∧ s.thr.holds 2 128 ∧ s.thr.holds 3 0 ∧ treeCtlOk .add 0 = true ∧ treeCtlOk .scanAff 0 = true ∧ treeAddrOk 0 64 = true ∧ treeAddrOk 0 128 = true ∧
      s.thr.cntTl < 255 ∧ s.tile.eyelets.length < 4 ∧ s.tile.treeOps < 4 ∧ e.thr.holds 1 64 ∧ e.thr.cntTl < 255 ∧ 4 ≤ e.tile.treeOps ∧ s.thr.holds 5 0xFFFFFFFFFFFFFFFF ∧
      treeCtlOk .add 0xFFFFFFFFFFFFFFFF = false ∧ s.thr.holds 4 cc ∧ ccvCtlOk cc false = true ∧ ccvAddrOk s.curTile (ccvDst cc) 64 = true ∧ ccvAddrOk s.curTile (ccvSrc cc) 128 = true ∧
      s.thr.holds 7 cq ∧ ccvCtlOk cq true = true ∧ ccvAddrOk s.curTile (ccvDst cq) 64 = true ∧ ccvAddrOk s.curTile (ccvSrc cq) 128 = true ∧ ownTile s.curTile 64 = true := by
  decide +kernel
/-- A valid header 1 with H = 4 and all its pointers 0. -/
def hdr1 : BitVec 512 := 0x401#512
/-- Promise p of header 1. -/
def promise (ent : Nat) (n0 : BitVec 32) (held : Bool) : Promise := ⟨ent, 1, n0, some 1, 0, held⟩
def withHdr (h : BitVec 512) (ps : List Promise) : State :=
  mach (regs [(1, 1), (2, 64), (3, 99), (4, (Tile.reset.handleOf (promise 0 0 false)))] th0) fun x => { x with headers := x.headers.set 1 h, promises := ps }
theorem witness_PromisesIssue :
    let s := withHdr hdr1 []
    let full := withHdr hdr1 ((List.range 64).map fun e => promise e 0 false)
    let old := withHdr (hdSetN hdr1 5) [promise 0 0 false]
    let two := withHdr (hdSetN hdr1 2) [promise 1 0 false, promise 0 0 false]
    s.thr.holds 1 1 ∧ s.thr.holds 2 64 ∧ (1 : Word).toNat < 16 ∧ hdOk (s.tile.hdr 1) = true ∧ hdPred (s.tile.hdr 1) = false ∧ s.thr.free 8 ∧ s.tile.expiring 1 = none ∧
      s.tile.freeEnt = some 0 ∧ s.thr.cntTl < 255 ∧ s.tile.eyelets.length < 4 ∧ full.thr.holds 1 1 ∧ full.tile.freeEnt = none ∧ full.tile.expiring 1 = none ∧ hdOk (full.tile.hdr 1) = true ∧
      s.thr.holds 3 99 ∧ ¬(99 : Word).toNat < 16 ∧ ptrOk 64 = true ∧ old.tile.expiring 1 = some (promise 0 0 false) ∧ hdOk (old.tile.hdr 1) = true ∧
      two.thr.holds 4 (Tile.reset.handleOf (promise 0 0 false)) ∧ two.tile.promiseOf (Tile.reset.handleOf (promise 0 0 false)) = some (promise 0 0 false) ∧
      hdBrk (two.tile.hdr 1) = false ∧ (two.tile.promises.filter fun r => r.hdr = 1).head? = some (promise 1 0 false) ∧
      (withHdr hdr1 [promise 0 0 false]).tile.promiseOf (Tile.reset.handleOf (promise 0 0 false)) = some (promise 0 0 false) ∧
      s.tile.promiseOf 99 = none ∧ (s.tile.mode.toNat % 4 ≠ 0 ∨ PrmOrd.strict = .strict) ∧ s.tile.promises.length ≤ 64 := by
  decide +kernel

-- Events

/-- A held completion entry for slot 1's copy; a message for channel 1 of tile 0 that may go; a WAKE. -/
theorem witness_Delivery :
    let h : HeldEntry := ⟨7, 8, 9, some 1, none⟩
    let m : SentItem := ⟨.msg, 1, 0, none, 0, 1, 7, 8, 9, none, none, [], none, true⟩
    let wk : SentItem := { m with kind := .wake, chan := 0 }
    let s := mach { th0 with cntCp := 1, cntSt := 1 } fun x => { x with heldEnts := [h], sent := [m, wk] }
    let full := mach { th0 with cntSt := 1 } fun x =>
      { x with sent := [m, wk], channels := x.channels.set 1 ⟨List.replicate 32 ⟨1, 2, 3, none, none, []⟩, [], false, none, 0⟩, queue := List.replicate 64 1 }
    (s.tileAt 0).heldEnts = [h] ∧ ((s.tileAt 0).channels[(0 : Fin 8)]).entries.length < 32 ∧ ((s.tileAt 0).channels[(0 : Fin 8)]).recvs = [] ∧
      ((s.tileAt 0).channels[(0 : Fin 8)]).bound = none ∧ h.cp = some 1 ∧ (s.tileAt 0).sent[0]? = some m ∧ m.isWake = false ∧ s.sentFree 0 0 m = true ∧ s.wayOpen 0 m = true ∧ m.pkg = none ∧
      (s.tileAt m.dest).hidden = false ∧ ((s.tileAt m.dest).channels[m.chan]).entries.length < 32 ∧ ((s.tileAt m.dest).channels[m.chan]).recvs = [] ∧
      ((s.tileAt m.dest).channels[m.chan]).bound = none ∧ full.sentFree 0 0 m = true ∧ (full.tileAt 0).sent[0]? = some m ∧ 32 ≤ ((full.tileAt m.dest).channels[m.chan]).entries.length ∧
      (s.tileAt 0).sent[1]? = some wk ∧ wk.isWake = true ∧ s.sentFree 0 1 wk = true ∧ (s.tileAt wk.dest).woke = false ∧ (s.tileAt wk.dest).queue.length < 64 ∧ full.sentFree 0 1 wk = true ∧
      (full.tileAt 0).sent[1]? = some wk ∧ 64 ≤ (full.tileAt wk.dest).queue.length ∧
      goes (exec (.channelAccept (.held 0)) s) ∧ goes (exec (.channelAccept (.sent 0 0)) full) ∧ goes (exec (.wake (.sent 0 1)) full) := by decide +kernel
/-- A gang of tile 0 of this package, in a state. -/
def gang0 (st : GangState) : Gang where
  id := 3
  pkg := 0
  npk := 1
  pid := 0
  mode := 0
  retry := 2
  age := 0
  tick := 0
  tvec := 0x2000
  code := 0x1000
  text := 0
  pcs := []
  slots := 1
  tiles := [0]
  ranks := 1
  rank0 := 0
  data := 0
  nodes := []
  state := st
  req := none
  stopT := none
  stopD := none
  round := 0
  rounds := []
  combined := []
  suspects := 0
  treeDone := 0
  treeFails := []
  tree := []
  barDone := 0
  barPast := []
  saved := []
  savedMem := []
  savedFe := []
  savedSnap := []
  savedStaged := []
/-- The same gang over this package and the one of node 7. -/
def gang2 (st : GangState) : Gang := { gang0 st with npk := 2, ranks := 2, nodes := [0, 7] }
def ganged (g : Gang) (th : Thread) (f : Tile → Tile) : State := { mach th fun x => f { x with gang := some g.id } with gangs := [g] }
/-- All have arrived at the tile barrier; the gang's tiles have arrived at the gang's, one with a `tbar` there; a round is due; a round's value is to be published. -/
theorem witness_Delivery_gangs :
    let s (out : Bool) := mach th0 fun x => { x with barrier := ⟨2, 2, out, 5, none, []⟩ }
    let g := gang0 .running
    let e := engEntry .tbar .active false none
    let u (es : List EngEntry) : State := { ganged g { th0 with cntTl := 1 } fun x => { x with barCount := 1, vtime := 9, barrier := ⟨2, 2, true, 5, some 0, []⟩, ops := es } with timebase := 4096 }
    let h := { g with round := 1, rounds := [(1, 9)] }
    let v := ganged h th0 plainTile
    let lost : Gang := { gang2 .running with tree := [⟨.barrier, 0, 0, [], 3, true⟩] }
    let w := ganged lost th0 fun x => { x with barCount := 1, ops := [e] }
    ((s false).tileAt 0).barrier.reg ≠ 0 ∧ ((s false).tileAt 0).barrier.arr = ((s false).tileAt 0).barrier.reg ∧ ((s false).tileAt 0).barrier.sent = none ∧ ((s false).tileAt 0).barrier.out = false ∧
      ((s true).tileAt 0).barrier.out = true ∧ (s true).arrivalsClear 0 = true ∧ ((s true).tileAt 0).pairing = none ∧ goes (exec (.barrierComplete 0) (s true)) ∧
      (u []).gangAt g.id = some g ∧ g.tiles ≠ [] ∧ g.tiles.Nodup ∧ (∀ v ∈ g.tiles, g.barDone < ((u []).tileAt v).barCount ∧ ((u []).tileAt v).agreed = true) ∧ g.joined .barrier g.barDone = true ∧
      (u []).treeOpen g = true ∧ (((u [e]).tileAt 0).ops.find? fun e => e.req.op == .tbar && e.state == .active && e.ord = g.barDone) = some e ∧ goes (exec (.gangBarrierComplete 3) (u [e])) ∧
      w.gangAt lost.id = some lost ∧ lost.joined .barrier lost.barDone = true ∧ (lost.work .barrier 0).lost = true ∧ w.treeOpen lost = true ∧ goes (exec (.gangBarrierComplete 3) w) ∧
      g.state = .running ∧ (u []).anyHalted = false ∧ (u []).timebase.toNat = g.tick.toNat + 4096 * 1 ∧ g.round < 1 ∧ goes (exec (.horizonRound 3 (BitVec.allOnes 64)) (u [])) ∧
      v.meshOpen 6 (dieOf 0) = true ∧ v.roundOpen h = true ∧ ({ h with combined := [1] } : Gang).combined.contains 1 = true ∧ v.gangOf 0 = some h ∧ h.rounds.find? (fun p => p.1 = 1) = some (1, 9) ∧ h.state = .running ∧ v.anyHalted = false ∧ goes (exec (.horizonPublish 0 1) v) := by
  decide +kernel
/-- The first entry of tile 5 of the other package for channel 1 of tile 0. -/
def laceEntry : LaceEntry := ⟨0, 1, 7, 8, 0x0001000500000000, none, none⟩
theorem witness_Delivery_lace :
    let g := gang2 .running
    let s (n : Nat) := ganged g th0 fun x => { x with channels := x.channels.set 1 ⟨List.replicate n ⟨1, 2, 3, none, none, []⟩, [], false, none, 0⟩ }
    (s 0).gangOf 0 = some g ∧ (s 0).laceOk g ((s 0).tileAt 0) laceEntry = true ∧ dieOf 0 < 6 ∧ laceEntry.chan ≠ 0 ∧ (s 0).ioOpen (dieOf 0) = true ∧ ((s 0).tileAt 0).hidden = false ∧
      (((s 0).tileAt 0).channels[laceEntry.chan]).recvs = [] ∧ (((s 0).tileAt 0).channels[laceEntry.chan]).bound = none ∧ (((s 0).tileAt 0).channels[laceEntry.chan]).entries.length < 32 ∧
      32 ≤ (((s 32).tileAt 0).channels[laceEntry.chan]).entries.length ∧ (s 32).laceOk g ((s 32).tileAt 0) laceEntry = true ∧ goes (exec (.channelAccept (.lace laceEntry)) (s 0)) := by
  decide +kernel
/-- A memory stream of a kind and base, with the element access of number 3 in flight. -/
def flying (k : BindKind) (a : Word) : State := bound 0 ⟨k, a, 128, 8, 0, 1, true, [⟨5, false, none, 0, 0⟩], 0, 0, 0, some 3, 0, []⟩ plainTile
/-- A word of die 1, for a machine that has lost that die. -/
def gone : Word := 0x4000010000000040
/-- Streams whose generator may begin an element. -/
theorem witness_StreamElements_begins :
    let s (k : BindKind) := bound 0 ⟨k, 64, 128, 8, 0, 1, true, [⟨5, false, none, 0, 0⟩], 0, 0, 0, none, 0, []⟩ plainTile
    (s .memRead).streamBegins 0 1 0 = true ∧ (s .memWrite).streamBegins 0 1 0 = true ∧ goes (exec (.streamFetch 0 1 0) (s .memRead)) ∧ goes (exec (.streamWrite 0 1 0) (s .memWrite)) := by
  decide +kernel
/-- A read stream, a write stream and an outbound stream that can take a step; the same two of a die that is lost. -/
theorem witness_StreamElements :
    let r := flying .memRead 64
    let w := flying .memWrite 64
    let x (k : BindKind) : State := { flying k gone with lostDies := [1] }
    let o := bound 0 ⟨.out, chan1, 0, 0, 0, 0, true, [⟨5, false, none, 0, 0⟩], 0, 0, 0, none, 0, []⟩ plainTile
    let a : Word := 64 + BitVec.ofNat 64 1 * 128
    let n (s : State) : Nat := (s.tileAt 0).elemPlace ((s.thrAt 0 1).binds[(0 : StreamReg)]) 3
    let c : Word := gone + BitVec.ofNat 64 1 * 128
    (r.tileAt 0).pairing = none ∧ r.dieHalted 0 = false ∧ ((r.thrAt 0 1).binds[(0 : StreamReg)]).kind = .memRead ∧ ((r.thrAt 0 1).binds[(0 : StreamReg)]).flight = some 3 ∧
      r.streamHeld 0 a false (n r) = false ∧ ((r.thrAt 0 1).binds[(0 : StreamReg)]).pid = 0 ∧ r.engRead 0 ⟨0, 3⟩ (addrsFrom a 128) = .bytes (List.replicate 128 0) ∧ goes (exec (.streamFetch 0 1 0) r) ∧
      ((w.thrAt 0 1).binds[(0 : StreamReg)]).kind = .memWrite ∧ ((w.thrAt 0 1).binds[(0 : StreamReg)]).buf = ⟨5, false, none, 0, 0⟩ :: [] ∧ w.streamHeld 0 a true (n w) = false ∧
      w.engWrite 0 ⟨0, 3⟩ ((addrsFrom a 128).zip (leBytes 5 128)) = .cells ((addrsFrom a 128).zip (leBytes 5 128) |>.map fun p => (tileLoc 0 p.1.toNat, p.2)) ∧ goes (exec (.streamWrite 0 1 0) w) ∧
      (x .memRead).streamHeld 0 c false (n (x .memRead)) = false ∧ (x .memWrite).streamHeld 0 c true (n (x .memWrite)) = false ∧ (x .memRead).engRead 0 ⟨0, 3⟩ (addrsFrom c 128) = .fatal c ∧ goes (exec (.streamFetch 0 1 0) (x .memRead)) ∧
      (x .memWrite).engWrite 0 ⟨0, 3⟩ ((addrsFrom c 128).zip (leBytes 5 128)) = .fatal c ∧ goes (exec (.streamWrite 0 1 0) (x .memWrite)) ∧
      ((o.thrAt 0 1).binds[(0 : StreamReg)]).kind = .out ∧ ((o.thrAt 0 1).binds[(0 : StreamReg)]).pos < 0 + 1 ∧
      ((o.tileAt 0).sent.filter fun it => it.kind == .elem 0 && it.slot = 1).length ≤ 8 * (0 + 1 - 0 - 1) ∧ goes (exec (.streamElementAck 0 1 0) o) := by decide +kernel
def copyReq (flag : Option ArmFlag) : EngReq := ⟨0, 0, .cpy 64 128 64, 1, false, false, 9, flag, 0, true, [], []⟩
def flag8 : ArmFlag := ⟨256, 0x1234, .w64⟩
def copyEntry (flag : Option ArmFlag) (st : FState) (moved : List Nat) (err : Option (EngErr × Word)) : EngEntry :=
  ⟨copyReq flag, st, [⟨128, 191, false⟩, ⟨64, 127, true⟩], [0], [0], [], 0, 0, [], moved, [], [], 0, [], 0, [], none, err⟩
def copying (e : EngEntry) : State := mach { th0 with cntCp := 1 } fun x => { x with ops := [e], nextId := 1 }
/-- A copy in an eyelet, accepted, held, active with its one piece to move and moved, read-done, in error, and with its flag to write; a binding; a staged byte. -/
theorem witness_CarrierSteps :
    let e := mach th0 fun x => { x with eyelets := [copyReq none] }
    let b := mach { th0 with binds := th0.binds.set 0 ⟨.memRead, 64, 128, 8, 0, 0, false, [], 0, 0, 0, none, 0, []⟩ } fun x => { x with eyelets := [{ copyReq none with op := .bind 0 }] }
    let a := mach th0 fun x => { x with accepted := [copyReq none] }
    let c (fl : Option ArmFlag) (st : FState) (moved : List Nat) := copying (copyEntry fl st moved none)
    let z := copyEntry none .active [] (some (.fault, 64))
    let p : CopyPlan := ⟨none, 1, 1, 64, 1, 1, 64⟩
    let f : Flagging := ⟨copyReq (some flag8), 0, 0, 64⟩
    let fs := mach { th0 with cntCp := 1 } fun x => { x with flagging := [f] }
    let cs := (addrsFrom 256 8).zip (leBytes 0x1234 8) |>.map fun p => (tileLoc 0 p.1.toNat, p.2)
    let g : State := { s0 with staged := [⟨0, 0, true, 64, 5⟩] }
    (e.tileAt 0).eyelets = [copyReq none] ∧ (e.tileAt 0).pairing = none ∧ e.dieHalted 0 = false ∧ (e.tileAt 0).fretTakes (copyReq none).op.entries = true ∧ goes (exec (.carrierAccept 0) e) ∧
      (b.tileAt 0).fretTakes (EngOp.bind 0).entries = true ∧ ((b.thrAt 0 1).binds[(0 : StreamReg)]).kind.isMem = true ∧ goes (exec (.carrierAccept 0) b) ∧
      (a.tileAt 0).accepted = [copyReq none] ∧ goes (exec (.fretboardEnter 0) a) ∧
      (c none .held []).opAt (0, 0) = some (copyEntry none .held [] none) ∧ (c none .held []).conflicts 0 (copyEntry none .held [] none) = false ∧ ((c none .held []).tileAt 0).storesBefore 1 0 = false ∧
      (c none .held []).seqTakes 0 (copyEntry none .held [] none) = true ∧ (copyReq none).op ≠ .tbar ∧ (copyReq none).op.lastAddrs 0 = [] ∧ goes (exec (.dispatch 0 0) (c none .held [])) ∧
      (copyReq none).op.isCopy = true ∧ (copyEntry none .active [] none).plan = .inr p ∧ ((c none .active []).genSteps 0 (copyEntry none .active [] none)).contains (.piece 0) = true ∧
      (c none .active []).piece 0 (copyEntry none .active [] none) p 0 = .moves ((List.range 64).map fun i => (tileLoc 0 (64 + i), 0)) VFlags.none ∧
      goes (exec (.addressGeneration 0 0 (.piece 0)) (c none .active [])) ∧
      (copyEntry none .active [0] none).allMoved = true ∧ (copyEntry none .active [0] none).releases = true ∧ goes (exec (.readDone 0 0) (c none .active [0])) ∧
      (copyEntry none .readDone [0] none).mayEnd = true ∧ goes (exec (.operationComplete 0 0) (c none .readDone [0])) ∧ (copyReq (some flag8)).flag ≠ none ∧
      goes (exec (.operationComplete 0 0) (c (some flag8) .readDone [0])) ∧ (copying z).opAt (0, 0) = some z ∧ goes (exec (.errorCompletion 0 0 .fault) (copying z)) ∧
      fs.Inv ∧ fs.opAt (0, 0) = none ∧ (fs.tileAt 0).flagOf 0 = some f ∧ fs.flagWrite 0 f = .cells cs ∧ cs ≠ [] ∧ (cs.map (·.1)).Nodup ∧ goes (exec (.operationComplete 0 0) fs) ∧
      g.Inv ∧ g.staged[0]? = some ⟨0, 0, true, 64, 5⟩ ∧ goes (exec (.stagingCommit 0) g) := by decide +kernel
/-- What R289 and R294 ask of the copies above: the local source is moved, the payload reaches its homes. -/
theorem witness_CarrierSteps_points :
    (copying (copyEntry none .active [0] none)).localMoved 0 (copyEntry none .active [0] none) = true ∧
      (mach { th0 with cntCp := 1 } fun x => { x with flagging := [⟨copyReq (some flag8), 0, 0, 64⟩] }).payloadOpen 0 0 = true := by decide +kernel
/-- A copy from a page of pid 0 has that page to ask for. -/
theorem witness_CarrierSteps_page :
    let e : EngEntry := { copyEntry none .active [] none with req := { copyReq none with op := .cpy 64 0x8000000000000000 64 } }
    ((copying e).genSteps 0 e).contains (.page 0) = true ∧ goes (exec (.addressGeneration 0 0 (.page 0)) (copying e)) := by decide +kernel
def engining (e : EngEntry) : State := mach { th0 with cntTl := 1 } fun x => { x with ops := [e], mxq := [(0, 0)], nextId := 1 }
/-- An entry with an interval that reads. -/
def reading (e : EngEntry) : EngEntry := { e with ivs := [⟨64, 127, false⟩] }
/-- `acz`, `acwr` and `acrd` at work, and `acst`, `adrn`, `acld`, `ccv` and `ccvq` to be computed. -/
theorem witness_AccumulatorSteps :
    let active (op : EngOp) := engEntry op .active false none
    let wr (e : EngEntry) (as : List Word) (bs : List Byte) : Bool := match (engining e).engWrite 0 e.acc (as.zip bs) with
      | .cells _ => true
      | _ => false
    let z := active (.acz 0)
    let st := active (.acst 64 0)
    let dr := { active (.adrn 64 0 5) with moved := [0] }
    let ld := reading (active (.acld 64 0))
    let cc := reading (active (.ccv 64 128 0x1000000010))
    let cq := reading (active (.ccvq 64 128 0x6000000010 256))
    (engining z).opAt (0, 0) = some z ∧ z.err = none ∧ z.out = none ∧ z.ivs = [] ∧ regionOk 0 true = true ∧ z.req.owner = some 1 ∧ ((engining z).tileAt 0).pairing = none ∧
      (engining z).dieHalted 0 = false ∧ goes (exec (.operationComplete 0 0) (engining z)) ∧
      wr st (addrsFrom 64 4) [0, 0, 0, 0] ∧ dr.allMoved = true ∧ wr dr (addrsFrom 64 4) [0, 0, 0, 0] ∧ goes (exec (.readDone 0 0) (engining st)) ∧ goes (exec (.readDone 0 0) (engining dr)) ∧
      ld.releases = true ∧ (engining ld).engRead 0 ⟨0, 0⟩ (addrsFrom 64 4) = .bytes [0, 0, 0, 0] ∧ goes (exec (.readDone 0 0) (engining ld)) ∧
      cc.releases = true ∧ rowBytes .f32 16 = 64 ∧ wr cc (addrsFrom 64 32) (List.replicate 32 0) ∧ (engining cc).engRead 0 ⟨0, 0⟩ (addrsFrom 128 64) = .bytes (List.replicate 64 0) ∧
      (unitsBytes .bf16 (convertUnits false .f32 .bf16 (List.replicate 16 0)).1).length = 32 ∧ goes (exec (.readDone 0 0) (engining cc)) ∧
      (engining cq).engRead 0 ⟨0, 0⟩ (addrsFrom 256 1) = .bytes [0] ∧ goes (exec (.readDone 0 0) (engining cq)) ∧
      selOk 0 = true ∧ goes (exec (.operationComplete 0 0) (engining (active (.acwr 0 7)))) ∧ goes (exec (.operationComplete 0 0) (engining (active (.acrd 4 0)))) := by
  decide +kernel
/-- The same read-done; a matrix operation that is complete or has a chunk to take, and a group operation. -/
theorem witness_AccumulatorSteps_ends :
    let o : EngOut := ⟨[(tileLoc 0 64, 1), (tileLoc 0 65, 2)], 0, 2⟩
    let fin (op : EngOp) (o : EngOut) := engining (engEntry op .readDone false (some o))
    let dr : EngEntry := { engEntry (.adrn 64 0 5) .readDone false (some o) with moved := [0] }
    let op : EngOp := .mma .bf16 false 64 128 0 0 false
    let f := reading { engEntry op .active true none with fmtA := [2], fmtB := [2] }
    let m := { f with quads := [] }
    let g := engEntry (.mma .bf16 false 64 128 1 0 false) .held false none
    let p : MmaPlan := ⟨.bf16, false, 64, 128, 0, 0, .bf16, .bf16⟩
    let r (s : State) : Bool := match s.mmaRaw 0 m p with
      | .inr raw => (match p.data raw with
        | .inr _ => true
        | .inl _ => false)
      | .inl _ => false
    (fin (.acst 64 0) o).opAt (0, 0) = some (engEntry (.acst 64 0) .readDone false (some o)) ∧ (engEntry (.acst 64 0) .readDone false (some o)).mayEnd = true ∧ (o.bytes.map (·.1)).Nodup ∧
      goes (exec (.operationComplete 0 0) (fin (.acst 64 0) o)) ∧ (engining dr).Inv ∧ (engining dr).staged = [] ∧ dr.allMoved = true ∧ (engining dr).drainOpen 0 dr.req.op o = true ∧ goes (exec (.operationComplete 0 0) (engining dr)) ∧
      goes (exec (.operationComplete 0 0) (fin (.acld 64 0) ⟨cellBytes (0, 0) 5 ++ cellBytes (127, 127) 6, 0, 0⟩)) ∧ goes (exec (.operationComplete 0 0) (fin (.ccv 64 128 0x1000000010) o)) ∧
      (engining f).opAt (0, 0) = some f ∧ f.allFin 0 = true ∧ f.releases = true ∧ goes (exec (.readDone 0 0) (engining f)) ∧ goes (exec (.operationComplete 0 0) (engining { f with state := .readDone })) ∧
      (engining m).opAt (0, 0) = some m ∧ (engining m).runningMma 0 = some ((0, 0), m) ∧ ((engining m).tileAt 0).frozen = false ∧ (m.quadOf 0).fin = false ∧ m.mmaPlan 0 = .inr p ∧
      r (engining m) = true ∧ ctlRow0 p.c + (mmaRows p.c 0).2 ≤ 128 ∧ ctlCol0 p.c + (mmaCols p.c 0).2 ≤ 128 ∧ goes (exec (.kChunkBoundary ⟨0, false⟩) (engining m)) ∧
      (engining m).dmode ≠ 2 ∧ goes (exec (.kChunkBoundary ⟨0, true⟩) (engining m)) ∧
      (engining g).opAt (0, 0) = some g ∧ g.req.op.isGroup = true ∧ 17 ∈ groupTiles 0 ∧ 17 ∉ g.members ∧ beforeIn (0, 0) ((engining g).tileAt (groupBase 0)).grpq = [] ∧
      goes (exec (.groupBroadcast 0 0 17) (engining g)) := by
  decide +kernel
/-- A tree operation of one element that has contributed 4, on a gang of one tile: its first operation combines, its control word differs in two tiles, it has
failed; a gang of two packages, whose step is lost or still to come. -/
theorem witness_TreeAndWeltSteps :
    let e (v : Word) := { engEntry (.tree .add v 128 0) .readDone false none with contrib := [0, 0, 0x80, 0x40] }
    let g := gang0 .running
    let s (h : Gang) (v : Word) := ganged h th0 fun x => { x with ops := [e v], treeCount := 1 }
    let two : Gang := gang2 .running
    let lost : Gang := { two with tree := [⟨.data, 0, 0, [], 3, true⟩] }
    let joined : Gang := { two with tree := [⟨.data, 0, 1, [⟨1, 1, 0, true, [0, 0, 0, 0]⟩], 0, false⟩] }
    let failed : Gang := { g with treeFails := [0] }
    let part : TreePart := ⟨1, 0, 0, true, [0, 0, 0, 0]⟩
    let r (h : Gang) (v : Word) : Bool := decide ((s h v).gangAt h.id = some h ∧ h.tiles ≠ [] ∧ h.tiles.Nodup ∧ (∀ t ∈ h.tiles, (s h v).treeReady h h.treeDone t = true) ∧
      h.joined .data h.treeDone = true ∧ (s h v).treeOpen h = true) && goes (exec (.treeResult h.id) (s h v))
    r g 64 ∧ r lost 64 ∧ (lost.work .data 0).lost = true ∧ r joined 64 ∧ (joined.work .data 0).lost = false ∧
      treeMismatch (joined.tiles.filterMap ((s joined 64).treePart joined 0) ++ (joined.work .data 0).parts) = true ∧ r failed 64 ∧ failed.treeFails.contains failed.treeDone = true ∧
      (g.work .data 0).lost = false ∧ treeMismatch (g.tiles.filterMap ((s g 64).treePart g 0) ++ (g.work .data 0).parts) = false ∧ g.treeFails.contains g.treeDone = false ∧
      (∀ p ∈ g.tiles.filterMap ((s g 64).treePart g 0), p.ok = true) ∧ ((s g 64).tileAt 0).treeOpAt 0 = some (e 64) ∧ (g.rankOf 0 + 1) * g.perTile ≤ 2 ^ g.lgw ∧
      (s g 64).engWrite 0 ⟨0, 0⟩ ((addrsFrom 64 4).zip [0, 0, 0x80, 0x40]) = .cells ([(0, 0), (1, 0), (2, 0x80), (3, 0x40)].map fun (p : Nat × Byte) => (tileLoc 0 (64 + p.1), p.2)) ∧
      1 < two.npk ∧ two.chanDone .data ≤ 0 ∧ 0 < two.levels ∧ (two.work .data 0).lost = false ∧ (two.work .data 0).level = 0 ∧ (s two 64).stepOpen two 0 = true ∧ (s joined 64).stepOpen joined 0 = true ∧ two.partsOk (two.work .data 0) [part] = true ∧
      goes (exec (.treeStep 3 ⟨.data, 0, 0⟩ (some [part])) (s two 64)) ∧ goes (exec (.treeStep 3 ⟨.data, 0, 0⟩ none) (s two 64)) ∧ 0 < (joined.work .data 0).level ∧
      goes (exec (.treeStep 3 ⟨.data, 0, 0⟩ (some [part])) (s joined 64)) := by decide +kernel
/-- A promise's update of one weight that is done, and one that meets a fatal access. -/
theorem witness_TreeAndWeltSteps_welt :
    let g := gang0 .running
    let w (x : Word) := engEntry (.welt .wupd 1 0 64 x) .active false none
    let v (x : Word) : State := { ganged g th0 fun y => { y with ops := [w x], weltQ := [(0, 1)], headers := y.headers.set 1 hdr1 } with lostDies := [1] }
    let u : State := { v 64 with lostDies := [] }
    let done (s : State) : Bool := match s.weltWork 0 ⟨0, 0⟩ .wupd (s.tile.hdr 1) 0 1 64 with
      | .done _ => true
      | .fatal _ _ | .waits => false
    let fatal (s : State) : Bool := match s.weltWork 0 ⟨0, 0⟩ .wupd (s.tile.hdr 1) 0 1 gone with
      | .fatal a _ => a == gone
      | .done _ | .waits => false
    u.gangAt g.id = some g ∧ (u.tileAt 0).pairing = none ∧ u.dieHalted 0 = false ∧ (u.tileAt 0).weltQ = (0, 1) :: [] ∧ u.opAt (0, 0) = some (w 64) ∧ (w 64).err = none ∧ done u = true ∧
      hdPred ((u.tileAt 0).hdr 1) = false ∧ hdOpt ((u.tileAt 0).hdr 1) = false ∧ hdE ((u.tileAt 0).hdr 1) = 1 ∧ (64 : Word).toNat + 4 ≤ 0x180000 ∧ (hdWptr ((u.tileAt 0).hdr 1)).toNat + 4 ≤ 0x180000 ∧
      u.lostDies = [] ∧ u.staged = [] ∧ goes (exec (.weltApply 0) u) ∧
      (v gone).opAt (0, 0) = some (w gone) ∧ fatal (v gone) = true ∧ goes (exec (.weltApply 0) (v gone)) := by decide +kernel
def reqThread (op : ReqOp) (st : ReqStage) (p : Pending) : Thread := { th0 with run := .parked .wordFe, req := some (reqAt64 op st), pending := p }
/-- A listed or withdrawn request and a sleeper, each with a home that is reached. -/
theorem witness_RequestTimers_homes :
    let pre : Pending := { Pending.none with timer := true }
    let kept (st : ReqStage) : Req := { reqAt64 (.ldfe .w64) st with homes := homes64 }
    let h (st : ReqStage) := mach { th0 with run := .parked .wordFe, pending := pre, req := some (kept st) } plainTile
    let o := mach { th0 with run := .sleeping, sleep := some ⟨4, none⟩, monitors := th0.monitors.set 2 ⟨true, 64, [tileLoc 0 64], false⟩ } plainTile
    let no : State := { o with notices := [(0, 1, 2)] }
    ((h .listed).thrAt 0 1).req = some (kept .listed) ∧ (∀ q ∈ (kept .listed).homes, (h .listed).isLost q = true ∨ (h .listed).homeOpen 0 q = true) ∧ ((h .listed).thrAt 0 1).trapReady = true ∧
      goes (exec (.withdrawal 0 1) (h .listed)) ∧ (∀ q ∈ (kept .withdrawn).homes, (h .withdrawn).backOpen 0 q = true) ∧ goes (exec (.withdrawalConfirm 0 1) (h .withdrawn)) ∧
      ((no.thrAt 0 1).monitors[(2 : Fin 4)]).locs.head? = some (tileLoc 0 64) ∧ no.backOpen 0 (no.homeOf (tileLoc 0 64)) = true ∧ goes (exec (.monitorNotice 0 1 2) no) := by decide +kernel
theorem witness_RequestTimers :
    let pre : Pending := { Pending.none with timer := true }
    let r := mach (reqThread (.ldfe .w64) (.refused 0) Pending.none) plainTile
    let w := mach (reqThread (.ldfe .w64) .listed pre) plainTile
    let c := mach (reqThread (.ldfe .w64) .withdrawn Pending.none) plainTile
    let d := mach (reqThread (.wadr .w64 0 (some 0)) .sent Pending.none) plainTile
    let m := mach { th0 with run := .sleeping, sleep := some ⟨4, some 0⟩, monitors := th0.monitors.set 2 ⟨true, 64, [], false⟩ } plainTile
    let n : State := { m with notices := [(0, 1, 2)] }
    let it : SentItem := ⟨.msg, 1, 0, none, 0, 1, 7, 8, 9, none, none, [], some 0, true⟩
    let i := mach th0 fun x => { x with sent := [it] }
    let q : Refused := ⟨5, ⟨0, .access 3, false⟩, 0⟩
    let f : State := { s0 with refused := [q] }
    (r.thrAt 0 1).req = some (reqAt64 (.ldfe .w64) (.refused 0)) ∧ 0 ≤ (r.tileAt 0).cycle.toNat ∧ goes (exec (.refusedResend (.request 0 1)) r) ∧ (w.thrAt 0 1).trapReady = true ∧
      goes (exec (.withdrawal 0 1) w) ∧ (c.thrAt 0 1).req = some (reqAt64 (.ldfe .w64) .withdrawn) ∧ goes (exec (.withdrawalConfirm 0 1) c) ∧
      d.reqReach 0 (reqAt64 (.wadr .w64 0 (some 0)) .sent) = .homes homes64 ∧ d.anyHalted = false ∧ goes (exec (.wadrTimeout 0 1) d) ∧
      (0, 1, 2) ∈ n.notices ∧ ((n.thrAt 0 1).monitors[(2 : Fin 4)]).valid = true ∧ goes (exec (.monitorNotice 0 1 2) n) ∧
      (m.thrAt 0 1).run = .sleeping ∧ (m.thrAt 0 1).sleep = some ⟨4, some 0⟩ ∧ m.anyHalted = false ∧ goes (exec (.mslpTimeout 0 1) m) ∧
      (i.tileAt 0).sent[0]? = some it ∧ it.refused = some 0 ∧ goes (exec (.refusedResend (.item 0 0)) i) ∧ f.refused[0]? = some q ∧ q.due ≤ (f.tileAt q.req.tile).cycle.toNat := by decide +kernel
/-- A store of 8 bytes by slot 1 to a device register, at the tile's egress. -/
def devStoring (a v : Word) (f : Tile → Tile) : State :=
  mach { th0 with cntSt := 1 } fun x => f { x with stores := [{ store0 .plain false a .egress with pieces := [(a, leBytes v.toNat 8)], sv := true }] }
def nextIs (s : State) (r : DevReg) (v : Word) : Bool := (s.regStores.find? fun q => decide (s.devStore q.addr q.bytes = some (r, v))).isSome
/-- A store of page 0 of pid 0 waits for its translation: with an empty directory the walk is fatal, with an absent entry that the stations hold it is held, and
refused where the station holds 64 pages. -/
theorem witness_TranslationAndRegisters :
    let s : State := storing (store0 .plain false 0x8000000000000040 .egress)
    let h : State := { s with mem := [(hbmLoc 0 0, 1), (hbmLoc 0 1, 0x10), (hbmLoc 0 0x1007, 0x10)], logSize := 4096 }
    let full : State := { h with heldPages := (List.range 64).map fun i => ⟨0, stationOf 0, 1, BitVec.ofNat 36 i, []⟩ }
    s.Inv ∧ (0 : Nat) = (0 : BitVec 36).toNat * 2 ^ 16 ∧ s.wanted 0 0 0 ≠ [] ∧ s.isHeld 0 0 0 = false ∧ s.cached 0 0 0 = none ∧ s.walkAt 0 0 0 = .found .fatal ∧
      h.Inv ∧ h.wanted 0 0 0 ≠ [] ∧ h.isHeld 0 0 0 = false ∧ h.cached 0 0 0 = none ∧ h.walkAt 0 0 0 = .held ∧ (h.heldPages.filter fun p => p.die = 0 && p.station = stationOf 0).length < 64 ∧
      h.logWait = [] ∧ 32 * (h.logNext + 1) ≤ h.logSize ∧ full.Inv ∧ full.wanted 0 0 0 ≠ [] ∧ full.isHeld 0 0 0 = false ∧ full.cached 0 0 0 = none ∧ full.walkAt 0 0 0 = .held ∧
      64 ≤ (full.heldPages.filter fun p => p.die = 0 && p.station = stationOf 0).length ∧ goes (exec (.translationWalk 0 0 0 0) s) ∧ goes (exec (.translationWalk 0 0 0 0) h) ∧
      goes (exec (.translationWalk 0 0 0 0) full) := by decide +kernel
/-- The page of that store is cached already; an INVAL of pid 5, which something translated awaits or nothing does. -/
theorem witness_TranslationAndRegisters_cached :
    let s : State := { storing (store0 .plain false 0x8000000000000040 .egress) with xlats := [⟨0, stationOf 0, 0, 0, .fatal⟩] }
    let i : State := { devStoring (0xC000000000000000 + BitVec.ofNat 64 (3 * 2 ^ 43 + 8)) 0x10005 plainTile with xlats := [⟨0, stationOf 0, 5, 0, .fatal⟩] }
    let load : LoadReq := ⟨7, 0, 5, .scalar 4 .i32 0x8000000000000040, none, []⟩
    let held : State := { i with
      tiles := i.tiles.map (fun p => (p.1, { (p.2.modThr 1 fun th => { th with loads := [load], cntLd := 1 }) with pid := 5 })), trans := [⟨5, 0, ⟨0, .access 7, false⟩, .leaf 1 0 0⟩] }
    s.Inv ∧ s.wanted 0 0 0 ≠ [] ∧ s.isHeld 0 0 0 = false ∧ s.cached 0 0 0 = some .fatal ∧ goes (exec (.translationWalk 0 0 0 0) s) ∧
      nextIs i .inval 0x10005 = true ∧ i.invalHeld 0x10005 = false ∧ i.shoot 0x10005 ≠ i ∧ goes (exec (.inval 0x10005) i) ∧
      nextIs held .inval 0x10005 = true ∧ held.invalHeld 0x10005 = true ∧ held.shoot 0x10005 ≠ held ∧ goes (exec (.inval 0x10005) held) := by decide +kernel
/-- RESUME of pid 5's page 0, which die 0's station holds: with ABORT, for a page that is there or fatal again, and for one still absent. -/
theorem witness_TranslationAndRegisters_resume :
    let s (v : Word) : State := { devStoring (0xC000000000000000 + BitVec.ofNat 64 (3 * 2 ^ 43 + 16)) v plainTile with heldPages := [⟨0, stationOf 0, 5, 0, [⟨0, .access 9, false⟩]⟩] }
    let h : State := { s 5 with mem := [(hbmLoc 0 80, 1), (hbmLoc 0 81, 0x10), (hbmLoc 0 0x1007, 0x10)], logSize := 4096 }
    nextIs (s 5) .resume 5 = true ∧ nextIs (s 0x10005) .resume 0x10005 = true ∧ stationPid 5 = 5 ∧ stationPage 5 = 0 ∧ (0x10005 : Word).getLsbD 16 = true ∧ (s 5).walkAt 0 5 0 = .found .fatal ∧
      nextIs h .resume 5 = true ∧ h.walkAt 0 5 0 = .held ∧ goes (exec (.resume 5) h) ∧ goes (exec (.resume 5) (s 5)) ∧ goes (exec (.resume 0x10005) (s 0x10005)) := by decide +kernel
/-- A store of each kind of register may be performed, and the conditions of its clauses hold. -/
theorem witness_TranslationAndRegisters_stores :
    let dev (cls off : Nat) : Word := BitVec.ofNat 64 (0xC000000000000000 + cls * 2 ^ 43 + off)
    let free := devStoring (dev 0 0x1118) 0x100000000 fun x => { x with slots := x.slots.set 1 { th0 with binds := th0.binds.set 0 ⟨.unbound, 0, 0, 0, 0, 0, false, [], 64, 4, 8, none, 0, []⟩ } }
    let busy := devStoring (dev 0 0x1118) 0x100000000 fun x => { x with slots := x.slots.set 1 { th0 with binds := th0.binds.set 0 ⟨.memRead, 64, 4, 8, 0, 0, true, [], 0, 0, 0, none, 0, []⟩ } }
    let hdr (x : Tile → Tile) := devStoring (dev 2 0x40) 7 x
    let hb (s : State) : Bool := (s.regStores.find? fun q => q.headerBytes == some (0, 1, 0, leBytes 7 8)).isSome
    nextIs (devStoring (dev 3 0) 0x1000 plainTile) .pdbase 0x1000 = true ∧ nextIs (devStoring (dev 3 8) 5 plainTile) .inval 5 = true ∧ (devStoring (dev 3 8) 5 plainTile).invalHeld 5 = false ∧
      nextIs (devStoring (dev 3 16) 5 plainTile) .resume 5 = true ∧ nextIs (devStoring (dev 0 8) 8 plainTile) (.fmt 0 1) 8 = true ∧ nextIs (devStoring (dev 0 8) 9 plainTile) (.fmt 0 1) 9 = true ∧
      nextIs (devStoring (dev 0 0x148) 3 plainTile) (.watchCtl 0 0) 3 = true ∧ nextIs (devStoring (dev 0 0x100) 3 plainTile) (.brk 0 0) 3 = true ∧ devOf (dev 0 0x100) = some (.brk 0 0, 0) ∧
      nextIs free (.record 0 1 0 3) 0x100000000 = true ∧ ((free.thrAt 0 1).binds[(0 : StreamReg)]).kind = .unbound ∧
      free.recordOk 0 (free.thrAt 0 1).binds[(0 : StreamReg)] 0x100000000 = true ∧ nextIs busy (.record 0 1 0 3) 0x100000000 = true ∧ ((busy.thrAt 0 1).binds[(0 : StreamReg)]).kind ≠ .unbound ∧
      hb (hdr plainTile) = true ∧ ((hdr plainTile).tileAt 0).hdrBusy 1 = false ∧ hb (hdr fun x => { x with promises := [promise 0 0 false] }) = true ∧
      ((hdr fun x => { x with promises := [promise 0 0 false] }).tileAt 0).hdrBusy 1 = true ∧ ({ s0 with root := { Root.reset with booted := true } } : State).serves = true := by decide +kernel
/-- A pending trap of each cause; a due timer; a hold whose time is over; a load and a resident thread; a cached line, locked or not. -/
theorem witness_AsyncTraps :
    let p (q : Pending) : State := slot1 fun th => { th with pending := q }
    let n := Pending.none
    let t := slot1 fun th => { th with tmcmp := 1 }
    let u := mach { th0 with tmcmp := 1 } fun x => { x with cycle := 1 }
    let h := slot1 fun th => { th with hold := some ⟨64, .w64, homes64, 0⟩ }
    let l : LoadReq := ⟨7, 0, 0, .scalar 4 .i32 64, some 0, []⟩
    let s := slot1 fun th => { th with loads := [l], cntLd := 1 }
    (p { n with timer := true }).mayTrap 0 1 = true ∧ (p { n with rsvTimeout := some 64 }).mayTrap 0 1 = true ∧ (p { n with suspect := some 64 }).mayTrap 0 1 = true ∧
      (p { n with preempt := some 64 }).mayTrap 0 1 = true ∧ (p { n with pairMismatch := some 1, timer := true }).mayTrap 0 1 = true ∧ goes (exec (.trapEntry 0 1) (p { n with preempt := some 64 })) ∧
      ((p { n with timer := true }).thrAt 0 1).sleep = none ∧ ((p { n with timer := true }).thrAt 0 1).barWaiting = none ∧ ((p { n with timer := true }).thrAt 0 1).tvec ≠ 0 ∧
      (t.thrAt 0 1).tmcmp ≠ 0 ∧ (u.thrAt 0 1).resident = true ∧ (u.thrAt 0 1).tmcmp.toNat ≤ (u.tileAt 0).cycle.toNat ∧ (u.thrAt 0 1).pending.timer = false ∧ u.anyHalted = false ∧
      goes (exec (.timer 0 1) u) ∧ (h.thrAt 0 1).hold = some ⟨64, .w64, homes64, 0⟩ ∧ 0 ≤ (h.tileAt 0).cycle.toNat ∧ h.anyHalted = false ∧ goes (exec (.rsvTimeout 0 1) h) ∧
      (s.thrAt 0 1).loads.find? (fun x => x.id = l.id) = some l ∧ s.loadOut 0 1 l 0 = .bytes [0, 0, 0, 0] ∧ goes (exec (.uncorrectableError (.load 0 1 7)) s) ∧
      goes (exec (.uncorrectableError (.thread 0 1)) s) := by decide +kernel
theorem witness_AsyncTraps_line :
    let l (locked : Bool) : ICLine := ⟨0x1000, List.replicate 16 5, locked⟩
    let c (locked : Bool) := mach th0 fun x => { x with icache := [l locked] }
    ((c true).tileAt 0).lineOf 0x1000 = some (l true) ∧ ((c false).tileAt 0).lineOf 0x1000 = some (l false) ∧ goes (exec (.uncorrectableError (.line 0 0x1000)) (c true)) ∧
      goes (exec (.uncorrectableError (.line 0 0x1000)) (c false)) := by decide +kernel
/-- A locked line of page 0 of pid 0, whose table of every level is at 0x10000 and names itself, for execution. -/
theorem witness_AsyncTraps_reread :
    let l : ICLine := ⟨0x1000, List.replicate 16 5, true⟩
    let s : State := { mach th0 fun x => { x with icache := [l] } with mem := [(0, 1), (2, 1), (0x10000, 1), (0x10002, 1), (0x10007, 0x80)] }
    (s.tileAt 0).lineOf 0x1000 = some l ∧ s.rereadOpen 0 l = true ∧ (s.readLine 0 (s.tileAt 0).pid l.addr).isSome = true ∧ goes (exec (.uncorrectableError (.line 0 0x1000)) s) := by decide +kernel
/-- A `pair` whose partner holds the copy; a pair whose interval is over, with a slot in `fprt`, for an `unpair` of slot 1. -/
theorem witness_PairIntervals_joins :
    let j := mach { th0 with status := 5, met := some 0x1000 } plainTile
    let u : State := { (mach { th0 with run := .parked .wait, fetched := encode .fprt } fun x => { x with pairing := some { pairOf 4096 0 with unpair := some 1 } }) with snapshots := [(0, Tile.reset)] }
    j.curTile = 0 ∧ j.thr.sv = true ∧ j.thr.holds 0 0 ∧ j.thr.free 4 ∧ lgfOf 0 = some 12 ∧ 0 % 2 = 0 ∧ (j.tileAt 0).pairing = none ∧ (j.tileAt 1).canPair = true ∧ j.isMet = true ∧ inv j ∧
      goes (exec (.pair 4 0) j) ∧ (u.thrAt 0 1).waitsFor = some .fprt ∧ (u.tileAt 0).pairing = some { pairOf 4096 0 with unpair := some 1 } ∧ u.dieHalted 0 = false ∧
      u.intervalOver 0 { pairOf 4096 0 with unpair := some 1 } = true ∧ inv u ∧ goes (exec (.intervalEnd 0 77) u) := by decide +kernel
/-- A thread that waits for `pair s4, s0`; a pair whose interval is over, with its snapshot. -/
theorem witness_PairIntervals :
    let w := mach { th0 with status := 5, run := .parked .wait, fetched := encode (.pair 4 0) } plainTile
    let s (miss : Nat) : State := { (mach th0 fun x => { x with pairing := some (pairOf 4096 miss) }) with snapshots := [(0, Tile.reset)] }
    (w.thrAt 0 1).waitsPair = true ∧ (∀ j : Slot, j ≠ 0 → j ≠ 1 → (w.thrAt 0 j).waitsPair = false) ∧ w.dieHalted 0 = false ∧ (pairOf 4096 0).even = true ∧ (s 0).dieHalted 0 = false ∧ (w.tileAt 0).pairing = none ∧ (w.tileAt 1).canPair = true ∧
      w.Inv ∧ (s 0).Inv ∧ goes (exec (.pairCopyDone 0) w) ∧
      ((s 0).tileAt 0).pairing = some (pairOf 4096 0) ∧ (s 0).intervalOver 0 (pairOf 4096 0) = true ∧ (pairOf 4096 0).unpair = none ∧ (pairOf 4096 0).replay = [] ∧ (pairOf 4096 0).inbound = [] ∧ (pairOf 4096 0).resvs = [] ∧ (s 0).resvs = [] ∧
      (78 : BitVec 64) ≠ (pairOf 4096 0).print ∧ goes (exec (.intervalEnd 0 77) (s 0)) ∧ goes (exec (.intervalEnd 0 78) (s 0)) ∧ goes (exec (.intervalEnd 0 78) (s 2)) ∧
      (s 0).snapshots.find? (fun q => q.1 = 0) = some (0, Tile.reset) ∧ (pairOf 4096 0).miss < 2 ∧ (s 2).intervalOver 0 (pairOf 4096 2) = true ∧ 2 ≤ (pairOf 4096 2).miss := by decide +kernel
/-- A gang to be placed, on free tiles and on those of a younger one that spans packages; reserved, of two packages, too late and in time, and confirmed. -/
theorem witness_GangLife :
    let g := gang0
    let placing : State := { (mach Thread.reset plainTile) with gangs := [g .placing] }
    let young : Gang := { gang2 .reserved with id := 4, age := 7 }
    let met : State := { ganged young Thread.reset plainTile with gangs := [g .placing, young] }
    let two : Gang := { gang2 .reserved with req := some (0, 0), age := 7 }
    let u := ganged two Thread.reset plainTile
    let late : Gang := { two with tick := 400000 }
    let v := ganged late Thread.reset plainTile
    let c := ganged (g .confirmed) Thread.reset plainTile
    let clear (s : State) : State := { s with degraded := 0 }
    inv placing ∧ placing.gangAt 3 = some (g .placing) ∧ (g .placing).mode.toNat % 4 = placing.dmode.toNat ∧ placing.failing = [] ∧ (∀ t ∈ (g .placing).tiles, (clear placing).degraded.getLsbD (dieOf t) = false ∧ (placing.tileAt t).hidden = false) ∧
      (∀ t ∈ (g .placing).tiles, (placing.tileAt t).gang = none) ∧ goes (exec (.placement 3 .reserve) (clear placing)) ∧
      inv met ∧ met.gangAt 3 = some (g .placing) ∧ (met.tileAt 0).gang = some 4 ∧ young.state = .reserved ∧ 1 < young.npk ∧ (g .placing).age.toNat < young.age.toNat ∧
      goes (exec (.placement 3 .reserve) (clear met)) ∧ inv u ∧ u.gangAt 3 = some two ∧ 1 < two.npk ∧ (5 : Word).toNat < two.age.toNat ∧ goes (exec (.placement 3 (.release 5)) u) ∧
      two.tick.toNat < u.timebase.toNat + u.launchLead ∧ two.req = some (0, 0) ∧ goes (exec (.placementConfirm 3) u) ∧
      inv v ∧ v.gangAt 3 = some late ∧ v.timebase.toNat + v.launchLead ≤ late.tick.toNat ∧ goes (exec (.placementConfirm 3) v) ∧
      inv c ∧ c.gangAt 3 = some (g .confirmed) ∧ (g .confirmed).tick = c.timebase ∧
      (c.imageFmts 0).isSome ∧ c.dataRuns 1 16 = some [] ∧ (1 : Slot) ≠ 0 ∧ (g .confirmed).slots.getLsbD ((1 : Slot).val - 1) = true := by
  decide +kernel
/-- A gang to be placed after DMODE has changed, and one whose image names a bank format that there is not. -/
theorem witness_GangLife_ends :
    let placing : State := { (mach Thread.reset plainTile) with gangs := [gang0 .placing], dmode := 2, degraded := 0 }
    let bad : State := { ganged (gang0 .confirmed) Thread.reset plainTile with mem := [(hbmLoc 0 0, 15)] }
    inv placing ∧ placing.gangAt 3 = some (gang0 .placing) ∧ (gang0 .placing).mode.toNat % 4 ≠ placing.dmode.toNat ∧ goes (exec (.placement 3 .reserve) placing) ∧
      inv bad ∧ bad.gangAt 3 = some (gang0 .confirmed) ∧ bad.timebase = (gang0 .confirmed).tick ∧ bad.imageFmts 0 = none ∧ goes (exec (.launchTick 3) bad) := by decide +kernel
/-- The image of these gangs is empty, whatever the fuel that reads it. -/
theorem empty_image {s : State} {a : Nat} (h : paOk a 8 = true) (z : s.hbmNat a 8 = 0) : s.dataRuns listFuel a = some [] := by
  show s.dataRuns (65535 + 1) a = some []
  unfold State.dataRuns; simp [h, z]
def farGang (st : GangState) (tick : Word) : Gang := { gang0 st with data := 2 ^ 37, tick := tick }
def afar (st : GangState) (tick : Word) : State := ganged (farGang st tick) Thread.reset plainTile
/-- A gang with its image in die 1, which a tile of die 0 reaches or not; and one of two packages that another refuses. -/
theorem witness_GangLife_bridges :
    let z : State := ganged { gang2 .reserved with req := some (0, 0) } Thread.reset plainTile
    let p : State := { (mach Thread.reset plainTile) with gangs := [gang2 .placing] }
    inv (afar .confirmed 0) ∧ (afar .confirmed 0).gangAt 3 = some (farGang .confirmed 0) ∧ (afar .confirmed 0).timebase = 0 ∧ ((afar .confirmed 0).imageFmts (2 ^ 37)).isSome ∧
      inv z ∧ z.gangAt 3 = some { gang2 .reserved with req := some (0, 0) } ∧ 1 < (gang2 .reserved).npk ∧ goes (exec (.placement 3 .refuse) z) ∧
      inv p ∧ p.gangAt 3 = some (gang2 .placing) ∧ goes (exec (.placement 3 .refuse) p) := by decide +kernel
theorem witness_GangLife_cut : (afar .confirmed 0).gangOpen (farGang .confirmed 0) = true ∧ (cutApart (afar .confirmed 0)).gangOpen (farGang .confirmed 0) = false ∧
    (afar .reserved 400000).gangOpen (farGang .reserved 400000) = true := by
  have a : (afar .confirmed 0).dataRuns listFuel ((farGang .confirmed 0).data + 16) = some [] := empty_image (by decide +kernel) (by decide +kernel)
  have b : (cutApart (afar .confirmed 0)).dataRuns listFuel ((farGang .confirmed 0).data + 16) = some [] := empty_image (by decide +kernel) (by decide +kernel)
  have c : (afar .reserved 400000).dataRuns listFuel ((farGang .reserved 400000).data + 16) = some [] := empty_image (by decide +kernel) (by decide +kernel)
  refine ⟨?_, ?_, ?_⟩ <;> unfold State.gangOpen
  · rw [a]; decide +kernel
  · rw [b]; decide +kernel
  · rw [c]; decide +kernel
/-- A gang that runs towards its stop, and one that has stopped, with entries and a WAKE for its image. -/
theorem witness_GangLife_stop :
    let g := gang0
    let p : Gang := { g .running with stopT := some 0, stopD := some 5 }
    let w := ganged p th0 plainTile
    let q : Gang := { g .running with stopD := some 5 }
    let x : State := { ganged q th0 plainTile with timebase := 5 }
    let z : Gang := { gang2 .stopped with saved := [(0, Tile.reset)] }
    let y : State := { (mach Thread.reset plainTile) with gangs := [z] }
    inv w ∧ w.gangAt 3 = some p ∧ (w.thrAt 0 1).resident = true ∧ goes (exec (.preempt 3) w) ∧ inv x ∧ x.gangAt 3 = some q ∧ x.stopReady (x.heldTiles q) = true ∧ goes (exec (.deadlineStop 3) x) ∧
      inv y ∧ y.gangAt 3 = some z ∧ y.savedTile 3 0 = some (z, Tile.reset) ∧ laceEntry.chan ≠ 0 ∧ y.laceOk z Tile.reset laceEntry = true ∧ Tile.reset.hidden = false ∧
      (Tile.reset.channels[laceEntry.chan]).entries.length < 32 ∧ goes (exec (.stoppedGangDelivery (.entry 3 laceEntry)) y) ∧ Tile.reset.queue.length < 64 ∧
      goes (exec (.stoppedGangDelivery (.wake 3 0 9)) y) := by
  decide +kernel
/-- The fuel of a launch reads the empty image of `witness_GangLife` as well, and no bridge keeps it away. -/
theorem witness_GangLife_image : let s := ganged (gang0 .confirmed) Thread.reset plainTile
    s.dataRuns listFuel 16 = some [] ∧ s.gangOpen (gang0 .confirmed) = true := by
  have h : (ganged (gang0 .confirmed) Thread.reset plainTile).dataRuns listFuel ((gang0 .confirmed).data + 16) = some [] := empty_image (by decide +kernel) (by decide +kernel)
  exact ⟨h, by unfold State.gangOpen; rw [h]; decide +kernel⟩
/-- A bridge that works, one that has failed 32 times, one that retrains; ports; a running gang whose tiles can stop; a die whose tiles are free, and a row whose
spare has been used. -/
theorem witness_LinksFail :
    let b (x : Bridge) : State := { State.reset with bridges := State.reset.bridges.set 2 x }
    let g : Gang := { gang0 .running with nodes := [0, 7] }
    let s := ganged g th0 plainTile
    let h : State := State.reset
    let busy := ganged (gang0 .running) th0 plainTile
    ((b ⟨true, false, 32⟩).bridges[(2 : Fin 11)]) = ⟨true, false, 32⟩ ∧ ((b ⟨true, true, 32⟩).bridges[(2 : Fin 11)]).train = true ∧ ((b ⟨true, false, 0⟩).bridges[(2 : Fin 11)]).up = true ∧
      (∀ h ∈ s.gangs, s.stopReady (s.heldTiles h) = true) ∧ g ∈ s.gangs ∧ g.state = .running ∧ g.tiles ≠ [] ∧ BitVec.ofNat 16 7 ∈ g.nodes ∧ s.ports[(3 : Fin 24)] = true ∧
      (∀ t ∈ clusterTiles 1 2, (h.tileAt t).gang = none) ∧ 264 ∈ clusterTiles 1 2 ∧ (∀ p ∈ h.tiles, dieOf p.1 = 1 → p.2.gang = none) ∧ h.failing = [] ∧ h.gangs = [] ∧ 4 ∈ clusterTiles 0 1 ∧
      (∀ t ∈ clusterTiles 0 1, (busy.tileAt t).gang = none) ∧ (∃ p ∈ busy.tiles, dieOf p.1 = 0 ∧ p.2.gang ≠ none) ∧ busy.failing = [] ∧
      goes (exec (.bridgeReplay ⟨2, true⟩) (b ⟨true, false, 32⟩)) ∧ goes (exec (.bridgeRetrain 2) (b ⟨true, false, 32⟩)) ∧ goes (exec (.retrainingEnd 2 true) (b ⟨true, true, 32⟩)) ∧
      goes (exec (.retrainingEnd 2 false) { s with bridges := (b ⟨true, true, 32⟩).bridges }) ∧ goes (exec (.laceRetransmit 3) s) ∧ goes (exec (.portFailure 3 []) s) ∧
      goes (exec (.portFailure 3 [(7, none)]) s) ∧ goes (exec (.homeLost (.die 2)) s) ∧ goes (exec (.homeLost (.package 2)) s) ∧ goes (exec (.inFieldTest 1 2 []) h) ∧
      goes (exec (.inFieldTest 1 2 [264]) h) ∧ goes (exec (.inFieldTest 0 1 [4]) busy) := by decide +kernel
/-- Slot 2 of window 1 with words of a request, submitted or not, in a package that serves. -/
def hosting (ws : List Nat) (queue : List (Fin 8)) (gs : List Gang) (f : Tile → Tile) : State :=
  { mach Thread.reset f with
    root := { Root.reset with booted := true, xlatSet := true }, gangs := gs, degraded := 0, windows := State.reset.windows.set 1 ⟨0, queue⟩
    winMem := ((List.range ws.length).zip ws).foldl (fun m p => m.writeBytes (slotAddr 1 2 p.1) (leBytes p.2 8)) [] }
theorem witness_HostAccesses :
    let q := hosting [1] [] [] plainTile
    let bad := hosting [9] [] [] plainTile
    let copy := hosting [2, 64, 128, 8] [2] [] plainTile
    let far := hosting [2, 2 ^ 42, 128, 8] [2] [] plainTile
    let rd := hosting [3, 64] [2] [] plainTile
    let dev := hosting [3, 0xC000000000000100] [2] [] plainTile
    let odd := hosting [3, 65] [2] [] plainTile
    inv q ∧ q.serves = true ∧ (10 : Word).toNat % 8 = (2 : Fin 8).val ∧ 2 ∉ (q.windows[(1 : Fin 24)]).queue ∧ (q.slotWord 1 2 0).toNat % 256 = 1 ∧ 8 < (bad.slotWord 1 2 0).toNat % 256 ∧
      State.reset.serves = false ∧ inv State.reset ∧ inv copy ∧ copy.headRequest 1 2 = some 2 ∧ copy.coreBytes 1 (copy.slotWord 1 2 1) 8 = true ∧ copy.coreBytes 1 (copy.slotWord 1 2 2) 8 = true ∧ (copy.hostPlace (copy.slotWord 1 2 1) 8).isSome ∧ (copy.hostPlace (copy.slotWord 1 2 2) 8).isSome ∧
      far.headRequest 1 2 = some 2 ∧ far.coreBytes 1 (far.slotWord 1 2 1) 8 = true ∧ far.hostPlace (far.slotWord 1 2 1) (far.slotWord 1 2 3).toNat = none ∧
      inv rd ∧ rd.headRequest 1 3 = some 2 ∧ rd.coreHbm 1 (rd.slotWord 1 2 1).toNat 8 = true ∧ (rd.slotWord 1 2 1).toNat % 8 = 0 ∧ regionOf (rd.slotWord 1 2 1) ≠ 3 ∧ (rd.slotWord 1 2 1).toNat + 8 ≤ 6 * 2 ^ 37 ∧
      (rd.slotWord 1 2 1).toNat / 2 ^ 37 ∉ rd.lostDies ∧ dev.headRequest 1 3 = some 2 ∧ dev.coreReg 1 (dev.slotWord 1 2 1) = true ∧ (dev.devBytes (dev.slotWord 1 2 1) 8).isSome ∧ odd.headRequest 1 3 = some 2 ∧ odd.coreHbm 1 (odd.slotWord 1 2 1).toNat 8 = true ∧ (odd.slotWord 1 2 1).toNat % 8 ≠ 0 := by
  decide +kernel
theorem witness_HostAccesses_writes :
    let wr := hosting [4, 64, 7] [2] [] plainTile
    let dw := hosting [4, 0xC000000000000100, 7] [2] [] plainTile
    let odd := hosting [4, 65] [2] [] plainTile
    let fence := hosting [5] [2] [] plainTile
    let run := gang0 .running
    let stop := hosting [6, 3, 100, 200] [2] [run] fun x => { x with gang := some 3 }
    let img : Gang := { gang0 .stopped with saved := [(0, Tile.reset)] }
    let res := hosting [7, 3] [2] [img] plainTile
    let fin := hosting [8, 3] [2] [run] fun x => { x with gang := some 3 }
    let launch := hosting [1, 64] [2] [] plainTile
    inv wr ∧ wr.headRequest 1 4 = some 2 ∧ wr.coreHbm 1 (wr.slotWord 1 2 1).toNat 8 = true ∧ dw.coreReg 1 (dw.slotWord 1 2 1) = true ∧ (wr.slotWord 1 2 1).toNat % 8 = 0 ∧ (wr.slotWord 1 2 1).toNat + 8 ≤ 6 * 2 ^ 37 ∧ dw.headRequest 1 4 = some 2 ∧ regionOf (dw.slotWord 1 2 1) = 3 ∧
      dw.devStore (dw.slotWord 1 2 1) (leBytes (dw.slotWord 1 2 2).toNat 8) = some (.brk 0 0, 7) ∧ (dw.devWrite (.brk 0 0) 7).isSome ∧ odd.headRequest 1 4 = some 2 ∧ fence.headRequest 1 5 = some 2 ∧
      inv stop ∧ stop.gangAt (stop.slotWord 1 2 1).toNat = some run ∧ stop.headRequest 1 6 = some 2 ∧ run.state = .running ∧ (stop.slotWord 1 2 2).toNat < (stop.slotWord 1 2 3).toNat ∧
      inv res ∧ res.gangAt (res.slotWord 1 2 1).toNat = some img ∧ res.headRequest 1 7 = some 2 ∧ (∀ t ∈ img.tiles, res.degraded.getLsbD (dieOf t) = false) ∧ img.mode.toNat % 4 = res.dmode.toNat ∧
      (img.saved.map (·.1)).Nodup ∧ (∀ p ∈ img.saved, (res.tileAt p.1).gang = none ∧ (res.tileAt p.1).hidden = false) ∧ fin.headRequest 1 8 = some 2 ∧ (∀ j, run.req ≠ some (1, j)) ∧
      fin.gangAt (fin.slotWord 1 2 1).toNat = some run ∧ fin.stopReady (fin.heldTiles run) = true ∧ launch.headRequest 1 1 = some 2 ∧ launch.coreRecord 1 (launch.slotWord 1 2 1).toNat = true ∧ launch.hbmOpen 64 8 = true ∧ (64#40).toNat + 8 ≤ 6 * 2 ^ 37 ∧ 6 * 2 ^ 37 < (0xFFFFFFFFFF#40).toNat + 8 := by
  decide +kernel
/-- A WRITE of INVAL for pid 5 and its page 0, which something translated awaits or nothing does. -/
theorem witness_HostAccesses_inval :
    let i : State := { hosting [4, 0xC000000000000000 + 3 * 2 ^ 43 + 8, 0x10005] [2] [] plainTile with xlats := [⟨0, stationOf 0, 5, 0, .fatal⟩] }
    let load : LoadReq := ⟨7, 0, 5, .scalar 4 .i32 0x8000000000000040, none, []⟩
    let held : State := { i with
      tiles := i.tiles.map (fun p => (p.1, { (p.2.modThr 1 fun th => { th with loads := [load], cntLd := 1 }) with pid := 5 })), trans := [⟨5, 0, ⟨0, .access 7, false⟩, .leaf 1 0 0⟩] }
    let is (s : State) : Bool := decide (s.headRequest 1 4 = some 2 ∧ s.coreReg 1 (s.slotWord 1 2 1) = true ∧ regionOf (s.slotWord 1 2 1) = 3 ∧
      s.devStore (s.slotWord 1 2 1) (leBytes (s.slotWord 1 2 2).toNat 8) = some (.inval, 0x10005))
    is i ∧ i.invalHeld 0x10005 = false ∧ goes (exec (.write 1) i) ∧ is held ∧ held.invalHeld 0x10005 = true ∧ held.shoot 0x10005 ≠ held ∧ goes (exec (.write 1) held) := by decide +kernel
/-- A package with no gang, one with a gang in a tile in isochronous mode; the grants at their floors; every die. What an image is worth is a free value, so either
answer of `imageOk` is a case and neither is shown. -/
theorem witness_PowerAndSupply :
    let iso : State := { ganged (gang0 .running) th0 plainTile with dmode := 2 }
    let boot : State := { State.reset with root := { Root.reset with booted := true, asked := true } }
    let rec' : State := { State.reset with root := { Root.reset with recovery := true } }
    let hot : State := { State.reset with dies := State.reset.dies.set 3 { Die.reset with halted := true } }
    inv State.reset ∧ State.reset.vacant = true ∧ inv iso ∧ iso.vacant = false ∧ goes (exec (.arbiterPeriod State.reset.grants) State.reset) ∧ goes (exec (.arbiterPeriod iso.grants) iso) ∧ (State.reset.dieAt 0).throttled ≠ true ∧
      (State.reset.dieAt 5).halted = false ∧ inv hot ∧ (hot.dieAt 3).halted = true ∧ iso.dmode = 2 ∧ gang0 .running ∈ iso.gangs ∧ (gang0 .running).state = .running ∧
      (∃ t ∈ (gang0 .running).tiles, dieOf t = 0) ∧ (∀ h ∈ iso.gangs, iso.stopReady (iso.heldTiles h) = true) ∧ inv boot ∧ boot.root.booted = true ∧ boot.wearNew = [] ∧ State.reset.root.booted = false ∧
      State.reset.root.recovery = false ∧ inv rec' ∧ rec'.root.recovery = true ∧ State.reset.domPkg < 64 ∧ State.reset.root.asked = false ∧ boot.root.asked = true := by decide +kernel
theorem witness_imageOk (image : List Byte) : imageOk image = true ∨ imageOk image = false := by cases imageOk image <;> simp

-- The whole machine

theorem witness_ZeroRegisters : Thread.reset.wired ∧ scalarDest (.add 0 1 2) = some 0 ∧ s0.thr.tvec ≠ 0 ∧ s0.thr.holds 1 64 ∧ s0.thr.holds 2 3 ∧ (see (exec (.add 0 1 2) s0) fun t => t.thr.pc) = some 0x1004 := by
  decide +kernel
theorem witness_ScalarFrame : scalarDest (.fma .single 4 1 2 3) = some 4 ∧ s0.thr.tvec ≠ 0 ∧ (see (exec (.fma .single 4 1 2 3) s0) fun t => t.thr.run) = some .ready := by decide +kernel
theorem witness_WordsGoOn : isWord (.xfence .die) = true ∧ isWord .texit = true ∧ isWord .fenceI = true := by decide
theorem witness_InvKept : State.reset.Inv ∧ (see (step State.reset) fun t => t.focus).isSome = true := by decide +kernel
theorem witness_DecodeOfEncode : isWord (.vdq .sx2h 7 20 31 30) = true ∧ (Instr.vdq .sx2h 7 20 31 30).wellFormed = true := by decide
theorem witness_EncodeOfDecode : decodeWord 0x00041181 = .ok (.add 3 1 2) := rfl
/-- Tile 0's clock is the agenda's first, and slot 1 has its turn: it fetches a word of a locked line. -/
theorem witness_StepRunsTheWord :
    let w : Insn := 0x00041181
    let s : State := { mach { th0 with pc := 0x8000000000001000 } (fun x => { x with cycle := 1, icache := [⟨0x1000, List.replicate 16 w, true⟩] }) with agenda := [.clock 0] }
    let x := s.tileAt 0
    firstNext s (s.due 0) = none ∧ s.dieHalted 0 = false ∧ x.hidden = false ∧ x.pairing = none ∧ x.gift = none ∧ x.owner = 1 ∧ (x.slots[x.owner]).yielded = false ∧
      (x.slots[x.owner]).run = .ready ∧ (x.slots[x.owner]).rouse = .none ∧ s.mayTrap 0 x.owner = false ∧ (x.slots[x.owner]).shadow = 0 ∧ (x.slots[x.owner]).fetched = none ∧ x.breaks 0x8000000000001000 false = false ∧
      regionOf 0x8000000000001000 = 2 ∧ (0x8000000000001000 : Word).toNat / 2 ^ 52 % 2 ^ 10 = 0 ∧ (x.lineOf 0x1000).isSome ∧ Tests.reads [(w, .add 3 1 2)] = true ∧
      (s.fetch 0 x.owner 0x8000000000001000).1 = .word w := by decide +kernel

-- One step of some instructions; the expected values are worked out by hand from the rules named

/-- The value that an instruction gives s4, read where it lands at once or is on its way. -/
def gives (i : Instr) (l : List (Reg × Word)) : Option Word :=
  (see (exec i (mach (regs l { th0 with s := Thread.reset.s }) plainTile)) fun t =>
    match t.thr.results with
    | [⟨[.s 4 v], _⟩] => some v
    | _ => if (t.thr.getS 4).full then some (t.thr.getS 4).val else none).join
/-- R103: arithmetic wraps at 64 bits, `sra` keeps the sign, a shift amount is taken modulo 64. -/
theorem test_opi_arith : gives (.add 4 1 2) [(1, 0xFFFFFFFFFFFFFFFF), (2, 2)] = some 1 ∧ gives (.sub 4 1 2) [(1, 1), (2, 3)] = some 0xFFFFFFFFFFFFFFFE ∧
    gives (.sra 4 1 2) [(1, 0x8000000000000000), (2, 67)] = some 0xF000000000000000 ∧ gives (.srl 4 1 2) [(1, 0x8000000000000000), (2, 67)] = some 0x1000000000000000 ∧
    gives (.sll 4 1 2) [(1, 3), (2, 127)] = some 0x8000000000000000 := by decide +kernel
theorem test_opi_compare : gives (.slt 4 1 2) [(1, 0xFFFFFFFFFFFFFFFF), (2, 1)] = some 1 ∧ gives (.sltn 4 1 2) [(1, 0xFFFFFFFFFFFFFFFF), (2, 1)] = some 0 ∧
    gives (.min 4 1 2) [(1, 0xFFFFFFFFFFFFFFFF), (2, 1)] = some 0xFFFFFFFFFFFFFFFF ∧ gives (.minn 4 1 2) [(1, 0xFFFFFFFFFFFFFFFF), (2, 1)] = some 1 ∧
    gives (.max 4 1 2) [(1, 0xFFFFFFFFFFFFFFFF), (2, 1)] = some 1 ∧ gives (.maxn 4 1 2) [(1, 0xFFFFFFFFFFFFFFFF), (2, 1)] = some 0xFFFFFFFFFFFFFFFF := by decide +kernel
theorem test_opi_bits : gives (.rot 4 1 2) [(1, 0x8000000000000001), (2, 4)] = some 0x18 ∧ gives (.clz 4 1) [(1, 0)] = some 64 ∧ gives (.clz 4 1) [(1, 0xFF)] = some 56 ∧
    gives (.ctz 4 1) [(1, 0)] = some 64 ∧ gives (.ctz 4 1) [(1, 0xF0)] = some 4 ∧ gives (.popc 4 1) [(1, 0xF0F)] = some 8 ∧ gives (.sel 4 1 2 3) [(1, 7), (2, 8), (3, 0)] = some 8 := by
  decide +kernel
/-- R104's corners. -/
theorem test_opi_divide : gives (.div 4 1 2) [(1, 7), (2, 0)] = some 0xFFFFFFFFFFFFFFFF ∧ gives (.rem 4 1 2) [(1, 7), (2, 0)] = some 7 ∧
    gives (.div 4 1 2) [(1, 0x8000000000000000), (2, 0xFFFFFFFFFFFFFFFF)] = some 0x8000000000000000 ∧ gives (.rem 4 1 2) [(1, 0x8000000000000000), (2, 0xFFFFFFFFFFFFFFFF)] = some 0 ∧
    gives (.div 4 1 2) [(1, 0xFFFFFFFFFFFFFFF9), (2, 2)] = some 0xFFFFFFFFFFFFFFFD ∧ gives (.rem 4 1 2) [(1, 0xFFFFFFFFFFFFFFF9), (2, 2)] = some 0xFFFFFFFFFFFFFFFF ∧
    gives (.divn 4 1 2) [(1, 0xFFFFFFFFFFFFFFF9), (2, 2)] = some 0x7FFFFFFFFFFFFFFC ∧ gives (.remn 4 1 2) [(1, 9), (2, 4)] = some 1 := by decide +kernel
theorem test_opi_multiply : gives (.mul 4 1 2) [(1, 0xFFFFFFFFFFFFFFFF), (2, 3)] = some 0xFFFFFFFFFFFFFFFD ∧ gives (.mulh 4 1 2) [(1, 0xFFFFFFFFFFFFFFFF), (2, 3)] = some 0xFFFFFFFFFFFFFFFF ∧
    gives (.mulhn 4 1 2) [(1, 0xFFFFFFFFFFFFFFFF), (2, 3)] = some 2 := by decide +kernel
/-- R105 to R107: immediates are sign-extended; `adpc` adds to the PC. -/
theorem test_immediates : gives (.addi 4 1 0xFFF) [(1, 0)] = some 0xFFFFFFFFFFFFFFFF ∧ gives (.andi 4 1 0xFF0) [(1, 0x123456)] = some 0x123450 ∧ gives (.sltni 4 1 0xFFF) [(1, 5)] = some 1 ∧
    gives (.slti 4 1 0xFFF) [(1, 5)] = some 0 ∧ gives (.srai 4 1 63) [(1, 0x8000000000000000)] = some 0xFFFFFFFFFFFFFFFF ∧ gives (.lui 4 0x80000) [] = some 0xFFFFFFFF80000000 ∧
    gives (.adpc 4 1) [] = some 0x2000 ∧ gives (.ext 4 1 4 7) [(1, 0x8F0)] = some 0xFFFFFFFFFFFFFF8F ∧ gives (.extn 4 1 4 7) [(1, 0x8F0)] = some 0x8F ∧
    gives (.ins 4 1 8 3) [(1, 0xA), (4, 0xFFFF)] = some 0xFAFF := by decide +kernel
/-- R109, R110: a skip whose condition holds leaves a shadow of n. R112: a branch goes by four times its offset. -/
theorem test_skip_branch : (see (exec (.sk .eq 2 1 1) s0) fun t => (t.thr.pc, t.thr.shadow)) = some (0x1004, 2) ∧ (see (exec (.sk .eq 2 1 2) s0) fun t => t.thr.shadow) = some 0 ∧
    (see (exec (.br .ne 1 2 0x3FF) s0) fun t => t.thr.pc) = some 0xFFC ∧ (see (exec (.br .eq 1 2 0x3FF) s0) fun t => t.thr.pc) = some 0x1004 ∧
    (see (exec (.jl 4 3) s0) fun t => (t.thr.pc, (t.thr.getS 4).val)) = some (0x100C, 0x1004) ∧ (see (exec (.jlr 4 1 2) s0) fun t => (t.thr.pc, t.thr.cause)) = some (0x2000, 4) := by decide +kernel
/-- R129, single: 1 + 2 = 3; 1 / 0 is an infinity with DZ; 0 / 0 is the canonical NaN with NV; 1 / 3 is inexact. R130: -1.5 to i32 rtz is -1. -/
theorem test_float_single : gives (.fadd .single .rne 4 1 2) [(1, 0x3F800000), (2, 0x40000000)] = some 0x40400000 ∧
    gives (.fdiv .single .rne 4 1 2) [(1, 0x3F800000), (2, 0)] = some 0x7F800000 ∧ gives (.fdiv .single .rne 4 1 2) [(1, 0), (2, 0)] = some 0x7FC00000 ∧
    gives (.fdiv .single .rne 4 1 2) [(1, 0x3F800000), (2, 0x40400000)] = some 0x3EAAAAAB ∧ gives (.fsqrt .single .rne 4 1) [(1, 0x40800000)] = some 0x40000000 ∧
    gives (.fma .single 4 1 2 3) [(1, 0x40000000), (2, 0x40400000), (3, 0x3F800000)] = some 0x40E00000 ∧ gives (.fcvt false .rtz .i32 .f32 4 1) [(1, 0xBFC00000)] = some 0xFFFFFFFFFFFFFFFF ∧
    gives (.fmin .single 4 1 2) [(1, 0x80000000), (2, 0)] = some 0x80000000 ∧ gives (.flt .single 4 1 2) [(1, 0x7FC00000), (2, 0)] = some 0 := by decide +kernel
theorem test_float_double : gives (.fadd .double .rne 4 1 2) [(1, 0x3FF0000000000000), (2, 0x3CA0000000000000)] = some 0x3FF0000000000000 ∧
    gives (.fadd .double .rup 4 1 2) [(1, 0x3FF0000000000000), (2, 0x3CA0000000000000)] = some 0x3FF0000000000001 ∧
    gives (.fmul .double .rne 4 1 2) [(1, 0xBFF8000000000000), (2, 0x4000000000000000)] = some 0xC008000000000000 ∧
    gives (.fcvt false .rne .f32 .f64 4 1) [(1, 0x3FF0000000000000)] = some 0x3F800000 := by decide +kernel
/-- R354, R359: `sys` saves the PC and status; a privileged form in user mode traps PRIV with its word; `eret` returns. -/
theorem test_trap_return : (see (exec (.sys 9) s0) fun t => (t.thr.pc, t.thr.epc, t.thr.tval, t.thr.status)) = some (0x2000, 0x1000, 9, 9) ∧
    (see (exec .mxthaw s0) fun t => (t.thr.pc, t.thr.tval)) = some (0x2000, 0x4000002B) ∧
    (see (exec .eret (slot1 fun th => { th with status := 9, epc := 0x1234 })) fun t => (t.thr.pc, t.thr.status)) = some (0x1234, 0x0C) := by decide +kernel
/-- R357's own example: two words of a shadow remain when the slot timer's trap is taken. -/
theorem test_async_trap : (see (exec (.trapEntry 0 1) (slot1 fun th => { th with shadow := 2, tmcmp := 1, pending := { Pending.none with timer := true } })) fun t =>
    (t.thr.status, t.thr.cause, t.thr.shadow, t.thr.pc)) = some (0x29, 0x8000000000000010, 0, 0x2000) := by decide +kernel
/-- R34, R98: an empty source parks the thread at its instruction. -/
theorem test_empty_source_parks : (see (exec (.add 4 5 1) s0) fun t => (t.thr.run, t.thr.pc)) = some (.parked (.regEmpty (.s 5)), 0x1000) := by decide +kernel
/-- R117, R242, R264: a store of the tile's own scratchpad is outstanding until it is performed; then memory holds its bytes, the least significant first. -/
theorem test_store_performed : ((see (exec (.st .b32 6 1 0) s0) fun t => (t.thr.cntSt, t.mem)) = some (1, [])) ∧
    (((see (exec (.st .b32 6 1 4) s0) fun t => see (exec (.storeAck 0 0 .performed) t) fun u => (u.thr.cntSt, u.mem.readBytes (tileLoc 0 68) 4))).join = some (0, [0xF8, 0xFF, 0xFF, 0xFF])) := by
  decide +kernel
/-- R116: a load of bytes that read zero; it lands when its event comes. -/
theorem test_load_lands : ((see (exec (.ld .n16 4 1 0) (mach th0 fun x => { x with cycle := 100 })) fun t => (t.thr.cntLd, (t.thr.getS 4).pend)) = some (1, true)) ∧
    (see (exec (.loadFill 0 1 ⟨7, 0⟩) (mach { th0 with cntLd := 1, loads := [⟨7, 0, 0, .scalar 4 .i16 64, some 0, []⟩] } plainTile |> fun s => { s with mem := [(tileLoc 0 64, 0xFE), (tileLoc 0 65, 0xFF)] })) fun t =>
      (t.thr.cntLd, t.thr.getS 4)) = some (0, ⟨0xFFFFFFFFFFFFFFFE, true, false, false⟩) := by decide +kernel
/-- R140, R133: eight-bit lanes wrap; under an empty guard the old lanes stay. -/
theorem test_vector_add : ((see (exec (.vaddI .i8 0 4 1 2) (mach ((th0.setV 1 0xFF01).setV 2 0x0203) plainTile)) fun t => t.thr.results.map (·.writes)) = some [[.v 4 0x0104]]) ∧
    ((see (exec (.vaddI .i8 1 3 1 2) s0) fun t => t.thr.results.map (·.writes)) = some [[.v 3 2]]) := by decide +kernel
/-- R144: an integer sum of present lanes; R153: the count of a guard. -/
theorem test_vector_reduce : gives (.gpop 4 0) [] = some 128 ∧ gives (.gfirst 4 1) [] = some 128 ∧
    (see (exec (.vredAdd .i32 0 4 1) (mach (th0.setV 1 0x0000000300000002) plainTile)) fun t => t.thr.results.map (·.writes)) = some [[.s 4 5]] := by decide +kernel
/-- R174, R192: arrival gives the generation; R198: of two handles the one of the lower priority number is popped. -/
theorem test_sync : (see (exec (.barArr 4) (mach th0 fun x => { x with barrier := ⟨2, 0, false, 9, none, []⟩ })) fun t => ((t.thr.getS 4).val, t.tile.barrier.arr)) = some (9, 2) ∧
    (see (exec (.tqpop 4) (mach th0 fun x => { x with queue := [0x400000, 0x200000] })) fun t => ((t.thr.getS 4).val, t.tile.queue)) = some (0x200000, [0x400000]) := by decide +kernel
/-- R270: an atomic performed at its home answers the old value; R265: `ldfe` of an empty word waits. -/
theorem test_home : (see (exec (.homeAccess 0 1) { asking (.rmw .add .w64 1 0) .sent with mem := [(tileLoc 0 64, 0xFF)] }) fun t =>
      (t.mem.readBytes (tileLoc 0 64) 2, (t.thr.req.map (·.stage)))) = some ([0, 1], some (.answered (.value 0xFF 0))) ∧
    (see (exec (.homeAccess 0 1) (asking (.ldfe .w64) .sent)) fun t => t.thr.req.map (·.stage)) = some (some .listed) := by decide +kernel
/-- R250: staged bytes are committed by granule, and reach memory then. -/
theorem test_staging : (see (exec (.stagingCommit 0) { s0 with staged := [⟨0, 0, true, 64, 5⟩, ⟨0, 0, true, 65, 6⟩, ⟨0, 0, true, 128, 7⟩] }) fun t => (t.mem, t.staged)) =
    some ([(64, 5), (65, 6)], [⟨0, 0, true, 128, 7⟩]) := by decide +kernel
/-- FIPS 202: the padding fills blocks of 136 bytes, and one byte takes both ends of it; the first round's constant is 1, the second's 0x8082. -/
theorem test_sha3 : (sha3Tail 135) = [0x86] ∧ (sha3Tail 136).length = 136 ∧ (sha3Tail 0).take 2 = [6, 0] ∧ (roundBits 1).1 = 1 ∧ (roundBits (roundBits 1).2).1 = 0x8082 := by decide +kernel
/-- FIPS 202's digest of the empty string begins a7 ff c6 f8. -/
theorem test_sha3_empty : (digest []).take 4 = [0xA7, 0xFF, 0xC6, 0xF8] := by decide +kernel
/-- `withFetchWord` has the next step run its word: `addi` and `eret`. -/
theorem test_first_step : (see (step (State.reset.withFetchWord 32 0x00000002)) fun t => (t.thrAt 0 1).run).isSome = true ∧
    (see (step (State.reset.withFetchWord 32 (0x0800002B))) fun t => (t.thrAt t.curTile t.curSlot).run).isSome = true := by decide +kernel

end Sys2Proof.Tests
end

section
/-! SUPPORT. The scalar register instructions and the registers that are wired, s0 and g0 (R33): what a read returns after a write of a
register, every state that a scalar register instruction can lead to, and the settling of `Obligations.ZeroRegisters`. -/

namespace Sys2Proof.Machine

-- What a register write leaves alone

@[simp] theorem poisonS_zero (th : Thread) : th.poisonS 0 = th := by simp [Thread.poisonS]

theorem getS_poisonS_ne (th : Thread) (r q : Reg) (h : q ≠ r) : (th.poisonS r).getS q = th.getS q := by
  unfold Thread.poisonS
  split
  · rfl
  · simp only [Thread.getS, Fin.getElem_fin]; exact Vector.getElem_set_ne _ _ fun e => h (Fin.ext e.symm)
theorem getS_pendS_ne (th : Thread) (r q : Reg) (h : q ≠ r) : (th.pendS r).getS q = th.getS q := by
  unfold Thread.pendS
  split
  · rfl
  · simp only [Thread.getS, Fin.getElem_fin]; exact Vector.getElem_set_ne _ _ fun e => h (Fin.ext e.symm)
theorem getG_setG_ne (th : Thread) (r q : GReg) (x : Guard) (h : q ≠ r) : (th.setG r x).getG q = th.getG q := by
  unfold Thread.setG
  split
  · rfl
  · simp only [Thread.getG, Fin.getElem_fin]; exact Vector.getElem_set_ne _ _ fun e => h (Fin.ext e.symm)

@[simp] theorem getG_setS (th : Thread) (r : Reg) (x : Word) (q : GReg) : (th.setS r x).getG q = th.getG q := by
  unfold Thread.setS; split <;> rfl
@[simp] theorem getG_poisonS (th : Thread) (r : Reg) (q : GReg) : (th.poisonS r).getG q = th.getG q := by
  unfold Thread.poisonS; split <;> rfl
@[simp] theorem getG_pendS (th : Thread) (r : Reg) (q : GReg) : (th.pendS r).getG q = th.getG q := by
  unfold Thread.pendS; split <;> rfl
@[simp] theorem getS_setG (th : Thread) (r : GReg) (x : Guard) (q : Reg) : (th.setG r x).getS q = th.getS q := by
  unfold Thread.setG; split <;> rfl

-- Every register write keeps s0 and g0 wired

theorem Thread.wired.setS {th : Thread} (h : th.wired) (r : Reg) (x : Word) : (th.setS r x).wired := by
  obtain ⟨hs, hg⟩ := h
  refine ⟨?_, (getG_setS th r x 0).trans hg⟩
  by_cases hr : r = 0
  · rw [hr, setS_zero, hs]
  · rw [getS_setS_ne th r 0 x (Ne.symm hr), hs]
theorem Thread.wired.poisonS {th : Thread} (h : th.wired) (r : Reg) : (th.poisonS r).wired := by
  obtain ⟨hs, hg⟩ := h
  refine ⟨?_, (getG_poisonS th r 0).trans hg⟩
  by_cases hr : r = 0
  · rw [hr, poisonS_zero, hs]
  · rw [getS_poisonS_ne th r 0 (Ne.symm hr), hs]
theorem Thread.wired.pendS {th : Thread} (h : th.wired) (r : Reg) : (th.pendS r).wired := by
  obtain ⟨hs, hg⟩ := h
  refine ⟨?_, (getG_pendS th r 0).trans hg⟩
  by_cases hr : r = 0
  · rw [hr, pendS_zero, hs]
  · rw [getS_pendS_ne th r 0 (Ne.symm hr), hs]
theorem Thread.wired.setG {th : Thread} (h : th.wired) (r : GReg) (x : Guard) : (th.setG r x).wired := by
  obtain ⟨hs, hg⟩ := h
  refine ⟨(getS_setG th r x 0).trans hs, ?_⟩
  by_cases hr : r = 0
  · rw [hr, setG_zero, hg]
  · rw [getG_setG_ne th r 0 x (Ne.symm hr), hg]

-- Examination of s0

@[simp] theorem exS_zero (s : State) (k : Word → Out) : exS s 0 k = k 0 := if_pos rfl
theorem Thread.free_zero (th : Thread) : th.free 0 := .inl rfl

-- Every state that a scalar register instruction can lead to

/-- What becomes of a scalar register instruction with destination d (R29, R99, R101, R354): it parks, traps, retires with its result, or
retires with a result on its way, with or without floating flags. -/
inductive ScalarEnd (s : State) (i : Instr) (d : Reg) : State → Prop
  | parked (p : Park) : ScalarEnd s i d (s.parked p)
  | trapped (c : Cause) (v : Word) : ScalarEnd s i d (s.trapped c v)
  | wrote (x : Word) : ScalarEnd s i d (s.wrote d x)
  | awaits (x : Word) (n : Nat) : ScalarEnd s i d (s.awaits d x n)
  | flagged (h : setsFlags i = true) (fl : FFlags) (x : Word) (n : Nat) :
      ScalarEnd s i d ((s.modThr fun th => th.flagF fl).awaits d x n)

theorem dstS_parks {s : State} {d : Reg} (h : ¬ s.thr.free d) (k : Out) : dstS s d k = .next (s.parked (.fillPending (.s d))) := by
  simp only [Thread.free, not_or, Bool.not_eq_false] at h
  exact if_pos h

/-- A destination is examined before anything is written: it parks, or the outcome is that of a free one. -/
theorem leads_of_free {s : State} {d : Reg} {o : Out} {P : State → Prop} (hp : ∀ p, P (s.parked p)) (hd : ∃ k, o = dstS s d k)
    (hk : s.thr.free d → Leads o P) : Leads o P := by
  by_cases h : s.thr.free d
  · exact hk h
  · obtain ⟨k, rfl⟩ := hd
    rw [dstS_parks h]
    exact leads_next (hp _)

theorem retireFlags_free {s : State} {d : Reg} (h : s.thr.free d) (x : Word) (fl : FFlags) (n : Nat) :
    retireFlags s d x fl n = .next ((s.modThr fun th => th.flagF fl).awaits d x n) := by
  have hf : (s.modThr fun th => th.flagF fl).thr.free d := by rw [thr_modThr]; exact h
  rw [retireFlags, dstS_free h, retireLater_free hf]

section
variable {s : State} {i : Instr} {d : Reg}

theorem retireS_ends (x : Word) : Leads (retireS s d x) (ScalarEnd s i d) :=
  leads_of_free .parked ⟨_, rfl⟩ fun h => retireS_free h x ▸ leads_next (.wrote x)
theorem retireLater_ends (x : Word) (n : Nat) : Leads (retireLater s d x n) (ScalarEnd s i d) :=
  leads_of_free .parked ⟨_, rfl⟩ fun h => retireLater_free h x n ▸ leads_next (.awaits x n)
theorem retireFlags_ends (hf : setsFlags i = true) (x : Word) (fl : FFlags) (n : Nat) :
    Leads (retireFlags s d x fl n) (ScalarEnd s i d) :=
  leads_of_free .parked ⟨_, rfl⟩ fun h => retireFlags_free h x fl n ▸ leads_next (.flagged hf fl x n)

theorem exS_ends {a : Reg} {k : Word → Out} (hk : ∀ x, Leads (k x) (ScalarEnd s i d)) : Leads (exS s a k) (ScalarEnd s i d) :=
  leads_exS .parked .trapped hk
theorem exS2_ends {a b : Reg} {k : Word → Word → Out} (hk : ∀ x y, Leads (k x y) (ScalarEnd s i d)) :
    Leads (exS2 s a b k) (ScalarEnd s i d) := exS_ends fun x => exS_ends (hk x)
theorem exS3_ends {a b c : Reg} {k : Word → Word → Word → Out} (hk : ∀ x y z, Leads (k x y z) (ScalarEnd s i d)) :
    Leads (exS3 s a b c k) (ScalarEnd s i d) := exS_ends fun x => exS2_ends (hk x)

theorem scalar1_ends (a : Reg) (f : Word → Word) : Leads (scalar1 s d a f) (ScalarEnd s i d) := exS_ends fun _ => retireS_ends _
theorem scalar2_ends (a b : Reg) (f : Word → Word → Word) : Leads (scalar2 s d a b f) (ScalarEnd s i d) :=
  exS2_ends fun _ _ => retireS_ends _
theorem fbits2_ends (p : Prec) (a b : Reg) (f : Nat → Nat → Nat) : Leads (fbits2 s p d a b f) (ScalarEnd s i d) :=
  scalar2_ends _ _ _
theorem scalarLater_ends (a b : Reg) (n : Nat) (f : Word → Word → Word) : Leads (scalarLater s d a b n f) (ScalarEnd s i d) :=
  exS2_ends fun _ _ => retireLater_ends _ n
theorem fop2_ends (hf : setsFlags i = true) (p : Prec) (a b : Reg) (n : Nat) (f : Nat → Nat → Nat × FFlags) :
    Leads (fop2 s p d a b n f) (ScalarEnd s i d) := exS2_ends fun _ _ => retireFlags_ends hf _ _ n
theorem fop3_ends (hf : setsFlags i = true) (p : Prec) (a b c : Reg) (f : Nat → Nat → Nat → Nat × FFlags) :
    Leads (fop3 s p d a b c f) (ScalarEnd s i d) := exS3_ends fun _ _ _ => retireFlags_ends hf _ _ _

end

/-- Whatever next state a scalar register instruction gives is one of `ScalarEnd`. -/
theorem exec_scalar_ends {s : State} {i : Instr} {d : Reg} (h : scalarDest i = some d) : Leads (exec i s) (ScalarEnd s i d) := by
  cases i with
  | add | sub | and | or | xor | sll | srl | sra | slt | sltn | min | max | minn | maxn | rot => cases h; simp only [exec]; exact scalar2_ends _ _ _
  | fmin p | fmax p | fsgnj p | fsgnjn p | fsgnjx p => cases h; simp only [exec]; exact fbits2_ends p _ _ _
  | feq | flt | fle => cases h; simp only [exec]; exact scalar2_ends _ _ _
  | mul | mulh | mulhn => cases h; simp only [exec]; exact scalarLater_ends _ _ 4 _
  | div | divn | rem | remn => cases h; simp only [exec]; exact scalarLater_ends _ _ 36 _
  | clz | ctz | popc | addi | andi | ori | xori | slti | sltni | slli | srli | srai => cases h; simp only [exec]; exact scalar1_ends _ _
  | ext | extn | fclass => cases h; simp only [exec]; exact scalar1_ends _ _
  | lui | adpc => cases h; simp only [exec]; exact retireS_ends _
  | sel => cases h; simp only [exec]; exact exS3_ends fun _ _ _ => retireS_ends _
  | ins => cases h; simp only [exec]; exact exS2_ends fun _ _ => retireS_ends _
  | fadd p | fsub p | fmul p => cases h; simp only [exec]; exact fop2_ends rfl p _ _ (arithClocks p) _
  | fdiv p => cases h; simp only [exec]; exact fop2_ends rfl p _ _ (divClocks p) _
  | fsqrt p => cases h; simp only [exec]; exact exS_ends fun _ => retireFlags_ends rfl _ _ (divClocks p)
  | fma p | fms p | fnma p => cases h; simp only [exec]; exact fop3_ends rfl p _ _ _ _
  | fcvt => cases h; simp only [exec]; exact exS_ends fun _ => retireFlags_ends rfl _ _ 3
  | _ => exact absurd h.symm (Option.some_ne_none d)

-- A scalar register instruction whose destination is s0

@[simp] theorem putThr_self (x : Tile) (k : Slot) : x.putThr k x.slots[k] = x := by
  simp [Tile.putThr]
/-- Writing back the executing thread before it retires changes nothing. -/
theorem retireAt_modThr_id (s : State) (pc : Word) (ns : List Word) :
    (s.modThr fun th => th).retireAt s.curTile s.curSlot pc ns = s.retireAt s.curTile s.curSlot pc ns := by
  simp only [State.retireAt, State.modThr, State.modThrAt, State.putThrAt, State.thrAt, State.modTile, putThr_self, tileAt_putTile,
    putTile_putTile]

theorem wrote_zero (s : State) (x : Word) : s.wrote 0 x = s.done [x] := by
  simp only [State.wrote, State.putS, setS_zero, retireAt_modThr_id, State.done]
theorem awaits_zero (s : State) (x : Word) (n : Nat) : s.awaits 0 x n = s.done [x] := by
  simp only [State.awaits, if_true, State.done]

@[simp] theorem thr_done (s : State) (ns : List Word) : (s.done ns).thr = s.thr.retireTo (s.thr.pc + 4) := thrAt_retireAt _ _ _ _ _
@[simp] theorem thr_parked (s : State) (p : Park) : (s.parked p).thr = { s.thr with run := .parked p } := thr_modThr _ _
theorem thr_trapped {s : State} (h : s.thr.tvec ≠ 0) (c : Cause) (v : Word) :
    (s.trapped c v).thr = s.thr.enterTrap false c v s.thr.pc 0 := by
  have ht : s.trapped c v = s.modThr fun th => th.enterTrap false c v s.thr.pc 0 := if_neg h
  rw [ht, thr_modThr]

theorem ScalarEnd.s_of_zero {s t : State} {i : Instr} (h : ScalarEnd s i 0 t) (ht : s.thr.tvec ≠ 0) : t.thr.s = s.thr.s := by
  cases h with
  | parked p => rw [thr_parked]
  | trapped c v => rw [thr_trapped ht, Thread.enterTrap_s]
  | wrote x => rw [wrote_zero, thr_done, Thread.retireTo_s]
  | awaits x n => rw [awaits_zero, thr_done, Thread.retireTo_s]
  | flagged _ fl x n => rw [awaits_zero, thr_done, Thread.retireTo_s, thr_modThr, Thread.flagF_s]

-- An instruction whose destination is s0 or g0 is carried out in full

section
variable {s : State} {a b : Reg} {x y : Word}

theorem exec_add_zero (ha : s.thr.holds a x) (hb : s.thr.holds b y) : exec (.add 0 a b) s = .next (s.done [x + y]) := by
  calc exec (.add 0 a b) s = retireS s 0 (x + y) := exS2_holds ha hb fun x y => retireS s 0 (x + y)
    _ = .next (s.done [x + y]) := by rw [retireS_free s.thr.free_zero, wrote_zero]
theorem exec_mul_zero (ha : s.thr.holds a x) (hb : s.thr.holds b y) : exec (.mul 0 a b) s = .next (s.done [x * y]) := by
  calc exec (.mul 0 a b) s = retireLater s 0 (x * y) 4 := exS2_holds ha hb fun x y => retireLater s 0 (x * y) 4
    _ = .next (s.done [x * y]) := by rw [retireLater_free s.thr.free_zero, awaits_zero]
theorem exec_fadd_zero (p : Prec) (r : Rnd) (ha : s.thr.holds a x) (hb : s.thr.holds b y) :
    let v := (precFmt p).add (s.thr.mode r) (precBits p x) (precBits p y)
    exec (.fadd p r 0 a b) s = .next ((s.modThr fun th => th.flagF v.2).done [BitVec.ofNat 64 v.1]) := by
  intro v
  calc exec (.fadd p r 0 a b) s = retireFlags s 0 (BitVec.ofNat 64 v.1) v.2 (arithClocks p) :=
        exS2_holds ha hb fun x y => retireF s 0 ((precFmt p).add (s.thr.mode r) (precBits p x) (precBits p y)) (arithClocks p)
    _ = .next ((s.modThr fun th => th.flagF v.2).done [BitVec.ofNat 64 v.1]) := by
      rw [retireFlags_free s.thr.free_zero, awaits_zero]

end

theorem exec_gand_zero (s : State) (a b : GReg) : Completes (exec (.gand 0 a b) s) fun u => s.onward u ∧ u.thr.g = s.thr.g := by
  refine ⟨_, retireG_next s [] 0 (s.guard a &&& s.guard b), ?_⟩
  have hpop : s.popV [] = s := rfl
  have ht : (s.wroteG [] 0 (s.guard a &&& s.guard b)).thr = s.thr.retireTo (s.thr.pc + 4) := by
    simp only [State.wroteG, hpop, setG_zero, retireAt_modThr_id]; exact thr_done s _
  exact ⟨⟨rfl, rfl, by rw [ht]; rfl, by rw [ht]; rfl, by rw [ht]; rfl⟩, by rw [ht, Thread.retireTo_g]⟩

/-- Settles O52: R33's accessors leave s0 and g0 as they are, and a scalar register instruction into s0 leaves every scalar register, as
`exec_scalar_ends` lists all that it can do. -/
theorem zeroRegisters : Obligations.ZeroRegisters := by
  unfold Obligations.ZeroRegisters
  refine ⟨fun th hw => ⟨fun x => ?_, fun x => ?_, fun r x => ⟨hw.setS r x, hw.poisonS r, hw.pendS r⟩, hw.setG⟩, exS_zero, ?_, ?_, exec_gand_zero⟩
  · rw [setS_zero, poisonS_zero, pendS_zero]; exact ⟨rfl, rfl, rfl⟩
  · rw [setG_zero]
  · intro s i t hd htv he
    exact (exec_scalar_ends hd t he).s_of_zero htv
  · intro s p r a b x y ha hb
    have hxy : BitVec.ofNat 64 (x.toNat * y.toNat) = x * y := BitVec.eq_of_toNat_eq (by simp)
    exact ⟨exec_add_zero ha hb, hxy ▸ exec_mul_zero ha hb, exec_fadd_zero p r ha hb⟩

end Sys2Proof.Machine
end

section
/-! SUPPORT. The words of the scalar immediate, bit-field, branch and jump forms (R58, R105, R107, R112, R113): each format as one sum of its
fields, the fields of a word as its bits, and the words of these majors that are refused and so trap ILLEGAL (R69). -/

namespace Sys2Proof.Machine

-- The word of a format as the sum of its fields

theorem toWord_fieldsI (op f3 imm a d : Nat) :
    (fieldsI op f3 imm a d).toWord = BitVec.ofNat 32 (op + d * 2 ^ 7 + a * 2 ^ 12 + f3 * 2 ^ 17 + imm * 2 ^ 20) :=
  congrArg (BitVec.ofNat 32) (by simp only [fieldsI]; omega)
theorem toWord_fieldsU (op imm d : Nat) : (fieldsU op imm d).toWord = BitVec.ofNat 32 (op + d * 2 ^ 7 + imm * 2 ^ 12) :=
  congrArg (BitVec.ofNat 32) (by simp only [fieldsU]; omega)
theorem toWord_fieldsB (op cc imm b a : Nat) :
    (fieldsB op cc imm b a).toWord = BitVec.ofNat 32 (op + cc * 2 ^ 7 + a * 2 ^ 12 + b * 2 ^ 17 + imm * 2 ^ 22) :=
  congrArg (BitVec.ofNat 32) (by simp only [fieldsB]; omega)

theorem encode_eq_toWord {i : Instr} {x : Fields} (h : encodeFields i = some x) : encode i = some x.toWord := by
  rw [encode, h, Option.map_some]

theorem encode_formatI {i : Instr} {op f3 imm a d : Nat} (h : encodeFields i = some (fieldsI op f3 imm a d)) :
    encode i = some (BitVec.ofNat 32 (op + d * 2 ^ 7 + a * 2 ^ 12 + f3 * 2 ^ 17 + imm * 2 ^ 20)) := by
  rw [encode_eq_toWord h, toWord_fieldsI]
theorem encode_formatU {i : Instr} {op imm d : Nat} (h : encodeFields i = some (fieldsU op imm d)) :
    encode i = some (BitVec.ofNat 32 (op + d * 2 ^ 7 + imm * 2 ^ 12)) := by
  rw [encode_eq_toWord h, toWord_fieldsU]
theorem encode_formatB {i : Instr} {op cc imm b a : Nat} (h : encodeFields i = some (fieldsB op cc imm b a)) :
    encode i = some (BitVec.ofNat 32 (op + cc * 2 ^ 7 + a * 2 ^ 12 + b * 2 ^ 17 + imm * 2 ^ 22)) := by
  rw [encode_eq_toWord h, toWord_fieldsB]
/-- The immediate of a bit-field word holds its position in [25:20] and its length less one in [31:26] (R107). -/
theorem encode_bitField {i : Instr} {f3 p l a d : Nat} (h : encodeFields i = some (fieldsI 0x05 f3 (l * 64 + p) a d)) :
    encode i = some (BitVec.ofNat 32 (0x05 + d * 2 ^ 7 + a * 2 ^ 12 + f3 * 2 ^ 17 + p * 2 ^ 20 + l * 2 ^ 26)) := by
  have hsum : 0x05 + d * 2 ^ 7 + a * 2 ^ 12 + f3 * 2 ^ 17 + (l * 64 + p) * 2 ^ 20 =
      0x05 + d * 2 ^ 7 + a * 2 ^ 12 + f3 * 2 ^ 17 + p * 2 ^ 20 + l * 2 ^ 26 := by omega
  rw [encode_formatI h, hsum]

-- The fields of a word as its bits

theorem toNat_extractLsb' (w : Insn) (i n : Nat) : (w.extractLsb' i n).toNat = w.toNat / 2 ^ i % 2 ^ n := by
  rw [BitVec.extractLsb'_toNat, Nat.shiftRight_eq_div_pow]

theorem ofWord_op (w : Insn) : (Fields.ofWord w).op = (w.extractLsb' 0 7).toNat := by
  rw [toNat_extractLsb']; simp only [Fields.ofWord]; omega
theorem ofWord_d_high (w : Insn) : (Fields.ofWord w).d / 8 = (w.extractLsb' 10 2).toNat := by
  rw [toNat_extractLsb']; simp only [Fields.ofWord]; omega
theorem ofWord_f3 (w : Insn) : (Fields.ofWord w).f3 = (w.extractLsb' 17 3).toNat := by
  rw [toNat_extractLsb']; simp only [Fields.f3, Fields.ofWord]; omega
theorem ofWord_imm12 (w : Insn) : (Fields.ofWord w).imm12 = w.toNat / 2 ^ 20 := by
  have := w.isLt
  simp only [Fields.imm12, Fields.ofWord]; omega
theorem ofWord_imm12_low (w : Insn) : (Fields.ofWord w).imm12 % 64 = (w.extractLsb' 20 6).toNat := by
  have hbits := toNat_extractLsb' w 20 6
  have himm := ofWord_imm12 w
  omega
theorem ofWord_imm12_high (w : Insn) : (Fields.ofWord w).imm12 / 64 = (w.extractLsb' 26 6).toNat := by
  have := w.isLt
  rw [toNat_extractLsb', ofWord_imm12]; omega
/-- The bits above a shift amount: the kind in imm[7:6] and imm[11:8] (R105). -/
theorem ofWord_shiftKind (w : Insn) :
    (Fields.ofWord w).imm12 / 64 = (w.extractLsb' 28 4).toNat * 4 + (w.extractLsb' 26 2).toNat := by
  rw [ofWord_imm12_high]; simp only [toNat_extractLsb']; omega

-- Words that are refused

/-- A word that is no instruction traps ILLEGAL with `tval` the word (R69, R71). -/
theorem runWord_illegal {w : Insn} {e : Illegal} (s : State) (h : decodeWord w = .error e) :
    runWord s w = .next (s.trapped .illegal (w.setWidth 64)) := by
  rw [runWord, h]; rfl

theorem legal_false {ok : Bool} (h : ok = false) (i : Instr) : legal ok i = .error .field := by rw [h]; rfl

section
variable {w : Insn}

theorem decodeWord_immi (h : w.extractLsb' 0 7 = 0x02) : decodeWord w = decodeImmi (Fields.ofWord w) := by
  simp only [decodeWord, decodeFields, ofWord_op, h, BitVec.reduceToNat]
theorem decodeWord_bitf (h : w.extractLsb' 0 7 = 0x05) : decodeWord w = decodeBitf (Fields.ofWord w) := by
  simp only [decodeWord, decodeFields, ofWord_op, h, BitVec.reduceToNat]
theorem decodeWord_br (h : w.extractLsb' 0 7 = 0x27) : decodeWord w = decodeBr (Fields.ofWord w) := by
  simp only [decodeWord, decodeFields, ofWord_op, h, BitVec.reduceToNat]

end

theorem decodeImmi_shiftKind_illegal {x : Fields} (hf : x.f3 = 6) (hk : 3 ≤ x.imm12 / 64) : decodeImmi x = .error .field := by
  obtain ⟨k, hk⟩ := Nat.exists_eq_add_of_le' hk
  simp only [decodeImmi, hf, hk]
theorem decodeBitf_illegal {x : Fields} (hf : x.f3 < 3)
    (h : bitfieldOk (BitVec.ofNat 6 (x.imm12 % 64)) (BitVec.ofNat 6 (x.imm12 / 64)) = false) : decodeBitf x = .error .field := by
  obtain hf | hf | hf : x.f3 = 0 ∨ x.f3 = 1 ∨ x.f3 = 2 := by omega
  · simp only [decodeBitf, hf, legal_false h]
  · simp only [decodeBitf, hf, legal_false h]
  · simp only [decodeBitf, hf, legal_false h]
theorem decodeBr_illegal {x : Fields} (h : x.d / 8 ≠ 0) : ∃ e, decodeBr x = .error e := by
  unfold decodeBr
  cases BrCond.ofCode (x.d % 8) with
  | none => exact ⟨.function, rfl⟩
  | some c => exact ⟨.field, legal_false (decide_eq_false h) _⟩

theorem runWord_shift_illegal (s : State) {w : Insn} (hop : w.extractLsb' 0 7 = 0x02) (hf : w.extractLsb' 17 3 = 6)
    (hk : w.extractLsb' 26 2 = 3 ∨ w.extractLsb' 28 4 ≠ 0) : runWord s w = .next (s.trapped .illegal (w.setWidth 64)) := by
  have hf3 : (Fields.ofWord w).f3 = 6 := (ofWord_f3 w).trans (congrArg BitVec.toNat hf)
  have hkind : 3 ≤ (Fields.ofWord w).imm12 / 64 := by
    rw [ofWord_shiftKind]
    rcases hk with hk | hk
    · rw [hk]; exact Nat.le_add_left 3 _
    · have : (w.extractLsb' 28 4).toNat ≠ 0 := fun e => hk (BitVec.eq_of_toNat_eq e)
      omega
  exact runWord_illegal s ((decodeWord_immi hop).trans (decodeImmi_shiftKind_illegal hf3 hkind))

theorem runWord_bitf_illegal (s : State) {w : Insn} (hop : w.extractLsb' 0 7 = 0x05) (hf : (w.extractLsb' 17 3).toNat < 3)
    (hlen : 64 < (w.extractLsb' 20 6).toNat + (w.extractLsb' 26 6).toNat + 1) :
    runWord s w = .next (s.trapped .illegal (w.setWidth 64)) := by
  have hfield : bitfieldOk (BitVec.ofNat 6 ((Fields.ofWord w).imm12 % 64)) (BitVec.ofNat 6 ((Fields.ofWord w).imm12 / 64)) = false := by
    rw [ofWord_imm12_low, ofWord_imm12_high, BitVec.ofNat_toNat, BitVec.ofNat_toNat, BitVec.setWidth_eq, BitVec.setWidth_eq]
    exact decide_eq_false (Nat.not_le.mpr hlen)
  have hf3 : (Fields.ofWord w).f3 < 3 := by rw [ofWord_f3]; exact hf
  exact runWord_illegal s ((decodeWord_bitf hop).trans (decodeBitf_illegal hf3 hfield))

theorem runWord_br_illegal (s : State) {w : Insn} (hop : w.extractLsb' 0 7 = 0x27) (hz : w.extractLsb' 10 2 ≠ 0) :
    runWord s w = .next (s.trapped .illegal (w.setWidth 64)) := by
  have hd : (Fields.ofWord w).d / 8 ≠ 0 := fun e => hz (BitVec.eq_of_toNat_eq ((ofWord_d_high w).symm.trans e))
  obtain ⟨e, he⟩ := decodeBr_illegal hd
  exact runWord_illegal s ((decodeWord_br hop).trans he)

end Sys2Proof.Machine
end

section
/-! SUPPORT. What the scalar operand forms answer where their operands are readable and their destination free, what the shared functions of
scalar words give, and the settling of `Obligations.ProductResults` and `Obligations.ImmediateResults` (R103 to R106). -/

namespace Sys2Proof.Machine

-- The operand forms

section
variable {s : State} {d a b : Reg} {x y v : Word}

theorem scalar1_holds {f : Word → Word} (ha : s.thr.holds a x) (hd : s.thr.free d) (hv : f x = v) :
    scalar1 s d a f = .next (s.wrote d v) := by
  rw [scalar1, exS_holds ha, retireS_free hd, hv]
theorem scalarLater_holds {f : Word → Word → Word} {n : Nat} (ha : s.thr.holds a x) (hb : s.thr.holds b y) (hd : s.thr.free d)
    (hv : f x y = v) : scalarLater s d a b n f = .next (s.awaits d v n) := by
  rw [scalarLater, exS2_holds ha hb, retireLater_free hd, hv]
/-- An empty source parks the instruction (R98). -/
theorem exS_empty (ha : a ≠ 0) (hp : (s.thr.getS a).pend = false) (hf : (s.thr.getS a).full = false) (k : Word → Out) :
    exS s a k = .next (s.parked (.regEmpty (.s a))) := by
  simp only [exS, if_neg ha, hp, hf, Bool.false_eq_true, if_false, Bool.not_false, if_true, park, State.parked]

end

-- Words by their numbers

theorem word_eq_ofNat {v : Word} {n : Nat} (h : v.toNat = n) : v = BitVec.ofNat 64 n := by
  rw [← h, BitVec.ofNat_toNat, BitVec.setWidth_eq]
theorem word_eq_ofInt {v : Word} {z : Int} (h : v.toInt = z) : v = BitVec.ofInt 64 z := by
  rw [← h, BitVec.ofInt_toInt]

theorem boolWord_slt (x y : Word) : boolWord (x.slt y) = if x.toInt < y.toInt then 1 else 0 := by
  simp only [boolWord, BitVec.slt_iff_toInt_lt]
theorem boolWord_ult (x y : Word) : boolWord (x.ult y) = if x.toNat < y.toNat then 1 else 0 := by
  simp only [boolWord, BitVec.ult_iff_toNat_lt]

theorem shiftLeft_eq_ofNat (x : Word) (n : Nat) : x <<< n = BitVec.ofNat 64 (x.toNat * 2 ^ n) :=
  BitVec.eq_of_toNat_eq (by rw [BitVec.toNat_shiftLeft, BitVec.toNat_ofNat, Nat.shiftLeft_eq])
theorem ushiftRight_eq_ofNat (x : Word) (n : Nat) : x >>> n = BitVec.ofNat 64 (x.toNat / 2 ^ n) :=
  word_eq_ofNat (by rw [BitVec.toNat_ushiftRight, Nat.shiftRight_eq_div_pow])
theorem sshiftRight_eq_ofInt (x : Word) (n : Nat) : x.sshiftRight n = BitVec.ofInt 64 (x.toInt / 2 ^ n) := by
  have hpow : ((2 ^ n : Nat) : Int) = 2 ^ n := Int.natCast_pow 2 n
  have hdiv : x.toInt / ((2 ^ n : Nat) : Int) = x.toInt / 2 ^ n := congrArg (x.toInt / ·) hpow
  exact word_eq_ofInt (BitVec.toInt_sshiftRight.trans ((Int.shiftRight_eq_div_pow x.toInt n).trans hdiv))

theorem toInt_signExt {n : Nat} (h : n ≤ 64) (i : BitVec n) : (signExt n i).toInt = i.toInt := BitVec.toInt_signExtend_of_le h
/-- An upper immediate is imm20 times 4,096 (R106). -/
theorem upper_eq_ofInt (u : BitVec 20) : upper u = BitVec.ofInt 64 (u.toInt * 4096) := by
  apply word_eq_ofInt
  rw [upper, BitVec.toInt_signExtend_of_le (by decide), BitVec.toInt_append]
  change 4096 * u.toInt + 0 = u.toInt * 4096
  rw [Int.add_zero, Int.mul_comm]

-- Products, quotients and remainders (R103, R104)

theorem mul_eq_ofNat (x y : Word) : x * y = BitVec.ofNat 64 (x.toNat * y.toNat) :=
  BitVec.eq_of_toNat_eq (by rw [BitVec.toNat_mul, BitVec.toNat_ofNat])
theorem divWord_eq (x y : Word) : divWord x y = if y = 0 then BitVec.allOnes 64 else BitVec.ofInt 64 (x.toInt.tdiv y.toInt) := by
  have h : x.sdiv y = BitVec.ofInt 64 (x.toInt.tdiv y.toInt) :=
    BitVec.eq_of_toInt_eq (by rw [BitVec.toInt_sdiv, BitVec.toInt_ofInt])
  rw [divWord, h]
theorem divnWord_eq (x y : Word) : divnWord x y = if y = 0 then BitVec.allOnes 64 else BitVec.ofNat 64 (x.toNat / y.toNat) := by
  have h : x / y = BitVec.ofNat 64 (x.toNat / y.toNat) := word_eq_ofNat BitVec.toNat_udiv
  rw [divnWord, h]
theorem remWord_eq (x y : Word) :
    remWord x y = if y = 0 then x else BitVec.ofInt 64 (x.toInt - y.toInt * x.toInt.tdiv y.toInt) := by
  have h : x.srem y = BitVec.ofInt 64 (x.toInt - y.toInt * x.toInt.tdiv y.toInt) :=
    word_eq_ofInt (by rw [BitVec.toInt_srem, Int.tmod_def])
  rw [remWord, h]
theorem remnWord_eq (x y : Word) :
    remnWord x y = if y = 0 then x else BitVec.ofNat 64 (x.toNat - y.toNat * (x.toNat / y.toNat)) := by
  have h : x % y = BitVec.ofNat 64 (x.toNat - y.toNat * (x.toNat / y.toNat)) :=
    word_eq_ofNat (by rw [BitVec.toNat_umod, Nat.mod_eq_sub])
  rw [remnWord, h]

/-- Settles O3: each form retires with its function's result on its way, and R104's corners are those functions' first cases. -/
theorem productResults : Obligations.ProductResults := by
  unfold Obligations.ProductResults
  intro s d a b x y ha hb hd
  simp only [exec]
  exact ⟨scalarLater_holds ha hb hd (mul_eq_ofNat x y), scalarLater_holds ha hb hd rfl, scalarLater_holds ha hb hd rfl,
    scalarLater_holds ha hb hd (divWord_eq x y), scalarLater_holds ha hb hd (divnWord_eq x y),
    scalarLater_holds ha hb hd (remWord_eq x y), scalarLater_holds ha hb hd (remnWord_eq x y)⟩

-- Immediate forms (R105, R106)

section
variable {s : State} {d a : Reg} {x : Word}

theorem exec_slti_holds (ha : s.thr.holds a x) (hd : s.thr.free d) (i : BitVec 12) :
    exec (.slti d a i) s = .next (s.wrote d (if x.toInt < i.toInt then 1 else 0)) := by
  simp only [exec]
  exact scalar1_holds ha hd (by rw [boolWord_slt, toInt_signExt (by decide)])
theorem exec_lui_free (hd : s.thr.free d) (u : BitVec 20) :
    exec (.lui d u) s = .next (s.wrote d (BitVec.ofInt 64 (u.toInt * 4096))) := by
  calc exec (.lui d u) s = retireS s d (upper u) := rfl
    _ = .next (s.wrote d (BitVec.ofInt 64 (u.toInt * 4096))) := by rw [retireS_free hd, upper_eq_ofInt]
theorem exec_adpc_free (hd : s.thr.free d) (u : BitVec 20) :
    exec (.adpc d u) s = .next (s.wrote d (s.thr.pc + BitVec.ofInt 64 (u.toInt * 4096))) := by
  calc exec (.adpc d u) s = retireS s d (s.thr.pc + upper u) := rfl
    _ = .next (s.wrote d (s.thr.pc + BitVec.ofInt 64 (u.toInt * 4096))) := by rw [retireS_free hd, upper_eq_ofInt]

end

/-- Settles O4: every form retires with its result, its word is the sum of its format's fields, and a shift word with any bit above its two
kinds' places is refused (`runWord_shift_illegal`). -/
theorem immediateResults : Obligations.ImmediateResults := by
  unfold Obligations.ImmediateResults
  intro s d a x i h u ha hd
  refine ⟨?addi, ?andi, ?ori, ?xori, exec_slti_holds ha hd i, ?sltni, ?slli, ?srli, ?srai, exec_lui_free hd u, exec_adpc_free hd u, ?words⟩
  case addi => simp only [exec]; exact scalar1_holds ha hd rfl
  case andi => simp only [exec]; exact scalar1_holds ha hd rfl
  case ori => simp only [exec]; exact scalar1_holds ha hd rfl
  case xori => simp only [exec]; exact scalar1_holds ha hd rfl
  case sltni => simp only [exec]; exact scalar1_holds ha hd (boolWord_ult x _)
  case slli => simp only [exec]; exact scalar1_holds ha hd (shiftLeft_eq_ofNat x _)
  case srli => simp only [exec]; exact scalar1_holds ha hd (ushiftRight_eq_ofNat x _)
  case srai => simp only [exec]; exact scalar1_holds ha hd (sshiftRight_eq_ofInt x _)
  case words =>
    refine ⟨encode_formatI rfl, encode_formatI rfl, encode_formatI rfl, encode_formatI rfl, encode_formatI rfl, encode_formatI rfl,
      encode_formatI rfl, ?srli, ?srai, encode_formatU rfl, encode_formatU rfl, fun w => runWord_shift_illegal s⟩
    case srli => rw [Nat.add_comm h.toNat]; exact encode_formatI rfl
    case srai => rw [Nat.add_comm h.toNat]; exact encode_formatI rfl

end Sys2Proof.Machine
end

section
/-! SUPPORT. The bits of the bit-field functions (R107), and the settling of `Obligations.BitFieldResults`. -/

namespace Sys2Proof.Machine

section
variable {x old : Word} {p l : BitVec 6} {i : Nat}

theorem testBit_bitField (x : Word) (p l : BitVec 6) (i : Nat) :
    (bitField x p l).testBit i = (decide (i ≤ l.toNat) && x.getLsbD (p.toNat + i)) := by
  rw [bitField, Nat.testBit_mod_two_pow, Nat.testBit_div_two_pow, BitVec.testBit_toNat, Nat.add_comm i, decide_eq_decide.mpr Nat.lt_succ_iff]

/-- A field of l + 1 bits, extended by its top bit: bit i is the field's, or its top one from there on. -/
theorem getLsbD_extendField {f l i : Nat} (hf : f < 2 ^ (l + 1)) (hl : l < 64) (hi : i < 64) :
    (if f.testBit l then BitVec.ofNat 64 (2 ^ 64 - 2 ^ (l + 1) + f) else BitVec.ofNat 64 f).getLsbD i = f.testBit (min i l) := by
  by_cases hs : f.testBit l = true
  · have hpow : 2 ^ 64 = 2 ^ (l + 1) * 2 ^ (63 - l) :=
      (congrArg (2 ^ ·) (show 64 = l + 1 + (63 - l) by omega)).trans (Nat.pow_add 2 (l + 1) (63 - l))
    have hones : 2 ^ 64 - 2 ^ (l + 1) = 2 ^ (l + 1) * (2 ^ (63 - l) - 1) := by rw [Nat.mul_sub, ← hpow, Nat.mul_one]
    rw [if_pos hs, BitVec.getLsbD_ofNat, decide_eq_true hi, Bool.true_and, hones, Nat.testBit_two_pow_mul_add _ hf,
      Nat.testBit_two_pow_sub_one]
    by_cases hil : i ≤ l
    · rw [if_pos (Nat.lt_succ_of_le hil), Nat.min_eq_left hil]
    · have hgap : i - (l + 1) < 63 - l := by omega
      rw [if_neg (mt Nat.le_of_lt_succ hil), decide_eq_true hgap, Nat.min_eq_right (Nat.le_of_not_le hil), hs]
  · rw [if_neg hs, BitVec.getLsbD_ofNat, decide_eq_true hi, Bool.true_and]
    by_cases hil : i ≤ l
    · rw [Nat.min_eq_left hil]
    · have hhigh : f.testBit i = false :=
        Nat.testBit_lt_two_pow (Nat.lt_of_lt_of_le hf (Nat.pow_le_pow_right (by decide) (Nat.lt_of_not_le hil)))
      rw [hhigh, Nat.min_eq_right (Nat.le_of_not_le hil), Bool.eq_false_iff.mpr hs]

/-- The mask of `ins` has the bits of its field. -/
theorem getLsbD_insMask (p l : BitVec 6) (hi : i < 64) :
    (BitVec.ofNat 64 ((2 ^ (l.toNat + 1) - 1) * 2 ^ p.toNat)).getLsbD i = decide (p.toNat ≤ i ∧ i ≤ p.toNat + l.toNat) := by
  rw [BitVec.getLsbD_ofNat, Nat.testBit_mul_two_pow, Nat.testBit_two_pow_sub_one]
  simp only [hi, decide_true, Bool.true_and, ← Bool.decide_and, decide_eq_decide]
  omega

theorem getLsbD_insert {mask : Word} (hm : mask.getLsbD i = decide (p.toNat ≤ i ∧ i ≤ p.toNat + l.toNat)) (hi : i < 64) :
    ((old &&& ~~~mask) ||| ((x <<< p.toNat) &&& mask)).getLsbD i =
      if p.toNat ≤ i ∧ i ≤ p.toNat + l.toNat then x.getLsbD (i - p.toNat) else old.getLsbD i := by
  rw [BitVec.getLsbD_or, BitVec.getLsbD_and, BitVec.getLsbD_and, BitVec.getLsbD_not, BitVec.getLsbD_shiftLeft, hm]
  split
  next h =>
    have hp : ¬ i < p.toNat := Nat.not_lt.mpr h.1
    simp only [decide_eq_true h, decide_eq_true hi, decide_eq_false hp, Bool.not_true, Bool.not_false, Bool.and_false, Bool.false_or,
      Bool.true_and, Bool.and_true]
  next h => simp only [decide_eq_false h, decide_eq_true hi, Bool.not_false, Bool.and_true, Bool.and_false, Bool.or_false]

end

section
variable {s : State} {d a : Reg} {x old : Word}

theorem exec_ext_holds (ha : s.thr.holds a x) (hd : s.thr.free d) (p l : BitVec 6) :
    ∃ v : Word, (∀ i, i < 64 → v.getLsbD i = x.getLsbD (p.toNat + min i l.toNat)) ∧ exec (.ext d a p l) s = .next (s.wrote d v) := by
  simp only [exec]
  refine ⟨_, fun i hi => ?_, scalar1_holds ha hd rfl⟩
  have hl : l.toNat < 64 := l.isLt
  have hf : bitField x p l < 2 ^ (l.toNat + 1) := Nat.mod_lt _ (Nat.two_pow_pos _)
  exact (getLsbD_extendField hf hl hi).trans (by rw [testBit_bitField, decide_eq_true (Nat.min_le_right _ _), Bool.true_and])
theorem exec_extn_holds (ha : s.thr.holds a x) (hd : s.thr.free d) (p l : BitVec 6) :
    ∃ v : Word, (∀ i, i < 64 → v.getLsbD i = (decide (i ≤ l.toNat) && x.getLsbD (p.toNat + i))) ∧
      exec (.extn d a p l) s = .next (s.wrote d v) := by
  simp only [exec]
  refine ⟨_, fun i hi => ?_, scalar1_holds ha hd rfl⟩
  rw [BitVec.getLsbD_ofNat, testBit_bitField, decide_eq_true hi, Bool.true_and]
theorem exec_ins_holds (ha : s.thr.holds a x) (hold : s.thr.holds d old) (hd : s.thr.free d) (p l : BitVec 6) :
    ∃ v : Word, (∀ i, i < 64 → v.getLsbD i =
        if p.toNat ≤ i ∧ i ≤ p.toNat + l.toNat then x.getLsbD (i - p.toNat) else old.getLsbD i) ∧
      exec (.ins d a p l) s = .next (s.wrote d v) := by
  simp only [exec]
  exact ⟨_, fun _ hi => getLsbD_insert (getLsbD_insMask p l hi) hi, (exS2_holds ha hold _).trans (retireS_free hd _)⟩
/-- `ins` reads d after a (R98), so an empty d parks it (R107). -/
theorem exec_ins_empty (ha : s.thr.holds a x) (hd : s.thr.free d) (hz : d ≠ 0) (he : (s.thr.getS d).full = false) (p l : BitVec 6) :
    exec (.ins d a p l) s = .next (s.parked (.regEmpty (.s d))) := by
  simp only [exec, execIns, exS2, exS_holds ha]
  exact exS_empty hz (hd.resolve_left hz) he _

end

/-- Settles O5: the bits of each form's result, and the words whose field leaves the register (`runWord_bitf_illegal`). -/
theorem bitFieldResults : Obligations.BitFieldResults := by
  unfold Obligations.BitFieldResults
  intro s d a x old p l _ ha hd
  exact ⟨exec_ext_holds ha hd p l, exec_extn_holds ha hd p l, fun hold => exec_ins_holds ha hold hd p l,
    fun hz he => exec_ins_empty ha hd hz he p l, encode_bitField rfl, encode_bitField rfl, encode_bitField rfl,
    fun w => runWord_bitf_illegal s⟩

end Sys2Proof.Machine
end

section
/-! SUPPORT. The conditions of the compares with skip (R109), integer and floating, and the settling of `Obligations.SkipResults`. -/

namespace Sys2Proof.Machine

/-- A compare with skip retires, and annuls where its condition holds (R110). -/
theorem retireSkip_iff {holds : Bool} {P : Prop} {dec : Decidable P} (h : holds = true ↔ P) (s : State) (n : BitVec 2) :
    retireSkip s holds n = .next (s.skipped P n) := by
  by_cases hp : P
  · simp only [retireSkip, State.skipped, if_pos (h.mpr hp), if_pos hp, retire, retireTo, thr_modThr, State.modThr_curTile,
      State.modThr_curSlot]
  · simp only [retireSkip, State.skipped, if_neg (mt h.mp hp), if_neg hp, retire, retireTo]

-- The integer conditions

section
variable (x y : Word)

theorem skHolds_eq : skHolds .eq x y = true ↔ x = y := beq_iff_eq
theorem skHolds_ne : skHolds .ne x y = true ↔ x ≠ y := bne_iff_ne
theorem skHolds_lt : skHolds .lt x y = true ↔ x.toInt < y.toInt := BitVec.slt_iff_toInt_lt
theorem skHolds_ge : skHolds .ge x y = true ↔ y.toInt ≤ x.toInt := by
  rw [skHolds, Bool.not_eq_true', Bool.eq_false_iff, Ne, BitVec.slt_iff_toInt_lt, Int.not_lt]
theorem skHolds_ltn : skHolds .ltn x y = true ↔ x.toNat < y.toNat := BitVec.ult_iff_toNat_lt
theorem skHolds_gen : skHolds .gen x y = true ↔ y.toNat ≤ x.toNat := by
  rw [skHolds, Bool.not_eq_true', Bool.eq_false_iff, Ne, BitVec.ult_iff_toNat_lt, Nat.not_lt]
theorem skHolds_tst : skHolds .tst x y = true ↔ x &&& y ≠ 0 := bne_iff_ne
theorem skHolds_ntst : skHolds .ntst x y = true ↔ x &&& y = 0 := beq_iff_eq

end

-- The floating conditions: a NaN is unordered, other values are ordered by their keys

section
variable (f : Fmt) (x y : Nat)

theorem Fmt.unordered_iff : f.unordered x y = true ↔ f.isNan x = true ∨ f.isNan y = true := Bool.or_eq_true_iff
theorem Fmt.ordered_iff : (!f.isNan x && !f.isNan y) = true ↔ ¬(f.isNan x = true ∨ f.isNan y = true) := by
  rw [← Bool.not_or, Bool.not_eq_true', Bool.eq_false_iff, Ne, Bool.or_eq_true_iff]
theorem Fmt.eqB_iff : f.eqB x y = true ↔ ¬(f.isNan x = true ∨ f.isNan y = true) ∧ f.key x = f.key y := by
  rw [Fmt.eqB, Bool.and_eq_true_iff, Fmt.ordered_iff, decide_eq_true_iff]
theorem Fmt.ltB_iff : f.ltB x y = true ↔ ¬(f.isNan x = true ∨ f.isNan y = true) ∧ f.key x < f.key y := by
  rw [Fmt.ltB, Bool.and_eq_true_iff, Fmt.ordered_iff, decide_eq_true_iff]
theorem Fmt.leB_iff : f.leB x y = true ↔ ¬(f.isNan x = true ∨ f.isNan y = true) ∧ f.key x ≤ f.key y := by
  rw [Fmt.leB, Bool.and_eq_true_iff, Fmt.ordered_iff, decide_eq_true_iff]

theorem fskHolds_fne : fskHolds .fne f x y = true ↔ (f.isNan x = true ∨ f.isNan y = true) ∨ f.key x ≠ f.key y := by
  rw [fskHolds, Bool.not_eq_true', Bool.eq_false_iff, Ne, Fmt.eqB_iff, Classical.not_and_iff_not_or_not, Classical.not_not]
theorem fskHolds_fge : fskHolds .fge f x y = true ↔ ¬(f.isNan x = true ∨ f.isNan y = true) ∧ f.key y ≤ f.key x := by
  rw [fskHolds, Fmt.leB_iff, or_comm]
theorem fskHolds_fgt : fskHolds .fgt f x y = true ↔ ¬(f.isNan x = true ∨ f.isNan y = true) ∧ f.key y < f.key x := by
  rw [fskHolds, Fmt.ltB_iff, or_comm]
theorem fskHolds_ford : fskHolds .ford f x y = true ↔ ¬(f.isNan x = true ∨ f.isNan y = true) := by
  rw [fskHolds, Bool.not_eq_true', Bool.eq_false_iff, Ne, Fmt.unordered_iff]

end

-- The instructions

section
variable {s : State} {a b : Reg} {x y : Word} {P : Prop} {dec : Decidable P}

theorem exec_sk_holds {c : SkCond} (ha : s.thr.holds a x) (hb : s.thr.holds b y) (n : BitVec 2) (h : skHolds c x y = true ↔ P) :
    exec (.sk c n a b) s = .next (s.skipped P n) := by
  simp only [exec]
  exact (exS2_holds ha hb _).trans (retireSkip_iff h s n)
theorem exec_ski_holds {c : SkCond} {i : BitVec 15} (ha : s.thr.holds a x) (n : BitVec 2)
    (h : skHolds c x (i.signExtend 64) = true ↔ P) : exec (.ski c n a i) s = .next (s.skipped P n) := by
  simp only [exec]
  exact (exS_holds ha _).trans (retireSkip_iff h s n)

/-- The floating compare with skip of a precision. -/
def fskOf (p : Prec) (c : FskCond) (n : BitVec 2) (a b : Reg) : Instr :=
  match p with
  | .single => .fsk c n a b
  | .double => .fskd c n a b

theorem precBits_double (x : Word) : precBits .double x = x.toNat := Nat.mod_eq_of_lt x.isLt

theorem exec_fskOf_holds {p : Prec} {c : FskCond} (ha : s.thr.holds a x) (hb : s.thr.holds b y) (n : BitVec 2)
    (h : fskHolds c (precFmt p) (precBits p x) (precBits p y) = true ↔ P) : exec (fskOf p c n a b) s = .next (s.skipped P n) := by
  cases p with
  | single =>
    simp only [fskOf, exec]
    exact (exS2_holds ha hb _).trans (retireSkip_iff h s n)
  | double =>
    rw [precBits_double, precBits_double] at h
    simp only [fskOf, exec]
    exact (exS2_holds ha hb _).trans (retireSkip_iff h s n)

end

/-- Settles O6: each condition is decided as R109 has it; the floating ones by `Fmt.unordered_iff` and by the order of keys. -/
theorem skipResults : Obligations.SkipResults := by
  unfold Obligations.SkipResults
  intro s p a b x y n i ha hb
  have hi : (i.signExtend 64).toInt = i.toInt := BitVec.toInt_signExtend_of_le (by decide)
  refine ⟨exec_sk_holds ha hb n (skHolds_eq x y), exec_sk_holds ha hb n (skHolds_ne x y), exec_sk_holds ha hb n (skHolds_lt x y),
    exec_sk_holds ha hb n (skHolds_ge x y), exec_sk_holds ha hb n (skHolds_ltn x y), exec_sk_holds ha hb n (skHolds_gen x y),
    exec_sk_holds ha hb n (skHolds_tst x y), exec_sk_holds ha hb n (skHolds_ntst x y),
    exec_ski_holds ha n (skHolds_eq x _), exec_ski_holds ha n (skHolds_ne x _), exec_ski_holds ha n (hi ▸ skHolds_lt x _),
    exec_ski_holds ha n (hi ▸ skHolds_ge x _), exec_ski_holds ha n (skHolds_ltn x _), exec_ski_holds ha n (skHolds_gen x _),
    exec_ski_holds ha n (skHolds_tst x _), exec_ski_holds ha n (skHolds_ntst x _), ?floating⟩
  case floating =>
    intro sk f nan u v
    exact ⟨exec_fskOf_holds ha hb n (f.eqB_iff _ _), exec_fskOf_holds ha hb n (fskHolds_fne f _ _),
      exec_fskOf_holds ha hb n (f.ltB_iff _ _), exec_fskOf_holds ha hb n (fskHolds_fge f _ _),
      exec_fskOf_holds ha hb n (f.leB_iff _ _), exec_fskOf_holds ha hb n (fskHolds_fgt f _ _),
      exec_fskOf_holds ha hb n (f.unordered_iff _ _), exec_fskOf_holds ha hb n (fskHolds_ford f _ _)⟩

end Sys2Proof.Machine
end

section
/-! SUPPORT. The conditions and targets of branches and jumps (R112 to R114), and the settling of `Obligations.JumpResults`. -/

namespace Sys2Proof.Machine

-- Conditions and targets

/-- The compare with skip that has a branch's condition (R109, R112). -/
def skOfBr : BrCond → SkCond
  | .eq => .eq | .ne => .ne | .lt => .lt | .ge => .ge | .ltn => .ltn | .gen => .gen

theorem brHolds_eq_skHolds (c : BrCond) (x y : Word) : brHolds c x y = skHolds (skOfBr c) x y := by
  cases c with
  | eq | ne | lt | ge | ltn | gen => rfl

/-- An offset counts words (R112, R113). -/
theorem four_mul_signExt {n : Nat} (i : BitVec n) : 4 * signExt n i = BitVec.ofInt 64 (4 * i.toInt) := (BitVec.ofInt_mul 4 i.toInt).symm

theorem and_three_eq_zero_iff (x : Word) : x &&& 3 = 0 ↔ x.toNat % 4 = 0 := by
  have h : (x &&& 3).toNat = x.toNat % 4 := (BitVec.toNat_and x 3).trans (Nat.and_two_pow_sub_one_eq_mod x.toNat 2)
  exact ⟨fun e => h.symm.trans (congrArg BitVec.toNat e), fun e => BitVec.eq_of_toNat_eq (h.trans e)⟩

-- The instructions

theorem retireTo_jumped (s : State) (target : Word) : retireTo s target [] = .next (s.jumped target) := rfl

section
variable {s : State} {d a b e : Reg} {x y : Word}

theorem exec_br_holds {c : BrCond} {P : Prop} {dec : Decidable P} (ha : s.thr.holds a x) (hb : s.thr.holds b y) (i : BitVec 10)
    (h : skHolds (skOfBr c) x y = true ↔ P) :
    exec (.br c a b i) s = .next (s.jumped (if P then s.thr.pc + BitVec.ofInt 64 (4 * i.toInt) else s.thr.pc + 4)) := by
  simp only [exec, execBr, exS2_holds ha hb, brHolds_eq_skHolds, retireTo_jumped, h, four_mul_signExt]

theorem exec_br_empty_first (hz : e ≠ 0) (hp : (s.thr.getS e).pend = false) (hf : (s.thr.getS e).full = false) (c : BrCond) (b : Reg)
    (i : BitVec 10) : exec (.br c e b i) s = .next (s.parked (.regEmpty (.s e))) := by
  simp only [exec, execBr, exS2]
  exact exS_empty hz hp hf _
theorem exec_br_empty_second (ha : s.thr.holds a x) (hz : e ≠ 0) (hp : (s.thr.getS e).pend = false) (hf : (s.thr.getS e).full = false)
    (c : BrCond) (i : BitVec 10) : exec (.br c a e i) s = .next (s.parked (.regEmpty (.s e))) := by
  simp only [exec, execBr, exS2, exS_holds ha]
  exact exS_empty hz hp hf _

/-- A jump with a free destination writes its link and goes to its target (R113, R114). -/
theorem link_free (hd : s.thr.free d) (target : Word) :
    dstS s d (retireTo (s.putS d (s.thr.pc + 4)) target [s.thr.pc + 4]) = .next (s.linked d target) := by
  rw [dstS_free hd, retireTo, State.putS_curTile, State.putS_curSlot, State.linked]

theorem exec_jl_free (hd : s.thr.free d) (u : BitVec 20) :
    exec (.jl d u) s = .next (s.linked d (s.thr.pc + BitVec.ofInt 64 (4 * u.toInt))) := by
  simp only [exec]
  rw [← four_mul_signExt]
  exact link_free hd _

/-- `jlr` examines its target before its destination (R114). -/
theorem exec_jlr_holds (ha : s.thr.holds a x) (o : BitVec 12) :
    exec (.jlr d a o) s = if (x + signExt 12 o) &&& 3 ≠ 0 then trap s .misalign (x + signExt 12 o)
      else dstS s d (retireTo (s.putS d (s.thr.pc + 4)) (x + signExt 12 o) [s.thr.pc + 4]) := by
  simp only [exec]
  exact exS_holds ha _
theorem exec_jlr_aligned (ha : s.thr.holds a x) (hd : s.thr.free d) {o : BitVec 12} (ht : (x + signExt 12 o).toNat % 4 = 0) :
    exec (.jlr d a o) s = .next (s.linked d (x + signExt 12 o)) := by
  rw [exec_jlr_holds ha, if_neg (not_not_intro ((and_three_eq_zero_iff _).mpr ht)), link_free hd]
theorem exec_jlr_misaligned (ha : s.thr.holds a x) {o : BitVec 12} (ht : (x + signExt 12 o).toNat % 4 ≠ 0) :
    exec (.jlr d a o) s = .next (s.trapped .misalign (x + signExt 12 o)) := by
  rw [exec_jlr_holds ha, if_pos (mt (and_three_eq_zero_iff _).mp ht)]; rfl

end

/-- Settles O7: the target of each form, its word, and the refused words and parked branches. -/
theorem jumpResults : Obligations.JumpResults := by
  unfold Obligations.JumpResults
  intro s d a b x y i u o ha hb hd
  exact ⟨exec_br_holds ha hb i (skHolds_eq x y), exec_br_holds ha hb i (skHolds_ne x y), exec_br_holds ha hb i (skHolds_lt x y),
    exec_br_holds ha hb i (skHolds_ge x y), exec_br_holds ha hb i (skHolds_ltn x y), exec_br_holds ha hb i (skHolds_gen x y),
    exec_jl_free hd u, exec_jlr_aligned ha hd, exec_jlr_misaligned ha, fun c => encode_formatB rfl, encode_formatU rfl,
    fun w => runWord_br_illegal s,
    fun c e hz hp hf => ⟨exec_br_empty_first hz hp hf c b i, exec_br_empty_second ha hz hp hf c i⟩⟩

end Sys2Proof.Machine
end
